-- ==== Sys2Proof/Word.lean ====
section
/-! DEFINITION. The word types of the engine (00_scope.md R13) and small fixed-size tuples. -/

namespace Sys2Proof

/-- An engine register or command word: 32 bits (R13). -/
abbrev Word := BitVec 32

/-- A byte of frame memory (R71). -/
abbrev Byte := BitVec 8

/-- A 16-bit table entry: an int16, a uint16 or a binary16 pattern (R40 to R46). -/
abbrev Half := BitVec 16

/-- A binary64 pattern, the pair of words (HI, LO) (R13, R100). -/
abbrev DWord := BitVec 64

/-- Three components: (R, G, B) or (Y, U, V) (R18). -/
structure V3 (α : Type) where
  c0 : α
  c1 : α
  c2 : α
deriving DecidableEq, Repr, Inhabited

/-- A 3×3 matrix `M[row][col]`, a triple of rows (R18). -/
abbrev M3 (α : Type) := V3 (V3 α)

/-- Four like things, one for each plane index p = 0..3 (R32). -/
structure Quad (α : Type) where
  q0 : α
  q1 : α
  q2 : α
  q3 : α
deriving DecidableEq, Repr, Inhabited

namespace V3

/-- Component `i`, with every index from 2 on read as 2. -/
def get (v : V3 α) : Nat → α
  | 0 => v.c0
  | 1 => v.c1
  | _ => v.c2

def map (f : α → β) (v : V3 α) : V3 β := ⟨f v.c0, f v.c1, f v.c2⟩

def toList (v : V3 α) : List α := [v.c0, v.c1, v.c2]

/-- The triple with component `i` given by `f i`. -/
def ofFn (f : Nat → α) : V3 α := ⟨f 0, f 1, f 2⟩

/-- All three components, or `none` if one of them is `none`. -/
def mapOpt (f : α → Option β) (v : V3 α) : Option (V3 β) :=
  match f v.c0, f v.c1, f v.c2 with
  | some a, some b, some c => some ⟨a, b, c⟩
  | _, _, _ => none

def all (p : α → Bool) (v : V3 α) : Bool := p v.c0 && p v.c1 && p v.c2

end V3

namespace Quad

def get (q : Quad α) : Fin 4 → α
  | 0 => q.q0
  | 1 => q.q1
  | 2 => q.q2
  | 3 => q.q3

def set (q : Quad α) (i : Fin 4) (v : α) : Quad α :=
  match i with
  | 0 => { q with q0 := v }
  | 1 => { q with q1 := v }
  | 2 => { q with q2 := v }
  | 3 => { q with q3 := v }

end Quad

end Sys2Proof
end

