-- ==== Sys2Proof/Machine/Float.lean ====
section
/-! DEFINITION. IEEE-754 arithmetic of 00_scope.md R16 and R17, on values: a NaN has no sign and no
payload until it is encoded, and then they come from a free value (93_implementation_defined.md I-9). -/

namespace Sys2Proof.Machine

/-- A floating-point value. `fin neg man exp` is (−1)^neg · man · 2^exp; `man = 0` is a signed zero. -/
inductive Fl where
  | nan
  | inf (neg : Bool)
  | fin (neg : Bool) (man : Nat) (exp : Int)
deriving DecidableEq, Repr, Inhabited

/-- A binary interchange format: significand bits (the hidden one included) and exponent bits. -/
structure Fmt where
  prec : Nat
  ebits : Nat
deriving DecidableEq, Repr, Inhabited

/-- Rounding of an inexact result. Every operation of R16 uses `nearestEven`; F2H_MODE of R17 chooses. -/
inductive Rounding where
  /-- to nearest, ties to even (RNE) -/
  | nearestEven
  /-- truncate the significand toward zero (RTZ) -/
  | towardZero
deriving DecidableEq, Repr, Inhabited

def b16 : Fmt := ⟨11, 5⟩
def b32 : Fmt := ⟨24, 8⟩
def b64 : Fmt := ⟨53, 11⟩

def Fmt.bias (f : Fmt) : Nat := 2 ^ (f.ebits - 1) - 1

/-- Exponent of the last significand bit of a subnormal, the least in the format. -/
def Fmt.minExp (f : Fmt) : Int := 2 - (f.bias : Int) - f.prec

/-- Exponent of the last significand bit in the greatest finite binade. -/
def Fmt.maxExp (f : Fmt) : Int := (f.bias : Int) + 1 - f.prec

/-- `m / 2^k`, rounded as the mode says. -/
def shiftRound (r : Rounding) (m k : Nat) : Nat :=
  let q := m / 2 ^ k
  let rem := m % 2 ^ k
  match r with
  | .towardZero => q
  | .nearestEven => if 2 ^ k < 2 * rem || (2 * rem == 2 ^ k && q % 2 == 1) then q + 1 else q

/-- The exponent at which `m · 2^e` is rounded in format `f`: the significand keeps `prec` bits unless that would fall below
the subnormal exponent. -/
def Fmt.roundExp (f : Fmt) (m : Nat) (e : Int) : Int :=
  max (e + (m.log2 : Int) - ((f.prec : Int) - 1)) f.minExp

/-- (−1)^neg · m · 2^e rounded to format `f`. Subnormals are kept and overflow gives an infinity (R16; R17 for both modes). -/
def roundFin (f : Fmt) (r : Rounding) (neg : Bool) (m : Nat) (e : Int) : Fl :=
  if m = 0 then .fin neg 0 f.minExp else
  let q := f.roundExp m e
  let n := if q ≤ e then m * 2 ^ (e - q).toNat else shiftRound r m (q - e).toNat
  if n = 2 ^ f.prec then
    if f.maxExp < q + 1 then .inf neg else .fin neg (2 ^ (f.prec - 1)) (q + 1)
  else
    if f.maxExp < q then .inf neg else .fin neg n q

namespace Fl

/-- The value rounded to format `f`; a NaN stays a NaN and an infinity an infinity (R16 `fl64`, `fl32`; R17 `f2h`). -/
def round (f : Fmt) (r : Rounding) : Fl → Fl
  | .nan => .nan
  | .inf s => .inf s
  | .fin s m e => roundFin f r s m e

/-- The exact value of an integer. -/
def ofInt (i : Int) : Fl := .fin (decide (i < 0)) i.natAbs 0

def zero : Fl := .fin false 0 0
def one : Fl := ofInt 1

def isNaN : Fl → Bool
  | .nan => true
  | _ => false

def isFinite : Fl → Bool
  | .fin _ _ _ => true
  | _ => false

/-- Exact sign flip (R122, R140). -/
def neg : Fl → Fl
  | .nan => .nan
  | .inf s => .inf (!s)
  | .fin s m e => .fin (!s) m e

/-- The integer `(−1)^s · m · 2^(e − e0)`, for `e0 ≤ e`. -/
def scaled (s : Bool) (m : Nat) (e e0 : Int) : Int :=
  let a : Int := (m * 2 ^ (e - e0).toNat : Nat)
  if s then -a else a

/-- Exact sum of two finite values. An exact zero sum is −0 only when both operands are negative (IEEE-754, round to nearest). -/
def addFin (s1 : Bool) (m1 : Nat) (e1 : Int) (s2 : Bool) (m2 : Nat) (e2 : Int) : Fl :=
  let e0 := min e1 e2
  let t := scaled s1 m1 e1 e0 + scaled s2 m2 e2 e0
  if t = 0 then .fin (s1 && s2) 0 e0 else .fin (decide (t < 0)) t.natAbs e0

/-- `a + b`, rounded once to nearest even (R16). -/
def add (f : Fmt) (a b : Fl) : Fl :=
  match a, b with
  | .nan, _ => .nan
  | _, .nan => .nan
  | .inf s, .inf t => if s = t then .inf s else .nan
  | .inf s, _ => .inf s
  | _, .inf t => .inf t
  | .fin s1 m1 e1, .fin s2 m2 e2 => (addFin s1 m1 e1 s2 m2 e2).round f .nearestEven

/-- `a − b`, rounded once. -/
def sub (f : Fmt) (a b : Fl) : Fl := add f a b.neg

/-- `a · b`, rounded once. -/
def mul (f : Fmt) (a b : Fl) : Fl :=
  match a, b with
  | .nan, _ => .nan
  | _, .nan => .nan
  | .inf s, .inf t => .inf (s != t)
  | .inf s, .fin t m _ => if m = 0 then .nan else .inf (s != t)
  | .fin s m _, .inf t => if m = 0 then .nan else .inf (s != t)
  | .fin s1 m1 e1, .fin s2 m2 e2 => roundFin f .nearestEven (s1 != s2) (m1 * m2) (e1 + e2)

/-- Extra quotient bits of `divFin`, enough for every operand of `b64`: the quotient keeps more than 64 bits below the
dividend's last one, and a last bit says whether anything was left over. -/
def divGuard : Nat := 128

/-- Quotient of two finite values, the divisor not zero: rounded from `2 · ⌊m1 · 2^128 / m2⌋` and a sticky bit. -/
def divFin (f : Fmt) (s : Bool) (m1 : Nat) (e1 : Int) (m2 : Nat) (e2 : Int) : Fl :=
  let n := m1 * 2 ^ divGuard
  let sticky := if n % m2 = 0 then 0 else 1
  roundFin f .nearestEven s (2 * (n / m2) + sticky) (e1 - e2 - divGuard - 1)

/-- `a / b`, rounded once; `0/0` and `∞/∞` are NaN and a nonzero value over zero is an infinity (IEEE-754). -/
def div (f : Fmt) (a b : Fl) : Fl :=
  match a, b with
  | .nan, _ => .nan
  | _, .nan => .nan
  | .inf _, .inf _ => .nan
  | .inf s, .fin t _ _ => .inf (s != t)
  | .fin s _ _, .inf t => .fin (s != t) 0 f.minExp
  | .fin s1 m1 e1, .fin s2 m2 e2 =>
    if m2 = 0 then (if m1 = 0 then .nan else .inf (s1 != s2))
    else divFin f (s1 != s2) m1 e1 m2 e2

/-- IEEE `a < b`: false when either is a NaN. -/
def lt (a b : Fl) : Bool :=
  match a, b with
  | .nan, _ => false
  | _, .nan => false
  | .inf s, .inf t => s && !t
  | .inf s, _ => s
  | _, .inf t => !t
  | .fin s1 m1 e1, .fin s2 m2 e2 =>
    decide (scaled s1 m1 e1 (min e1 e2) < scaled s2 m2 e2 (min e1 e2))

/-- IEEE `a == b`: false when either is a NaN; +0 equals −0. -/
def eq (a b : Fl) : Bool :=
  match a, b with
  | .nan, _ => false
  | _, .nan => false
  | .inf s, .inf t => s == t
  | .inf _, _ => false
  | _, .inf _ => false
  | .fin s1 m1 e1, .fin s2 m2 e2 =>
    decide (scaled s1 m1 e1 (min e1 e2) = scaled s2 m2 e2 (min e1 e2))

/-- IEEE `a <= b`. -/
def le (a b : Fl) : Bool := lt a b || eq a b

/-- `rne(x)` of R16: the nearest integer, ties to even, of a finite value. -/
def rne : Fl → Option Int
  | .fin s m e =>
    let n : Nat := if 0 ≤ e then m * 2 ^ e.toNat else shiftRound .nearestEven m (-e).toNat
    some (if s then -(n : Int) else (n : Int))
  | _ => none

/-- The value of a bit pattern of format `f` (R16 `h2f`, R100): exact. -/
def ofBits (f : Fmt) (b : Nat) : Fl :=
  let s := b / 2 ^ (f.ebits + f.prec - 1) % 2 == 1
  let ex := b / 2 ^ (f.prec - 1) % 2 ^ f.ebits
  let fr := b % 2 ^ (f.prec - 1)
  if ex = 2 ^ f.ebits - 1 then
    if fr = 0 then .inf s else .nan
  else if ex = 0 then .fin s fr f.minExp
  else .fin s (2 ^ (f.prec - 1) + fr) (f.minExp + ex - 1)

/-- The sign bit of format `f`, in place. -/
def signBit (f : Fmt) (neg : Bool) : Nat := if neg then 2 ^ (f.ebits + f.prec - 1) else 0

/-- The exponent field of format `f` with every bit set, in place. -/
def topExp (f : Fmt) : Nat := (2 ^ f.ebits - 1) * 2 ^ (f.prec - 1)

/-- The NaN pattern of format `f` that a free value `d` names: its sign and fraction are `d`'s, a zero fraction read as 1, so
that every NaN pattern is some `d`'s (I-9). -/
def nanBits (f : Fmt) (d : Nat) : Nat :=
  let fr := d % 2 ^ (f.prec - 1)
  signBit f (d / 2 ^ (f.ebits + f.prec - 1) % 2 == 1) + topExp f + (if fr = 0 then 1 else fr)

/-- The bit pattern of a value already rounded to format `f` (a result of `roundFin`). -/
def packFin (f : Fmt) (neg : Bool) (n : Nat) (q : Int) : Nat :=
  if n < 2 ^ (f.prec - 1) then signBit f neg + n
  else signBit f neg + (q - f.minExp + 1).toNat * 2 ^ (f.prec - 1) + (n - 2 ^ (f.prec - 1))

/-- The pattern in format `f` of a value rounded to it by mode `r`; a NaN takes the sign and payload of the free value `d`. -/
def toBits (f : Fmt) (r : Rounding) (d : Nat) (x : Fl) : Nat :=
  match x.round f r with
  | .nan => nanBits f d
  | .inf s => signBit f s + topExp f
  | .fin s n q => packFin f s n q

/-- The binary64 value of a register pair (R100). -/
def of64 (b : DWord) : Fl := ofBits b64 b.toNat

/-- The binary32 value of a pattern. -/
def of32 (b : Word) : Fl := ofBits b32 b.toNat

/-- `h2f(n)` of R16. -/
def of16 (b : Half) : Fl := ofBits b16 b.toNat

/-- The binary64 pattern of a value; `d` is the free value for a NaN. -/
def to64 (d : DWord) (x : Fl) : DWord := BitVec.ofNat 64 (toBits b64 .nearestEven d.toNat x)

/-- The binary32 pattern of a value; `d` is the free value for a NaN. -/
def to32 (d : DWord) (x : Fl) : Word := BitVec.ofNat 32 (toBits b32 .nearestEven d.toNat x)

/-- `f2h(x)` of R17 under the mode `r`; `d` is the free value for a NaN. -/
def to16 (r : Rounding) (d : DWord) (x : Fl) : Half := BitVec.ofNat 16 (toBits b16 r d.toNat x)

/-- `fl32(x)` of R16, as a value. -/
def fl32 (x : Fl) : Fl := x.round b32 .nearestEven

/-- The binary64 nearest to the decimal `n / 10^k` (R143: "Each decimal literal is the nearest binary64 value"). -/
def dec (n : Int) (k : Nat) : Fl := div b64 (ofInt n) (ofInt (10 ^ k : Nat))

/-- `q(NUM, DEN)` of R99: one binary64 division of two exact integers. -/
def ratio (num den : Word) : Fl := div b64 (ofInt num.toInt) (ofInt den.toInt)

/-- `(r·v)` of R18 in format `f`: products rounded, then the sums left to right. -/
def dot (f : Fmt) (r v : V3 Fl) : Fl :=
  add f (add f (mul f r.c0 v.c0) (mul f r.c1 v.c1)) (mul f r.c2 v.c2)

/-- `M·v` of R18. -/
def mulVec (f : Fmt) (m : M3 Fl) (v : V3 Fl) : V3 Fl := m.map fun r => dot f r v

/-- Column `n` of a matrix. -/
def col (m : M3 Fl) (n : Nat) : V3 Fl := m.map fun r => r.get n

/-- `A·B` of R18. -/
def matMul (f : Fmt) (a b : M3 Fl) : M3 Fl :=
  a.map fun r => V3.ofFn fun n => dot f r (col b n)

/-- Every element finite. -/
def allFinite (m : M3 Fl) : Bool := m.all fun r => r.all isFinite

/-- `a·b − c·d` in binary64, both products rounded before the subtraction (R140). -/
def cross (a b c d : Fl) : Fl := sub b64 (mul b64 a b) (mul b64 c d)

/-- The cofactors `o` of R140, in the layout of the inverse. -/
def cofactors (m : M3 Fl) : M3 Fl :=
  let e := fun (i j : Nat) => (m.get i).get j
  ⟨⟨cross (e 1 1) (e 2 2) (e 2 1) (e 1 2),
    neg (cross (e 0 1) (e 2 2) (e 2 1) (e 0 2)),
    cross (e 0 1) (e 1 2) (e 1 1) (e 0 2)⟩,
   ⟨neg (cross (e 1 0) (e 2 2) (e 2 0) (e 1 2)),
    cross (e 0 0) (e 2 2) (e 2 0) (e 0 2),
    neg (cross (e 0 0) (e 1 2) (e 1 0) (e 0 2))⟩,
   ⟨cross (e 1 0) (e 2 1) (e 2 0) (e 1 1),
    neg (cross (e 0 0) (e 2 1) (e 2 0) (e 0 1)),
    cross (e 0 0) (e 1 1) (e 1 0) (e 0 1)⟩⟩

/-- `inv3(m)` of R140; `none` when the determinant equals 0.0. -/
def inv3 (m : M3 Fl) : Option (M3 Fl) :=
  let o := cofactors m
  let det := dot b64 m.c0 (col o 0)
  if eq det zero then none
  else
    let r := div b64 one det
    some (o.map fun row => row.map fun x => mul b64 x r)

end Fl

end Sys2Proof.Machine
end

