-- ==== Sys2Proof/Machine/Storage.lean ====
section
/-! DEFINITION. The data types of the register block (10_state.md §2), the plan storage (§3), the error codes
(60_exceptions.md R300) and the implementation parameters (00_scope.md R12). -/

namespace Sys2Proof

/-- The two descriptor sides; SIDE 0 is the IN block, 1 the OUT block (R90). -/
inductive Side where
  | input
  | output
deriving DecidableEq, Repr, Inhabited

namespace Machine

/-- The error codes of R300. Codes 16 to 255 are reserved and no rule writes them, so they are no constructors. -/
inductive ErrCode where
  | none
  | invalidFormat
  | invalidDepth
  | invalidSubsampling
  | familyMismatch
  | unknownPrimaries
  | unknownTransfer
  | unknownMatrix
  | invalidRange
  | oddDimensions
  | outOfMemory
  | illegalCommand
  | notPlanned
  | invalidSlice
  | busy
  | invalidOption
deriving DecidableEq, Repr, Inhabited

/-- CHROMA_DOWN of R12 and R247. -/
inductive ChromaDown where
  | nearest
  | average
deriving DecidableEq, Repr, Inhabited

/-- A range of addresses. -/
structure Region where
  base : Nat
  size : Nat
deriving DecidableEq, Repr, Inhabited

/-- The open parameters of R12 that are plain data. MAX_WIDTH and MAX_HEIGHT are even integers in [2, 65534] (R10), so each is
held as half of it, less one. `sideEffects` are the platform's regions with read or write side effects (R79, I-4). -/
structure Params where
  regBase : Word
  maxWidthCode : Fin 32767
  maxHeightCode : Fin 32767
  scratchBytes : Nat
  f2h : Rounding
  chromaDown : ChromaDown
  sideEffects : List Region
deriving DecidableEq, Repr, Inhabited

/-- A pixel-format descriptor, its fields as R96 lays them out; its reserved bits are RAZ/WI and are not held. -/
structure PixFmt where
  depth : BitVec 6
  rgb : Bool
  float : Bool
  alpha : Bool
  log2cw : BitVec 2
  log2ch : BitVec 2
deriving DecidableEq, Repr, Inhabited

/-- OPTIONS (R27): FAST, DITHER and WPADAPT. -/
structure Options where
  fast : Bool
  dither : Bool
  wpAdapt : BitVec 2
deriving DecidableEq, Repr, Inhabited

/-- A rational field: the words NUM and DEN (R35, R99). -/
structure Ratio where
  num : Word
  den : Word
deriving DecidableEq, Repr, Inhabited

/-- The white point's words (R35, R145). -/
structure White where
  xw : Ratio
  yw : Ratio
deriving DecidableEq, Repr, Inhabited

/-- The 16 primaries words at +0x08 to +0x44 of a block (R35). -/
structure Prims where
  xr : Ratio
  yr : Ratio
  xg : Ratio
  yg : Ratio
  xb : Ratio
  yb : Ratio
  white : White
deriving DecidableEq, Repr, Inhabited

/-- The 4 luma words at +0x48 to +0x54 of a block (R35). -/
structure Luma where
  kr : Ratio
  kb : Ratio
deriving DecidableEq, Repr, Inhabited

/-- The 8 transfer words at +0x58 to +0x74 of a block: α, β, γ, δ as binary64 patterns (R35, R120). -/
structure Transfer where
  alpha : DWord
  beta : DWord
  gamma : DWord
  delta : DWord
deriving DecidableEq, Repr, Inhabited

/-- A descriptor block (R35). RANGE has 2 bits (R36) and VALID 3 (R37); the rest of those words is RAZ/WI. -/
structure Blk where
  range : BitVec 2
  valid : BitVec 3
  prims : Prims
  luma : Luma
  transfer : Transfer
deriving DecidableEq, Repr, Inhabited

/-- The plan inputs (R39). -/
structure PlanInputs where
  options : Options
  frameW : BitVec 16
  frameH : BitVec 16
  inFmt : PixFmt
  outFmt : PixFmt
  inBlk : Blk
  outBlk : Blk
deriving DecidableEq, Repr, Inhabited

/-- The BASE and STRIDE registers of one plane (R32). -/
structure PlaneReg where
  base : Word
  stride : Word
deriving DecidableEq, Repr, Inhabited

/-- The registers that commands read (R94). -/
structure Regs where
  inputs : PlanInputs
  sliceH1 : BitVec 16
  sliceH2 : BitVec 16
  tfArg : DWord
  inPlanes : Quad PlaneReg
  outPlanes : Quad PlaneReg
deriving DecidableEq, Repr, Inhabited

/-- IRQ_EN (R26). -/
structure IrqEn where
  doneIe : Bool
  errIe : Bool
  warnIe : Bool
deriving DecidableEq, Repr, Inhabited

/-- The sequencer (R21): idle, or busy with the accepted word and the values of the registers it reads. -/
inductive Seq where
  | idle
  | busy (word : Word) (operands : Regs)
deriving DecidableEq, Repr, Inhabited

/-- `plan.pipe` (R40). -/
inductive Pipe where
  | int
  | half
  | f32
deriving DecidableEq, Repr, Inhabited

/-- `plan.lutkind` (R40). -/
inductive LutKind where
  | none
  | int
  | half
deriving DecidableEq, Repr, Inhabited

/-- A resolved range as PLAN_INFO reports it (R34, R209). -/
inductive Range where
  | notApplicable
  | tv
  | pc
deriving DecidableEq, Repr, Inhabited

/-- `plan.flags` (R40). -/
structure Flags where
  rgb2rgbPt : Bool
  lrgb2lrgbPt : Bool
  yuv2yuvFast : Bool
  yuv2yuvPt : Bool
  inLinear : Bool
  outExt : Bool
  dither : Bool
deriving DecidableEq, Repr, Inhabited

/-- `plan.kernel` of one side: depth_index and ss_index, each 0, 1 or 2 (R47, R98, R105). -/
structure Kernel where
  depthIdx : BitVec 2
  ssIdx : BitVec 2
deriving DecidableEq, Repr, Inhabited

/-- Which tables PLAN built (R48). -/
structure Built where
  primaries : Bool
  matrices : Bool
  yuv2yuv : Bool
  luts : Bool
deriving DecidableEq, Repr, Inhabited

/-- The plan storage (R40 to R49). One scalar stands for the 8 identical lanes of a coefficient (R49). A LUT entry past the end
of its list is 0, so an unbuilt table is the empty list (R48). `src` holds the plan inputs as the PLAN that built the plan read
them: the model's own field (R224, R333). -/
structure Plan where
  flags : Flags
  pipe : Pipe
  lutKind : LutKind
  rangeIn : Range
  rangeOut : Range
  kernelIn : Kernel
  kernelOut : Kernel
  built : Built
  yuv2rgb : M3 Half
  rgb2yuv : M3 Half
  yuv2yuv : M3 Half
  lrgb2lrgb : M3 Half
  lrgb2lrgbf : M3 Word
  yuvOffsetIn : Half
  yuvOffsetOut : Half
  linLut : List Half
  delinLut : List Half
  src : PlanInputs
deriving DecidableEq, Repr, Inhabited

/-- The scratch RGB planes (R52) and the dither error buffers (R53), hidden storage of the running slice. -/
structure Scratch where
  rgb : List Word
  dither : List Int
deriving DecidableEq, Repr, Inhabited

end Machine

end Sys2Proof
end

