-- ==== Sys2Proof/Syntax.lean ====
section
/-! DEFINITION. The commands (30_encoding.md R91), one constructor per row of spec/opcode_table.json. -/

namespace Sys2Proof

/-- A command of R91. Format C0 has no operand field; format C1 has SIDE, which selects a descriptor block. -/
inductive Instr where
  /-- NOP (R201), format C0 -/
  | nop
  /-- PLAN (R202), format C0 -/
  | plan
  /-- CONVERT_SLICE (R224), format C0 -/
  | convertSlice
  /-- INVALIDATE (R220), format C0 -/
  | invalidate
  /-- TF_EVAL_D (R126), format C1 -/
  | tfEvalD (side : Side)
  /-- TF_EVAL_L (R127), format C1 -/
  | tfEvalL (side : Side)
deriving DecidableEq, Repr, Inhabited

end Sys2Proof
end

