-- ==== Sys2Proof/WellFormed.lean ====
section
/-! DEFINITION. Legality of command words (30_encoding.md R92) and well-formedness of commands. -/

namespace Sys2Proof

/-- OPC, bits [7:0] of a command word (R90). -/
def opcOf (w : Word) : Nat := w.toNat % 256

/-- SIDE, bit 8 of a command word (R90). -/
def sideBitOf (w : Word) : Nat := w.toNat / 256 % 2

/-- RES, bits [31:9] of a command word (R90). -/
def resOf (w : Word) : Nat := w.toNat / 512

/-- R92, first condition: OPC is an opcode of R91. -/
def opcodeDefined (w : Word) : Bool := [0x00, 0x01, 0x02, 0x03, 0x10, 0x11].contains (opcOf w)

/-- R92, second condition: the reserved bits are 0. -/
def reservedZero (w : Word) : Bool := resOf w == 0

/-- R92, third condition: SIDE is 0 unless OPC is 0x10 or 0x11. -/
def sideAllowed (w : Word) : Bool := sideBitOf w == 0 || opcOf w == 0x10 || opcOf w == 0x11

/-- A legal command word (R92: "iff all three hold"). -/
def legalWord (w : Word) : Bool := opcodeDefined w && reservedZero w && sideAllowed w

/-- Every term of `Instr` is well formed: the one operand field, SIDE, has exactly the two values of its type, and a C0 command
has no SIDE at all (R90). The checks of R92 are checks of words, `legalWord`. -/
def Instr.wf : Instr → Bool
  | .nop => true
  | .plan => true
  | .convertSlice => true
  | .invalidate => true
  | .tfEvalD _ => true
  | .tfEvalL _ => true

end Sys2Proof
end

