-- ==== Sys2Proof/Decode.lean ====
section
/-! DEFINITION. The decoder of command words (30_encoding.md R90 to R93) and the encoder. -/

namespace Sys2Proof

/-- Why a command word is illegal (R93: "every undefined opcode, every nonzero reserved bit and every SIDE = 1 on a C0 command"). -/
inductive DecodeError where
  /-- bits [31:9] are not all 0 -/
  | reservedBitsSet
  /-- OPC is not in the map of R91 -/
  | undefinedOpcode
  /-- SIDE = 1 on a command of format C0 -/
  | sideOnC0
deriving DecidableEq, Repr, Inhabited

/-- The side a SIDE bit selects: 0 = IN block, 1 = OUT block (R90). -/
def sideOfBit (b : Nat) : Side := if b = 0 then .input else .output

/-- A C0 command, legal only with SIDE = 0. -/
def decodeC0 (w : Word) (i : Instr) : Except DecodeError Instr :=
  if sideBitOf w = 0 then .ok i else .error .sideOnC0

/-- Decoding (R92): total on 32-bit words; a word that is not legal is rejected by name. -/
def decode (w : Word) : Except DecodeError Instr :=
  if resOf w ≠ 0 then .error .reservedBitsSet
  else if opcOf w = 0x00 then decodeC0 w .nop
  else if opcOf w = 0x01 then decodeC0 w .plan
  else if opcOf w = 0x02 then decodeC0 w .convertSlice
  else if opcOf w = 0x03 then decodeC0 w .invalidate
  else if opcOf w = 0x10 then .ok (.tfEvalD (sideOfBit (sideBitOf w)))
  else if opcOf w = 0x11 then .ok (.tfEvalL (sideOfBit (sideBitOf w)))
  else .error .undefinedOpcode

/-- The SIDE bit of a side, in place (R90: bit 8). -/
def sideBits : Side → Nat
  | .input => 0
  | .output => 0x100

/-- The command word of a command (R92's table of matches). -/
def encode : Instr → Word
  | .nop => 0x00000000
  | .plan => 0x00000001
  | .convertSlice => 0x00000002
  | .invalidate => 0x00000003
  | .tfEvalD side => BitVec.ofNat 32 (0x10 + sideBits side)
  | .tfEvalL side => BitVec.ofNat 32 (0x11 + sideBits side)

/-- The instruction the decoder reads from a command word whose bits are `w`; bits above `nbits` are 0. A command is exactly
one 32-bit word written to CMD (R90), so nothing is laid out in memory. -/
def decodeTableWord (nbits w : Nat) : Option Instr :=
  match decode (BitVec.ofNat 32 (w % 2 ^ nbits)) with
  | .ok i => some i
  | .error _ => none

end Sys2Proof
end

