-- ==== Sys2Proof/Config.lean ====
section
/-! DEFINITION. What an implementation fixes and what the spec leaves free: constants with no body, so that nothing can be
proved of their values (00_scope.md R12, 93_implementation_defined.md part 1). -/

namespace Sys2Proof

open Sys2Proof.Machine

/-- The open parameters of R12 that are plain data, as the implementation fixes them; `State.reset` holds them. A claim about
every state is a claim for every value of them. -/
opaque Config.params : Params

/-- POW64 (R121, D8): a total function of its two binary64 operands alone. -/
opaque Config.pow64 : DWord → DWord → DWord

/-- EXT_DELIN (R125, D9): the caller's delinearisation, a total function of its binary64 operand alone. -/
opaque Config.extDelin : DWord → DWord

/-- The draw of the sign and payload of a NaN result (I-9): the free value of draw `draw` at the place `site` of that command. -/
opaque Config.nanDraw (draw site : Nat) : DWord

/-- The draw of a byte of frame memory that takes any value (I-5, I-6, I-18): draw `draw`, address `addr`. -/
opaque Config.freeByte (draw addr : Nat) : Byte

/-- The plan storage's content after a failed PLAN or a reset (I-1). -/
opaque Config.freePlan (draw : Nat) : Plan

/-- The content of the scratch planes and dither buffers after a slice or a reset (I-2). -/
opaque Config.freeScratch (draw : Nat) : Scratch

end Sys2Proof
end

