-- ==== Sys2Proof/Machine/State.lean ====
section
/-! DEFINITION. The machine's state as plain data (10_state.md), its faults and refusals, and its state after reset. -/

namespace Sys2Proof.Machine

/-- Frame memory (R71): the bytes that differ from 0, by strictly rising address. An unlisted byte reads 0 (log 6). -/
abbrev Memory := List Host.Cell

/-- One host action of 70_reset_and_hazards.md R342. A register access carries its size in bytes, so that an access of another
shape than R56 allows is a move that is refused (I-3). -/
inductive HostOp where
  /-- a store to the register block at byte offset `off` -/
  | regWrite (off : BitVec 12) (size : Nat) (val : Word)
  /-- a load from the register block -/
  | regRead (off : BitVec 12) (size : Nat)
  /-- a host write of one byte of frame memory -/
  | memWrite (addr : Word) (val : Byte)
  /-- a host read of one byte of frame memory -/
  | memRead (addr : Word)
  /-- WAIT (R106): poll STATUS until BUSY = 0 -/
  | wait
  /-- the reset input (R330) -/
  | reset
deriving DecidableEq, Repr, Inhabited

/-- Whose turn is next. The spec gives no timing (R339), so the order in which host actions fall before, inside or after a
command's BUSY window is data of the state (log 4). -/
inductive Move where
  | host (op : HostOp)
  | engine
deriving DecidableEq, Repr, Inhabited

/-- Reasons a step stops with a fault. -/
inductive Fault where
  /-- Raised by a host register access at an offset outside 0x000 to 0x3FF: the block is 1 KiB (R22, R70), so no register is
  there. Safe: the model stops where the spec gives no effect. -/
  | outsideRegisterBlock
deriving DecidableEq, Repr, Inhabited

/-- Reasons a step is refused. -/
inductive Refusal where
  /-- An instruction without a meaning in the model; no arm of `exec` answers with it. -/
  | notModelled (mnemonic : String)
  /-- Raised by a sub-word, multi-word or misaligned host access to the register block (R56: "A model refuses it", I-3). Safe:
  the spec gives it no meaning. -/
  | badRegisterAccess
  /-- Raised by the CMD write that launches a CONVERT_SLICE with a byte of its read or write set in memory with read or write side
  effects (R79: "a model refuses such a launch", I-4), and by such a CONVERT_SLICE when it is placed running in another way. Safe:
  the spec gives it no meaning. -/
  | sideEffectPlane
  /-- Raised by a host access to memory with side effects made as a frame-memory access (R79: "Frame memory must be ordinary
  memory"). Safe: such a device is outside the spec (R81). -/
  | hostSideEffectAccess
deriving DecidableEq, Repr, Inhabited

/-- The state of the engine, its frame memory, and the host actions still to come. -/
structure State where
  /-- implementation parameters, constant while the machine runs (R12, log 1) -/
  params : Params
  /-- the sequencer (R21); STATUS.BUSY is read from it (R25) -/
  seq : Seq
  /-- STATUS.DONE (R25) -/
  done : Bool
  /-- STATUS.ERR (R25) -/
  err : Bool
  /-- STATUS.WARN (R25) -/
  warn : Bool
  /-- STATUS.PLAN_VALID (R25) -/
  planValid : Bool
  /-- STATUS.ERRCODE (R25, R300) -/
  errcode : ErrCode
  /-- IRQ_EN (R26) -/
  irqEn : IrqEn
  /-- the registers commands read (R27 to R32, R35) -/
  regs : Regs
  /-- TF_RES (R31) -/
  tfRes : DWord
  /-- LUT_INDEX (R33) -/
  lutIndex : BitVec 16
  /-- plan storage (R40 to R49) -/
  plan : Plan
  /-- `warned_once` (R50) -/
  warnedOnce : Bool
  /-- the derived-value caches: copies of the descriptor values the last PLAN used (R51) -/
  caches : Option PlanInputs
  /-- scratch RGB planes and dither error buffers (R52, R53) -/
  scratch : Scratch
  /-- frame memory (R71) -/
  mem : Memory
  /-- the model's own: the moves still to come (log 4) -/
  agenda : List Move
  /-- the model's own: the value the last host read returned (log 4) -/
  hostData : Word
  /-- the model's own: the host wrote into the running command's read or write set (R84, I-5, log 12) -/
  disturbed : Bool
  /-- the model's own: the counter of free values (log 3) -/
  draws : Nat
deriving DecidableEq, Repr

/-- The pixel-format word 0 (R29). -/
def PixFmt.zero : PixFmt := ⟨0, false, false, false, 0, 0⟩

def Ratio.zero : Ratio := ⟨0, 0⟩

/-- A descriptor block with every word 0 (R35: "every word resets to 0"). -/
def Blk.zero : Blk :=
  { range := 0, valid := 0
    prims := ⟨.zero, .zero, .zero, .zero, .zero, .zero, ⟨.zero, .zero⟩⟩
    luma := ⟨.zero, .zero⟩
    transfer := ⟨0, 0, 0, 0⟩ }

/-- The plan inputs with every word 0 (R55). -/
def PlanInputs.zero : PlanInputs :=
  { options := ⟨false, false, 0⟩, frameW := 0, frameH := 0, inFmt := .zero, outFmt := .zero, inBlk := .zero, outBlk := .zero }

def PlaneReg.zero : PlaneReg := ⟨0, 0⟩

/-- The command-operand registers with every word 0 (R55). -/
def Regs.zero : Regs :=
  { inputs := .zero, sliceH1 := 0, sliceH2 := 0, tfArg := 0
    inPlanes := ⟨.zero, .zero, .zero, .zero⟩, outPlanes := ⟨.zero, .zero, .zero, .zero⟩ }

/-- The fill of a 3×3 integer table that PLAN does not build: all 0 (R48). -/
def zeroTable : M3 Half := ⟨⟨0, 0, 0⟩, ⟨0, 0, 0⟩, ⟨0, 0, 0⟩⟩

/-- The fill of lrgb2lrgb: 16384 on the diagonal (R48). -/
def identityTable : M3 Half := ⟨⟨16384, 0, 0⟩, ⟨0, 16384, 0⟩, ⟨0, 0, 16384⟩⟩

/-- The fill of lrgb2lrgbf: binary32 1.0 on the diagonal (R48). -/
def identityTableF : M3 Word := ⟨⟨0x3F800000, 0, 0⟩, ⟨0, 0x3F800000, 0⟩, ⟨0, 0, 0x3F800000⟩⟩

/-- Plan storage with no table built: the fill of R48. The content of plan storage after reset is unspecified and invisible
(R55, I-1); this one is the model's choice (DESIGN CHOICE, log 7). -/
def Plan.unbuilt : Plan :=
  { flags := ⟨false, false, false, false, false, false, false⟩
    pipe := .int, lutKind := .none, rangeIn := .notApplicable, rangeOut := .notApplicable
    kernelIn := ⟨0, 0⟩, kernelOut := ⟨0, 0⟩, built := ⟨false, false, false, false⟩
    yuv2rgb := zeroTable, rgb2yuv := zeroTable, yuv2yuv := zeroTable
    lrgb2lrgb := identityTable, lrgb2lrgbf := identityTableF
    yuvOffsetIn := 0, yuvOffsetOut := 0, linLut := [], delinLut := [], src := .zero }

/-- The machine right after reset: R55. Values R55 calls unspecified, and the model's own fields, are named in log 1, 4, 6, 7,
8, 12 and 3 (DESIGN CHOICE). -/
def State.reset : State :=
  { params := Config.params
    seq := .idle
    done := false, err := false, warn := false, planValid := false, errcode := .none
    irqEn := ⟨false, false, false⟩
    regs := .zero
    tfRes := 0, lutIndex := 0
    plan := .unbuilt
    warnedOnce := false
    caches := none
    scratch := ⟨[], []⟩
    mem := []
    agenda := []
    hostData := 0
    disturbed := false
    draws := 0 }

end Sys2Proof.Machine
end

