-- ==== Sys2Proof/Machine/Ops.lean ====
section
/-! DEFINITION. The named operations over frame memory, command acceptance and completion (45_planner_and_commands.md R200),
and the reporting of an error (60_exceptions.md R305, R306): the engine has no traps, an error is a code in STATUS (R307). -/

namespace Sys2Proof.Machine

/-! ### Frame memory -/

/-- What an unlisted byte of frame memory reads as: the spec gives memory no content (DESIGN CHOICE, log 6). -/
def Memory.unlisted : Byte := 0

/-- The number of addresses of frame memory (R71). -/
def memSize : Nat := 2 ^ 32

/-- The byte at an address (R71: total, every address is reachable). -/
def Memory.byte (m : Memory) (a : Nat) : Byte :=
  match m with
  | [] => Memory.unlisted
  | (b, v) :: rest => if b = a then v else Memory.byte rest a

/-- Memory with the byte at address `a` set, in canonical form. -/
def Memory.setByte (m : Memory) (a : Nat) (v : Byte) : Memory :=
  match m with
  | [] => if v = Memory.unlisted then [] else [(a, v)]
  | (b, w) :: rest =>
    if a < b then (if v = Memory.unlisted then (b, w) :: rest else (a, v) :: (b, w) :: rest)
    else if a = b then (if v = Memory.unlisted then rest else (a, v) :: rest)
    else (b, w) :: Memory.setByte rest a v

/-- Every listed address is above `lo`, below 2^32, strictly rising, and no listed byte reads as an unlisted one. -/
def Memory.wfFrom (lo : Nat) (m : Memory) : Bool :=
  match m with
  | [] => true
  | (a, v) :: rest => decide (lo ≤ a) && decide (a < memSize) && (v != Memory.unlisted) && Memory.wfFrom (a + 1) rest

/-- The canonical form of frame memory. -/
def Memory.wf (m : Memory) : Bool := Memory.wfFrom 0 m

/-- The n addresses of the bytes at `a`, modulo 2^32 (R76). -/
def byteAddrs (a : Nat) : Nat → List Nat
  | 0 => []
  | n + 1 => a % memSize :: byteAddrs (a + 1) n

/-- MemRead(a, n) of R76: the n bytes at `a` as an unsigned little-endian integer. -/
def Memory.read (m : Memory) (a : Nat) : Nat → Nat
  | 0 => 0
  | n + 1 => (m.byte (a % memSize)).toNat + 256 * m.read (a + 1) n

/-- MemWrite(a, n, v) of R76: the n low bytes of v in little-endian order. -/
def Memory.write (m : Memory) (a : Nat) : Nat → Nat → Memory
  | 0, _ => m
  | n + 1, v => Memory.write (m.setByte (a % memSize) (BitVec.ofNat 8 v)) (a + 1) n (v / 256)

/-- The given bytes take any value: draw `d` (I-5, I-6). -/
def Memory.scramble (m : Memory) (d : Nat) (addrs : List Nat) : Memory :=
  addrs.foldl (fun acc a => acc.setByte (a % memSize) (Config.freeByte d (a % memSize))) m

/-! ### Acceptance, completion and errors -/

namespace State

/-- STATUS.BUSY: 1 while seq = BUSY (R25). -/
def isBusy (s : State) : Bool :=
  match s.seq with
  | .idle => false
  | .busy _ _ => true

/-- The register values a command uses: those held when its word was accepted (R95). With no command running, the registers
themselves, which is what an acceptance would take. -/
def operands (s : State) : Regs :=
  match s.seq with
  | .idle => s.regs
  | .busy _ ops => ops

/-- The acceptance half of R200: DONE, ERR and ERRCODE are cleared and seq becomes BUSY with the word and the registers as held
now. WARN is not touched (R305). -/
def accept (w : Word) (s : State) : State :=
  { s with done := false, err := false, errcode := .none, seq := .busy w s.regs, disturbed := false }

/-- The completion half of R200 and R305 for a command that raised no error: seq is IDLE and DONE is set; ERR and ERRCODE stay
as they are (R306: a Busy report taken meanwhile is kept). -/
def finish (s : State) : State :=
  { s with seq := .idle, done := true, disturbed := false }

/-- `raise Error(code)` (R14): the completion of R305 for a command that raised `c`. -/
def raise (c : ErrCode) (s : State) : State :=
  { s.finish with err := true, errcode := c }

/-- Busy refusal (R306): ERR and ERRCODE = 14 at once; the word is discarded and the running command goes on. -/
def refuseBusy (s : State) : State := { s with err := true, errcode := .busy }

/-- PLAN_VALID cleared: by a plan-input write (R39), INVALIDATE (R220) or a failed PLAN (R216). -/
def clearPlanValid (s : State) : State := { s with planValid := false }

/-- The next free value: every step that draws one moves the counter on (log 3). -/
def bumpDraws (s : State) : State := { s with draws := s.draws + 1 }

/-- The agenda without its first move. -/
def popAgenda (s : State) : State := { s with agenda := s.agenda.tail }

end State

end Sys2Proof.Machine
end

