-- ==== Sys2Proof/Machine/Flags.lean ====
section
/-! DEFINITION. The STATUS word (10_state.md R25), its write-1-to-clear bits, IRQ_EN (R26) and the interrupt line
(60_exceptions.md R309 to R311). -/

namespace Sys2Proof.Machine

/-- The number of an error code (R300). -/
def ErrCode.code : ErrCode → Nat
  | .none => 0
  | .invalidFormat => 1
  | .invalidDepth => 2
  | .invalidSubsampling => 3
  | .familyMismatch => 4
  | .unknownPrimaries => 5
  | .unknownTransfer => 6
  | .unknownMatrix => 7
  | .invalidRange => 8
  | .oddDimensions => 9
  | .outOfMemory => 10
  | .illegalCommand => 11
  | .notPlanned => 12
  | .invalidSlice => 13
  | .busy => 14
  | .invalidOption => 15

/-- A one-bit field as a number. -/
def bit (b : Bool) : Nat := if b then 1 else 0

/-- Bit `i` of a register word. -/
def wordBit (w : Word) (i : Nat) : Bool := w.toNat / 2 ^ i % 2 == 1

/-- The interrupt line (R310), a pure function of STATUS and IRQ_EN. -/
def State.irq (s : State) : Bool :=
  (s.done && s.irqEn.doneIe) || (s.err && s.irqEn.errIe) || (s.warn && s.irqEn.warnIe)

/-- The STATUS word (R25). -/
def State.status (s : State) : Word :=
  BitVec.ofNat 32 (bit s.isBusy + 2 * bit s.done + 4 * bit s.err + 8 * bit s.warn + 16 * bit s.planValid + 32 * bit s.irq
    + 256 * s.errcode.code)

/-- A host write to STATUS (R25): 1 clears DONE, ERR (with ERRCODE) or WARN, 0 leaves the bit, every other bit is ignored. -/
def State.writeStatus (w : Word) (s : State) : State :=
  { s with
    done := s.done && !wordBit w 1
    err := s.err && !wordBit w 2
    errcode := if wordBit w 2 then .none else s.errcode
    warn := s.warn && !wordBit w 3 }

/-- The IRQ_EN word (R26). -/
def IrqEn.toWord (e : IrqEn) : Word := BitVec.ofNat 32 (bit e.doneIe + 2 * bit e.errIe + 4 * bit e.warnIe)

/-- IRQ_EN from a written word; bits [31:3] are RAZ/WI (R26). -/
def IrqEn.ofWord (w : Word) : IrqEn := ⟨wordBit w 0, wordBit w 1, wordBit w 2⟩

end Sys2Proof.Machine
end

