-- ==== Sys2Proof/Machine/Operands.lean ====
section
/-! DEFINITION. Operand forms: register fields (10_state.md R27 to R37), the pixel-format descriptor and its derived quantities
(30_encoding.md R96 to R98), descriptor equalities (R101, R145), the integer primitives of 00_scope.md R15, and the sample
addresses and slice sets of 20_memory.md R72 to R80. -/

namespace Sys2Proof.Machine

/-! ### Integer primitives (R15) -/

/-- `asr(v, s)` = ⌊v / 2^s⌋. -/
def asr (v : Int) (s : Nat) : Int := v / 2 ^ s

/-- `clip(v, lo, hi)`. -/
def clip (v lo hi : Int) : Int := if v < lo then lo else if hi < v then hi else v

def clipInt16 (v : Int) : Int := clip v (-32768) 32767

def clipUint15 (v : Int) : Int := clip v 0 32767

/-- `clip_pixel_d(v)`. -/
def clipPixel (d : Nat) (v : Int) : Int := clip v 0 (2 ^ d - 1)

/-! ### Register fields -/

/-- OPTIONS from a written word (R27); bits [31:4] are RAZ/WI. -/
def Options.ofWord (w : Word) : Options := ⟨wordBit w 0, wordBit w 1, BitVec.ofNat 2 (w.toNat / 4)⟩

def Options.toWord (o : Options) : Word := BitVec.ofNat 32 (bit o.fast + 2 * bit o.dither + 4 * o.wpAdapt.toNat)

/-- A pixel-format descriptor from a written word (R96); the reserved bits are RAZ/WI. -/
def PixFmt.ofWord (w : Word) : PixFmt :=
  { depth := BitVec.ofNat 6 w.toNat, rgb := wordBit w 8, float := wordBit w 9, alpha := wordBit w 10
    log2cw := BitVec.ofNat 2 (w.toNat / 2 ^ 12), log2ch := BitVec.ofNat 2 (w.toNat / 2 ^ 14) }

def PixFmt.toWord (f : PixFmt) : Word :=
  BitVec.ofNat 32 (f.depth.toNat + 256 * bit f.rgb + 512 * bit f.float + 1024 * bit f.alpha + 2 ^ 12 * f.log2cw.toNat
    + 2 ^ 14 * f.log2ch.toNat)

/-- The LO word of a binary64 register pair (R13, R100). -/
def loWord (v : DWord) : Word := v.setWidth 32

/-- The HI word of a binary64 register pair. -/
def hiWord (v : DWord) : Word := (v >>> 32).setWidth 32

/-- The pair with its LO word replaced. -/
def setLo (v : DWord) (w : Word) : DWord := hiWord v ++ w

/-- The pair with its HI word replaced. -/
def setHi (v : DWord) (w : Word) : DWord := w ++ loWord v

def Ratio.read (r : Ratio) (isDen : Bool) : Word := if isDen then r.den else r.num

def Ratio.write (r : Ratio) (isDen : Bool) (w : Word) : Ratio := if isDen then { r with den := w } else { r with num := w }

/-- The word at word offset `k` (byte offset 4k) of a descriptor block (R35); `none` at the reserved offsets +0x78 to +0x7F. -/
def Blk.readWord (b : Blk) (k : Nat) : Option Word :=
  match k with
  | 0 => some (b.range.setWidth 32)
  | 1 => some (b.valid.setWidth 32)
  | 2 => some b.prims.xr.num
  | 3 => some b.prims.xr.den
  | 4 => some b.prims.yr.num
  | 5 => some b.prims.yr.den
  | 6 => some b.prims.xg.num
  | 7 => some b.prims.xg.den
  | 8 => some b.prims.yg.num
  | 9 => some b.prims.yg.den
  | 10 => some b.prims.xb.num
  | 11 => some b.prims.xb.den
  | 12 => some b.prims.yb.num
  | 13 => some b.prims.yb.den
  | 14 => some b.prims.white.xw.num
  | 15 => some b.prims.white.xw.den
  | 16 => some b.prims.white.yw.num
  | 17 => some b.prims.white.yw.den
  | 18 => some b.luma.kr.num
  | 19 => some b.luma.kr.den
  | 20 => some b.luma.kb.num
  | 21 => some b.luma.kb.den
  | 22 => some (loWord b.transfer.alpha)
  | 23 => some (hiWord b.transfer.alpha)
  | 24 => some (loWord b.transfer.beta)
  | 25 => some (hiWord b.transfer.beta)
  | 26 => some (loWord b.transfer.gamma)
  | 27 => some (hiWord b.transfer.gamma)
  | 28 => some (loWord b.transfer.delta)
  | 29 => some (hiWord b.transfer.delta)
  | _ => none

def Blk.setPrims (b : Blk) (f : Prims → Prims) : Blk := { b with prims := f b.prims }
def Blk.setLuma (b : Blk) (f : Luma → Luma) : Blk := { b with luma := f b.luma }
def Blk.setTransfer (b : Blk) (f : Transfer → Transfer) : Blk := { b with transfer := f b.transfer }

/-- The block with the word at word offset `k` written (R35); reserved bits are RAZ/WI (R36, R37), and so are the reserved
words. -/
def Blk.writeWord (b : Blk) (k : Nat) (w : Word) : Blk :=
  match k with
  | 0 => { b with range := w.setWidth 2 }
  | 1 => { b with valid := w.setWidth 3 }
  | 2 => b.setPrims fun p => { p with xr := p.xr.write false w }
  | 3 => b.setPrims fun p => { p with xr := p.xr.write true w }
  | 4 => b.setPrims fun p => { p with yr := p.yr.write false w }
  | 5 => b.setPrims fun p => { p with yr := p.yr.write true w }
  | 6 => b.setPrims fun p => { p with xg := p.xg.write false w }
  | 7 => b.setPrims fun p => { p with xg := p.xg.write true w }
  | 8 => b.setPrims fun p => { p with yg := p.yg.write false w }
  | 9 => b.setPrims fun p => { p with yg := p.yg.write true w }
  | 10 => b.setPrims fun p => { p with xb := p.xb.write false w }
  | 11 => b.setPrims fun p => { p with xb := p.xb.write true w }
  | 12 => b.setPrims fun p => { p with yb := p.yb.write false w }
  | 13 => b.setPrims fun p => { p with yb := p.yb.write true w }
  | 14 => b.setPrims fun p => { p with white := { p.white with xw := p.white.xw.write false w } }
  | 15 => b.setPrims fun p => { p with white := { p.white with xw := p.white.xw.write true w } }
  | 16 => b.setPrims fun p => { p with white := { p.white with yw := p.white.yw.write false w } }
  | 17 => b.setPrims fun p => { p with white := { p.white with yw := p.white.yw.write true w } }
  | 18 => b.setLuma fun l => { l with kr := l.kr.write false w }
  | 19 => b.setLuma fun l => { l with kr := l.kr.write true w }
  | 20 => b.setLuma fun l => { l with kb := l.kb.write false w }
  | 21 => b.setLuma fun l => { l with kb := l.kb.write true w }
  | 22 => b.setTransfer fun t => { t with alpha := setLo t.alpha w }
  | 23 => b.setTransfer fun t => { t with alpha := setHi t.alpha w }
  | 24 => b.setTransfer fun t => { t with beta := setLo t.beta w }
  | 25 => b.setTransfer fun t => { t with beta := setHi t.beta w }
  | 26 => b.setTransfer fun t => { t with gamma := setLo t.gamma w }
  | 27 => b.setTransfer fun t => { t with gamma := setHi t.gamma w }
  | 28 => b.setTransfer fun t => { t with delta := setLo t.delta w }
  | 29 => b.setTransfer fun t => { t with delta := setHi t.delta w }
  | _ => b

/-- VALID.PRIM_VALID (R37). -/
def Blk.primValid (b : Blk) : Bool := b.valid.getLsbD 0

/-- VALID.TRC_VALID (R37). -/
def Blk.trcValid (b : Blk) : Bool := b.valid.getLsbD 1

/-- VALID.MAT_VALID (R37). -/
def Blk.matValid (b : Blk) : Bool := b.valid.getLsbD 2

/-- The descriptor block of a side (R35). -/
def PlanInputs.blk (p : PlanInputs) : Side → Blk
  | .input => p.inBlk
  | .output => p.outBlk

/-- The format of a side (R29). -/
def PlanInputs.fmt (p : PlanInputs) : Side → PixFmt
  | .input => p.inFmt
  | .output => p.outFmt

/-- The plane registers of a side (R32). -/
def Regs.planes (r : Regs) : Side → Quad PlaneReg
  | .input => r.inPlanes
  | .output => r.outPlanes

/-! ### Descriptor equality, bit equality of the stored words (R101, R145) -/

def PlanInputs.primEq (p : PlanInputs) : Bool := p.inBlk.prims == p.outBlk.prims

def PlanInputs.trcEq (p : PlanInputs) : Bool := p.inBlk.transfer == p.outBlk.transfer

def PlanInputs.matEq (p : PlanInputs) : Bool := p.inBlk.luma == p.outBlk.luma

def PlanInputs.whiteEq (p : PlanInputs) : Bool := p.inBlk.prims.white == p.outBlk.prims.white

/-! ### Derived quantities of a format (R98) -/

namespace PixFmt

/-- `d(f)`. -/
def d (f : PixFmt) : Nat := f.depth.toNat

/-- `cw(f)`. -/
def cw (f : PixFmt) : Nat := f.log2cw.toNat

/-- `ch(f)`. -/
def ch (f : PixFmt) : Nat := f.log2ch.toNat

/-- `bps(f)` (R73). -/
def bps (f : PixFmt) : Nat := if f.d = 8 then 1 else if f.d = 32 then 4 else 2

/-- `pipe(f)`. -/
def pipe (f : PixFmt) : Pipe := if f.rgb then (if f.d = 16 then .half else .f32) else .int

/-- The plane indices of the format: three, or four with an alpha plane (R72, R98). -/
def planes (f : PixFmt) : List (Fin 4) := if f.alpha then [0, 1, 2, 3] else [0, 1, 2]

/-- (depth_index, ss_index) of the YUV family; 0 for RGB (R34, R105). -/
def kernel (f : PixFmt) : Kernel :=
  if f.rgb then ⟨0, 0⟩ else ⟨BitVec.ofNat 2 ((f.d - 8) / 2), BitVec.ofNat 2 (f.cw + f.ch)⟩

/-- Planes 1 and 2 of the YUV family are chroma planes (R72). -/
def isChroma (f : PixFmt) (p : Fin 4) : Bool := !f.rgb && (p == 1 || p == 2)

/-- Plane width in samples for frame width W (R74). -/
def planeWidth (f : PixFmt) (p : Fin 4) (w : Nat) : Nat := if f.isChroma p then w / 2 ^ f.cw else w

/-- A frame row as a row of the plane (R80): shifted for the chroma planes. -/
def planeRow (f : PixFmt) (p : Fin 4) (h : Nat) : Nat := if f.isChroma p then h / 2 ^ f.ch else h

end PixFmt

/-! ### Samples of a slice (R75, R80) -/

/-- `addr(side, p, x, y)` of R75 for one plane's registers: exact, then reduced modulo 2^32. -/
def PlaneReg.addr (r : PlaneReg) (bps x y : Nat) : Nat :=
  (((r.base.toNat : Int) + (y : Int) * r.stride.toInt + ((x * bps : Nat) : Int)) % (memSize : Int)).toNat

/-- The samples (x, y) of rows [y0, y1) of a plane of width `w`, row by row, left to right. -/
def rowSamples (w y0 y1 : Nat) : List (Nat × Nat) :=
  (List.range' y0 (y1 - y0)).flatMap fun y => (List.range w).map fun x => (x, y)

/-- The samples of plane `p` in the slice [h1, h2) of a frame of width W: `rows(side, p)` of R80, every x. -/
def PixFmt.samples (f : PixFmt) (w h1 h2 : Nat) (p : Fin 4) : List (Nat × Nat) :=
  rowSamples (f.planeWidth p w) (f.planeRow p h1) (f.planeRow p h2)

/-- The addresses of the first bytes of a side's samples in the slice: R80's set, sample by sample. -/
def sampleAddrs (f : PixFmt) (planes : Quad PlaneReg) (w h1 h2 : Nat) : List Nat :=
  f.planes.flatMap fun p => (f.samples w h1 h2 p).map fun xy => (planes.get p).addr f.bps xy.1 xy.2

/-- Every byte of every sample of a side in the slice (R80). -/
def sampleBytes (f : PixFmt) (planes : Quad PlaneReg) (w h1 h2 : Nat) : List Nat :=
  (sampleAddrs f planes w h1 h2).flatMap fun a => byteAddrs a f.bps

/-- The slice rows a running CONVERT_SLICE reads from its operands (R94: zero-extended). -/
def Regs.h1 (r : Regs) : Nat := r.sliceH1.toNat
def Regs.h2 (r : Regs) : Nat := r.sliceH2.toNat

/-- The write set of CONVERT_SLICE (R80) for a plan and its operands. -/
def Plan.writeSet (p : Plan) (r : Regs) : List Nat :=
  sampleBytes p.src.outFmt r.outPlanes p.src.frameW.toNat r.h1 r.h2

/-- The read set of CONVERT_SLICE (R80). -/
def Plan.readSet (p : Plan) (r : Regs) : List Nat :=
  sampleBytes p.src.inFmt r.inPlanes p.src.frameW.toNat r.h1 r.h2

/-- Membership in a region of addresses. -/
def Region.contains (g : Region) (a : Nat) : Bool := decide (g.base ≤ a) && decide (a < g.base + g.size)

/-- Memory with read or write side effects: the engine's own register block at REG_BASE and the platform's devices (R79, I-4). -/
def Params.sideEffect (p : Params) (a : Nat) : Bool :=
  Region.contains ⟨p.regBase.toNat, 0x400⟩ a || p.sideEffects.any fun g => g.contains a

/-- MAX_WIDTH (R10): even, in [2, 65534]. -/
def Params.maxWidth (p : Params) : Nat := 2 * (p.maxWidthCode.val + 1)

/-- MAX_HEIGHT (R10). -/
def Params.maxHeight (p : Params) : Nat := 2 * (p.maxHeightCode.val + 1)

end Sys2Proof.Machine
end

