-- ==== Sys2Proof/Machine/TransferCore.lean ====
section
/-! DEFINITION. The transfer_function_core (41_transfer_function_core.md): D and L in binary64, and the predicates on transfer
descriptors. -/

namespace Sys2Proof.Machine

namespace Transfer

def a (t : Transfer) : Fl := Fl.of64 t.alpha
def b (t : Transfer) : Fl := Fl.of64 t.beta
def g (t : Transfer) : Fl := Fl.of64 t.gamma
def dl (t : Transfer) : Fl := Fl.of64 t.delta

/-- Analytic iff α ≠ 0.0, a numeric test (R120): a NaN α counts as analytic. -/
def analytic (t : Transfer) : Bool := !(Fl.eq t.a Fl.zero)

/-- α, β, γ and δ are all finite (R126, R127, R129). -/
def finite (t : Transfer) : Bool := t.a.isFinite && t.b.isFinite && t.g.isFinite && t.dl.isFinite

/-- `is_linear(T)` (R128): δ is ignored. -/
def isLinear (t : Transfer) : Bool := Fl.eq t.a Fl.one && Fl.eq t.b Fl.zero && Fl.eq t.g Fl.one

/-- L may be evaluated: finite coefficients, and α, γ and δ nonzero (R127, R129 input side). -/
def linearisable (t : Transfer) : Bool :=
  t.finite && !(Fl.eq t.a Fl.zero) && !(Fl.eq t.g Fl.zero) && !(Fl.eq t.dl Fl.zero)

end Transfer

/-- POW64 on a value and a pattern (R121): the NaN of an arithmetic result has no payload of its own, so `d` gives it one. -/
def pow64 (d : DWord) (x y : Fl) : Fl := Fl.of64 (Config.pow64 (Fl.to64 d x) (Fl.to64 d y))

/-- The sign flip of a binary64 pattern (R122: "exact sign flips"). -/
def flipSign (v : DWord) : DWord := v ^^^ 0x8000000000000000

/-- `D(T, v)` of R122, the operand as its pattern. -/
def delinearise (t : Transfer) (v : DWord) : Fl :=
  let x := Fl.of64 v
  if Fl.le x t.b.neg then
    Fl.add b64 (Fl.mul b64 t.a.neg (Fl.of64 (Config.pow64 (flipSign v) t.gamma))) (Fl.sub b64 t.a Fl.one)
  else if Fl.lt x t.b then Fl.mul b64 t.dl x
  else Fl.sub b64 (Fl.mul b64 t.a (Fl.of64 (Config.pow64 v t.gamma))) (Fl.sub b64 t.a Fl.one)

/-- `L(T, v)` of R123 in its reciprocal form; `d` is the payload of a NaN base (`0 · ∞`, or a NaN `v`). -/
def linearise (d : DWord) (t : Transfer) (x : Fl) : Fl :=
  let bd := Fl.mul b64 t.b t.dl
  let ia := Fl.div b64 Fl.one t.a
  let ig := Fl.div b64 Fl.one t.g
  let id := Fl.div b64 Fl.one t.dl
  if Fl.le x bd.neg then
    (pow64 d (Fl.mul b64 (Fl.sub b64 (Fl.sub b64 Fl.one t.a) x) ia) ig).neg
  else if Fl.lt x bd then Fl.mul b64 x id
  else pow64 d (Fl.mul b64 (Fl.sub b64 (Fl.add b64 x t.a) Fl.one) ia) ig

/-- `D_out` of R124: D of an analytic output transfer, EXT_DELIN otherwise (R125), the operand as its pattern. -/
def delinOut (ext : Bool) (t : Transfer) (v : DWord) : Fl :=
  if ext then Fl.of64 (Config.extDelin v) else delinearise t v

/-- L_in on a float path: a NaN input propagates as a NaN (R185, R280, log 17). -/
def linFloat (d : DWord) (t : Transfer) (x : Fl) : Fl :=
  if x.isNaN then .nan else linearise d t x

/-- D_out on a float path: a NaN input propagates as a NaN (R185, R280, log 17); other operands are widened exactly. -/
def delinFloat (ext : Bool) (t : Transfer) (x : Fl) : Fl :=
  if x.isNaN then .nan else delinOut ext t (Fl.to64 0 x)

end Sys2Proof.Machine
end

