-- ==== Sys2Proof/Machine/PrimariesSolver.lean ====
section
/-! DEFINITION. The primaries_solver (42_primaries_solver.md). -/

namespace Sys2Proof.Machine

def Ratio.value (r : Ratio) : Fl := Fl.ratio r.num r.den

/-- No denominator of the block's primaries words is 0 (R148, check 1). -/
def Prims.densNonzero (p : Prims) : Bool :=
  p.xr.den != 0 && p.yr.den != 0 && p.xg.den != 0 && p.yg.den != 0 && p.xb.den != 0 && p.yb.den != 0
    && p.white.xw.den != 0 && p.white.yw.den != 0

/-- `w(B)` of R141. -/
def Prims.whiteVec (p : Prims) : V3 Fl :=
  let xw := p.white.xw.value
  let yw := p.white.yw.value
  ⟨xw, yw, Fl.sub b64 (Fl.sub b64 Fl.one xw) yw⟩

/-- The three y chromaticities are nonzero (R148, check 2). -/
def Prims.ysNonzero (p : Prims) : Bool :=
  !(Fl.eq p.yr.value Fl.zero) && !(Fl.eq p.yg.value Fl.zero) && !(Fl.eq p.yb.value Fl.zero)

/-- The matrix P of R142. -/
def Prims.chromaMatrix (p : Prims) : M3 Fl :=
  let x : V3 Fl := ⟨p.xr.value, p.xg.value, p.xb.value⟩
  let y : V3 Fl := ⟨p.yr.value, p.yg.value, p.yb.value⟩
  ⟨V3.ofFn fun j => Fl.div b64 (x.get j) (y.get j),
   V3.ofFn fun _ => Fl.one,
   V3.ofFn fun j => Fl.div b64 (Fl.sub b64 (Fl.sub b64 Fl.one (x.get j)) (y.get j)) (y.get j)⟩

/-- `X(B)` of R142; `none` when inv3(P) is singular (R148, check 3). -/
def Prims.rgbToXyz (p : Prims) : Option (M3 Fl) :=
  let m := p.chromaMatrix
  match Fl.inv3 m with
  | none => none
  | some inv =>
    let s := Fl.mulVec b64 inv p.whiteVec
    some (m.map fun row => V3.ofFn fun j => Fl.mul b64 (row.get j) (s.get j))

/-- The Bradford cone-response matrix (R143). -/
def bradford : M3 Fl :=
  ⟨⟨Fl.dec 8951 4, Fl.dec 2664 4, Fl.dec (-1614) 4⟩,
   ⟨Fl.dec (-7502) 4, Fl.dec 17135 4, Fl.dec 367 4⟩,
   ⟨Fl.dec 389 4, Fl.dec (-685) 4, Fl.dec 10296 4⟩⟩

/-- The von Kries cone-response matrix (R143). -/
def vonKries : M3 Fl :=
  ⟨⟨Fl.dec 40024 5, Fl.dec 70760 5, Fl.dec (-8081) 5⟩,
   ⟨Fl.dec (-22630) 5, Fl.dec 116532 5, Fl.dec 4570 5⟩,
   ⟨Fl.zero, Fl.zero, Fl.dec 91822 5⟩⟩

/-- The adaptation matrix A of R144 for a cone matrix and the two white vectors; `none` when an s[i] is 0.0 (R148, check 5) or
the cone matrix is singular (it is not, for the two of R143). -/
def adaptation (m : M3 Fl) (ws wd : V3 Fl) : Option (M3 Fl) :=
  let s := Fl.mulVec b64 m ws
  let d := Fl.mulVec b64 m wd
  if s.toList.any fun x => Fl.eq x Fl.zero then none
  else
    match Fl.inv3 m with
    | none => none
    | some inv =>
      let sigma : M3 Fl := V3.ofFn fun i => V3.ofFn fun j =>
        if i = j then Fl.div b64 (d.get i) (s.get i) else Fl.zero
      some (Fl.matMul b64 (Fl.matMul b64 inv sigma) m)

/-- The primary map of R146 from the two RGB→XYZ matrices and, when adaptation is used, A. -/
def composeMap (invOut xin : M3 Fl) : Option (M3 Fl) → M3 Fl
  | none => Fl.matMul b64 invOut xin
  | some a => Fl.matMul b64 (Fl.matMul b64 invOut a) xin

/-- A binary64 value quantised by `rne` to an int16; `none` when it is not finite or lies outside [−32768, 32767]
(R147, R170 check 5). -/
def quant16 (x : Fl) : Option Half :=
  match x.rne with
  | none => none
  | some n => if -32768 ≤ n ∧ n ≤ 32767 then some (BitVec.ofInt 16 n) else none

/-- A 3×3 matrix quantised element by element. -/
def quantTable (m : M3 Fl) : Option (M3 Half) := m.mapOpt fun r => r.mapOpt quant16

/-- OPTIONS.WPADAPT is identity, or the white words are equal: the map omits A (R146). -/
def PlanInputs.omitsAdaptation (p : PlanInputs) : Bool := p.whiteEq || p.options.wpAdapt == 2

/-- The adaptation step of R146: `some none` when A is omitted, `none` when check 5 of R148 fails. -/
def PlanInputs.adaptStep (p : PlanInputs) : Option (Option (M3 Fl)) :=
  if p.omitsAdaptation then some none
  else
    match adaptation (if p.options.wpAdapt == 0 then bradford else vonKries) p.inBlk.prims.whiteVec p.outBlk.prims.whiteVec with
    | none => none
    | some a => some (some a)

/-- The primary map of R146, or `none` when one of checks 1 to 6 of R148 fails: they all raise UnknownPrimaries. -/
def PlanInputs.primaryMap (p : PlanInputs) : Option (M3 Fl) :=
  if p.inBlk.prims.densNonzero && p.outBlk.prims.densNonzero && p.inBlk.prims.ysNonzero && p.outBlk.prims.ysNonzero then
    match p.inBlk.prims.rgbToXyz, p.outBlk.prims.rgbToXyz with
    | some xin, some xout =>
      match Fl.inv3 xout, p.adaptStep with
      | some inv, some a =>
        let map := composeMap inv xin a
        if Fl.allFinite map then some map else none
      | _, _ => none
    | _, _ => none
  else none

/-- The quantised tables of R147, (lrgb2lrgb, lrgb2lrgbf), or `none` when R148 fails the PLAN. -/
def PlanInputs.primaryTables (p : PlanInputs) : Option (M3 Half × M3 Word) :=
  match p.primaryMap with
  | none => none
  | some map =>
    match quantTable (map.map fun r => r.map fun x => Fl.mul b64 (Fl.ofInt 16384) x) with
    | none => none
    | some t => some (t, map.map fun r => r.map fun x => Fl.to32 0 x)

end Sys2Proof.Machine
end

