-- ==== Sys2Proof/Machine/MatrixSolver.lean ====
section
/-! DEFINITION. The matrix_solver (43_matrix_solver.md). -/

namespace Sys2Proof.Machine

/-- The `offset` column of R163; 0 for the RGB family, which builds no offset (R171). -/
def Range.offset (r : Range) (d : Nat) : Nat :=
  match r with
  | .tv => 16 * 2 ^ (d - 8)
  | .pc => 0
  | .notApplicable => 0

/-- `range[i]` of R163: y_rng at index 0, uv_rng at 1 and 2. -/
def Range.span (r : Range) (d i : Nat) : Nat :=
  match r with
  | .tv => if i = 0 then 219 * 2 ^ (d - 8) else 224 * 2 ^ (d - 8)
  | .pc => 2 ^ d - 1
  | .notApplicable => 0

/-- `cbias(d)` of R164. -/
def cbias (d : Nat) : Nat := 2 ^ (d - 1)

/-- The two float matrices of one block: rgb2yuv (R161) and its inverse yuv2rgb (R162). -/
structure YuvMatrices where
  rgb2yuv : M3 Fl
  yuv2rgb : M3 Fl
deriving DecidableEq, Repr, Inhabited

/-- rgb2yuv(B) of R161 for Kr and Kb; Kg is R160's. -/
def rgbToYuv (kr kb : Fl) : M3 Fl :=
  let half := Fl.dec 5 1
  let kg := Fl.sub b64 (Fl.sub b64 Fl.one kr) kb
  let bs := Fl.div b64 half (Fl.sub b64 kb Fl.one)
  let rs := Fl.div b64 half (Fl.sub b64 kr Fl.one)
  ⟨⟨kr, kg, kb⟩,
   ⟨Fl.mul b64 bs kr, Fl.mul b64 bs kg, half⟩,
   ⟨half, Fl.mul b64 rs kg, Fl.mul b64 rs kb⟩⟩

/-- Both matrices of a block, or `none` when one of checks 1 to 4 of R170 fails. -/
def Luma.matrices (l : Luma) : Option YuvMatrices :=
  if l.kr.den == 0 || l.kb.den == 0 then none
  else
    let kr := l.kr.value
    let kb := l.kb.value
    if Fl.eq kr Fl.one || Fl.eq kb Fl.one then none
    else
      let m := rgbToYuv kr kb
      match Fl.inv3 m with
      | none => none
      | some inv => if Fl.allFinite m && Fl.allFinite inv then some ⟨m, inv⟩ else none

/-- R166: plan.yuv2rgb from the input side. -/
def yuv2rgbTable (m : M3 Fl) (r : Range) (d : Nat) : Option (M3 Half) :=
  quantTable (m.map fun row => V3.ofFn fun j =>
    Fl.div b64 (Fl.mul b64 (Fl.mul b64 (Fl.ofInt 28672) (Fl.ofInt (2 ^ (d - 1) : Nat))) (row.get j)) (Fl.ofInt (r.span d j)))

/-- R167: plan.rgb2yuv from the output side. -/
def rgb2yuvTable (m : M3 Fl) (r : Range) (d : Nat) : Option (M3 Half) :=
  quantTable (V3.ofFn fun n => (m.get n).map fun x =>
    Fl.div b64 (Fl.mul b64 (Fl.mul b64 (Fl.ofInt (2 ^ (29 - d) : Nat)) (Fl.ofInt (r.span d n))) x) (Fl.ofInt 28672))

/-- R168 and R169: plan.yuv2yuv, from rgb2yuv(OUT) and yuv2rgb(IN). -/
def yuv2yuvTable (mOut mIn : M3 Fl) (rIn rOut : Range) (dIn dOut : Nat) : Option (M3 Half) :=
  let myy := Fl.matMul b64 mOut mIn
  quantTable (V3.ofFn fun m => V3.ofFn fun n =>
    Fl.div b64
      (Fl.mul b64 (Fl.mul b64 (Fl.mul b64 (Fl.ofInt 16384) ((myy.get m).get n)) (Fl.ofInt (rOut.span dOut m))) (Fl.ofInt (2 ^ dIn : Nat)))
      (Fl.mul b64 (Fl.ofInt (rIn.span dIn n)) (Fl.ofInt (2 ^ dOut : Nat))))

/-- The integer tables of the YUV family: (yuv2rgb, rgb2yuv, yuv2yuv), yuv2yuv all 0 unless fast mode builds it (R48, R171).
`none` when R170 fails the PLAN. -/
def PlanInputs.matrixTables (p : PlanInputs) (rIn rOut : Range) (fast : Bool) : Option (M3 Half × M3 Half × M3 Half) :=
  match p.inBlk.luma.matrices, p.outBlk.luma.matrices with
  | some mi, some mo =>
    match yuv2rgbTable mi.yuv2rgb rIn p.inFmt.d, rgb2yuvTable mo.rgb2yuv rOut p.outFmt.d,
        (if fast then yuv2yuvTable mo.rgb2yuv mi.yuv2rgb rIn rOut p.inFmt.d p.outFmt.d else some zeroTable) with
    | some a, some b, some c => some (a, b, c)
    | _, _, _ => none
  | _, _ => none

end Sys2Proof.Machine
end

