-- ==== Sys2Proof/Machine/GammaLut.lean ====
section
/-! DEFINITION. The gamma_lut_builder (44_gamma_lut_builder.md). -/

namespace Sys2Proof.Machine

/-- Entries of an integer table (R46, R181). -/
def intLutSize : Nat := 32768

/-- Entries of a half-float table (R46, R184). -/
def halfLutSize : Nat := 65536

/-- `v(n)` of R181. -/
def lutValue (n : Nat) : Fl := Fl.div b64 (Fl.ofInt ((n : Int) - 2048)) (Fl.ofInt 28672)

/-- `qlut(r)` of R183; `none` for a NaN, which fails the PLAN. -/
def qlut (r : Fl) : Option Half :=
  match r with
  | .nan => none
  | .inf s => some (BitVec.ofInt 16 (if s then -32768 else 32767))
  | x =>
    match Fl.mul b64 x (Fl.ofInt 28672) with
    | .nan => none
    | .inf s => some (BitVec.ofInt 16 (if s then -32768 else 32767))
    | t =>
      match t.rne with
      | none => none
      | some n => some (BitVec.ofInt 16 (clipInt16 n))

/-- Where a NaN of the LUT builder is drawn (log 3): four places for each index. -/
def lutSite (n k : Nat) : Nat := 4 * n + k

/-- An integer table from the values of its entries; `none` at the first NaN (R183). -/
def intTable (f : Nat → Fl) : Option (List Half) := (List.range intLutSize).mapM fun n => qlut (f n)

/-- Both integer tables (R182): (lin, delin), or `none` for UnknownTransfer (R183). -/
def intLuts (draw : Nat) (tIn tOut : Transfer) (ext : Bool) : Option (List Half × List Half) :=
  match intTable fun n => linearise (Config.nanDraw draw (lutSite n 0)) tIn (lutValue n) with
  | none => none
  | some lin =>
    match intTable fun n => delinOut ext tOut (Fl.to64 0 (lutValue n)) with
    | none => none
    | some delin => some (lin, delin)

/-- An entry of a half-float table: binary64 to binary32 to binary16, a NaN drawn (R184, R185). -/
def halfEntry (mode : Rounding) (draw site : Nat) (x : Fl) : Half :=
  Fl.to16 mode (Config.nanDraw draw site) (Fl.fl32 x)

/-- plan.lin_lut of R184. -/
def halfLin (mode : Rounding) (draw : Nat) (tIn : Transfer) : List Half :=
  (List.range halfLutSize).map fun n =>
    halfEntry mode draw (lutSite n 1) (linFloat (Config.nanDraw draw (lutSite n 0)) tIn (Fl.of16 (BitVec.ofNat 16 n)))

/-- plan.delin_lut of R184. -/
def halfDelin (mode : Rounding) (draw : Nat) (tOut : Transfer) (ext : Bool) : List Half :=
  (List.range halfLutSize).map fun n =>
    halfEntry mode draw (lutSite n 2) (delinFloat ext tOut (Fl.of16 (BitVec.ofNat 16 n)))

/-- A LUT entry: 0 past the end of the table (R48: an unbuilt table holds 0). -/
def lutEntry (t : List Half) (i : Nat) : Half := t.getD i 0

/-- The index of an int16 intermediate value (R186). -/
def lutIndexOf (pixel : Int) : Nat := (clipUint15 (2048 + pixel)).toNat

/-- An integer table read at an intermediate value, as an int16 (R186, R243, R245). -/
def lutLookup (t : List Half) (pixel : Int) : Int := (lutEntry t (lutIndexOf pixel)).toInt

end Sys2Proof.Machine
end

