-- ==== Sys2Proof/Machine/Planner.lean ====
section
/-! DEFINITION. The planner (45_planner_and_commands.md R202 to R217): the plan that PLAN builds from its inputs, or the one code
it raises, in the priority of 60_exceptions.md R303. -/

namespace Sys2Proof.Machine

/-- `if bad: raise Error(c)`. -/
def raiseIf (bad : Bool) (c : ErrCode) : Except ErrCode Unit := if bad then .error c else .ok ()

/-- `check_fmt(f)` of R204. -/
def PixFmt.check (f : PixFmt) : Except ErrCode Unit :=
  if f.rgb then
    if !f.float then .error .invalidFormat
    else if !(f.d == 16 || f.d == 32) then .error .invalidDepth
    else raiseIf (!(f.cw == 0 && f.ch == 0)) .invalidSubsampling
  else
    if f.float || f.alpha then .error .invalidFormat
    else if !(f.d == 8 || f.d == 10 || f.d == 12) then .error .invalidDepth
    else raiseIf (!((f.cw == 0 && f.ch == 0) || (f.cw == 1 && f.ch == 0) || (f.cw == 1 && f.ch == 1))) .invalidSubsampling

namespace PlanInputs

/-- The family of the planned formats (equal on both sides once R204 has passed). -/
def isRgb (p : PlanInputs) : Bool := p.inFmt.rgb

/-- `check_formats()` of R204. -/
def checkFormats (p : PlanInputs) : Except ErrCode Unit := do
  p.inFmt.check
  p.outFmt.check
  raiseIf (p.inFmt.rgb != p.outFmt.rgb) .familyMismatch
  raiseIf (p.isRgb && p.inFmt.depth != p.outFmt.depth) .invalidDepth
  raiseIf (p.isRgb && p.inFmt.alpha != p.outFmt.alpha) .invalidFormat

/-- R205. -/
def checkOptions (p : PlanInputs) : Except ErrCode Unit := raiseIf (p.options.wpAdapt == 3) .invalidOption

/-- `check_tags()` of R206. -/
def checkTags (p : PlanInputs) : Except ErrCode Unit := do
  raiseIf (!p.inBlk.primValid || !p.outBlk.primValid) .unknownPrimaries
  raiseIf (!p.inBlk.trcValid || !p.outBlk.trcValid) .unknownTransfer
  raiseIf (!p.isRgb && (!p.inBlk.matValid || !p.outBlk.matValid)) .unknownMatrix

/-- R207. -/
def checkRanges (p : PlanInputs) : Except ErrCode Unit :=
  raiseIf (!p.isRgb && (p.inBlk.range == 3 || p.outBlk.range == 3)) .invalidRange

/-- The checks of phase A that come before range resolution (R202, R303 items 1 to 4). -/
def checkFront (p : PlanInputs) : Except ErrCode Unit := do
  p.checkFormats
  p.checkOptions
  p.checkTags
  p.checkRanges

/-- R208. -/
def checkDimensions (p : PlanInputs) : Except ErrCode Unit :=
  raiseIf (p.frameW == 0 || p.frameH == 0 || p.frameW.toNat % 2 == 1 || p.frameH.toNat % 2 == 1) .oddDimensions

/-- The resolved range of a side (R209): an Unspecified range is TV; not applicable for the RGB family. -/
def resolvedRange (p : PlanInputs) (side : Side) : Range :=
  if p.isRgb then .notApplicable else if (p.blk side).range == 2 then .pc else .tv

/-- Range resolution of this PLAN sees an Unspecified range (R209): YUV family only, and only when the checks before it have
passed (R202). -/
def seesUnspecifiedRange (p : PlanInputs) : Bool :=
  p.checkFront.isOk && !p.isRgb && (p.inBlk.range == 0 || p.outBlk.range == 0)

/-! ### Phase B: flags and selections (R210 to R213) -/

/-- R210. -/
def lrgb2lrgbPt (p : PlanInputs) : Bool := p.primEq

/-- R211. -/
def rgb2rgbPt (p : PlanInputs) : Bool :=
  p.options.fast || (p.lrgb2lrgbPt && p.outBlk.transfer.analytic && p.trcEq)

/-- R212, `yuv2yuv_fastmode`. -/
def yuv2yuvFast (p : PlanInputs) : Bool :=
  p.rgb2rgbPt && p.inFmt.log2cw == p.outFmt.log2cw && p.inFmt.log2ch == p.outFmt.log2ch

/-- `range_eq` (R101, R212): resolved ranges; true for the RGB family. -/
def rangeEq (p : PlanInputs) : Bool := p.resolvedRange .input == p.resolvedRange .output

/-- R212, `yuv2yuv_passthrough`; `mat_eq` is true for the RGB family. -/
def yuv2yuvPt (p : PlanInputs) : Bool :=
  p.yuv2yuvFast && p.rangeEq && (p.isRgb || p.matEq) && p.inFmt.depth == p.outFmt.depth

/-- `plan.pipe` (R213). -/
def pipe (p : PlanInputs) : Pipe := p.inFmt.pipe

/-- `plan.lutkind` (R180). -/
def lutKind (p : PlanInputs) : LutKind :=
  if p.rgb2rgbPt then .none
  else
    match p.pipe with
    | .int => .int
    | .half => .half
    | .f32 => .none

/-- `plan.flags` (R40, R210 to R213). -/
def flags (p : PlanInputs) : Flags :=
  { rgb2rgbPt := p.rgb2rgbPt, lrgb2lrgbPt := p.lrgb2lrgbPt, yuv2yuvFast := p.yuv2yuvFast, yuv2yuvPt := p.yuv2yuvPt
    inLinear := p.inBlk.transfer.isLinear
    outExt := !p.outBlk.transfer.analytic
    dither := p.options.dither && p.pipe == .int }

/-- The primaries solver runs (R149, R215 step 1). -/
def runsPrimaries (p : PlanInputs) : Bool := !p.lrgb2lrgbPt && !p.rgb2rgbPt

/-! ### Phases C and D -/

/-- R215 step 1: the tables of the primaries solver, or the fill of R48 when it does not run. -/
def stepPrimaries (p : PlanInputs) : Except ErrCode (M3 Half × M3 Word) :=
  if p.runsPrimaries then
    match p.primaryTables with
    | none => .error .unknownPrimaries
    | some t => .ok t
  else .ok (identityTable, identityTableF)

/-- R215 step 2: the transfer checks of R129. -/
def stepTransfer (p : PlanInputs) : Except ErrCode Unit :=
  raiseIf (!p.rgb2rgbPt &&
    (!p.inBlk.transfer.linearisable || (p.outBlk.transfer.analytic && !p.outBlk.transfer.finite))) .unknownTransfer

/-- R215 step 3: the tables of the matrix solver, or the fill of R48 for the RGB family. -/
def stepMatrix (p : PlanInputs) : Except ErrCode (M3 Half × M3 Half × M3 Half) :=
  if p.isRgb then .ok (zeroTable, zeroTable, zeroTable)
  else
    match p.matrixTables (p.resolvedRange .input) (p.resolvedRange .output) p.yuv2yuvFast with
    | none => .error .unknownMatrix
    | some t => .ok t

/-- R215 step 4: the LUT pair (lin, delin), or empty tables when none is built (R48). -/
def stepLuts (p : PlanInputs) (mode : Rounding) (draw : Nat) : Except ErrCode (List Half × List Half) :=
  match p.lutKind with
  | .none => .ok ([], [])
  | .int =>
    match intLuts draw p.inBlk.transfer p.outBlk.transfer (!p.outBlk.transfer.analytic) with
    | none => .error .unknownTransfer
    | some t => .ok t
  | .half =>
    .ok (halfLin mode draw p.inBlk.transfer, halfDelin mode draw p.outBlk.transfer (!p.outBlk.transfer.analytic))

/-- `rgb_stride` of R214: a row of scratch, in multiples of 32 bytes. -/
def rgbStride (p : PlanInputs) : Nat :=
  32 * ((p.frameW.toNat * (if p.pipe == .f32 then 4 else 2) + 31) / 32)

/-- The capacity check of R214. -/
def checkCapacity (p : PlanInputs) (pr : Params) : Except ErrCode Unit :=
  raiseIf (decide (pr.maxWidth < p.frameW.toNat) || decide (pr.maxHeight < p.frameH.toNat)
    || decide (pr.scratchBytes < 3 * p.rgbStride * p.frameH.toNat)) .outOfMemory

/-- The plan storage after a PLAN that succeeds (R216), from the tables of phase C. -/
def assemble (p : PlanInputs) (prim : M3 Half × M3 Word) (mat : M3 Half × M3 Half × M3 Half) (luts : List Half × List Half) :
    Plan :=
  { flags := p.flags, pipe := p.pipe, lutKind := p.lutKind
    rangeIn := p.resolvedRange .input, rangeOut := p.resolvedRange .output
    kernelIn := p.inFmt.kernel, kernelOut := p.outFmt.kernel
    built := ⟨p.runsPrimaries, !p.isRgb, !p.isRgb && p.yuv2yuvFast, p.lutKind != .none⟩
    yuv2rgb := mat.1, rgb2yuv := mat.2.1, yuv2yuv := mat.2.2
    lrgb2lrgb := prim.1, lrgb2lrgbf := prim.2
    yuvOffsetIn := BitVec.ofNat 16 ((p.resolvedRange .input).offset p.inFmt.d)
    yuvOffsetOut := BitVec.ofNat 16 ((p.resolvedRange .output).offset p.outFmt.d)
    linLut := luts.1, delinLut := luts.2
    src := p }

/-- The plan PLAN builds from its inputs, or the code it raises: phases A, B, C and D in the order of R202. -/
def buildPlan (p : PlanInputs) (pr : Params) (draw : Nat) : Except ErrCode Plan := do
  p.checkFront
  p.checkDimensions
  let prim ← p.stepPrimaries
  p.stepTransfer
  let mat ← p.stepMatrix
  let luts ← p.stepLuts pr.f2h draw
  p.checkCapacity pr
  pure (p.assemble prim mat luts)

end PlanInputs

/-- The table PLAN_INFO of R34, as a number. -/
def Pipe.code : Pipe → Nat
  | .int => 0
  | .half => 1
  | .f32 => 2

def LutKind.code : LutKind → Nat
  | .none => 0
  | .int => 1
  | .half => 2

def Range.code : Range → Nat
  | .notApplicable => 0
  | .tv => 1
  | .pc => 2

/-- PLAN_INFO of a valid plan (R34). -/
def Plan.info (p : Plan) : Word :=
  BitVec.ofNat 32 (bit p.flags.rgb2rgbPt + 2 * bit p.flags.lrgb2lrgbPt + 4 * bit p.flags.yuv2yuvFast + 8 * bit p.flags.yuv2yuvPt
    + 16 * bit p.flags.inLinear + 32 * bit p.flags.outExt + 2 ^ 6 * p.pipe.code + 2 ^ 8 * p.rangeIn.code
    + 2 ^ 10 * p.rangeOut.code + 2 ^ 12 * p.lutKind.code + 2 ^ 14 * p.kernelIn.depthIdx.toNat + 2 ^ 16 * p.kernelIn.ssIdx.toNat
    + 2 ^ 18 * p.kernelOut.depthIdx.toNat + 2 ^ 20 * p.kernelOut.ssIdx.toNat)

end Sys2Proof.Machine
end

