-- ==== Sys2Proof/Machine/ConvertInteger.lean ====
section
/-! DEFINITION. The integer convert datapath (46_convert_integer.md): values of output samples from the plan and the input
samples. -/

namespace Sys2Proof.Machine

/-- Where a datapath reads its input: frame memory, the IN plane registers and the plan. -/
structure Source where
  mem : Memory
  planes : Quad PlaneReg
  plan : Plan
deriving DecidableEq, Repr, Inhabited

/-- ReadSample(IN, p, x, y) of R76: unsigned, container high bits not masked (R77). -/
def Source.sample (c : Source) (p : Fin 4) (x y : Nat) : Nat :=
  c.mem.read ((c.planes.get p).addr c.plan.src.inFmt.bps x y) c.plan.src.inFmt.bps

/-- `C·v` for an integer table row and a vector, exact (R15). -/
def rowDot (r : V3 Half) (v : V3 Int) : Int := r.c0.toInt * v.c0 + r.c1.toInt * v.c1 + r.c2.toInt * v.c2

/-- The offset-corrected (Y, U, V) of luma sample (x, y) with nearest-neighbour chroma (R241, R242, R252). -/
def Source.yuvAt (c : Source) (x y : Nat) : V3 Int :=
  let f := c.plan.src.inFmt
  ⟨(c.sample 0 x y : Int) - c.plan.yuvOffsetIn.toNat,
   (c.sample 1 (x / 2 ^ f.cw) (y / 2 ^ f.ch) : Int) - cbias f.d,
   (c.sample 2 (x / 2 ^ f.cw) (y / 2 ^ f.ch) : Int) - cbias f.d⟩

/-- R242: one output of `yuv2rgb_px`. -/
def yuvToRgb (t : M3 Half) (d : Nat) (v : V3 Int) : V3 Int :=
  t.map fun r => clipInt16 (asr (rowDot r v + 2 ^ (d - 2)) (d - 1))

/-- R244: the primary map on an int16 triple. -/
def mapPrimaries (t : M3 Half) (v : V3 Int) : V3 Int := t.map fun r => clipInt16 (asr (rowDot r v + 8192) 14)

/-- Stages 2 to 4 of R240 on one pixel: linearise (R243), map (R244), delinearise (R245). -/
def Plan.shapeInt (p : Plan) (v : V3 Int) : V3 Int :=
  if p.flags.rgb2rgbPt then v
  else
    let l := v.map (lutLookup p.linLut)
    let m := if p.flags.lrgb2lrgbPt then l else mapPrimaries p.lrgb2lrgb l
    m.map (lutLookup p.delinLut)

/-- The scratch triple S[·][y][x] of R240. -/
def Source.rgbAt (c : Source) (x y : Nat) : V3 Int :=
  c.plan.shapeInt (yuvToRgb c.plan.yuv2rgb c.plan.src.inFmt.d (c.yuvAt x y))

/-- Component-wise sum of two triples. -/
def addV (a b : V3 Int) : V3 Int := ⟨a.c0 + b.c0, a.c1 + b.c1, a.c2 + b.c2⟩

/-- `csrc(xc, yc)` of R247. NEAREST takes the top-left pixel of the block; AVERAGE the mean of its 2 or 4 pixels. -/
def Source.chromaSrc (c : Source) (mode : ChromaDown) (xc yc : Nat) : V3 Int :=
  let f := c.plan.src.outFmt
  match mode with
  | .nearest => c.rgbAt (xc * 2 ^ f.cw) (yc * 2 ^ f.ch)
  | .average =>
    if f.cw = 0 then c.rgbAt xc yc
    else if f.ch = 0 then
      (addV (c.rgbAt (2 * xc) yc) (c.rgbAt (2 * xc + 1) yc)).map fun t => asr (t + 1) 1
    else
      (addV (addV (c.rgbAt (2 * xc) (2 * yc)) (c.rgbAt (2 * xc + 1) (2 * yc)))
        (addV (c.rgbAt (2 * xc) (2 * yc + 1)) (c.rgbAt (2 * xc + 1) (2 * yc + 1)))).map fun t => asr (t + 2) 2

/-- The RGB triple fed to output plane `p` at (x, y): `src_c` of R251, and the operands of R246 and R248. -/
def Source.outSrc (c : Source) (mode : ChromaDown) (p : Fin 4) (x y : Nat) : V3 Int :=
  if p = 0 then c.rgbAt x y else c.chromaSrc mode x y

/-- The output offset of plane `p`: off_out for luma, cb_out for chroma (R246, R248, R251). -/
def Plan.offsetOut (p : Plan) (pl : Fin 4) : Int :=
  if pl = 0 then (p.yuvOffsetOut.toNat : Int) else (cbias p.src.outFmt.d : Int)

/-- `sh = 29 − d_out` of R246. -/
def Plan.shiftOut (p : Plan) : Nat := 29 - p.src.outFmt.d

/-- R246 and R248: an output sample without dither. -/
def Source.rgbToYuvSample (c : Source) (mode : ChromaDown) (p : Fin 4) (x y : Nat) : Int :=
  let sh := c.plan.shiftOut
  clipPixel c.plan.src.outFmt.d
    (c.plan.offsetOut p + asr (rowDot (c.plan.rgb2yuv.get p) (c.outSrc mode p x y) + 2 ^ (sh - 1)) sh)

/-- R252: an output sample of the composed YUV→YUV kernel. For chroma, the luma term is the top-left sample of the block. -/
def Source.yuvToYuvSample (c : Source) (p : Fin 4) (x y : Nat) : Int :=
  let f := c.plan.src.inFmt
  let v := if p = 0 then c.yuvAt x y else c.yuvAt (x * 2 ^ f.cw) (y * 2 ^ f.ch)
  let sh := 14 + f.d - c.plan.src.outFmt.d
  clipPixel c.plan.src.outFmt.d (c.plan.offsetOut p + asr (rowDot (c.plan.yuv2yuv.get p) v + 2 ^ (sh - 1)) sh)

/-! ### FSB dither (R250, R251) -/

/-- A row of the dither error buffers, index −1 first: `pw + 4` elements (R53). -/
abbrev ErrRow := List Int

/-- Every element at `rnd` (R250). -/
def ErrRow.init (pw : Nat) (rnd : Int) : ErrRow := List.replicate (pw + 4) rnd

/-- Element `i ≥ −1`, given as `i + 1`. -/
def ErrRow.at (e : ErrRow) (i1 : Nat) : Int := e.getD i1 0

/-- `e[i] += v`, the index given as `i + 1`. -/
def ErrRow.add (e : ErrRow) (i1 : Nat) (v : Int) : ErrRow := e.set i1 (e.at i1 + v)

/-- The current and the next error row (R251). -/
structure FsbRows where
  cur : ErrRow
  nxt : ErrRow
deriving DecidableEq, Repr, Inhabited

/-- `asr(k·diff + 8, 4)` (R251). -/
def fsbShare (k diff : Int) : Int := asr (k * diff + 8) 4

/-- One pixel of `fsb_plane` (R251): `sum` is K·(r, g, b), `off` and `d` the plane's output offset and depth. Answers the output
sample and the error rows after it. -/
def fsbPixel (d : Nat) (off : Int) (sh : Nat) (sum : Int) (x : Nat) (e : FsbRows) : Int × FsbRows :=
  let rnd : Int := 2 ^ (sh - 1)
  let acc := sum + e.cur.at (x + 1)
  let diff := acc % 2 ^ sh - rnd
  (clipPixel d (off + asr acc sh),
   { cur := (e.cur.add (x + 2) (fsbShare 7 diff)).set (x + 1) rnd
     nxt := ((e.nxt.add x (fsbShare 3 diff)).add (x + 1) (fsbShare 5 diff)).add (x + 2) (fsbShare 1 diff) })

/-- The pixels of a row from column `x` on: their sums K·(r, g, b) are `sums`. -/
def fsbRow (d : Nat) (off : Int) (sh : Nat) (e : FsbRows) : Nat → List Int → List Int × FsbRows
  | _, [] => ([], e)
  | x, s :: rest =>
    let r := fsbPixel d off sh s x e
    let t := fsbRow d off sh r.2 (x + 1) rest
    (r.1 :: t.1, t.2)

/-- The rows of a plane, top to bottom, the error rows swapped after each (R251). -/
def fsbRows (d : Nat) (off : Int) (sh : Nat) (e : FsbRows) : List (List Int) → List Int
  | [] => []
  | row :: rest =>
    let r := fsbRow d off sh e 0 row
    r.1 ++ fsbRows d off sh { cur := r.2.nxt, nxt := r.2.cur } rest

/-- The dithered samples of plane `p` for the slice [h1, h2), in the order of its samples (R251). -/
def Source.fsbPlane (c : Source) (mode : ChromaDown) (h1 h2 : Nat) (p : Fin 4) : List Int :=
  let f := c.plan.src.outFmt
  let pw := f.planeWidth p c.plan.src.frameW.toNat
  let sh := c.plan.shiftOut
  let init := ErrRow.init pw (2 ^ (sh - 1))
  let rows := (List.range' (f.planeRow p h1) (f.planeRow p h2 - f.planeRow p h1)).map fun y =>
    (List.range pw).map fun x => rowDot (c.plan.rgb2yuv.get p) (c.outSrc mode p x y)
  fsbRows f.d (c.plan.offsetOut p) sh ⟨init, init⟩ rows

end Sys2Proof.Machine
end

