-- ==== Sys2Proof/Machine/ConvertFloat.lean ====
section
/-! DEFINITION. The float convert datapaths (47_convert_float.md): bit patterns of output samples. -/

namespace Sys2Proof.Machine

/-- The component of the primary map, in (R, G, B) order, that plane `p` of a G-B-R(-A) frame holds (R270): plane 2 is R,
plane 0 is G, plane 1 is B. -/
def componentOf (p : Fin 4) : Nat :=
  match p with
  | 0 => 1
  | 1 => 2
  | _ => 0

/-- The plane that holds component `i` of (R, G, B) (R270). -/
def planeOf (i : Nat) : Fin 4 :=
  match i with
  | 0 => 2
  | 1 => 0
  | _ => 1

/-- Where a NaN of the float paths is drawn (log 3): one place for each sample (p, x, y) and each of its four NaN results. -/
def pixelSite (p : Fin 4) (x y k : Nat) : Nat := ((y * 65536 + x) * 4 + p.val) * 4 + k

/-- `F·u` of R273 and R276 for component `i`: every multiply and add in binary32, left to right. -/
def mapFloat (t : M3 Word) (u : V3 Fl) (i : Nat) : Fl := Fl.dot b32 ((t.get i).map Fl.of32) u

/-- R272: lin_lut at the pattern of sample (x, y) of plane `p`. -/
def Source.halfLinAt (c : Source) (p : Fin 4) (x y : Nat) : Half := lutEntry c.plan.linLut (c.sample p x y)

/-- R272 and R273: the linear pattern l' of plane `p`, mapped unless lrgb2lrgb_passthrough. -/
def Source.halfMapped (c : Source) (mode : Rounding) (draw : Nat) (p : Fin 4) (x y : Nat) : Half :=
  if c.plan.flags.lrgb2lrgbPt then c.halfLinAt p x y
  else
    let u : V3 Fl := V3.ofFn fun i => Fl.of16 (c.halfLinAt (planeOf i) x y)
    Fl.to16 mode (Config.nanDraw draw (pixelSite p x y 0)) (mapFloat c.plan.lrgb2lrgbf u (componentOf p))

/-- R274: the output pattern of the full half path. -/
def Source.halfFullSample (c : Source) (mode : Rounding) (draw : Nat) (p : Fin 4) (x y : Nat) : Nat :=
  (lutEntry c.plan.delinLut (c.halfMapped mode draw p x y).toNat).toNat

/-- R275: half delinearise only. -/
def Source.halfDelinSample (c : Source) (p : Fin 4) (x y : Nat) : Nat :=
  (lutEntry c.plan.delinLut (c.sample p x y)).toNat

/-- The binary32 value of a sample (R276, R277). -/
def Source.f32At (c : Source) (p : Fin 4) (x y : Nat) : Fl := Fl.ofBits b32 (c.sample p x y)

/-- `l_p` of R276: fl32 of L_in on the widened sample. -/
def Source.f32Lin (c : Source) (draw : Nat) (p : Fin 4) (x y : Nat) : Fl :=
  Fl.fl32 (linFloat (Config.nanDraw draw (pixelSite p x y 1)) c.plan.src.inBlk.transfer (c.f32At p x y))

/-- R276: the linear value of plane `p`, mapped unless lrgb2lrgb_passthrough. -/
def Source.f32Mapped (c : Source) (draw : Nat) (p : Fin 4) (x y : Nat) : Fl :=
  if c.plan.flags.lrgb2lrgbPt then c.f32Lin draw p x y
  else mapFloat c.plan.lrgb2lrgbf (V3.ofFn fun i => c.f32Lin draw (planeOf i) x y) (componentOf p)

/-- The output pattern of D_out on a binary32 value: rounded to binary32 once (R276, R277, D21). -/
def Source.f32Out (c : Source) (draw : Nat) (p : Fin 4) (x y : Nat) (l : Fl) : Nat :=
  (Fl.to32 (Config.nanDraw draw (pixelSite p x y 2)) (delinFloat c.plan.flags.outExt c.plan.src.outBlk.transfer l)).toNat

/-- R276: the output pattern of the full single path. -/
def Source.f32FullSample (c : Source) (draw : Nat) (p : Fin 4) (x y : Nat) : Nat :=
  c.f32Out draw p x y (c.f32Mapped draw p x y)

/-- R277: single delinearise only. -/
def Source.f32DelinSample (c : Source) (draw : Nat) (p : Fin 4) (x y : Nat) : Nat :=
  c.f32Out draw p x y (c.f32At p x y)

end Sys2Proof.Machine
end

