-- ==== Sys2Proof/Machine/Convert.lean ====
section
/-! DEFINITION. CONVERT_SLICE's path selection (45_planner_and_commands.md R225), its sample writes and what they do to frame
memory (20_memory.md R80, R82). -/

namespace Sys2Proof.Machine

/-- The paths of R225's table. -/
inductive Path where
  /-- copy of every plane of the format (R226, R279) -/
  | copy
  /-- composed YUV→YUV kernel (R252) -/
  | yuv2yuv
  /-- full integer pipeline (R240) -/
  | intFull
  /-- half delinearise only (R275) -/
  | halfDelin
  /-- half lin, map, delin (R272 to R274) -/
  | halfFull
  /-- single delinearise only (R277) -/
  | f32Delin
  /-- single closed-form path (R276) -/
  | f32Full
deriving DecidableEq, Repr, Inhabited

/-- R225: the first condition that holds, by pipe. -/
def Plan.path (p : Plan) : Path :=
  match p.pipe with
  | .int => if p.flags.yuv2yuvPt then .copy else if p.flags.yuv2yuvFast then .yuv2yuv else .intFull
  | .half => if p.flags.rgb2rgbPt then .copy else if p.flags.inLinear && p.flags.lrgb2lrgbPt then .halfDelin else .halfFull
  | .f32 => if p.flags.rgb2rgbPt then .copy else if p.flags.inLinear && p.flags.lrgb2lrgbPt then .f32Delin else .f32Full

/-- The value a path writes to sample (x, y) of output plane `p`; the alpha plane is copied on every path (R278). Dithered planes
are `Source.fsbPlane`'s. -/
def Source.outSample (c : Source) (pr : Params) (draw : Nat) (path : Path) (p : Fin 4) (x y : Nat) : Nat :=
  if p = 3 then c.sample p x y
  else
    match path with
    | .copy => c.sample p x y
    | .yuv2yuv => (c.yuvToYuvSample p x y).toNat
    | .intFull => (c.rgbToYuvSample pr.chromaDown p x y).toNat
    | .halfDelin => c.halfDelinSample p x y
    | .halfFull => c.halfFullSample pr.f2h draw p x y
    | .f32Delin => c.f32DelinSample draw p x y
    | .f32Full => c.f32FullSample draw p x y

/-- The full integer pipeline dithers (R250); the composed kernel does not, whatever plan.dither holds (R252). -/
def Plan.ditherNow (p : Plan) : Bool := p.flags.dither && p.path == .intFull

/-- The values of the output samples of plane `p`, in the order of its samples. -/
def Source.planeValues (c : Source) (pr : Params) (draw h1 h2 : Nat) (p : Fin 4) : List Nat :=
  if c.plan.ditherNow then (c.fsbPlane pr.chromaDown h1 h2 p).map Int.toNat
  else (c.plan.src.outFmt.samples c.plan.src.frameW.toNat h1 h2 p).map fun xy => c.outSample pr draw c.plan.path p xy.1 xy.2

/-- The sample writes of the slice, each an address and a value (R249: every sample of the write set exactly once). -/
def Source.sliceWrites (c : Source) (pr : Params) (draw : Nat) (out : Quad PlaneReg) (h1 h2 : Nat) : List (Nat × Nat) :=
  let f := c.plan.src.outFmt
  f.planes.flatMap fun p =>
    ((f.samples c.plan.src.frameW.toNat h1 h2 p).map fun xy => (out.get p).addr f.bps xy.1 xy.2).zip
      (c.planeValues pr draw h1 h2 p)

/-- WriteSample of each (address, value) in turn (R76). -/
def Memory.writeSamples (m : Memory) (bps : Nat) (ws : List (Nat × Nat)) : Memory :=
  ws.foldl (fun acc w => acc.write w.1 bps w.2) m

/-- The sets of the slice do not overlap: no byte is written twice and none is both read and written (R82). -/
def Plan.setsDisjoint (p : Plan) (r : Regs) : Bool :=
  decide (p.writeSet r).Nodup && (p.writeSet r).all fun a => !(p.readSet r).contains a

/-- A byte of the slice's read or write set lies in memory with side effects (R79, I-4). -/
def Plan.touchesSideEffects (p : Plan) (pr : Params) (r : Regs) : Bool :=
  (p.readSet r).any pr.sideEffect || (p.writeSet r).any pr.sideEffect

/-- h1 or h2 odd, h1 > h2, or h2 > H, with H as the PLAN that built the plan read it (R224). -/
def Plan.badSlice (p : Plan) (r : Regs) : Bool :=
  r.h1 % 2 == 1 || r.h2 % 2 == 1 || decide (r.h2 < r.h1) || decide (p.src.frameH.toNat < r.h2)

/-- Where the datapaths of a running CONVERT_SLICE read. -/
def State.source (s : State) : Source := ⟨s.mem, s.operands.inPlanes, s.plan⟩

/-- Frame memory after the slice: the writes of its path, or, when the sets overlap or the host disturbed them, any value in
every byte of the write set (R82, R84, I-5). -/
def State.sliceMemory (s : State) : Memory :=
  let r := s.operands
  if s.plan.setsDisjoint r && !s.disturbed then
    s.mem.writeSamples s.plan.src.outFmt.bps (s.source.sliceWrites s.params s.draws r.outPlanes r.h1 r.h2)
  else s.mem.scramble s.draws (s.plan.writeSet r)

/-- The write set of the command that is running, empty when it is no CONVERT_SLICE or will raise an error (R80, R224). -/
def State.runningSet (s : State) (set : Plan → Regs → List Nat) : List Nat :=
  match s.seq with
  | .idle => []
  | .busy w ops =>
    match decode w with
    | .ok .convertSlice => if s.planValid && !s.plan.badSlice ops then set s.plan ops else []
    | _ => []

end Sys2Proof.Machine
end

