-- ==== Sys2Proof/Machine/PlannerCommands.lean ====
section
/-! DEFINITION. The commands NOP, PLAN, INVALIDATE and CONVERT_SLICE (45_planner_and_commands.md R201, R202, R220, R224). -/

namespace Sys2Proof.Machine

/-- NOP (R201): nothing but its completion. -/
def execNop (s : State) : Host.Outcome State Fault Refusal := .next s.finish

/-- The warning of R209: WARN and warned_once, the first time a PLAN sees an Unspecified range. -/
def State.warnRange (s : State) (p : PlanInputs) : State :=
  if p.seesUnspecifiedRange && !s.warnedOnce then { s with warn := true, warnedOnce := true } else s

/-- Plan storage after a PLAN that succeeded (R202, R216); the derived-value caches copy its inputs (R51, log 9). -/
def State.storePlan (s : State) (p : Plan) : State :=
  { s with planValid := true, plan := p, caches := some p.src }

/-- Plan storage after a PLAN that failed: PLAN_VALID = 0 and any content (R216, I-1); nothing stays cached (log 9). -/
def State.losePlan (s : State) : State :=
  { s with planValid := false, plan := Config.freePlan s.draws, caches := none }

/-- PLAN (R202, R216). -/
def execPlan (s : State) : Host.Outcome State Fault Refusal :=
  let p := s.operands.inputs
  let t := s.warnRange p
  match p.buildPlan s.params s.draws with
  | .error c => .next (t.losePlan.raise c).bumpDraws
  | .ok plan => .next (t.storePlan plan).finish.bumpDraws

/-- INVALIDATE (R220): PLAN_VALID is cleared and the derived-value caches dropped. -/
def execInvalidate (s : State) : Host.Outcome State Fault Refusal :=
  .next { s.clearPlanValid with caches := none }.finish

/-- The state after a slice's datapath: frame memory written, scratch and dither buffers with any content (R52, R53, I-2). -/
def State.writeSlice (s : State) : State :=
  { s with mem := s.sliceMemory, scratch := Config.freeScratch s.draws }

/-- CONVERT_SLICE (R224). On memory with side effects it is refused (R79, I-4); a host's CMD write is refused before it runs
(`State.hostWrite`), so that this stop is for a word placed running in another way. -/
def execConvertSlice (s : State) : Host.Outcome State Fault Refusal :=
  let r := s.operands
  if !s.planValid then .next (s.raise .notPlanned)
  else if s.plan.badSlice r then .next (s.raise .invalidSlice)
  else if r.h1 = r.h2 then .next s.finish
  else if s.plan.touchesSideEffects s.params r then .refused .sideEffectPlane
  else .next s.writeSlice.finish.bumpDraws

end Sys2Proof.Machine
end

