-- ==== Sys2Proof/Machine/TransferCommands.lean ====
section
/-! DEFINITION. The commands TF_EVAL_D and TF_EVAL_L (41_transfer_function_core.md R126, R127). -/

namespace Sys2Proof.Machine

/-- Where TF_EVAL draws the payload of its result (0) and of a NaN base of L (1) (log 3). -/
def tfSite (k : Nat) : Nat := k

/-- R126: the value of TF_EVAL_D on a block and an argument, or `none` for UnknownTransfer. -/
def tfDelin (side : Side) (b : Blk) (x : DWord) : Option Fl :=
  if !b.trcValid then none
  else if !b.transfer.analytic then
    match side with
    | .input => none
    | .output => some (delinOut true b.transfer x)
  else if !b.transfer.finite then none
  else some (delinOut false b.transfer x)

/-- R127: the value of TF_EVAL_L, or `none` for UnknownTransfer. -/
def tfLin (draw : Nat) (b : Blk) (x : DWord) : Option Fl :=
  if !b.trcValid then none
  else if !b.transfer.linearisable then none
  else some (linearise (Config.nanDraw draw (tfSite 1)) b.transfer (Fl.of64 x))

/-- Completion of a TF_EVAL command: TF_RES takes the bits of the value, a NaN's sign and payload drawn (I-9, log 18); on an error
TF_RES keeps its value (R31). -/
def State.finishTf (s : State) (r : Option Fl) : State :=
  match r with
  | none => s.raise .unknownTransfer
  | some v => { s with tfRes := Fl.to64 (Config.nanDraw s.draws (tfSite 0)) v }.finish.bumpDraws

/-- TF_EVAL_D (R126). -/
def execTfEvalD (side : Side) (s : State) : Host.Outcome State Fault Refusal :=
  .next (s.finishTf (tfDelin side (s.operands.inputs.blk side) s.operands.tfArg))

/-- TF_EVAL_L (R127). -/
def execTfEvalL (side : Side) (s : State) : Host.Outcome State Fault Refusal :=
  .next (s.finishTf (tfLin s.draws (s.operands.inputs.blk side) s.operands.tfArg))

end Sys2Proof.Machine
end

