-- ==== Sys2Proof/Machine/Dispatch.lean ====
section
/-! DEFINITION. One arm per command. -/

namespace Sys2Proof.Machine

def exec (i : Instr) (s : State) : Host.Outcome State Fault Refusal :=
  match i with
  | .nop => Sys2Proof.Machine.execNop s
  | .plan => Sys2Proof.Machine.execPlan s
  | .convertSlice => Sys2Proof.Machine.execConvertSlice s
  | .invalidate => Sys2Proof.Machine.execInvalidate s
  | .tfEvalD side => Sys2Proof.Machine.execTfEvalD side s
  | .tfEvalL side => Sys2Proof.Machine.execTfEvalL side s

end Sys2Proof.Machine
end

