-- ==== Sys2Proof/Machine/HostPort.lean ====
section
/-! DEFINITION. The host's side of the engine: the register map (10_state.md R22 to R39), register access rules (R56), host
accesses to frame memory (20_memory.md R84) and the reset input (70_reset_and_hazards.md R330). -/

namespace Sys2Proof.Machine

/-- The registers of the map of R22. `block side k` is the word at byte offset 4k of a descriptor block (R35), `coef k` the word
at byte offset 4k of the coefficient readback window (R38). -/
inductive Reg where
  | id
  | version
  | cmd
  | status
  | irqEn
  | options
  | frameW
  | frameH
  | inFmt
  | outFmt
  | sliceH1
  | sliceH2
  | tfArgLo
  | tfArgHi
  | tfResLo
  | tfResHi
  | base (side : Side) (p : Fin 4)
  | stride (side : Side) (p : Fin 4)
  | lutIndex
  | lutData
  | planInfo
  | block (side : Side) (k : Nat)
  | coef (k : Nat)
  | reserved
deriving DecidableEq, Repr, Inhabited

/-- The registers below 0x040 and those from 0x080, one word each (R22). -/
def singleRegs : List (Nat × Reg) :=
  [(0x000, .id), (0x004, .version), (0x008, .cmd), (0x00C, .status), (0x010, .irqEn), (0x014, .options), (0x018, .frameW),
   (0x01C, .frameH), (0x020, .inFmt), (0x024, .outFmt), (0x028, .sliceH1), (0x02C, .sliceH2), (0x030, .tfArgLo),
   (0x034, .tfArgHi), (0x038, .tfResLo), (0x03C, .tfResHi), (0x080, .lutIndex), (0x084, .lutData), (0x088, .planInfo)]

/-- The plane index of a word offset within a group of four registers. -/
def planeIndex (off : Nat) : Fin 4 := ⟨off / 4 % 4, Nat.mod_lt _ (by decide)⟩

/-- The register at an aligned byte offset (R22). -/
def Reg.ofOffset (off : Nat) : Reg :=
  if 0x040 ≤ off ∧ off < 0x080 then
    if off < 0x050 then .base .input (planeIndex off)
    else if off < 0x060 then .stride .input (planeIndex off)
    else if off < 0x070 then .base .output (planeIndex off)
    else .stride .output (planeIndex off)
  else if 0x100 ≤ off ∧ off < 0x180 then .block .input ((off - 0x100) / 4)
  else if 0x180 ≤ off ∧ off < 0x200 then .block .output ((off - 0x180) / 4)
  else if 0x200 ≤ off ∧ off < 0x348 then .coef ((off - 0x200) / 4)
  else (singleRegs.lookup off).getD .reserved

/-- Entry (k / 3, k mod 3) of an integer table, sign-extended (R38). -/
def tableWord (t : M3 Half) (k : Nat) : Word := ((t.get (k / 3)).get (k % 3)).signExtend 32

/-- The coefficient readback window of a valid plan at word offset `k` (R38); words it does not list read 0 (log 16). -/
def Plan.coefWord (p : Plan) (k : Nat) : Word :=
  if k = 80 then p.yuvOffsetIn.setWidth 32
  else if k = 81 then p.yuvOffsetOut.setWidth 32
  else if k % 16 < 9 then
    match k / 16 with
    | 0 => tableWord p.yuv2rgb (k % 16)
    | 1 => tableWord p.rgb2yuv (k % 16)
    | 2 => tableWord p.yuv2yuv (k % 16)
    | 3 => tableWord p.lrgb2lrgb (k % 16)
    | 4 => (p.lrgb2lrgbf.get (k % 16 / 3)).get (k % 16 % 3)
    | _ => 0
  else 0

/-- LUT_DATA of a valid plan (R33): delin in the high half, lin in the low half, 0 with no LUT or past an integer table. -/
def Plan.lutData (p : Plan) (i : Nat) : Word :=
  match p.lutKind with
  | .none => 0
  | .int => if intLutSize ≤ i then 0 else lutEntry p.delinLut i ++ lutEntry p.linLut i
  | .half => lutEntry p.delinLut i ++ lutEntry p.linLut i

/-- The value of a register (R22 to R38, R56). A read has no side effect. -/
def State.readReg (s : State) (r : Reg) : Word :=
  match r with
  | .id => 0x43534345
  | .version => 0x00070000
  | .cmd => 0
  | .status => s.status
  | .irqEn => s.irqEn.toWord
  | .options => s.regs.inputs.options.toWord
  | .frameW => s.regs.inputs.frameW.setWidth 32
  | .frameH => s.regs.inputs.frameH.setWidth 32
  | .inFmt => s.regs.inputs.inFmt.toWord
  | .outFmt => s.regs.inputs.outFmt.toWord
  | .sliceH1 => s.regs.sliceH1.setWidth 32
  | .sliceH2 => s.regs.sliceH2.setWidth 32
  | .tfArgLo => loWord s.regs.tfArg
  | .tfArgHi => hiWord s.regs.tfArg
  | .tfResLo => loWord s.tfRes
  | .tfResHi => hiWord s.tfRes
  | .base side p => ((s.regs.planes side).get p).base
  | .stride side p => ((s.regs.planes side).get p).stride
  | .lutIndex => s.lutIndex.setWidth 32
  | .lutData => if s.planValid then s.plan.lutData s.lutIndex.toNat else 0
  | .planInfo => if s.planValid then s.plan.info else 0
  | .block side k => ((s.regs.inputs.blk side).readWord k).getD 0
  | .coef k => if s.planValid then s.plan.coefWord k else 0
  | .reserved => 0

namespace State

/-- The plan inputs changed by an accepted host write: PLAN_VALID is cleared, whatever was written (R39). -/
def setInputs (s : State) (f : PlanInputs → PlanInputs) : State :=
  { s with regs := { s.regs with inputs := f s.regs.inputs }, planValid := false }

/-- A register of R30 to R32 changed: not a plan input. -/
def setRegs (s : State) (f : Regs → Regs) : State := { s with regs := f s.regs }

/-- One plane register changed (R32). -/
def setPlane (s : State) (side : Side) (p : Fin 4) (f : PlaneReg → PlaneReg) : State :=
  match side with
  | .input => s.setRegs fun r => { r with inPlanes := r.inPlanes.set p (f (r.inPlanes.get p)) }
  | .output => s.setRegs fun r => { r with outPlanes := r.outPlanes.set p (f (r.outPlanes.get p)) }

/-- One word of a descriptor block written; the reserved words are RAZ/WI, and an ignored write clears nothing (R56, log 16). -/
def setBlock (s : State) (side : Side) (k : Nat) (w : Word) : State :=
  if ((s.regs.inputs.blk side).readWord k).isNone then s
  else
    match side with
    | .input => s.setInputs fun p => { p with inBlk := p.inBlk.writeWord k w }
    | .output => s.setInputs fun p => { p with outBlk := p.outBlk.writeWord k w }

/-- A write accepted while seq = IDLE to a register other than CMD, STATUS and IRQ_EN (R22, R56): read-only and reserved
registers ignore it. -/
def writeIdle (s : State) (r : Reg) (w : Word) : State :=
  match r with
  | .options => s.setInputs fun p => { p with options := .ofWord w }
  | .frameW => s.setInputs fun p => { p with frameW := w.setWidth 16 }
  | .frameH => s.setInputs fun p => { p with frameH := w.setWidth 16 }
  | .inFmt => s.setInputs fun p => { p with inFmt := .ofWord w }
  | .outFmt => s.setInputs fun p => { p with outFmt := .ofWord w }
  | .sliceH1 => s.setRegs fun g => { g with sliceH1 := w.setWidth 16 }
  | .sliceH2 => s.setRegs fun g => { g with sliceH2 := w.setWidth 16 }
  | .tfArgLo => s.setRegs fun g => { g with tfArg := setLo g.tfArg w }
  | .tfArgHi => s.setRegs fun g => { g with tfArg := setHi g.tfArg w }
  | .base side p => s.setPlane side p fun g => { g with base := w }
  | .stride side p => s.setPlane side p fun g => { g with stride := w }
  | .lutIndex => { s with lutIndex := w.setWidth 16 }
  | .block side k => s.setBlock side k w
  | .id => s
  | .version => s
  | .cmd => s
  | .status => s
  | .irqEn => s
  | .tfResLo => s
  | .tfResHi => s
  | .lutData => s
  | .planInfo => s
  | .coef _ => s
  | .reserved => s

/-- A host write of a word to a register (R24, R25, R26, R56, R200, R306). -/
def writeReg (s : State) (r : Reg) (w : Word) : State :=
  match r with
  | .cmd => if s.isBusy then s.refuseBusy else s.accept w
  | .status => s.writeStatus w
  | .irqEn => { s with irqEn := .ofWord w }
  | r => if s.isBusy then s else s.writeIdle r w

/-- A host write of one byte of frame memory; into the running command's read or write set, it leaves that command's write set
open (R84, R334, I-5). -/
def hostMemWrite (s : State) (a : Nat) (v : Byte) : State :=
  { s with
    mem := s.mem.setByte a v
    disturbed := s.disturbed || (s.runningSet Plan.readSet).contains a || (s.runningSet Plan.writeSet).contains a }

/-- A host read of one byte of frame memory; a byte of the running command's write set has no given value (R84, I-18). -/
def hostMemRead (s : State) (a : Nat) : State :=
  if (s.runningSet Plan.writeSet).contains a then
    { s with hostData := (Config.freeByte s.draws a).setWidth 32, draws := s.draws + 1 }
  else { s with hostData := (s.mem.byte a).setWidth 32 }

/-- The reset input (R330): the values of R55, frame memory kept but for the write set of an abandoned command (I-6), plan
storage and scratch with any content (I-1, I-2). The parameters and the model's own fields go on. -/
def resetInput (s : State) : State :=
  { State.reset with
    params := s.params
    plan := Config.freePlan s.draws
    scratch := Config.freeScratch s.draws
    mem := s.mem.scramble s.draws (s.runningSet Plan.writeSet)
    agenda := s.agenda
    hostData := s.hostData
    draws := s.draws + 1 }

/-- The running command is a CONVERT_SLICE with a byte of its read or write set in memory with side effects (R79, I-4). -/
def runsOnDevice (s : State) : Bool :=
  (s.runningSet Plan.readSet).any s.params.sideEffect || (s.runningSet Plan.writeSet).any s.params.sideEffect

/-- A host write of the one shape R56 allows. A CMD write that would launch a conversion of memory with side effects is refused
there and then (R79: "a model refuses such a launch", I-4). -/
def hostWrite (r : Reg) (w : Word) (s : State) : Host.Outcome State Fault Refusal :=
  if !s.isBusy && (s.writeReg r w).runsOnDevice then .refused .sideEffectPlane else .next (s.writeReg r w)

/-- Whether a register access has the one shape R56 gives a meaning: four bytes, aligned. -/
def goodAccess (off : BitVec 12) (size : Nat) : Bool := size == 4 && off.toNat % 4 == 0

/-- The size of the register block in bytes (R22, R70). -/
def blockSize : Nat := 0x400

/-- One host action (R342), on a state from whose agenda it has been taken. -/
def hostStep (op : HostOp) (s : State) : Host.Outcome State Fault Refusal :=
  match op with
  | .regWrite off size w =>
    if blockSize ≤ off.toNat then .fault .outsideRegisterBlock
    else if goodAccess off size then s.hostWrite (Reg.ofOffset off.toNat) w
    else .refused .badRegisterAccess
  | .regRead off size =>
    if blockSize ≤ off.toNat then .fault .outsideRegisterBlock
    else if goodAccess off size then .next { s with hostData := s.readReg (Reg.ofOffset off.toNat) }
    else .refused .badRegisterAccess
  | .memWrite a v => if s.params.sideEffect a.toNat then .refused .hostSideEffectAccess else .next (s.hostMemWrite a.toNat v)
  | .memRead a => if s.params.sideEffect a.toNat then .refused .hostSideEffectAccess else .next (s.hostMemRead a.toNat)
  | .wait => .next s
  | .reset => .next s.resetInput

end State

end Sys2Proof.Machine
end

