-- ==== Sys2Proof/Machine/Step.lean ====
section
/-! DEFINITION. One step of the machine: a host action or the engine's completion step (45_planner_and_commands.md R200). -/

namespace Sys2Proof.Machine

/-- The engine's turn: with a command accepted, it runs to its completion (R200); a word that is no legal command completes with
IllegalCommand (R93, R305). With none, the engine takes no step until the host writes CMD (R318, R331). -/
def engineStep (s : State) : Host.Outcome State Fault Refusal :=
  match s.seq with
  | .idle => .next s
  | .busy w _ =>
    match decode w with
    | .ok i => exec i s
    | .error _ => .next (s.raise .illegalCommand)

/-- One step. The head of the agenda says who moves (log 4); WAIT polls until the engine has completed (R106); with an empty
agenda the engine moves, so that a BUSY command completes (R339). -/
def step (s : State) : Host.Outcome State Fault Refusal :=
  match s.agenda with
  | [] => engineStep s
  | .engine :: _ => engineStep s.popAgenda
  | .host .wait :: _ => if s.isBusy then engineStep s else .next s.popAgenda
  | .host op :: _ => s.popAgenda.hostStep op

/-- The state in which the command word `w` has just been accepted (R200) and the engine moves next: the engine fetches no
commands (R87), so this acceptance is what places an instruction where the next step runs it (log 4). -/
def State.withFetchWord (s : State) (nbits w : Nat) : State :=
  { (s.accept (BitVec.ofNat 32 (w % 2 ^ nbits))) with agenda := .engine :: s.agenda }

end Sys2Proof.Machine
end

