-- ==== Sys2Proof/Safety.lean ====
section
/-! DEFINITION. What claims speak of: the invariant of the machine, runs, the conditions under which a slice is defined, and the
named properties of POW64 (41_transfer_function_core.md R121). -/

namespace Sys2Proof.Machine

/-- What holds after reset and is kept by every step. -/
structure State.Inv (s : State) : Prop where
  /-- frame memory is in canonical form -/
  memCanonical : s.mem.wf = true
  /-- ERRCODE is 0 exactly when ERR = 0 (R25: "0 when ERR = 0") -/
  errCodeAgrees : s.err = false ↔ s.errcode = .none
  /-- a running command's operands are still what the registers hold (R95) -/
  operandsHeld : ∀ w ops, s.seq = .busy w ops → ops = s.regs
  /-- DONE is 0 while a command runs (R200, R305) -/
  busyNotDone : s.isBusy = true → s.done = false
  /-- a warning has been given at most once per converter instance (R50, R340) -/
  warnedBefore : s.warn = true → s.warnedOnce = true
  /-- only a running command can be disturbed -/
  disturbedBusy : s.disturbed = true → s.isBusy = true
  /-- no running CONVERT_SLICE touches memory with side effects: its launch is refused (R79, I-4) -/
  ordinaryLaunch : s.runsOnDevice = false
  /-- PLAN_VALID = 1 only while plan storage is what a full rebuild from the live plan inputs gives (R39, R51, R216) -/
  planCoherent : s.planValid = true → ∃ d, s.regs.inputs.buildPlan s.params d = .ok s.plan

/-! ### Runs (R343) -/

/-- The run is over (R343): the host program has executed its last step, every command it accepted has completed, and no step
remains. -/
def State.ended (s : State) : Bool := s.agenda.isEmpty && !s.isBusy

/-- `t` follows from `s` by steps of the machine; a run that is over goes no further (R343). -/
inductive Reaches : State → State → Prop where
  | refl (s : State) : Reaches s s
  | tail {s t u : State} (h : Reaches s t) (going : t.ended = false) (hs : step t = .next u) : Reaches s u

/-- The host operation of a move, `none` for a turn of the engine. -/
def Move.hostOp : Move → Option HostOp
  | .host op => some op
  | .engine => none

/-- An operation of a host program in the script syntax (R106, R107): an access of the one shape R56 allows, or WAIT. -/
def HostOp.isScript : HostOp → Bool
  | .regWrite off size _ => decide (off.toNat < State.blockSize) && State.goodAccess off size
  | .regRead off size => decide (off.toNat < State.blockSize) && State.goodAccess off size
  | .wait => true
  | .memWrite _ _ => false
  | .memRead _ => false
  | .reset => false

/-- What a launch adds to a reset: a memory image and a host program (R343). -/
structure Launch where
  image : Memory
  program : List HostOp
deriving DecidableEq, Repr

/-- The image is in canonical form and the program is a script. -/
def Launch.wf (l : Launch) : Bool := l.image.wf && l.program.all HostOp.isScript

/-- The machine `s` right after the launch: reset (R330), the image in frame memory, and the moves `ms` to come. -/
def Launch.start (l : Launch) (s : State) (ms : List Move) : State := { s.resetInput with mem := l.image, agenda := ms }

/-- `ms` are the program's operations in order, with any engine turns between them (R339, log 4). -/
def Launch.Schedules (l : Launch) (ms : List Move) : Prop := ms.filterMap Move.hostOp = l.program

/-- The final state of a run (R343): the register file, the plan storage, warned_once and frame memory. -/
structure FinalState where
  done : Bool
  err : Bool
  warn : Bool
  planValid : Bool
  errcode : ErrCode
  irqEn : IrqEn
  regs : Regs
  tfRes : DWord
  lutIndex : BitVec 16
  plan : Plan
  warnedOnce : Bool
  mem : Memory
deriving DecidableEq, Repr

/-- The part of a state that is the final state of a run. -/
def State.final (s : State) : FinalState :=
  { done := s.done, err := s.err, warn := s.warn, planValid := s.planValid, errcode := s.errcode, irqEn := s.irqEn
    regs := s.regs, tfRes := s.tfRes, lutIndex := s.lutIndex, plan := s.plan, warnedOnce := s.warnedOnce, mem := s.mem }

/-- A run of the launch on the machine `s` ends in `f` (R343). -/
def Launch.EndsIn (l : Launch) (s : State) (f : FinalState) : Prop :=
  ∃ ms t, l.Schedules ms ∧ Reaches (l.start s ms) t ∧ t.ended = true ∧ f = t.final

/-- A run from `s` in which no step faults or is refused before the run is over. -/
def SafeRun (s : State) : Prop := ∀ t, Reaches s t → t.ended = false → ∃ u, step t = .next u

/-! ### Slices, turns and registers -/

/-- The conditions on plan, operands and platform under which the spec defines a slice's result: a valid plan, a legal slice
(R224), ordinary memory (R79), sets that do not overlap (R82), and no host write into them (R84). -/
structure State.SliceDefined (s : State) : Prop where
  planned : s.planValid = true
  legal : s.plan.badSlice s.operands = false
  ordinary : s.plan.touchesSideEffects s.params s.operands = false
  disjoint : s.plan.setsDisjoint s.operands = true
  undisturbed : s.disturbed = false

/-- It is the engine's turn in `s`, and `u` is the state its command runs on: the agenda is empty, or its head is an engine turn
(taken off), or a WAIT that polls a BUSY engine (R106, R339, log 4). -/
def State.EngineMoves (s u : State) : Prop :=
  (s.agenda = [] ∧ u = s) ∨ (∃ rest, s.agenda = .engine :: rest ∧ u = { s with agenda := rest })
    ∨ (∃ rest, s.agenda = .host .wait :: rest ∧ s.isBusy = true ∧ u = s)

/-- The offsets of the plan inputs (R22, R39): OPTIONS to OUT_FMT, and the words of the two descriptor blocks up to +0x74. -/
def isPlanInputOffset (off : Nat) : Prop :=
  (0x014 ≤ off ∧ off < 0x028) ∨ (0x100 ≤ off ∧ off < 0x178) ∨ (0x180 ≤ off ∧ off < 0x1F8)

/-- The words of the 13 supported pixel formats (R97). -/
def supportedFormatWords : List Word :=
  [0x00000008, 0x00001008, 0x00005008, 0x0000000A, 0x0000100A, 0x0000500A, 0x0000000C, 0x0000100C, 0x0000500C,
   0x00000310, 0x00000710, 0x00000320, 0x00000720]

/-- The rational value of a finite float. -/
def Fl.toRat : Fl → ℚ
  | .fin s m e => (if s then -1 else 1) * (m : ℚ) * (2 : ℚ) ^ e
  | _ => 0

/-- One unit in the last place of a finite float in binary64: the spacing at that float's own exponent. -/
def Fl.ulp : Fl → ℚ
  | .fin _ m e => (2 : ℚ) ^ b64.roundExp m e
  | _ => 0

/-- The value is a finite integer. -/
def Fl.isInteger (x : Fl) : Prop := ∃ n : ℤ, x.toRat = n

/-- P1 of R121: POW64(x, 1.0) = x for finite x ≥ 0. -/
def Pow64One : Prop :=
  ∀ x : DWord, (Fl.of64 x).isFinite = true → Fl.le Fl.zero (Fl.of64 x) = true → Config.pow64 x 0x3FF0000000000000 = x

/-- P2 of R121: POW64(+0.0, y) = +0.0 for y > 0. -/
def Pow64Zero : Prop := ∀ y : DWord, Fl.lt Fl.zero (Fl.of64 y) = true → Config.pow64 0 y = 0

/-- P3 of R121: POW64(x, y) is within 1 ulp of x^y for finite x > 0. The rule does not say at which number the ulp is taken, nor what
it means of an infinite exponent or result: here (DESIGN CHOICE, log 2) the ulp is that of the computed result POW64(x, y), and the
property is read for finite y and a finite result. -/
def Pow64Accurate : Prop :=
  ∀ x y : DWord, (Fl.of64 x).isFinite = true → Fl.lt Fl.zero (Fl.of64 x) = true → (Fl.of64 y).isFinite = true →
    (Fl.of64 (Config.pow64 x y)).isFinite = true →
    |((Fl.of64 (Config.pow64 x y)).toRat : ℝ) - Real.rpow ((Fl.of64 x).toRat : ℝ) ((Fl.of64 y).toRat : ℝ)|
      ≤ ((Fl.of64 (Config.pow64 x y)).ulp : ℝ)

/-- P4 of R121: POW64(x, y) is a NaN for finite x < 0 and finite non-integer y. -/
def Pow64Negative : Prop :=
  ∀ x y : DWord, (Fl.of64 x).isFinite = true → Fl.lt (Fl.of64 x) Fl.zero = true → (Fl.of64 y).isFinite = true →
    ¬ (Fl.of64 y).isInteger → (Fl.of64 (Config.pow64 x y)).isNaN = true

end Sys2Proof.Machine
end

