-- ==== Sys2Proof/Certificates/Slice0/Obligations.lean ====
section
/-! DEFINITION. The statements for the provers, each from the rules its docstring names. -/

open Sys2Proof Sys2Proof.Machine

/-! ### Encoding -/

/-- R91, R93: command words written out from the table, and one illegal word for each reason. -/
def Obligations.CommandWordsDecode : Prop :=
  decode 0x00000000 = .ok .nop ∧ decode 0x00000001 = .ok .plan ∧ decode 0x00000002 = .ok .convertSlice
    ∧ decode 0x00000003 = .ok .invalidate ∧ decode 0x00000010 = .ok (.tfEvalD .input) ∧ decode 0x00000110 = .ok (.tfEvalD .output)
    ∧ decode 0x00000011 = .ok (.tfEvalL .input) ∧ decode 0x00000111 = .ok (.tfEvalL .output)
    ∧ decode 0x00000101 = .error .sideOnC0 ∧ decode 0x00000210 = .error .reservedBitsSet
    ∧ decode 0x00000004 = .error .undefinedOpcode

/-- R92: over all 2^32 words, the decoder reads exactly the encoded word of each command as that command. -/
def Obligations.DecodeAndEncodeAgree : Prop :=
  ∀ (i : Instr) (w : Word), i.wf = true → (decode w = .ok i ↔ w = encode i)

/-- R92: legality by the three conditions on bit fields, the table of matches and masks, and the SIDE value. -/
def Obligations.LegalWordsByFieldsAndMasks : Prop :=
  ∀ w : Word,
    ((∃ i, decode w = .ok i) ↔
      (w.extractLsb 7 0 ∈ ([0x00, 0x01, 0x02, 0x03, 0x10, 0x11] : List (BitVec 8)) ∧ w.extractLsb 31 9 = 0
        ∧ (w.getLsbD 8 = false ∨ w.extractLsb 7 0 = 0x10 ∨ w.extractLsb 7 0 = 0x11)))
    ∧ (decode w = .ok .nop ↔ w &&& 0xFFFFFFFF = 0x00000000)
    ∧ (decode w = .ok .plan ↔ w &&& 0xFFFFFFFF = 0x00000001)
    ∧ (decode w = .ok .convertSlice ↔ w &&& 0xFFFFFFFF = 0x00000002)
    ∧ (decode w = .ok .invalidate ↔ w &&& 0xFFFFFFFF = 0x00000003)
    ∧ ((∃ side, decode w = .ok (.tfEvalD side)) ↔ w &&& 0xFFFFFEFF = 0x00000010)
    ∧ ((∃ side, decode w = .ok (.tfEvalL side)) ↔ w &&& 0xFFFFFEFF = 0x00000011)
    ∧ (∀ side, decode w = .ok (.tfEvalD side) ∨ decode w = .ok (.tfEvalL side) → (side = .output ↔ w.getLsbD 8 = true))

/-! ### Steps, acceptance and reporting -/

/-- R200: at the engine's turn, the accepted word runs as the command it decodes to. The order of turns is the model's (log 4). -/
def Obligations.StepRunsDecodedInstruction : Prop :=
  ∀ (s u : State) (w : Word) (ops : Regs) (i : Instr),
    s.seq = .busy w ops → decode w = .ok i → s.EngineMoves u → step s = exec i u

/-- R93: an illegal word completes with IllegalCommand and has no other effect. -/
def Obligations.IllegalWordCompletesWithIllegalCommand : Prop :=
  ∀ (s u : State) (w : Word) (ops : Regs),
    s.seq = .busy w ops → (∀ i, decode w ≠ .ok i) → s.EngineMoves u →
      step s = .next { u with seq := .idle, done := true, err := true, errcode := .illegalCommand, disturbed := false }

/-- R200, first half: a CMD write while IDLE clears DONE, ERR and ERRCODE and makes seq BUSY with the word and the registers. (A
CONVERT_SLICE onto memory with side effects is refused here: SideEffectPlanesAreRefused, log 15.) -/
def Obligations.CmdWriteWhileIdleIsAccepted : Prop :=
  ∀ (s : State) (w : Word) (rest : List Move),
    s.agenda = .host (.regWrite 0x008 4 w) :: rest → s.seq = .idle →
    (w = 0x00000002 → s.planValid = true → s.plan.badSlice s.regs = false → s.plan.touchesSideEffects s.params s.regs = false) →
      step s = .next { s with agenda := rest, done := false, err := false, errcode := .none, seq := .busy w s.regs,
                              disturbed := false }

/-- R306: a CMD write while BUSY sets ERR and ERRCODE = 14 at once and nothing else; a completion then either keeps ERR and
ERRCODE, or puts the code its command raises there. -/
def Obligations.CmdWriteWhileBusyIsRefused : Prop :=
  (∀ (s : State) (v w : Word) (ops : Regs) (rest : List Move),
    s.agenda = .host (.regWrite 0x008 4 w) :: rest → s.seq = .busy v ops →
      step s = .next { s with agenda := rest, err := true, errcode := .busy })
  ∧ (∀ (i : Instr) (s t : State), exec i s = .next t →
      (t.err = s.err ∧ t.errcode = s.errcode) ∨ (t.err = true ∧ t.errcode ≠ .none ∧ t.errcode ≠ .busy))

/-- R23, R24, R31, R56: what ID, VERSION, CMD and TF_RES read, in every state; reads without side effect, reserved and read-only
registers, writes while BUSY, and accesses of another shape. That the reserved words 0x178 to 0x17F and 0x1F8 to 0x1FF, which R22
counts among the plan inputs, ignore a write without clearing PLAN_VALID is the model's reading (log 16), and so is the fault of an
access at an offset of 0x400 or more, where R22 has no register (log 14). -/
def Obligations.RegisterAccessRules : Prop :=
  (∀ s : State, s.readReg (Reg.ofOffset 0x000) = 0x43534345 ∧ s.readReg (Reg.ofOffset 0x004) = 0x00070000
    ∧ s.readReg (Reg.ofOffset 0x008) = 0
    ∧ s.readReg (Reg.ofOffset 0x038) = s.tfRes.extractLsb 31 0 ∧ s.readReg (Reg.ofOffset 0x03C) = s.tfRes.extractLsb 63 32)
  ∧ (∀ (s : State) (off : BitVec 12) (size : Nat) (w : Word) (rest : List Move), 0x400 ≤ off.toNat →
      (s.agenda = .host (.regWrite off size w) :: rest → step s = .fault .outsideRegisterBlock)
      ∧ (s.agenda = .host (.regRead off size) :: rest → step s = .fault .outsideRegisterBlock))
  ∧ (∀ (s : State) (off : BitVec 12) (rest : List Move), off.toNat < 0x400 → off.toNat % 4 = 0 →
    s.agenda = .host (.regRead off 4) :: rest →
      step s = .next { s with agenda := rest, hostData := s.readReg (Reg.ofOffset off.toNat) })
  ∧ (∀ (s : State) (off : BitVec 12) (w : Word) (rest : List Move), off.toNat % 4 = 0 →
      (0x08C ≤ off.toNat ∧ off.toNat < 0x100) ∨ (0x178 ≤ off.toNat ∧ off.toNat < 0x180)
        ∨ (0x1F8 ≤ off.toNat ∧ off.toNat < 0x200) ∨ (0x348 ≤ off.toNat ∧ off.toNat < 0x400) →
        s.readReg (Reg.ofOffset off.toNat) = 0
        ∧ (s.agenda = .host (.regWrite off 4 w) :: rest → step s = .next { s with agenda := rest }))
  ∧ (∀ (s : State) (off : BitVec 12) (w : Word) (rest : List Move), off.toNat % 4 = 0 →
      off.toNat < 0x008 ∨ (0x038 ≤ off.toNat ∧ off.toNat < 0x040) ∨ (0x084 ≤ off.toNat ∧ off.toNat < 0x08C)
        ∨ (0x200 ≤ off.toNat ∧ off.toNat < 0x348) →
      s.agenda = .host (.regWrite off 4 w) :: rest → step s = .next { s with agenda := rest })
  ∧ (∀ (s : State) (off : BitVec 12) (v w : Word) (ops : Regs) (rest : List Move), off.toNat < 0x400 → off.toNat % 4 = 0 →
      off.toNat ≠ 0x008 → off.toNat ≠ 0x00C → off.toNat ≠ 0x010 → s.seq = .busy v ops →
      s.agenda = .host (.regWrite off 4 w) :: rest → step s = .next { s with agenda := rest })
  ∧ (∀ (s : State) (v w : Word) (ops : Regs) (rest : List Move), s.seq = .busy v ops →
      s.agenda = .host (.regWrite 0x008 4 w) :: rest → step s = .next { s with agenda := rest, err := true, errcode := .busy })
  ∧ (∀ (s : State) (off : BitVec 12) (size : Nat) (w : Word) (rest : List Move), off.toNat < 0x400 →
      size ≠ 4 ∨ off.toNat % 4 ≠ 0 →
      (s.agenda = .host (.regWrite off size w) :: rest → step s = .refused .badRegisterAccess)
      ∧ (s.agenda = .host (.regRead off size) :: rest → step s = .refused .badRegisterAccess))

/-- R39: an accepted write to a plan input clears PLAN_VALID whatever is written, and an accepted write to any other register
leaves it. That the reserved words +0x78 to +0x7F of a block are no plan inputs is the model's reading (log 16). -/
def Obligations.PlanInputWritesClearPlanValid : Prop :=
  ∀ (s : State) (off : BitVec 12) (w : Word) (rest : List Move),
    s.seq = .idle → off.toNat < 0x400 → off.toNat % 4 = 0 → s.agenda = .host (.regWrite off 4 w) :: rest →
      (off.toNat ≠ 0x008 → ∃ t, step s = .next t)
      ∧ ∀ t, step s = .next t → t.mem = s.mem ∧ t.plan = s.plan ∧ t.tfRes = s.tfRes ∧ t.warnedOnce = s.warnedOnce
        ∧ (isPlanInputOffset off.toNat → t.planValid = false ∧ t.seq = .idle)
        ∧ (¬ isPlanInputOffset off.toNat → t.planValid = s.planValid ∧ t.regs.inputs = s.regs.inputs)

/-- R25: a STATUS write clears exactly the W1C bits written as 1, ERRCODE with ERR, at any time. -/
def Obligations.StatusWriteOneToClear : Prop :=
  ∀ (s : State) (w : Word) (rest : List Move), s.agenda = .host (.regWrite 0x00C 4 w) :: rest →
    step s = .next { s with agenda := rest
                            done := s.done && !w.getLsbD 1
                            err := s.err && !w.getLsbD 2
                            errcode := if w.getLsbD 2 then .none else s.errcode
                            warn := s.warn && !w.getLsbD 3 }

/-- R25, R300, R310: the bits of the STATUS word, bit 5 the interrupt line, and the number of each error code. -/
def Obligations.StatusWordAndInterruptLine : Prop :=
  (ErrCode.none.code = 0 ∧ ErrCode.invalidFormat.code = 1 ∧ ErrCode.invalidDepth.code = 2 ∧ ErrCode.invalidSubsampling.code = 3
    ∧ ErrCode.familyMismatch.code = 4 ∧ ErrCode.unknownPrimaries.code = 5 ∧ ErrCode.unknownTransfer.code = 6
    ∧ ErrCode.unknownMatrix.code = 7 ∧ ErrCode.invalidRange.code = 8 ∧ ErrCode.oddDimensions.code = 9 ∧ ErrCode.outOfMemory.code = 10
    ∧ ErrCode.illegalCommand.code = 11 ∧ ErrCode.notPlanned.code = 12 ∧ ErrCode.invalidSlice.code = 13 ∧ ErrCode.busy.code = 14
    ∧ ErrCode.invalidOption.code = 15)
  ∧ ∀ s : State,
    (s.readReg (Reg.ofOffset 0x00C)).getLsbD 0 = s.isBusy
    ∧ (s.readReg (Reg.ofOffset 0x00C)).getLsbD 1 = s.done
    ∧ (s.readReg (Reg.ofOffset 0x00C)).getLsbD 2 = s.err
    ∧ (s.readReg (Reg.ofOffset 0x00C)).getLsbD 3 = s.warn
    ∧ (s.readReg (Reg.ofOffset 0x00C)).getLsbD 4 = s.planValid
    ∧ (s.readReg (Reg.ofOffset 0x00C)).getLsbD 5
        = ((s.done && s.irqEn.doneIe) || (s.err && s.irqEn.errIe) || (s.warn && s.irqEn.warnIe))
    ∧ (s.readReg (Reg.ofOffset 0x00C)).extractLsb 7 6 = 0
    ∧ ((s.readReg (Reg.ofOffset 0x00C)).extractLsb 15 8).toNat = s.errcode.code
    ∧ (s.readReg (Reg.ofOffset 0x00C)).extractLsb 31 16 = 0

/-- R26: IRQ_EN takes bits 0 to 2 of a written word, idle or BUSY, reads them back with the rest 0, and is 0 after reset. -/
def Obligations.IrqEnableRegister : Prop :=
  (∀ (s : State) (w : Word) (rest : List Move), s.agenda = .host (.regWrite 0x010 4 w) :: rest →
    ∃ t, step s = .next t ∧ t = { s with agenda := rest, irqEn := t.irqEn }
      ∧ t.irqEn.doneIe = w.getLsbD 0 ∧ t.irqEn.errIe = w.getLsbD 1 ∧ t.irqEn.warnIe = w.getLsbD 2
      ∧ t.readReg (Reg.ofOffset 0x010) = w &&& 0x7)
  ∧ State.reset.readReg (Reg.ofOffset 0x010) = 0

/-- R13, R22, R27 to R33, R35 to R37, R96, R100: a word written while IDLE to a read-write register reads back with its reserved
bits 0, and every other register keeps its value but PLAN_VALID and what shows the plan (LUT_DATA, PLAN_INFO, the coefficient window);
and the operand field that each of these registers shows, in every state. -/
def Obligations.WrittenRegistersReadBack : Prop :=
  (∀ (s : State) (off : BitVec 12) (w mask : Word) (rest : List Move),
    s.seq = .idle → off.toNat % 4 = 0 → s.agenda = .host (.regWrite off 4 w) :: rest →
    ((off.toNat = 0x014 ∧ mask = 0x0000000F)
      ∨ ((off.toNat = 0x018 ∨ off.toNat = 0x01C ∨ off.toNat = 0x028 ∨ off.toNat = 0x02C ∨ off.toNat = 0x080) ∧ mask = 0x0000FFFF)
      ∨ ((off.toNat = 0x020 ∨ off.toNat = 0x024) ∧ mask = 0x0000F73F)
      ∨ (((0x030 ≤ off.toNat ∧ off.toNat < 0x038) ∨ (0x040 ≤ off.toNat ∧ off.toNat < 0x080)
          ∨ (0x108 ≤ off.toNat ∧ off.toNat < 0x178) ∨ (0x188 ≤ off.toNat ∧ off.toNat < 0x1F8)) ∧ mask = 0xFFFFFFFF)
      ∨ ((off.toNat = 0x100 ∨ off.toNat = 0x180) ∧ mask = 0x00000003)
      ∨ ((off.toNat = 0x104 ∨ off.toNat = 0x184) ∧ mask = 0x00000007)) →
    ∃ t, step s = .next t ∧ t.readReg (Reg.ofOffset off.toNat) = w &&& mask
      ∧ t = { s with agenda := rest, regs := t.regs, lutIndex := t.lutIndex, planValid := t.planValid }
      ∧ ∀ other, other % 4 = 0 → other ≠ off.toNat → other ≠ 0x00C → other ≠ 0x084 → other ≠ 0x088 →
          other < 0x200 ∨ 0x348 ≤ other → t.readReg (Reg.ofOffset other) = s.readReg (Reg.ofOffset other))
  ∧ ∀ (s : State) (word : Nat → Word) (pair : Nat → DWord) (ratio : Nat → Ratio),
    (∀ o, word o = s.readReg (Reg.ofOffset o)) → (∀ o, pair o = word (o + 4) ++ word o) →
    (∀ o, ratio o = ⟨word o, word (o + 4)⟩) →
      s.regs.inputs.options = ⟨(word 0x014).getLsbD 0, (word 0x014).getLsbD 1, (word 0x014).extractLsb 3 2⟩
      ∧ s.regs.inputs.frameW = (word 0x018).extractLsb 15 0 ∧ s.regs.inputs.frameH = (word 0x01C).extractLsb 15 0
      ∧ (∀ o f, (o = 0x020 ∧ f = s.regs.inputs.inFmt) ∨ (o = 0x024 ∧ f = s.regs.inputs.outFmt) →
          f = { depth := (word o).extractLsb 5 0, rgb := (word o).getLsbD 8, float := (word o).getLsbD 9
                alpha := (word o).getLsbD 10, log2cw := (word o).extractLsb 13 12, log2ch := (word o).extractLsb 15 14 })
      ∧ s.regs.sliceH1 = (word 0x028).extractLsb 15 0 ∧ s.regs.sliceH2 = (word 0x02C).extractLsb 15 0
      ∧ s.regs.tfArg = pair 0x030 ∧ s.lutIndex = (word 0x080).extractLsb 15 0
      ∧ (∀ p : Fin 4, s.regs.inPlanes.get p = ⟨word (0x040 + 4 * p.val), word (0x050 + 4 * p.val)⟩
          ∧ s.regs.outPlanes.get p = ⟨word (0x060 + 4 * p.val), word (0x070 + 4 * p.val)⟩)
      ∧ (∀ o b, (o = 0x100 ∧ b = s.regs.inputs.inBlk) ∨ (o = 0x180 ∧ b = s.regs.inputs.outBlk) →
          b.range = (word o).extractLsb 1 0 ∧ b.valid = (word (o + 0x04)).extractLsb 2 0
          ∧ b.prims = { xr := ratio (o + 0x08), yr := ratio (o + 0x10), xg := ratio (o + 0x18), yg := ratio (o + 0x20)
                        xb := ratio (o + 0x28), yb := ratio (o + 0x30)
                        white := { xw := ratio (o + 0x38), yw := ratio (o + 0x40) } }
          ∧ b.luma = { kr := ratio (o + 0x48), kb := ratio (o + 0x50) }
          ∧ b.transfer = { alpha := pair (o + 0x58), beta := pair (o + 0x60), gamma := pair (o + 0x68), delta := pair (o + 0x70) })

/-! ### NOP, INVALIDATE, TF_EVAL -/

/-- R201: NOP does nothing but complete; from IDLE, writing it and waiting leaves DONE alone of DONE, ERR and ERRCODE. -/
def Obligations.NopOnlyCompletes : Prop :=
  (∀ s : State, exec .nop s = .next { s with seq := .idle, done := true, disturbed := false })
  ∧ (∀ (s : State) (rest : List Move), s.seq = .idle → s.agenda = .host (.regWrite 0x008 4 0x00000000) :: .host .wait :: rest →
      ∃ u t, step s = .next u ∧ step u = .next t ∧ t.seq = .idle ∧ t.done = true ∧ t.err = false ∧ t.errcode = .none
        ∧ t.warn = s.warn ∧ t.planValid = s.planValid ∧ t.regs = s.regs ∧ t.mem = s.mem ∧ t.plan = s.plan
        ∧ (s.warn = false → s.planValid = false → s.irqEn.doneIe = false → t.readReg (Reg.ofOffset 0x00C) = 0x00000002))

/-- R220: INVALIDATE clears PLAN_VALID and drops the caches, and leaves WARN and warned_once. -/
def Obligations.InvalidateDropsPlan : Prop :=
  ∀ s : State, exec .invalidate s
    = .next { s with seq := .idle, done := true, planValid := false, caches := none, disturbed := false }

/-- R122: the three branches of D, the branch of a NaN, and that of a zero when β = 0. -/
def Obligations.DelineariseBranches : Prop :=
  ∀ (t : Transfer) (v : DWord),
    (Fl.le (Fl.of64 v) (Fl.of64 t.beta).neg = true →
      delinearise t v = Fl.add b64 (Fl.mul b64 (Fl.of64 t.alpha).neg (Fl.of64 (Config.pow64 (v ^^^ 0x8000000000000000) t.gamma)))
        (Fl.sub b64 (Fl.of64 t.alpha) Fl.one))
    ∧ (Fl.le (Fl.of64 v) (Fl.of64 t.beta).neg = false → Fl.lt (Fl.of64 v) (Fl.of64 t.beta) = true →
      delinearise t v = Fl.mul b64 (Fl.of64 t.delta) (Fl.of64 v))
    ∧ (Fl.le (Fl.of64 v) (Fl.of64 t.beta).neg = false → Fl.lt (Fl.of64 v) (Fl.of64 t.beta) = false →
      delinearise t v = Fl.sub b64 (Fl.mul b64 (Fl.of64 t.alpha) (Fl.of64 (Config.pow64 v t.gamma)))
        (Fl.sub b64 (Fl.of64 t.alpha) Fl.one))
    ∧ ((Fl.of64 v).isNaN = true → Fl.le (Fl.of64 v) (Fl.of64 t.beta).neg = false ∧ Fl.lt (Fl.of64 v) (Fl.of64 t.beta) = false)
    ∧ (Fl.eq (Fl.of64 t.beta) Fl.zero = true → Fl.eq (Fl.of64 v) Fl.zero = true →
      Fl.le (Fl.of64 v) (Fl.of64 t.beta).neg = true)

/-- R130, for β ≥ 0, which the rule's derivation uses: D(−v) = −D(v) as numbers for finite v with |v| ≠ β, or both are NaN. -/
def Obligations.DelineariseIsOdd : Prop :=
  ∀ (t : Transfer) (v : DWord),
    t.finite = true → Fl.le Fl.zero (Fl.of64 t.beta) = true → (Fl.of64 v).isFinite = true →
    Fl.eq (Fl.of64 v) (Fl.of64 t.beta) = false → Fl.eq (Fl.of64 v).neg (Fl.of64 t.beta) = false →
      Fl.eq (delinearise t (v ^^^ 0x8000000000000000)) (delinearise t v).neg = true
        ∨ ((delinearise t (v ^^^ 0x8000000000000000)).isNaN = true ∧ (delinearise t v).isNaN = true)

/-- R126: with TRC_VALID and finite coefficients, α not 0, TF_EVAL_D puts D(T, TF_ARG) in TF_RES; with α = 0 on the OUT side it puts
EXT_DELIN's value there, bit for bit. Where the value is a NaN, the result is a NaN (its payload is free, log 18). Nothing else
changes but STATUS and the counter of free values. -/
def Obligations.TfEvalDWritesD : Prop :=
  (∀ (side : Side) (s : State),
    (s.operands.inputs.blk side).valid.getLsbD 1 = true →
    (s.operands.inputs.blk side).transfer.finite = true →
    Fl.eq (Fl.of64 (s.operands.inputs.blk side).transfer.alpha) Fl.zero = false →
      ∃ r, exec (.tfEvalD side) s
          = .next { s with tfRes := r, seq := .idle, done := true, disturbed := false, draws := s.draws + 1 }
        ∧ ((delinearise (s.operands.inputs.blk side).transfer s.operands.tfArg).isNaN = false →
            r = Fl.to64 0 (delinearise (s.operands.inputs.blk side).transfer s.operands.tfArg))
        ∧ ((delinearise (s.operands.inputs.blk side).transfer s.operands.tfArg).isNaN = true → (Fl.of64 r).isNaN = true))
  ∧ (∀ s : State,
    s.operands.inputs.outBlk.valid.getLsbD 1 = true →
    Fl.eq (Fl.of64 s.operands.inputs.outBlk.transfer.alpha) Fl.zero = true →
      ∃ r, exec (.tfEvalD .output) s
          = .next { s with tfRes := r, seq := .idle, done := true, disturbed := false, draws := s.draws + 1 }
        ∧ ((Fl.of64 (Config.extDelin s.operands.tfArg)).isNaN = false → r = Config.extDelin s.operands.tfArg)
        ∧ ((Fl.of64 (Config.extDelin s.operands.tfArg)).isNaN = true → (Fl.of64 r).isNaN = true))

/-- R127: with TRC_VALID, finite coefficients and α, γ, δ not 0, TF_EVAL_L puts L(T, TF_ARG) in TF_RES, on either side; the
payload of a NaN base of POW64 and of a NaN result are free (log 3, log 18). -/
def Obligations.TfEvalLWritesL : Prop :=
  ∀ (side : Side) (s : State),
    (s.operands.inputs.blk side).valid.getLsbD 1 = true →
    (s.operands.inputs.blk side).transfer.finite = true →
    Fl.eq (Fl.of64 (s.operands.inputs.blk side).transfer.alpha) Fl.zero = false →
    Fl.eq (Fl.of64 (s.operands.inputs.blk side).transfer.gamma) Fl.zero = false →
    Fl.eq (Fl.of64 (s.operands.inputs.blk side).transfer.delta) Fl.zero = false →
      ∃ d r, exec (.tfEvalL side) s
          = .next { s with tfRes := r, seq := .idle, done := true, disturbed := false, draws := s.draws + 1 }
        ∧ ((linearise d (s.operands.inputs.blk side).transfer (Fl.of64 s.operands.tfArg)).isNaN = false →
            r = Fl.to64 0 (linearise d (s.operands.inputs.blk side).transfer (Fl.of64 s.operands.tfArg)))
        ∧ ((linearise d (s.operands.inputs.blk side).transfer (Fl.of64 s.operands.tfArg)).isNaN = true →
            (Fl.of64 r).isNaN = true)

/-- R126, R127, R307: the error cases of TF_EVAL_D and of TF_EVAL_L complete with UnknownTransfer and change nothing but STATUS. -/
def Obligations.TfEvalErrors : Prop :=
  (∀ (side : Side) (s : State),
    ((s.operands.inputs.blk side).valid.getLsbD 1 = false
      ∨ (side = .input ∧ Fl.eq (Fl.of64 s.operands.inputs.inBlk.transfer.alpha) Fl.zero = true)
      ∨ (Fl.eq (Fl.of64 (s.operands.inputs.blk side).transfer.alpha) Fl.zero = false
          ∧ (s.operands.inputs.blk side).transfer.finite = false)) →
      exec (.tfEvalD side) s
        = .next { s with seq := .idle, done := true, err := true, errcode := .unknownTransfer, disturbed := false })
  ∧ (∀ (side : Side) (s : State),
    ((s.operands.inputs.blk side).valid.getLsbD 1 = false
      ∨ (s.operands.inputs.blk side).transfer.finite = false
      ∨ Fl.eq (Fl.of64 (s.operands.inputs.blk side).transfer.alpha) Fl.zero = true
      ∨ Fl.eq (Fl.of64 (s.operands.inputs.blk side).transfer.gamma) Fl.zero = true
      ∨ Fl.eq (Fl.of64 (s.operands.inputs.blk side).transfer.delta) Fl.zero = true) →
      exec (.tfEvalL side) s
        = .next { s with seq := .idle, done := true, err := true, errcode := .unknownTransfer, disturbed := false })

/-- R123: the three branches of L in its reciprocal form, on a base that is no NaN. -/
def Obligations.LineariseBranches : Prop :=
  ∀ (d : DWord) (t : Transfer) (v : DWord),
    (Fl.le (Fl.of64 v) (Fl.mul b64 (Fl.of64 t.beta) (Fl.of64 t.delta)).neg = true →
      (Fl.mul b64 (Fl.sub b64 (Fl.sub b64 Fl.one (Fl.of64 t.alpha)) (Fl.of64 v))
        (Fl.div b64 Fl.one (Fl.of64 t.alpha))).isNaN = false →
      (Fl.div b64 Fl.one (Fl.of64 t.gamma)).isNaN = false →
      linearise d t (Fl.of64 v) = (Fl.of64 (Config.pow64
        (Fl.to64 0 (Fl.mul b64 (Fl.sub b64 (Fl.sub b64 Fl.one (Fl.of64 t.alpha)) (Fl.of64 v)) (Fl.div b64 Fl.one (Fl.of64 t.alpha))))
        (Fl.to64 0 (Fl.div b64 Fl.one (Fl.of64 t.gamma))))).neg)
    ∧ (Fl.le (Fl.of64 v) (Fl.mul b64 (Fl.of64 t.beta) (Fl.of64 t.delta)).neg = false →
      Fl.lt (Fl.of64 v) (Fl.mul b64 (Fl.of64 t.beta) (Fl.of64 t.delta)) = true →
      linearise d t (Fl.of64 v) = Fl.mul b64 (Fl.of64 v) (Fl.div b64 Fl.one (Fl.of64 t.delta)))
    ∧ (Fl.le (Fl.of64 v) (Fl.mul b64 (Fl.of64 t.beta) (Fl.of64 t.delta)).neg = false →
      Fl.lt (Fl.of64 v) (Fl.mul b64 (Fl.of64 t.beta) (Fl.of64 t.delta)) = false →
      (Fl.mul b64 (Fl.sub b64 (Fl.add b64 (Fl.of64 v) (Fl.of64 t.alpha)) Fl.one) (Fl.div b64 Fl.one (Fl.of64 t.alpha))).isNaN = false →
      (Fl.div b64 Fl.one (Fl.of64 t.gamma)).isNaN = false →
      linearise d t (Fl.of64 v) = Fl.of64 (Config.pow64
        (Fl.to64 0 (Fl.mul b64 (Fl.sub b64 (Fl.add b64 (Fl.of64 v) (Fl.of64 t.alpha)) Fl.one) (Fl.div b64 Fl.one (Fl.of64 t.alpha))))
        (Fl.to64 0 (Fl.div b64 Fl.one (Fl.of64 t.gamma)))))

/-! ### PLAN -/

/-- R202, R216: a PLAN whose inputs build a plan stores it and sets PLAN_VALID, in one step with DONE; no other register changes
but STATUS, warned_once, the caches and the counter of free values. That the caches then copy the plan inputs (log 9) and that the
plan keeps a copy of them, `src` (log 11), are the model's choices. -/
def Obligations.PlanStoresTheBuiltPlan : Prop :=
  ∀ (s : State) (p : Plan), s.operands.inputs.buildPlan s.params s.draws = .ok p →
    ∃ t, exec .plan s = .next t ∧ t.planValid = true ∧ t.plan = p ∧ p.src = s.operands.inputs
      ∧ t = { s with seq := .idle, done := true, planValid := true, plan := p, caches := some s.operands.inputs,
                     warn := t.warn, warnedOnce := t.warnedOnce, disturbed := false, draws := s.draws + 1 }

/-- R216, R303, R307: a PLAN that raises a code reports it with PLAN_VALID = 0; plan storage then has any content. -/
def Obligations.FailedPlanReportsItsCode : Prop :=
  ∀ (s : State) (c : ErrCode), s.operands.inputs.buildPlan s.params s.draws = .error c →
    ∃ t, exec .plan s = .next t ∧ t.errcode = c ∧ c ≠ .none
      ∧ t = { s with seq := .idle, done := true, err := true, errcode := c, planValid := false, plan := t.plan, caches := t.caches,
                     warn := t.warn, warnedOnce := t.warnedOnce, disturbed := false, draws := s.draws + 1 }

/-- R97, R204: the format check accepts exactly the 13 supported words, and no PLAN succeeds with another one on either side. -/
def Obligations.PlanAcceptsThirteenFormats : Prop :=
  (∀ f : PixFmt, f.check = .ok () ↔ f.toWord ∈ supportedFormatWords)
  ∧ (∀ s t : State, exec .plan s = .next t → t.planValid = true →
      s.operands.inputs.inFmt.toWord ∈ supportedFormatWords ∧ s.operands.inputs.outFmt.toWord ∈ supportedFormatWords)

/-- R129, R148, R170, R183, R204 to R208, R215, R303: PLAN reports the first check that fails: the format checks with their codes, IN
before OUT; options, tags, ranges and dimensions; then the solvers and tables of phase C. (When a solver fails: SolverFormulas, with log 19.) -/
def Obligations.PlanReportsFirstFailingCheck : Prop :=
  ∀ (s : State) (p : PlanInputs) (c : ErrCode) (fmt : PixFmt → Option ErrCode) (front : Option ErrCode) (lr rr : Bool),
    s.operands.inputs = p →
    (∀ f, fmt f =
      if f.rgb = true then
        if f.float = false then some .invalidFormat
        else if f.depth ≠ 16 ∧ f.depth ≠ 32 then some .invalidDepth
        else if f.log2cw ≠ 0 ∨ f.log2ch ≠ 0 then some .invalidSubsampling
        else none
      else
        if f.float = true ∨ f.alpha = true then some .invalidFormat
        else if f.depth ≠ 8 ∧ f.depth ≠ 10 ∧ f.depth ≠ 12 then some .invalidDepth
        else if ¬((f.log2cw = 0 ∧ f.log2ch = 0) ∨ (f.log2cw = 1 ∧ f.log2ch = 0) ∨ (f.log2cw = 1 ∧ f.log2ch = 1)) then
          some .invalidSubsampling
        else none) →
    front = (fmt p.inFmt).or ((fmt p.outFmt).or
      (if p.inFmt.rgb ≠ p.outFmt.rgb then some ErrCode.familyMismatch
      else if p.inFmt.rgb = true ∧ p.inFmt.depth ≠ p.outFmt.depth then some ErrCode.invalidDepth
      else if p.inFmt.rgb = true ∧ p.inFmt.alpha ≠ p.outFmt.alpha then some ErrCode.invalidFormat
      else if p.options.wpAdapt = 3 then some ErrCode.invalidOption
      else if p.inBlk.valid.getLsbD 0 = false ∨ p.outBlk.valid.getLsbD 0 = false then some ErrCode.unknownPrimaries
      else if p.inBlk.valid.getLsbD 1 = false ∨ p.outBlk.valid.getLsbD 1 = false then some ErrCode.unknownTransfer
      else if p.inFmt.rgb = false ∧ (p.inBlk.valid.getLsbD 2 = false ∨ p.outBlk.valid.getLsbD 2 = false) then
        some ErrCode.unknownMatrix
      else if p.inFmt.rgb = false ∧ (p.inBlk.range = 3 ∨ p.outBlk.range = 3) then some ErrCode.invalidRange
      else if p.frameW = 0 ∨ p.frameH = 0 ∨ p.frameW.toNat % 2 = 1 ∨ p.frameH.toNat % 2 = 1 then some ErrCode.oddDimensions
      else none)) →
    (lr = true ↔ ∀ k, 2 ≤ k → k ≤ 17 → p.inBlk.readWord k = p.outBlk.readWord k) →
    (rr = true ↔ p.options.fast = true ∨ (lr = true ∧ Fl.eq (Fl.of64 p.outBlk.transfer.alpha) Fl.zero = false
      ∧ ∀ k, 22 ≤ k → k ≤ 29 → p.inBlk.readWord k = p.outBlk.readWord k)) →
    (front = some c
      ∨ (front = none ∧ lr = false ∧ rr = false ∧ p.primaryTables = none ∧ c = .unknownPrimaries)
      ∨ (front = none ∧ (lr = true ∨ rr = true ∨ p.primaryTables ≠ none)
        ∧ rr = false
        ∧ (p.inBlk.transfer.finite = false ∨ Fl.eq (Fl.of64 p.inBlk.transfer.alpha) Fl.zero = true
          ∨ Fl.eq (Fl.of64 p.inBlk.transfer.gamma) Fl.zero = true ∨ Fl.eq (Fl.of64 p.inBlk.transfer.delta) Fl.zero = true
          ∨ (Fl.eq (Fl.of64 p.outBlk.transfer.alpha) Fl.zero = false ∧ p.outBlk.transfer.finite = false))
        ∧ c = .unknownTransfer)
      ∨ (front = none ∧ p.stepPrimaries.isOk = true ∧ p.stepTransfer.isOk = true ∧ p.inFmt.rgb = false
        ∧ p.matrixTables (p.resolvedRange .input) (p.resolvedRange .output) p.yuv2yuvFast = none ∧ c = .unknownMatrix)
      ∨ (front = none ∧ p.stepPrimaries.isOk = true ∧ p.stepTransfer.isOk = true ∧ p.stepMatrix.isOk = true
        ∧ p.inFmt.rgb = false ∧ rr = false
        ∧ (∃ n, n < 32768 ∧
          ((linearise (Config.nanDraw s.draws (lutSite n 0)) p.inBlk.transfer
              (Fl.div b64 (Fl.ofInt ((n : Int) - 2048)) (Fl.ofInt 28672))).isNaN = true
            ∨ (delinOut (Fl.eq (Fl.of64 p.outBlk.transfer.alpha) Fl.zero) p.outBlk.transfer
                (Fl.to64 0 (Fl.div b64 (Fl.ofInt ((n : Int) - 2048)) (Fl.ofInt 28672)))).isNaN = true))
        ∧ c = .unknownTransfer)) →
      ∃ t, exec .plan s = .next t ∧ t.seq = .idle ∧ t.done = true ∧ t.err = true ∧ t.errcode = c ∧ t.planValid = false
        ∧ t.regs = s.regs ∧ t.mem = s.mem ∧ t.tfRes = s.tfRes

/-- R50, R209, R340: PLAN sets WARN exactly when, with the checks before it passed, a YUV side's RANGE is Unspecified and no PLAN
since reset has warned; it never clears WARN or warned_once. -/
def Obligations.PlanWarnsOncePerInstance : Prop :=
  ∀ s : State, ∃ t, exec .plan s = .next t
    ∧ (t.warn = true ↔ s.warn = true ∨ (s.warnedOnce = false ∧ s.operands.inputs.checkFront = .ok ()
        ∧ s.operands.inputs.inFmt.rgb = false ∧ (s.operands.inputs.inBlk.range = 0 ∨ s.operands.inputs.outBlk.range = 0)))
    ∧ (t.warnedOnce = true ↔ s.warnedOnce = true ∨ (s.operands.inputs.checkFront = .ok ()
        ∧ s.operands.inputs.inFmt.rgb = false ∧ (s.operands.inputs.inBlk.range = 0 ∨ s.operands.inputs.outBlk.range = 0)))

/-- R101, R128, R180, R209 to R213: the passthrough flags of a plan that PLAN has built, from the words of the descriptor blocks, and
its pipe, linear and external transfer flags, dither, LUT kind, resolved ranges and kernel indices. -/
def Obligations.PassthroughFlagsOfAPlan : Prop :=
  ∀ (s t : State) (p : PlanInputs), s.operands.inputs = p → exec .plan s = .next t → t.planValid = true →
    (t.plan.flags.lrgb2lrgbPt = true ↔ ∀ k, 2 ≤ k → k ≤ 17 → p.inBlk.readWord k = p.outBlk.readWord k)
    ∧ (t.plan.flags.rgb2rgbPt = true ↔ p.options.fast = true ∨ (t.plan.flags.lrgb2lrgbPt = true
        ∧ Fl.eq (Fl.of64 p.outBlk.transfer.alpha) Fl.zero = false
        ∧ ∀ k, 22 ≤ k → k ≤ 29 → p.inBlk.readWord k = p.outBlk.readWord k))
    ∧ (t.plan.flags.yuv2yuvFast = true ↔ t.plan.flags.rgb2rgbPt = true ∧ p.inFmt.log2cw = p.outFmt.log2cw
        ∧ p.inFmt.log2ch = p.outFmt.log2ch)
    ∧ (t.plan.flags.yuv2yuvPt = true ↔ t.plan.flags.yuv2yuvFast = true ∧ p.inFmt.depth = p.outFmt.depth
        ∧ (p.inFmt.rgb = true ∨ ((p.inBlk.range = 2 ↔ p.outBlk.range = 2)
            ∧ ∀ k, 18 ≤ k → k ≤ 21 → p.inBlk.readWord k = p.outBlk.readWord k)))
    ∧ t.plan.pipe = (if p.inFmt.rgb = false then .int else if p.inFmt.depth = 16 then .half else .f32)
    ∧ (t.plan.flags.inLinear = true ↔ Fl.eq (Fl.of64 p.inBlk.transfer.alpha) Fl.one = true
        ∧ Fl.eq (Fl.of64 p.inBlk.transfer.beta) Fl.zero = true ∧ Fl.eq (Fl.of64 p.inBlk.transfer.gamma) Fl.one = true)
    ∧ t.plan.flags.outExt = Fl.eq (Fl.of64 p.outBlk.transfer.alpha) Fl.zero
    ∧ (t.plan.flags.dither = true ↔ p.options.dither = true ∧ p.inFmt.rgb = false)
    ∧ t.plan.lutKind = (if t.plan.flags.rgb2rgbPt = true then .none else if p.inFmt.rgb = false then .int
        else if p.inFmt.depth = 16 then .half else .none)
    ∧ t.plan.rangeIn = (if p.inFmt.rgb = true then .notApplicable else if p.inBlk.range = 2 then .pc else .tv)
    ∧ t.plan.rangeOut = (if p.inFmt.rgb = true then .notApplicable else if p.outBlk.range = 2 then .pc else .tv)
    ∧ t.plan.kernelIn.depthIdx.toNat = (if p.inFmt.rgb = true then 0 else (p.inFmt.depth.toNat - 8) / 2)
    ∧ t.plan.kernelOut.depthIdx.toNat = (if p.inFmt.rgb = true then 0 else (p.outFmt.depth.toNat - 8) / 2)
    ∧ t.plan.kernelIn.ssIdx.toNat = (if p.inFmt.rgb = true then 0 else p.inFmt.log2cw.toNat + p.inFmt.log2ch.toNat)
    ∧ t.plan.kernelOut.ssIdx.toNat = (if p.inFmt.rgb = true then 0 else p.outFmt.log2cw.toNat + p.outFmt.log2ch.toNat)

/-- R214: no PLAN succeeds past a capacity limit, and one that would succeed within larger limits fails with OutOfMemory. -/
def Obligations.PlanCapacityCheck : Prop :=
  ∀ (s : State) (stride : Nat),
    stride = 32 * ((s.operands.inputs.frameW.toNat * (if s.operands.inputs.inFmt.pipe = .f32 then 4 else 2) + 31) / 32) →
    (∀ t, exec .plan s = .next t → t.planValid = true →
      s.operands.inputs.frameW.toNat ≤ s.params.maxWidth ∧ s.operands.inputs.frameH.toNat ≤ s.params.maxHeight
        ∧ 3 * stride * s.operands.inputs.frameH.toNat ≤ s.params.scratchBytes)
    ∧ (∀ (larger : Params) (q : Plan), larger.f2h = s.params.f2h →
        s.operands.inputs.buildPlan larger s.draws = .ok q →
        s.params.maxWidth < s.operands.inputs.frameW.toNat ∨ s.params.maxHeight < s.operands.inputs.frameH.toNat
          ∨ s.params.scratchBytes < 3 * stride * s.operands.inputs.frameH.toNat →
        ∃ t, exec .plan s = .next t ∧ t.err = true ∧ t.errcode = .outOfMemory ∧ t.planValid = false)

/-- R48, R149, R171, R180: what a successful PLAN leaves in the tables it does not build. -/
def Obligations.UnbuiltTablesHoldTheirFill : Prop :=
  ∀ s t : State, exec .plan s = .next t → t.planValid = true →
    ((t.plan.flags.lrgb2lrgbPt = true ∨ t.plan.flags.rgb2rgbPt = true) →
      t.plan.lrgb2lrgb = ⟨⟨16384, 0, 0⟩, ⟨0, 16384, 0⟩, ⟨0, 0, 16384⟩⟩
      ∧ t.plan.lrgb2lrgbf = ⟨⟨0x3F800000, 0, 0⟩, ⟨0, 0x3F800000, 0⟩, ⟨0, 0, 0x3F800000⟩⟩)
    ∧ (s.operands.inputs.inFmt.rgb = true →
      t.plan.yuv2rgb = ⟨⟨0, 0, 0⟩, ⟨0, 0, 0⟩, ⟨0, 0, 0⟩⟩ ∧ t.plan.rgb2yuv = ⟨⟨0, 0, 0⟩, ⟨0, 0, 0⟩, ⟨0, 0, 0⟩⟩
      ∧ t.plan.yuv2yuv = ⟨⟨0, 0, 0⟩, ⟨0, 0, 0⟩, ⟨0, 0, 0⟩⟩ ∧ t.plan.yuvOffsetIn = 0 ∧ t.plan.yuvOffsetOut = 0)
    ∧ (t.plan.flags.yuv2yuvFast = false → t.plan.yuv2yuv = ⟨⟨0, 0, 0⟩, ⟨0, 0, 0⟩, ⟨0, 0, 0⟩⟩)
    ∧ ((t.plan.flags.rgb2rgbPt = true ∨ t.plan.pipe = .f32) →
      t.plan.lutKind = .none ∧ ∀ i, lutEntry t.plan.linLut i = 0 ∧ lutEntry t.plan.delinLut i = 0)

/-- R163, R165: the black-level offsets of a plan for the YUV family. -/
def Obligations.BlackLevelOffsets : Prop :=
  ∀ s t : State, exec .plan s = .next t → t.planValid = true → s.operands.inputs.inFmt.rgb = false →
    t.plan.yuvOffsetIn.toNat
        = (if s.operands.inputs.inBlk.range = 2 then 0 else 16 * 2 ^ (s.operands.inputs.inFmt.depth.toNat - 8))
    ∧ t.plan.yuvOffsetOut.toNat
        = (if s.operands.inputs.outBlk.range = 2 then 0 else 16 * 2 ^ (s.operands.inputs.outFmt.depth.toNat - 8))

/-- R147, R163, R166, R167, R169: a built plan holds the solvers' binary64 matrices, each element scaled in the order written and
rounded to the nearest integer, ties to even, with no wrap; the binary32 mirror of the primary map is one rounding. -/
def Obligations.SolverTablesAreRounded : Prop :=
  ∀ (s t : State) (p : PlanInputs) (n m dIn dOut : Nat) (rIn rOut : Nat → Nat),
    s.operands.inputs = p → exec .plan s = .next t → t.planValid = true → n < 3 → m < 3 →
    dIn = p.inFmt.depth.toNat → dOut = p.outFmt.depth.toNat →
    rIn = (fun j => if p.inBlk.range = 2 then 2 ^ dIn - 1 else if j = 0 then 219 * 2 ^ (dIn - 8) else 224 * 2 ^ (dIn - 8)) →
    rOut = (fun j => if p.outBlk.range = 2 then 2 ^ dOut - 1 else if j = 0 then 219 * 2 ^ (dOut - 8) else 224 * 2 ^ (dOut - 8)) →
    (t.plan.flags.lrgb2lrgbPt = false → t.plan.flags.rgb2rgbPt = false →
      ∃ map, p.primaryMap = some map
        ∧ (Fl.mul b64 (Fl.ofInt 16384) ((map.get n).get m)).rne = some ((t.plan.lrgb2lrgb.get n).get m).toInt
        ∧ (t.plan.lrgb2lrgbf.get n).get m = Fl.to32 0 ((map.get n).get m))
    ∧ (p.inFmt.rgb = false →
      ∃ mi mo, p.inBlk.luma.matrices = some mi ∧ p.outBlk.luma.matrices = some mo
        ∧ (Fl.div b64 (Fl.mul b64 (Fl.mul b64 (Fl.ofInt 28672) (Fl.ofInt (2 ^ (dIn - 1) : Nat))) ((mi.yuv2rgb.get n).get m))
            (Fl.ofInt (rIn m))).rne = some ((t.plan.yuv2rgb.get n).get m).toInt
        ∧ (Fl.div b64 (Fl.mul b64 (Fl.mul b64 (Fl.ofInt (2 ^ (29 - dOut) : Nat)) (Fl.ofInt (rOut n))) ((mo.rgb2yuv.get n).get m))
            (Fl.ofInt 28672)).rne = some ((t.plan.rgb2yuv.get n).get m).toInt
        ∧ (t.plan.flags.yuv2yuvFast = true →
          (Fl.div b64
            (Fl.mul b64 (Fl.mul b64 (Fl.mul b64 (Fl.ofInt 16384) (((Fl.matMul b64 mo.rgb2yuv mi.yuv2rgb).get n).get m))
              (Fl.ofInt (rOut n))) (Fl.ofInt (2 ^ dIn : Nat)))
            (Fl.mul b64 (Fl.ofInt (rIn m)) (Fl.ofInt (2 ^ dOut : Nat)))).rne = some ((t.plan.yuv2yuv.get n).get m).toInt))

/-- R18, R99, R140 to R146, R148, R160 to R162, R170: the solvers' formulas, every operation one binary64 rounding in the order written:
products of matrices; the cofactor inverse; RGB→XYZ; the primary map with and without adaptation, and when it is there; the luma
matrices, and when they are there; and when the integer tables are there, a scaled coefficient that overflows to an infinity counting
as outside int16 (the model's reading, log 19). -/
def Obligations.SolverFormulas : Prop :=
  ∀ (q : Ratio → Fl) (dot : V3 Fl → Fl → Fl → Fl → Fl) (fits : Fl → Prop),
    (∀ r, q r = Fl.div b64 (Fl.ofInt r.num.toInt) (Fl.ofInt r.den.toInt)) →
    (∀ r x y z, dot r x y z = Fl.add b64 (Fl.add b64 (Fl.mul b64 r.c0 x) (Fl.mul b64 r.c1 y)) (Fl.mul b64 r.c2 z)) →
    (∀ x, fits x ↔ ∃ k, x.rne = some k ∧ -32768 ≤ k ∧ k ≤ 32767) →
    (∀ (a b : M3 Fl) (i j : Nat), i < 3 → j < 3 →
      ((Fl.matMul b64 a b).get i).get j = dot (a.get i) (b.c0.get j) (b.c1.get j) (b.c2.get j))
    ∧ (∀ (m o : M3 Fl) (x : Fl → Fl → Fl → Fl → Fl) (det : Fl),
      (∀ a b c d, x a b c d = Fl.sub b64 (Fl.mul b64 a b) (Fl.mul b64 c d)) →
      o = ⟨⟨x m.c1.c1 m.c2.c2 m.c2.c1 m.c1.c2, (x m.c0.c1 m.c2.c2 m.c2.c1 m.c0.c2).neg, x m.c0.c1 m.c1.c2 m.c1.c1 m.c0.c2⟩,
           ⟨(x m.c1.c0 m.c2.c2 m.c2.c0 m.c1.c2).neg, x m.c0.c0 m.c2.c2 m.c2.c0 m.c0.c2, (x m.c0.c0 m.c1.c2 m.c1.c0 m.c0.c2).neg⟩,
           ⟨x m.c1.c0 m.c2.c1 m.c2.c0 m.c1.c1, (x m.c0.c0 m.c2.c1 m.c2.c0 m.c0.c1).neg, x m.c0.c0 m.c1.c1 m.c1.c0 m.c0.c1⟩⟩ →
      det = dot m.c0 o.c0.c0 o.c1.c0 o.c2.c0 →
        (Fl.eq det Fl.zero = true → Fl.inv3 m = none)
        ∧ (Fl.eq det Fl.zero = false →
          Fl.inv3 m = some (o.map fun row => row.map fun y => Fl.mul b64 y (Fl.div b64 Fl.one det))))
    ∧ (∀ (b : Prims) (w : V3 Fl) (m : M3 Fl),
      w = ⟨q b.white.xw, q b.white.yw, Fl.sub b64 (Fl.sub b64 Fl.one (q b.white.xw)) (q b.white.yw)⟩ →
      m = ⟨⟨Fl.div b64 (q b.xr) (q b.yr), Fl.div b64 (q b.xg) (q b.yg), Fl.div b64 (q b.xb) (q b.yb)⟩, ⟨Fl.one, Fl.one, Fl.one⟩,
           ⟨Fl.div b64 (Fl.sub b64 (Fl.sub b64 Fl.one (q b.xr)) (q b.yr)) (q b.yr),
            Fl.div b64 (Fl.sub b64 (Fl.sub b64 Fl.one (q b.xg)) (q b.yg)) (q b.yg),
            Fl.div b64 (Fl.sub b64 (Fl.sub b64 Fl.one (q b.xb)) (q b.yb)) (q b.yb)⟩⟩ →
        b.whiteVec = w
        ∧ (Fl.inv3 m = none → b.rgbToXyz = none)
        ∧ (∀ inv, Fl.inv3 m = some inv → ∃ x, b.rgbToXyz = some x ∧ ∀ i j, i < 3 → j < 3 →
            (x.get i).get j = Fl.mul b64 ((m.get i).get j) (dot (inv.get j) w.c0 w.c1 w.c2)))
    ∧ (∀ (p : PlanInputs) (map cone : M3 Fl) (s d : V3 Fl) (same : Bool), p.options.wpAdapt ≠ 3 →
      (same = true ↔ ∀ k, 14 ≤ k → k ≤ 17 → p.inBlk.readWord k = p.outBlk.readWord k) →
      cone = (if p.options.wpAdapt = 0 then
          ⟨⟨Fl.dec 8951 4, Fl.dec 2664 4, Fl.dec (-1614) 4⟩, ⟨Fl.dec (-7502) 4, Fl.dec 17135 4, Fl.dec 367 4⟩,
           ⟨Fl.dec 389 4, Fl.dec (-685) 4, Fl.dec 10296 4⟩⟩
        else
          ⟨⟨Fl.dec 40024 5, Fl.dec 70760 5, Fl.dec (-8081) 5⟩, ⟨Fl.dec (-22630) 5, Fl.dec 116532 5, Fl.dec 4570 5⟩,
           ⟨Fl.zero, Fl.zero, Fl.dec 91822 5⟩⟩) →
      s = cone.map (fun r => dot r p.inBlk.prims.whiteVec.c0 p.inBlk.prims.whiteVec.c1 p.inBlk.prims.whiteVec.c2) →
      d = cone.map (fun r => dot r p.outBlk.prims.whiteVec.c0 p.outBlk.prims.whiteVec.c1 p.outBlk.prims.whiteVec.c2) →
        (p.primaryMap = some map ↔
          (∀ k, 3 ≤ k → k ≤ 17 → k % 2 = 1 → p.inBlk.readWord k ≠ some 0 ∧ p.outBlk.readWord k ≠ some 0)
          ∧ (∀ b ∈ [p.inBlk.prims, p.outBlk.prims],
              Fl.eq (q b.yr) Fl.zero = false ∧ Fl.eq (q b.yg) Fl.zero = false ∧ Fl.eq (q b.yb) Fl.zero = false)
          ∧ Fl.allFinite map = true
          ∧ ∃ xin xout inv, p.inBlk.prims.rgbToXyz = some xin ∧ p.outBlk.prims.rgbToXyz = some xout ∧ Fl.inv3 xout = some inv
            ∧ (if p.options.wpAdapt = 2 ∨ same = true then
                map = Fl.matMul b64 inv xin
              else
                Fl.eq s.c0 Fl.zero = false ∧ Fl.eq s.c1 Fl.zero = false ∧ Fl.eq s.c2 Fl.zero = false
                ∧ ∃ cinv, Fl.inv3 cone = some cinv
                  ∧ map = Fl.matMul b64 (Fl.matMul b64 inv (Fl.matMul b64 (Fl.matMul b64 cinv
                      ⟨⟨Fl.div b64 d.c0 s.c0, Fl.zero, Fl.zero⟩, ⟨Fl.zero, Fl.div b64 d.c1 s.c1, Fl.zero⟩,
                       ⟨Fl.zero, Fl.zero, Fl.div b64 d.c2 s.c2⟩⟩) cone)) xin)))
    ∧ (∀ (l : Luma) (mi : YuvMatrices) (kr kb kg bs rs : Fl), kr = q l.kr → kb = q l.kb →
      kg = Fl.sub b64 (Fl.sub b64 Fl.one kr) kb → bs = Fl.div b64 (Fl.dec 5 1) (Fl.sub b64 kb Fl.one) →
      rs = Fl.div b64 (Fl.dec 5 1) (Fl.sub b64 kr Fl.one) →
        (l.matrices = some mi ↔ l.kr.den ≠ 0 ∧ l.kb.den ≠ 0 ∧ Fl.eq kr Fl.one = false ∧ Fl.eq kb Fl.one = false
          ∧ mi.rgb2yuv = ⟨⟨kr, kg, kb⟩, ⟨Fl.mul b64 bs kr, Fl.mul b64 bs kg, Fl.dec 5 1⟩,
              ⟨Fl.dec 5 1, Fl.mul b64 rs kg, Fl.mul b64 rs kb⟩⟩
          ∧ Fl.inv3 mi.rgb2yuv = some mi.yuv2rgb ∧ Fl.allFinite mi.rgb2yuv = true ∧ Fl.allFinite mi.yuv2rgb = true))
    ∧ (∀ p : PlanInputs, p.primaryTables ≠ none ↔ ∃ map, p.primaryMap = some map
        ∧ ∀ n m, n < 3 → m < 3 → fits (Fl.mul b64 (Fl.ofInt 16384) ((map.get n).get m)))
    ∧ (∀ (p : PlanInputs) (rIn rOut : Range) (fast : Bool), p.matrixTables rIn rOut fast ≠ none ↔
        ∃ mi mo, p.inBlk.luma.matrices = some mi ∧ p.outBlk.luma.matrices = some mo ∧ ∀ n m, n < 3 → m < 3 →
          fits (Fl.div b64 (Fl.mul b64 (Fl.mul b64 (Fl.ofInt 28672) (Fl.ofInt (2 ^ (p.inFmt.d - 1) : Nat))) ((mi.yuv2rgb.get n).get m))
            (Fl.ofInt (rIn.span p.inFmt.d m)))
          ∧ fits (Fl.div b64 (Fl.mul b64 (Fl.mul b64 (Fl.ofInt (2 ^ (29 - p.outFmt.d) : Nat)) (Fl.ofInt (rOut.span p.outFmt.d n)))
              ((mo.rgb2yuv.get n).get m)) (Fl.ofInt 28672))
          ∧ (fast = true → fits (Fl.div b64
              (Fl.mul b64 (Fl.mul b64 (Fl.mul b64 (Fl.ofInt 16384) (((Fl.matMul b64 mo.rgb2yuv mi.yuv2rgb).get n).get m))
                (Fl.ofInt (rOut.span p.outFmt.d n))) (Fl.ofInt (2 ^ p.inFmt.d : Nat)))
              (Fl.mul b64 (Fl.ofInt (rIn.span p.inFmt.d m)) (Fl.ofInt (2 ^ p.outFmt.d : Nat))))))

/-- R211, R216, R225, R279: an RGB float PLAN with FAST = 1, its tags valid, its frame even and within capacity, succeeds and
selects the copy path, whatever the primaries, transfers, ranges and matrices are. The clause on `src`, the plan's copy of its inputs,
is about the model's own field (log 11). -/
def Obligations.FastRgbPlanSucceeds : Prop :=
  ∀ (s : State) (p : PlanInputs), s.operands.inputs = p →
    p.inFmt.toWord ∈ ([0x310, 0x710, 0x320, 0x720] : List Word) → p.outFmt = p.inFmt →
    p.options.fast = true → p.options.wpAdapt ≠ 3 →
    p.inBlk.valid.getLsbD 0 = true → p.outBlk.valid.getLsbD 0 = true →
    p.inBlk.valid.getLsbD 1 = true → p.outBlk.valid.getLsbD 1 = true →
    p.frameW ≠ 0 → p.frameH ≠ 0 → p.frameW.toNat % 2 = 0 → p.frameH.toNat % 2 = 0 →
    p.frameW.toNat ≤ s.params.maxWidth → p.frameH.toNat ≤ s.params.maxHeight →
    3 * (32 * ((p.frameW.toNat * (if p.inFmt.depth = 32 then 4 else 2) + 31) / 32)) * p.frameH.toNat ≤ s.params.scratchBytes →
      ∃ t, exec .plan s = .next t ∧ t.seq = .idle ∧ t.done = true ∧ t.err = s.err ∧ t.planValid = true ∧ t.plan.path = .copy
        ∧ t.plan.src = p ∧ t.warn = s.warn ∧ t.regs = s.regs ∧ t.mem = s.mem

/-! ### LUTs and readback -/

/-- R181 to R183: the integer LUT builder answers exactly the tables of 32768 entries whose entry n is qlut of L or D at v(n); it
answers none when some entry is a NaN. A built integer plan without passthrough holds lin of the IN block's transfer and delin of the
OUT block's (EXT_DELIN when its ALPHA is 0.0). qlut refuses a NaN, saturates an infinity, its own or the product's, and else rounds
28672·r to nearest even and clips it to int16. The payload of a NaN base of L is free (log 3). -/
def Obligations.IntegerLutEntries : Prop :=
  (∀ (draw : Nat) (tIn tOut : Transfer) (ext : Bool) (lin delin : List Half),
    intLuts draw tIn tOut ext = some (lin, delin) ↔
      lin.length = 32768 ∧ delin.length = 32768
      ∧ ∀ n : Nat, n < 32768 →
          qlut (linearise (Config.nanDraw draw (lutSite n 0)) tIn (Fl.div b64 (Fl.ofInt ((n : Int) - 2048)) (Fl.ofInt 28672)))
              = some (lutEntry lin n)
          ∧ qlut (delinOut ext tOut (Fl.to64 0 (Fl.div b64 (Fl.ofInt ((n : Int) - 2048)) (Fl.ofInt 28672)))) = some (lutEntry delin n))
  ∧ (∀ s t : State, exec .plan s = .next t → t.planValid = true → t.plan.pipe = .int → t.plan.flags.rgb2rgbPt = false →
      intLuts s.draws s.operands.inputs.inBlk.transfer s.operands.inputs.outBlk.transfer
          (Fl.eq (Fl.of64 s.operands.inputs.outBlk.transfer.alpha) Fl.zero)
        = some (t.plan.linLut, t.plan.delinLut))
  ∧ qlut .nan = none
  ∧ (∀ (r : Fl) (neg : Bool), r = .inf neg ∨ (r.isFinite = true ∧ Fl.mul b64 r (Fl.ofInt 28672) = .inf neg) →
      qlut r = some (if neg then BitVec.ofInt 16 (-32768) else BitVec.ofInt 16 32767))
  ∧ (∀ (r : Fl) (k : Int), r.isFinite = true → (Fl.mul b64 r (Fl.ofInt 28672)).rne = some k →
      qlut r = some (BitVec.ofInt 16 (max (-32768) (min 32767 k))))

/-- R184, R185: entry n of the half-float tables: f2h of fl32 of L or D at h2f(n), and a NaN for every NaN index. A built half plan
without passthrough holds lin of the IN block's transfer and delin of the OUT block's (EXT_DELIN when its ALPHA is 0.0), by F2H_MODE. -/
def Obligations.HalfLutEntries : Prop :=
  (∀ s t : State, exec .plan s = .next t → t.planValid = true → t.plan.pipe = .half → t.plan.flags.rgb2rgbPt = false →
    t.plan.linLut = halfLin s.params.f2h s.draws s.operands.inputs.inBlk.transfer
    ∧ t.plan.delinLut = halfDelin s.params.f2h s.draws s.operands.inputs.outBlk.transfer
        (Fl.eq (Fl.of64 s.operands.inputs.outBlk.transfer.alpha) Fl.zero))
  ∧ ∀ (mode : Rounding) (draw : Nat) (t : Transfer) (ext : Bool) (n : Half),
    ((Fl.of16 n).isNaN = true →
      (Fl.of16 (lutEntry (halfLin mode draw t) n.toNat)).isNaN = true
      ∧ (Fl.of16 (lutEntry (halfDelin mode draw t ext) n.toNat)).isNaN = true)
    ∧ ((Fl.of16 n).isNaN = false →
      (∃ d e, lutEntry (halfLin mode draw t) n.toNat = Fl.to16 mode e (Fl.fl32 (linearise d t (Fl.of16 n))))
      ∧ (∃ e, lutEntry (halfDelin mode draw t ext) n.toNat = Fl.to16 mode e (Fl.fl32 (delinOut ext t (Fl.to64 0 (Fl.of16 n))))))

/-- R186: integer tables are read at 2048 + pixel, clipped at both ends, on every lookup; both half-float tables at the pattern of
the sample, or of the half-float value before them. -/
def Obligations.LutIndexing : Prop :=
  (∀ pixel : Int, (pixel < -2048 → lutIndexOf pixel = 0) ∧ (30719 < pixel → lutIndexOf pixel = 32767)
    ∧ (-2048 ≤ pixel → pixel ≤ 30719 → (lutIndexOf pixel : Int) = 2048 + pixel))
  ∧ (∀ (table : List Half) (pixel : Int), lutLookup table pixel = (lutEntry table (lutIndexOf pixel)).toInt)
  ∧ (∀ (c : Source) (p : Fin 4) (x y : Nat), c.halfLinAt p x y = lutEntry c.plan.linLut (c.sample p x y))
  ∧ (∀ (c : Source) (p : Fin 4) (x y : Nat), c.halfDelinSample p x y = (lutEntry c.plan.delinLut (c.sample p x y)).toNat)
  ∧ (∀ (c : Source) (mode : Rounding) (draw : Nat) (p : Fin 4) (x y : Nat),
      c.halfFullSample mode draw p x y = (lutEntry c.plan.delinLut (c.halfMapped mode draw p x y).toNat).toNat)

/-- R38: the coefficient readback window, 0 without a valid plan, each table at its offset with one, and read-only. -/
def Obligations.CoefficientWindow : Prop :=
  (∀ (s : State) (off : Nat), s.planValid = false → 0x200 ≤ off → off < 0x348 → s.readReg (Reg.ofOffset off) = 0)
  ∧ (∀ (s : State) (n m : Nat), s.planValid = true → n < 3 → m < 3 →
      s.readReg (Reg.ofOffset (0x200 + 4 * (3 * n + m))) = ((s.plan.yuv2rgb.get n).get m).signExtend 32
      ∧ s.readReg (Reg.ofOffset (0x240 + 4 * (3 * n + m))) = ((s.plan.rgb2yuv.get n).get m).signExtend 32
      ∧ s.readReg (Reg.ofOffset (0x280 + 4 * (3 * n + m))) = ((s.plan.yuv2yuv.get n).get m).signExtend 32
      ∧ s.readReg (Reg.ofOffset (0x2C0 + 4 * (3 * n + m))) = ((s.plan.lrgb2lrgb.get n).get m).signExtend 32
      ∧ s.readReg (Reg.ofOffset (0x300 + 4 * (3 * n + m))) = (s.plan.lrgb2lrgbf.get n).get m
      ∧ s.readReg (Reg.ofOffset 0x340) = s.plan.yuvOffsetIn.zeroExtend 32
      ∧ s.readReg (Reg.ofOffset 0x344) = s.plan.yuvOffsetOut.zeroExtend 32)
  ∧ (∀ (s : State) (off : BitVec 12) (w : Word) (rest : List Move), 0x200 ≤ off.toNat → off.toNat < 0x348 → off.toNat % 4 = 0 →
      s.agenda = .host (.regWrite off 4 w) :: rest → step s = .next { s with agenda := rest })

/-- R33, R34: PLAN_INFO, 0 without a valid plan, its fields with one; LUT_DATA, 0 without a valid plan, with no LUT and past an
integer table, else delin in the high half and lin in the low. -/
def Obligations.PlanReadbackRegisters : Prop :=
  ∀ s : State,
    (s.planValid = false → s.readReg (Reg.ofOffset 0x088) = 0)
    ∧ (s.planValid = true → ∀ w, s.readReg (Reg.ofOffset 0x088) = w →
      w.getLsbD 0 = s.plan.flags.rgb2rgbPt ∧ w.getLsbD 1 = s.plan.flags.lrgb2lrgbPt
      ∧ w.getLsbD 2 = s.plan.flags.yuv2yuvFast ∧ w.getLsbD 3 = s.plan.flags.yuv2yuvPt
      ∧ w.getLsbD 4 = s.plan.flags.inLinear ∧ w.getLsbD 5 = s.plan.flags.outExt
      ∧ w.extractLsb 7 6 = (match s.plan.pipe with | .int => 0 | .half => 1 | .f32 => 2)
      ∧ w.extractLsb 9 8 = (match s.plan.rangeIn with | .notApplicable => 0 | .tv => 1 | .pc => 2)
      ∧ w.extractLsb 11 10 = (match s.plan.rangeOut with | .notApplicable => 0 | .tv => 1 | .pc => 2)
      ∧ w.extractLsb 13 12 = (match s.plan.lutKind with | .none => 0 | .int => 1 | .half => 2)
      ∧ w.extractLsb 15 14 = s.plan.kernelIn.depthIdx ∧ w.extractLsb 17 16 = s.plan.kernelIn.ssIdx
      ∧ w.extractLsb 19 18 = s.plan.kernelOut.depthIdx ∧ w.extractLsb 21 20 = s.plan.kernelOut.ssIdx
      ∧ w.extractLsb 31 22 = 0)
    ∧ ((s.planValid = false ∨ s.plan.lutKind = .none ∨ (s.plan.lutKind = .int ∧ 32768 ≤ s.lutIndex.toNat)) →
      s.readReg (Reg.ofOffset 0x084) = 0)
    ∧ (s.planValid = true → (s.plan.lutKind = .half ∨ (s.plan.lutKind = .int ∧ s.lutIndex.toNat < 32768)) →
      (s.readReg (Reg.ofOffset 0x084)).extractLsb 31 16 = lutEntry s.plan.delinLut s.lutIndex.toNat
      ∧ (s.readReg (Reg.ofOffset 0x084)).extractLsb 15 0 = lutEntry s.plan.linLut s.lutIndex.toNat)

/-! ### CONVERT_SLICE -/

/-- R224, R307: without a valid plan, or with an illegal slice, CONVERT_SLICE reports it and changes nothing else; an empty slice
completes without a memory access. -/
def Obligations.ConvertSliceChecks : Prop :=
  ∀ s : State,
    (s.planValid = false → exec .convertSlice s
        = .next { s with seq := .idle, done := true, err := true, errcode := .notPlanned, disturbed := false })
    ∧ (s.planValid = true →
        s.operands.sliceH1.toNat % 2 = 1 ∨ s.operands.sliceH2.toNat % 2 = 1 ∨ s.operands.sliceH2.toNat < s.operands.sliceH1.toNat
          ∨ s.plan.src.frameH.toNat < s.operands.sliceH2.toNat →
        exec .convertSlice s
          = .next { s with seq := .idle, done := true, err := true, errcode := .invalidSlice, disturbed := false })
    ∧ (s.planValid = true → s.operands.sliceH1.toNat % 2 = 0 → s.operands.sliceH1 = s.operands.sliceH2 →
        s.operands.sliceH2.toNat ≤ s.plan.src.frameH.toNat →
        exec .convertSlice s = .next { s with seq := .idle, done := true, disturbed := false })

/-- R224, R319: once its checks have passed, CONVERT_SLICE on ordinary memory completes without error and changes only frame
memory and its scratch storage beside STATUS (and the counter of free values). -/
def Obligations.ConvertSliceCompletes : Prop :=
  ∀ s : State, s.planValid = true → s.plan.badSlice s.operands = false → s.operands.sliceH1 ≠ s.operands.sliceH2 →
    s.plan.touchesSideEffects s.params s.operands = false →
      ∃ m scr, exec .convertSlice s
        = .next { s with mem := m, scratch := scr, seq := .idle, done := true, disturbed := false, draws := s.draws + 1 }

/-- R79, I-4: a CONVERT_SLICE with a byte of its read or write set in memory with side effects is refused. Where it is refused (at the
CMD write that launches it, its checks passed, and in its meaning if it runs all the same), and that the register block is the 0x400
addresses from REG_BASE with no wrap to address 0, is the model's choice (log 15). -/
def Obligations.SideEffectPlanesAreRefused : Prop :=
  ∀ (s : State) (r : Regs) (a : Nat), s.planValid = true → s.plan.badSlice r = false →
    a ∈ s.plan.readSet r ∨ a ∈ s.plan.writeSet r →
    (s.params.regBase.toNat ≤ a ∧ a < s.params.regBase.toNat + 0x400)
      ∨ (∃ g ∈ s.params.sideEffects, g.base ≤ a ∧ a < g.base + g.size) →
      (∀ rest, s.seq = .idle → s.regs = r → s.agenda = .host (.regWrite 0x008 4 0x00000002) :: rest →
        step s = .refused .sideEffectPlane)
      ∧ (s.operands = r → exec .convertSlice s = .refused .sideEffectPlane)

/-- R72 to R75, R80, R82, R84: the write set and the read set of a slice, byte by byte: every byte of every sample, of the format's
planes, in the slice's rows; and whatever the sets and whoever wrote into them, CONVERT_SLICE leaves every byte outside its write set
alone. -/
def Obligations.ConvertSliceWritesOnlyItsWriteSet : Prop :=
  (∀ s t : State, exec .convertSlice s = .next t →
    ∀ a, a ∉ s.plan.writeSet s.operands → t.mem.byte a = s.mem.byte a)
  ∧ ∀ (plan : Plan) (r : Regs) (f : PixFmt) (planes : Quad PlaneReg) (set : List Nat) (chroma : Fin 4 → Prop) (a : Nat),
    (f = plan.src.outFmt ∧ planes = r.outPlanes ∧ set = plan.writeSet r)
      ∨ (f = plan.src.inFmt ∧ planes = r.inPlanes ∧ set = plan.readSet r) →
    f.toWord ∈ supportedFormatWords → (∀ p, chroma p ↔ f.rgb = false ∧ (p = 1 ∨ p = 2)) →
      (a ∈ set ↔ ∃ (p : Fin 4) (x y k : Nat), (p = 3 → f.alpha = true)
        ∧ (chroma p → x < plan.src.frameW.toNat / 2 ^ f.log2cw.toNat
          ∧ r.sliceH1.toNat / 2 ^ f.log2ch.toNat ≤ y ∧ y < r.sliceH2.toNat / 2 ^ f.log2ch.toNat)
        ∧ (¬chroma p → x < plan.src.frameW.toNat ∧ r.sliceH1.toNat ≤ y ∧ y < r.sliceH2.toNat)
        ∧ k < (if f.depth = 8 then 1 else if f.depth = 32 then 4 else 2)
        ∧ (a : Int) = ((planes.get p).base.toNat + y * (planes.get p).stride.toInt
            + x * (if f.depth = 8 then 1 else if f.depth = 32 then 4 else 2) + k) % 2 ^ 32)

/-- R80, R225, R249: for a slice the spec defines, every output sample of every plane holds the value of its path, dithered or
not, in its container. -/
def Obligations.ConvertSliceStoresEverySample : Prop :=
  ∀ s t : State, s.Inv → s.SliceDefined → exec .convertSlice s = .next t →
    ∀ p ∈ s.plan.src.outFmt.planes,
      (s.plan.src.outFmt.samples s.plan.src.frameW.toNat s.operands.h1 s.operands.h2 p).map
          (fun xy => t.mem.read ((s.operands.outPlanes.get p).addr s.plan.src.outFmt.bps xy.1 xy.2) s.plan.src.outFmt.bps)
        = (s.source.planeValues s.params s.draws s.operands.h1 s.operands.h2 p).map (· % 256 ^ s.plan.src.outFmt.bps)

/-- R226, R279: on the copy path the two formats are equal and every output sample equals the input sample, bit for bit. -/
def Obligations.CopyPathIsByteIdentical : Prop :=
  ∀ s t : State, s.Inv → s.SliceDefined → s.plan.path = .copy →
    exec .convertSlice s = .next t →
    s.plan.src.inFmt = s.plan.src.outFmt ∧ ∀ p ∈ s.plan.src.outFmt.planes,
      ∀ xy ∈ s.plan.src.outFmt.samples s.plan.src.frameW.toNat s.operands.h1 s.operands.h2 p,
        t.mem.read ((s.operands.outPlanes.get p).addr s.plan.src.outFmt.bps xy.1 xy.2) s.plan.src.outFmt.bps
          = s.mem.read ((s.operands.inPlanes.get p).addr s.plan.src.outFmt.bps xy.1 xy.2) s.plan.src.outFmt.bps

/-- R278: with an alpha plane, every float path copies plane 3 bit for bit. -/
def Obligations.AlphaIsCopied : Prop :=
  ∀ s t : State, s.Inv → s.SliceDefined → s.plan.pipe ≠ .int →
    s.plan.src.outFmt.alpha = true → exec .convertSlice s = .next t →
    ∀ x y, x < s.plan.src.frameW.toNat → s.operands.sliceH1.toNat ≤ y → y < s.operands.sliceH2.toNat →
        t.mem.read ((s.operands.outPlanes.get 3).addr s.plan.src.outFmt.bps x y) s.plan.src.outFmt.bps
          = s.mem.read ((s.operands.inPlanes.get 3).addr s.plan.src.outFmt.bps x y) s.plan.src.outFmt.bps

/-- R77, R254: every sample the integer datapath computes and writes, dithered or not, lies in [0, 2^d − 1]. -/
def Obligations.IntegerOutputsAreInRange : Prop :=
  ∀ s t : State, s.Inv → s.SliceDefined → s.plan.pipe = .int → s.plan.path ≠ .copy →
    exec .convertSlice s = .next t →
    ∀ p ∈ s.plan.src.outFmt.planes,
      ∀ xy ∈ s.plan.src.outFmt.samples s.plan.src.frameW.toNat s.operands.h1 s.operands.h2 p,
        t.mem.read ((s.operands.outPlanes.get p).addr s.plan.src.outFmt.bps xy.1 xy.2) s.plan.src.outFmt.bps
          < 2 ^ s.plan.src.outFmt.depth.toNat

/-- R252: every output sample of the composed YUV→YUV kernel, from the samples in memory before the command. -/
def Obligations.ComposedKernelWritesEverySample : Prop :=
  ∀ (s t : State) (f g : PixFmt) (r : Regs),
    s.Inv → s.SliceDefined → s.plan.pipe = .int → s.plan.flags.yuv2yuvFast = true → s.plan.flags.yuv2yuvPt = false →
    s.plan.src.inFmt = f → s.plan.src.outFmt = g → s.operands = r → exec .convertSlice s = .next t →
    f.log2cw = g.log2cw ∧ f.log2ch = g.log2ch ∧ 10 ≤ 14 + f.d - g.d ∧ 14 + f.d - g.d ≤ 18
    ∧ (∀ (x y : Nat) (yp up vp : Int), x < s.plan.src.frameW.toNat → r.sliceH1.toNat ≤ y → y < r.sliceH2.toNat →
        yp = (s.mem.read (r.inPlanes.q0.addr f.bps x y) f.bps : Int) - s.plan.yuvOffsetIn.toNat →
        up = (s.mem.read (r.inPlanes.q1.addr f.bps (x / 2 ^ f.cw) (y / 2 ^ f.ch)) f.bps : Int) - 2 ^ (f.d - 1) →
        vp = (s.mem.read (r.inPlanes.q2.addr f.bps (x / 2 ^ f.cw) (y / 2 ^ f.ch)) f.bps : Int) - 2 ^ (f.d - 1) →
          (t.mem.read (r.outPlanes.q0.addr g.bps x y) g.bps : Int)
            = max 0 (min (2 ^ g.d - 1) ((s.plan.yuvOffsetOut.toNat : Int)
                + (s.plan.yuv2yuv.c0.c0.toInt * yp + s.plan.yuv2yuv.c0.c1.toInt * up + s.plan.yuv2yuv.c0.c2.toInt * vp
                    + 2 ^ (14 + f.d - g.d - 1)) / 2 ^ (14 + f.d - g.d))))
    ∧ (∀ (x y : Nat) (yp up vp : Int), x < s.plan.src.frameW.toNat / 2 ^ f.cw → r.sliceH1.toNat / 2 ^ f.ch ≤ y →
        y < r.sliceH2.toNat / 2 ^ f.ch →
        yp = (s.mem.read (r.inPlanes.q0.addr f.bps (x * 2 ^ f.cw) (y * 2 ^ f.ch)) f.bps : Int) - s.plan.yuvOffsetIn.toNat →
        up = (s.mem.read (r.inPlanes.q1.addr f.bps x y) f.bps : Int) - 2 ^ (f.d - 1) →
        vp = (s.mem.read (r.inPlanes.q2.addr f.bps x y) f.bps : Int) - 2 ^ (f.d - 1) →
          (t.mem.read (r.outPlanes.q1.addr g.bps x y) g.bps : Int)
            = max 0 (min (2 ^ g.d - 1) (2 ^ (g.d - 1)
                + (s.plan.yuv2yuv.c1.c0.toInt * yp + s.plan.yuv2yuv.c1.c1.toInt * up + s.plan.yuv2yuv.c1.c2.toInt * vp
                    + 2 ^ (14 + f.d - g.d - 1)) / 2 ^ (14 + f.d - g.d)))
          ∧ (t.mem.read (r.outPlanes.q2.addr g.bps x y) g.bps : Int)
            = max 0 (min (2 ^ g.d - 1) (2 ^ (g.d - 1)
                + (s.plan.yuv2yuv.c2.c0.toInt * yp + s.plan.yuv2yuv.c2.c1.toInt * up + s.plan.yuv2yuv.c2.c2.toInt * vp
                    + 2 ^ (14 + f.d - g.d - 1)) / 2 ^ (14 + f.d - g.d))))

/-- R240 to R251: every output sample of the full integer pipeline: yuv2rgb on nearest chroma, the LUTs and the primary map where they
apply, both chroma filters, and rgb2yuv; with dither, the FSB planes on fresh error rows (their pixels: DitherDiffusesTheError). -/
def Obligations.FullIntegerPipelineWritesEverySample : Prop :=
  ∀ (s t : State) (f g : PixFmt) (r : Regs) (yuv px lin mapped rgb chroma : Nat → Nat → Nat → Int) (look : List Half → Int → Int)
    (sum : Fin 4 → Nat → Nat → Int) (off : Fin 4 → Int),
    s.Inv → s.SliceDefined → s.plan.pipe = .int → s.plan.flags.yuv2yuvFast = false →
    s.plan.src.inFmt = f → s.plan.src.outFmt = g → s.operands = r → exec .convertSlice s = .next t →
    (∀ x y, yuv 0 x y = (s.mem.read (r.inPlanes.q0.addr f.bps x y) f.bps : Int) - s.plan.yuvOffsetIn.toNat
      ∧ yuv 1 x y = (s.mem.read (r.inPlanes.q1.addr f.bps (x / 2 ^ f.cw) (y / 2 ^ f.ch)) f.bps : Int) - 2 ^ (f.d - 1)
      ∧ yuv 2 x y = (s.mem.read (r.inPlanes.q2.addr f.bps (x / 2 ^ f.cw) (y / 2 ^ f.ch)) f.bps : Int) - 2 ^ (f.d - 1)) →
    (∀ n x y, px n x y = max (-32768) (min 32767
      ((((s.plan.yuv2rgb.get n).get 0).toInt * yuv 0 x y + ((s.plan.yuv2rgb.get n).get 1).toInt * yuv 1 x y
        + ((s.plan.yuv2rgb.get n).get 2).toInt * yuv 2 x y + 2 ^ (f.d - 2)) / 2 ^ (f.d - 1)))) →
    (∀ table v, look table v = (lutEntry table (max 0 (min 32767 (2048 + v))).toNat).toInt) →
    (∀ n x y, lin n x y = look s.plan.linLut (px n x y)) →
    (∀ n x y, mapped n x y = if s.plan.flags.lrgb2lrgbPt = true then lin n x y
      else max (-32768) (min 32767
        ((((s.plan.lrgb2lrgb.get n).get 0).toInt * lin 0 x y + ((s.plan.lrgb2lrgb.get n).get 1).toInt * lin 1 x y
          + ((s.plan.lrgb2lrgb.get n).get 2).toInt * lin 2 x y + 8192) / 2 ^ 14))) →
    (∀ n x y, rgb n x y = if s.plan.flags.rgb2rgbPt = true then px n x y else look s.plan.delinLut (mapped n x y)) →
    (∀ n x y, chroma n x y =
      if g.cw = 0 then rgb n x y
      else if s.params.chromaDown = .nearest then rgb n (x * 2 ^ g.cw) (y * 2 ^ g.ch)
      else if g.ch = 0 then (rgb n (2 * x) y + rgb n (2 * x + 1) y + 1) / 2
      else (rgb n (2 * x) (2 * y) + rgb n (2 * x + 1) (2 * y) + rgb n (2 * x) (2 * y + 1) + rgb n (2 * x + 1) (2 * y + 1) + 2) / 4) →
    (∀ p x y, sum p x y = if p = 0 then
        ((s.plan.rgb2yuv.get 0).get 0).toInt * rgb 0 x y + ((s.plan.rgb2yuv.get 0).get 1).toInt * rgb 1 x y
          + ((s.plan.rgb2yuv.get 0).get 2).toInt * rgb 2 x y
      else ((s.plan.rgb2yuv.get p).get 0).toInt * chroma 0 x y + ((s.plan.rgb2yuv.get p).get 1).toInt * chroma 1 x y
          + ((s.plan.rgb2yuv.get p).get 2).toInt * chroma 2 x y) →
    (∀ p, off p = if p = 0 then (s.plan.yuvOffsetOut.toNat : Int) else 2 ^ (g.d - 1)) →
    ∀ (p : Fin 4) (w a b : Nat), p ≠ 3 →
      w = (if p = 0 then s.plan.src.frameW.toNat else s.plan.src.frameW.toNat / 2 ^ g.cw) →
      a = (if p = 0 then r.sliceH1.toNat else r.sliceH1.toNat / 2 ^ g.ch) →
      b = (if p = 0 then r.sliceH2.toNat else r.sliceH2.toNat / 2 ^ g.ch) →
        (s.plan.flags.dither = false → ∀ x y, x < w → a ≤ y → y < b →
          (t.mem.read ((r.outPlanes.get p).addr g.bps x y) g.bps : Int)
            = max 0 (min (2 ^ g.d - 1) (off p + (sum p x y + 2 ^ (28 - g.d)) / 2 ^ (29 - g.d))))
        ∧ (s.plan.flags.dither = true →
          ((List.range' a (b - a)).flatMap fun y => (List.range w).map fun x =>
              (t.mem.read ((r.outPlanes.get p).addr g.bps x y) g.bps : Int))
            = fsbRows g.d (off p) (29 - g.d) ⟨List.replicate (w + 4) (2 ^ (28 - g.d)), List.replicate (w + 4) (2 ^ (28 - g.d))⟩
                ((List.range' a (b - a)).map fun y => (List.range w).map fun x => sum p x y))

/-- R270 to R277: every colour sample of the float paths, planes 2, 0, 1 holding components 0, 1, 2 (R, G, B): the half pipe by its
LUTs, the single pipe by the closed forms, the map in binary32. A NaN operand of L or D gives a NaN (log 17), and the bits of a NaN
are free (log 3). -/
def Obligations.FloatPathsWriteEverySample : Prop :=
  ∀ (s t : State) (f : PixFmt) (r : Regs) (mul32 : V3 Word → V3 Fl → Fl) (into : Fin 4 → Nat → Nat → Nat),
    s.Inv → s.SliceDefined → s.plan.flags.rgb2rgbPt = false → s.plan.src.outFmt = f → s.operands = r →
    exec .convertSlice s = .next t →
    (∀ row u, mul32 row u = Fl.add b32 (Fl.add b32 (Fl.mul b32 (Fl.of32 row.c0) u.c0) (Fl.mul b32 (Fl.of32 row.c1) u.c1))
      (Fl.mul b32 (Fl.of32 row.c2) u.c2)) →
    (∀ p x y, into p x y = s.mem.read ((r.inPlanes.get p).addr f.bps x y) f.bps) →
    ∀ (p : Fin 4) (i x y : Nat), (p = 2 ∧ i = 0) ∨ (p = 0 ∧ i = 1) ∨ (p = 1 ∧ i = 2) →
      x < s.plan.src.frameW.toNat → r.sliceH1.toNat ≤ y → y < r.sliceH2.toNat →
      (s.plan.pipe = .half → ∃ d : DWord,
        t.mem.read ((r.outPlanes.get p).addr f.bps x y) f.bps
          = (lutEntry s.plan.delinLut
              (if s.plan.flags.inLinear = true ∧ s.plan.flags.lrgb2lrgbPt = true then into p x y
              else if s.plan.flags.lrgb2lrgbPt = true then (lutEntry s.plan.linLut (into p x y)).toNat
              else (Fl.to16 s.params.f2h d (mul32 (s.plan.lrgb2lrgbf.get i)
                ⟨Fl.of16 (lutEntry s.plan.linLut (into 2 x y)), Fl.of16 (lutEntry s.plan.linLut (into 0 x y)),
                 Fl.of16 (lutEntry s.plan.linLut (into 1 x y))⟩)).toNat)).toNat)
      ∧ (s.plan.pipe = .f32 → ∃ (e : Fin 4 → DWord) (d : DWord), ∀ (lin : Fin 4 → Fl) (v : Fl),
        (∀ k, lin k = if (Fl.of32 (BitVec.ofNat 32 (into k x y))).isNaN = true then .nan
          else Fl.fl32 (linearise (e k) s.plan.src.inBlk.transfer (Fl.of32 (BitVec.ofNat 32 (into k x y))))) →
        v = (if s.plan.flags.inLinear = true ∧ s.plan.flags.lrgb2lrgbPt = true then Fl.of32 (BitVec.ofNat 32 (into p x y))
          else if s.plan.flags.lrgb2lrgbPt = true then lin p
          else mul32 (s.plan.lrgb2lrgbf.get i) ⟨lin 2, lin 0, lin 1⟩) →
        t.mem.read ((r.outPlanes.get p).addr f.bps x y) f.bps
          = (Fl.to32 d (if v.isNaN = true then .nan
              else delinOut s.plan.flags.outExt s.plan.src.outBlk.transfer (Fl.to64 0 v))).toNat)

/-- R250, R251: one dithered pixel: its output; the error (acc mod 2^sh) − rnd spread 7, 3, 5 and 1 sixteenths to the next pixel and
the three below, its own element set back to rnd and every other kept; a pixel whose element is rnd rounds as without dither; and the
rows swapped after each row. -/
def Obligations.DitherDiffusesTheError : Prop :=
  (∀ (d sh x : Nat) (off sum acc diff out : Int) (e e' : FsbRows),
    1 ≤ sh → x + 2 < e.cur.length → x + 2 < e.nxt.length → fsbPixel d off sh sum x e = (out, e') →
    acc = sum + e.cur.at (x + 1) → diff = acc % 2 ^ sh - 2 ^ (sh - 1) →
      out = max 0 (min (2 ^ d - 1) (off + acc / 2 ^ sh))
      ∧ (e.cur.at (x + 1) = 2 ^ (sh - 1) → out = max 0 (min (2 ^ d - 1) (off + (sum + 2 ^ (sh - 1)) / 2 ^ sh)))
      ∧ -(2 ^ (sh - 1) : Int) ≤ diff ∧ diff < 2 ^ (sh - 1)
      ∧ (∀ i, e'.cur.at i = if i = x + 1 then 2 ^ (sh - 1) else if i = x + 2 then e.cur.at i + (7 * diff + 8) / 16 else e.cur.at i)
      ∧ (∀ i, e'.nxt.at i = if i = x then e.nxt.at i + (3 * diff + 8) / 16 else if i = x + 1 then e.nxt.at i + (5 * diff + 8) / 16
          else if i = x + 2 then e.nxt.at i + (1 * diff + 8) / 16 else e.nxt.at i))
  ∧ (∀ (d sh x : Nat) (off sum : Int) (rest : List Int) (e : FsbRows),
      fsbRow d off sh e x [] = ([], e)
      ∧ fsbRow d off sh e x (sum :: rest)
        = ((fsbPixel d off sh sum x e).1 :: (fsbRow d off sh (fsbPixel d off sh sum x e).2 (x + 1) rest).1,
           (fsbRow d off sh (fsbPixel d off sh sum x e).2 (x + 1) rest).2))
  ∧ (∀ (d sh : Nat) (off : Int) (row : List Int) (rest : List (List Int)) (e e' : FsbRows) (out : List Int),
      fsbRow d off sh e 0 row = (out, e') →
        fsbRows d off sh e [] = [] ∧ fsbRows d off sh e (row :: rest) = out ++ fsbRows d off sh ⟨e'.nxt, e'.cur⟩ rest)

/-! ### The whole machine -/

/-- R71, R73, R75, R76, R98: bytes per sample of each depth; the sample address is the wrapping 32-bit sum of base, row times stride
and column times sample size; reads and writes of n bytes are little-endian, addresses modulo 2^32. -/
def Obligations.SampleAddressesAndBytes : Prop :=
  (∀ f : PixFmt, f.toWord ∈ supportedFormatWords →
    (f.depth = 8 ∧ f.bps = 1) ∨ ((f.depth = 10 ∨ f.depth = 12 ∨ f.depth = 16) ∧ f.bps = 2) ∨ (f.depth = 32 ∧ f.bps = 4))
  ∧ (∀ (r : PlaneReg) (bps x y : Nat), r.addr bps x y < 2 ^ 32
    ∧ BitVec.ofNat 32 (r.addr bps x y) = r.base + BitVec.ofNat 32 y * r.stride + BitVec.ofNat 32 (x * bps))
  ∧ (∀ (m : Memory) (a n : Nat), m.read a n = ∑ k ∈ Finset.range n, (m.byte ((a + k) % 2 ^ 32)).toNat * 2 ^ (8 * k))
  ∧ (∀ (m : Memory) (a n v : Nat), m.wf = true → n ≤ 2 ^ 32 →
      (∀ k, k < n → (m.write a n v).byte ((a + k) % 2 ^ 32) = BitVec.ofNat 8 (v / 2 ^ (8 * k)))
      ∧ (∀ b, (∀ k, k < n → b ≠ (a + k) % 2 ^ 32) → (m.write a n v).byte b = m.byte b))

/-- R84, R334, I-5, I-18: a host access to a byte of frame memory. A write stores that byte alone, and marks a running conversion
disturbed (the model's own field, log 12) exactly when the byte is in its read or write set; a read returns the byte, elsewhere than in
the write set as it was before the command (log 5), and any byte where the running conversion writes. That a host access to memory with
side effects, which R79 says frame memory is not, is refused is the model's choice (log 15). -/
def Obligations.HostFrameMemoryAccesses : Prop :=
  ∀ (s : State) (a : Word) (rest : List Move) (inSets inWriteSet device : Prop),
    s.mem.wf = true →
    (inSets ↔ ∃ ops, s.seq = .busy 0x00000002 ops ∧ s.planValid = true ∧ s.plan.badSlice ops = false
      ∧ (a.toNat ∈ s.plan.readSet ops ∨ a.toNat ∈ s.plan.writeSet ops)) →
    (inWriteSet ↔ ∃ ops, s.seq = .busy 0x00000002 ops ∧ s.planValid = true ∧ s.plan.badSlice ops = false
      ∧ a.toNat ∈ s.plan.writeSet ops) →
    (device ↔ (s.params.regBase.toNat ≤ a.toNat ∧ a.toNat < s.params.regBase.toNat + 0x400)
      ∨ (∃ g ∈ s.params.sideEffects, g.base ≤ a.toNat ∧ a.toNat < g.base + g.size)) →
      (∀ v, s.agenda = .host (.memWrite a v) :: rest →
        (device → step s = .refused .hostSideEffectAccess)
        ∧ (¬device → ∃ t, step s = .next t ∧ t = { s with agenda := rest, mem := t.mem, disturbed := t.disturbed }
          ∧ t.mem.byte a.toNat = v ∧ (∀ b, b ≠ a.toNat → t.mem.byte b = s.mem.byte b)
          ∧ (t.disturbed = true ↔ s.disturbed = true ∨ inSets)))
      ∧ (s.agenda = .host (.memRead a) :: rest →
        (device → step s = .refused .hostSideEffectAccess)
        ∧ (¬device → ¬inWriteSet → step s = .next { s with agenda := rest, hostData := (s.mem.byte a.toNat).setWidth 32 })
        ∧ (¬device → inWriteSet → ∃ v : Byte,
            step s = .next { s with agenda := rest, hostData := v.setWidth 32, draws := s.draws + 1 }))

/-- R70, R94, R302, R307: what each command leaves unchanged. -/
def Obligations.CommandFrames : Prop :=
  ∀ (i : Instr) (s t : State), exec i s = .next t →
    t.params = s.params ∧ t.irqEn = s.irqEn ∧ t.regs = s.regs ∧ t.lutIndex = s.lutIndex ∧ t.agenda = s.agenda
    ∧ t.hostData = s.hostData ∧ t.seq = .idle ∧ t.done = true
    ∧ ((∀ side, i ≠ .tfEvalD side ∧ i ≠ .tfEvalL side) → t.tfRes = s.tfRes)
    ∧ (i ≠ .plan → t.plan = s.plan ∧ t.warn = s.warn ∧ t.warnedOnce = s.warnedOnce)
    ∧ (i ≠ .plan → i ≠ .invalidate → t.planValid = s.planValid ∧ t.caches = s.caches)
    ∧ (i ≠ .convertSlice → t.mem = s.mem ∧ t.scratch = s.scratch)

/-- R95: an accepted CMD write takes the registers as held then, and the running command uses those values: what the registers
hold when it completes changes nothing but themselves. -/
def Obligations.OperandsAreThoseOfAcceptance : Prop :=
  (∀ (s : State) (w : Word) (rest : List Move), s.agenda = .host (.regWrite 0x008 4 w) :: rest → s.seq = .idle →
    ∀ u, step s = .next u → u.seq = .busy w s.regs)
  ∧ (∀ (i : Instr) (s t : State) (w : Word) (ops other : Regs), s.seq = .busy w ops → exec i s = .next t →
    exec i { s with regs := other } = .next { t with regs := other })

/-- R319: every command completes on every state; only CONVERT_SLICE onto memory with side effects is refused (I-4, log 15). -/
def Obligations.EveryCommandCompletes : Prop :=
  ∀ (i : Instr) (s : State), (i = .convertSlice → s.plan.touchesSideEffects s.params s.operands = false) →
    ∃ t, exec i s = .next t ∧ t.seq = .idle ∧ t.done = true

/-- R55: the state after reset: every register reads 0 but ID and VERSION, and the internal state is as the rule lists it. -/
def Obligations.ResetState : Prop :=
  State.reset.readReg .id = 0x43534345 ∧ State.reset.readReg .version = 0x00070000
  ∧ (∀ r : Reg, r ≠ .id → r ≠ .version → State.reset.readReg r = 0)
  ∧ State.reset.seq = .idle ∧ State.reset.done = false ∧ State.reset.err = false ∧ State.reset.warn = false
  ∧ State.reset.planValid = false ∧ State.reset.errcode = .none ∧ State.reset.warnedOnce = false
  ∧ State.reset.caches = none ∧ State.reset.isBusy = false ∧ State.reset.irq = false

/-- R330: the reset input, at any time: every register reads its reset value, a running command is abandoned, and every byte of
frame memory outside an abandoned CONVERT_SLICE's write set keeps its value (all of them when none is running). -/
def Obligations.ResetInputAbandonsTheCommand : Prop :=
  ∀ (s : State) (rest : List Move), s.agenda = .host .reset :: rest →
    ∃ t, step s = .next t ∧ t.seq = .idle ∧ t.warnedOnce = false ∧ t.planValid = false ∧ t.caches = none
      ∧ (∀ r : Reg, t.readReg r = State.reset.readReg r)
      ∧ (∀ a, (∀ ops, s.seq = .busy 0x00000002 ops → a ∉ s.plan.writeSet ops) → t.mem.byte a = s.mem.byte a)

/-- R25, R39, R50, R51, R79, R95, R216: every step keeps the invariant, from every state that has it. -/
def Obligations.EveryStepKeepsTheInvariant : Prop :=
  ∀ s t : State, s.Inv → step s = .next t → t.Inv

/-- The state after reset has the invariant. -/
def Obligations.ResetHasTheInvariant : Prop := State.reset.Inv

/-- R225, R229: without dither, on every path but those that may store a NaN with a free payload (half full, single), two slices that
meet, each executed from an idle state, leave every byte as the one slice over both does. -/
def Obligations.SlicesAreIndependentWithoutDither : Prop :=
  ∀ (s : State) (h : BitVec 16) (t1 t2 t : State),
    s.Inv → s.seq = .idle → s.SliceDefined → s.plan.flags.dither = false →
    s.plan.path ∈ [Path.copy, Path.yuv2yuv, Path.intFull, Path.halfDelin] →
    s.regs.sliceH1.toNat < h.toNat → h.toNat < s.regs.sliceH2.toNat → h.toNat % 2 = 0 →
    exec .convertSlice { s with regs := { s.regs with sliceH2 := h } } = .next t1 →
    exec .convertSlice { t1 with regs := { s.regs with sliceH1 := h } } = .next t2 →
    exec .convertSlice s = .next t →
      ∀ b, t2.mem.byte b = t.mem.byte b
end

