-- ==== Sys2Proof/Laws/Float.lean ====
section
/-! SUPPORT. Bit patterns and values of the soft floats: a pattern that is no NaN is the pattern of its value, and a NaN is
encoded as a NaN. -/

namespace Sys2Proof.Machine

namespace Fl

/-- A finite value whose significand already fits its exponent is not changed by rounding. -/
theorem roundFin_of_fits {f : Fmt} {r : Rounding} {s : Bool} {m : Nat} {e : Int} (h0 : m ≠ 0) (hm : m < 2 ^ f.prec)
    (hq : f.roundExp m e = e) (he : e ≤ f.maxExp) : roundFin f r s m e = .fin s m e := by
  unfold roundFin
  simp only [h0, if_false, hq, le_refl, if_true, sub_self, Int.toNat_zero, pow_zero, Nat.mul_one]
  rw [if_neg (Nat.ne_of_lt hm), if_neg (not_lt.2 he)]

theorem log2_le_of_lt {m k : Nat} (h0 : m ≠ 0) (h : m < 2 ^ (k + 1)) : m.log2 ≤ k :=
  Nat.lt_succ_iff.1 ((Nat.log2_lt h0).2 h)

/-- The pattern of the value of a pattern is that pattern, unless it is a NaN's. -/
theorem toBits_ofBits {p x : Nat} (hx : x ≠ 0) {r : Rounding} {d b : Nat} (hb : b < 2 ^ (x + 1 + (p + 2)))
    (h : (ofBits ⟨p + 2, x + 1⟩ b).isNaN = false) : toBits ⟨p + 2, x + 1⟩ r d (ofBits ⟨p + 2, x + 1⟩ b) = b := by
  set f : Fmt := ⟨p + 2, x + 1⟩ with hf
  have hP : f.prec = p + 2 := rfl
  have hE : f.ebits = x + 1 := rfl
  -- the three fields of the pattern
  set fr := b % 2 ^ (p + 1) with hfr
  set ex := b / 2 ^ (p + 1) % 2 ^ (x + 1) with hex
  set sg := b / 2 ^ (x + 1 + (p + 1)) with hsg
  have hA : 0 < 2 ^ (p + 1) := by positivity
  have hB : 0 < 2 ^ (x + 1) := by positivity
  have hfrlt : fr < 2 ^ (p + 1) := Nat.mod_lt _ hA
  have hexlt : ex < 2 ^ (x + 1) := Nat.mod_lt _ hB
  have hsglt : sg < 2 := by
    rw [hsg, Nat.div_lt_iff_lt_mul (by positivity)]
    calc b < 2 ^ (x + 1 + (p + 2)) := hb
      _ = 2 * 2 ^ (x + 1 + (p + 1)) := by ring
  have hdec : b = sg * 2 ^ (x + 1 + (p + 1)) + ex * 2 ^ (p + 1) + fr := by
    have h1 : b = 2 ^ (p + 1) * (b / 2 ^ (p + 1)) + fr := (Nat.div_add_mod b _).symm
    have h2 : b / 2 ^ (p + 1) = 2 ^ (x + 1) * sg + ex := by
      have h3 : sg = b / 2 ^ (p + 1) / 2 ^ (x + 1) := by
        rw [hsg, show x + 1 + (p + 1) = (p + 1) + (x + 1) by ring, pow_add 2 (p + 1), Nat.div_div_eq_div_mul]
      rw [h3]
      exact (Nat.div_add_mod _ _).symm
    rw [h2] at h1
    rw [pow_add]
    calc b = 2 ^ (p + 1) * (2 ^ (x + 1) * sg + ex) + fr := h1
      _ = _ := by ring
  have hval : ofBits f b = if ex = 2 ^ (x + 1) - 1 then (if fr = 0 then .inf (sg % 2 == 1) else .nan)
      else if ex = 0 then .fin (sg % 2 == 1) fr f.minExp
      else .fin (sg % 2 == 1) (2 ^ (p + 1) + fr) (f.minExp + ex - 1) := by
    unfold ofBits
    rw [hP, hE, show p + 2 - 1 = p + 1 by omega, show x + 1 + (p + 2) - 1 = x + 1 + (p + 1) by omega]
  clear_value fr ex sg
  clear hfr hex hsg
  have hsig : signBit f (sg % 2 == 1) = sg * 2 ^ (x + 1 + (p + 1)) := by
    unfold signBit
    rw [hP, hE, show x + 1 + (p + 2) - 1 = x + 1 + (p + 1) by omega]
    obtain e | e : sg = 0 ∨ sg = 1 := by omega
    · simp [e]
    · simp [e]
  have hmaxmin : f.maxExp = f.minExp + 2 * (f.bias : Int) - 1 := by unfold Fmt.maxExp Fmt.minExp; ring
  have hbias : (f.bias : Int) = 2 ^ x - 1 := by
    unfold Fmt.bias
    rw [hE, Nat.add_sub_cancel, Nat.cast_sub Nat.one_le_two_pow]
    push_cast; ring
  have htop : ((2 ^ (x + 1) : Nat) : Int) = 2 * 2 ^ x := by push_cast; ring
  have hx1 : (1 : Int) ≤ 2 ^ x := by exact_mod_cast (Nat.one_le_two_pow : 1 ≤ 2 ^ x)
  rw [hval] at h ⊢
  split_ifs at h ⊢ with h1 h2 h3
  · -- an infinity
    unfold toBits round
    simp only
    rw [hsig]
    unfold topExp
    rw [hP, hE, show p + 2 - 1 = p + 1 by omega, ← h1]
    omega
  · simp [isNaN] at h
  · -- zero or a subnormal
    unfold toBits round
    simp only
    by_cases h0 : fr = 0
    · have : roundFin f r (sg % 2 == 1) fr f.minExp = .fin (sg % 2 == 1) fr f.minExp := by simp [roundFin, h0]
      rw [this]
      simp only
      unfold packFin
      rw [hP, show p + 2 - 1 = p + 1 by omega, if_pos hfrlt, hsig, hdec, h3]
      omega
    · by_cases hmx : f.minExp ≤ f.maxExp
      · have hlog : fr.log2 ≤ p := log2_le_of_lt h0 hfrlt
        have hq : f.roundExp fr f.minExp = f.minExp := by
          unfold Fmt.roundExp
          rw [hP]
          apply max_eq_right
          push_cast
          omega
        rw [roundFin_of_fits h0 (by rw [hP]; calc fr < 2 ^ (p + 1) := hfrlt
                                       _ ≤ 2 ^ (p + 2) := Nat.pow_le_pow_right (by omega) (by omega)) hq hmx]
        simp only
        unfold packFin
        rw [hP, show p + 2 - 1 = p + 1 by omega, if_pos hfrlt, hsig, hdec, h3]
        omega
      · -- with one exponent bit nothing is finite
        exfalso
        rw [hmaxmin, hbias] at hmx
        have : (2 : Int) ^ 1 ≤ 2 ^ x := by exact_mod_cast Nat.pow_le_pow_right (by decide : 0 < 2) (Nat.one_le_iff_ne_zero.2 hx)
        omega
  · -- a normal value
    unfold toBits round
    simp only
    have hne : 2 ^ (p + 1) + fr ≠ 0 := by omega
    have hlt2 : 2 ^ (p + 1) + fr < 2 ^ (p + 1 + 1) := by rw [pow_succ 2 (p + 1)]; omega
    have hlog : (2 ^ (p + 1) + fr).log2 = p + 1 :=
      le_antisymm (log2_le_of_lt hne hlt2) ((Nat.le_log2 hne).2 (Nat.le_add_right _ _))
    have hex1 : 1 ≤ ex := Nat.one_le_iff_ne_zero.2 h3
    have hq : f.roundExp (2 ^ (p + 1) + fr) (f.minExp + ex - 1) = f.minExp + ex - 1 := by
      unfold Fmt.roundExp
      rw [hP, hlog]
      have : f.minExp + (ex : Int) - 1 + ((p + 1 : Nat) : Int) - (((p + 2 : Nat) : Int) - 1) = f.minExp + ex - 1 := by
        push_cast; ring
      rw [this]
      apply max_eq_left
      omega
    have hmx : f.minExp + (ex : Int) - 1 ≤ f.maxExp := by
      rw [hmaxmin, hbias]
      have h4 : ex ≤ 2 ^ (x + 1) - 2 := by omega
      have h5 : (ex : Int) ≤ 2 * 2 ^ x - 2 := by rw [← htop]; omega
      omega
    rw [roundFin_of_fits hne (by rw [hP]; exact hlt2) hq hmx]
    simp only
    unfold packFin
    rw [hP, show p + 2 - 1 = p + 1 by omega, if_neg (by omega), hsig]
    have : (f.minExp + (ex : Int) - 1 - f.minExp + 1).toNat = ex := by omega
    rw [this, Nat.add_sub_cancel_left]
    exact hdec.symm

/-- The binary64 pattern of the value of a pair is the pair, unless it holds a NaN. -/
theorem to64_of64 (d b : DWord) (h : (of64 b).isNaN = false) : to64 d (of64 b) = b := by
  have : toBits b64 .nearestEven d.toNat (ofBits b64 b.toNat) = b.toNat := toBits_ofBits (p := 51) (x := 10) (by decide) b.isLt h
  unfold to64 of64
  rw [this]
  simp

/-- The pattern a free value gives a NaN is a NaN's. -/
theorem isNaN_ofBits_nanBits (p x d : Nat) : (ofBits ⟨p + 2, x + 1⟩ (nanBits ⟨p + 2, x + 1⟩ d)).isNaN = true := by
  set g := (if d % 2 ^ (p + 1) = 0 then 1 else d % 2 ^ (p + 1)) with hg
  have hA : 0 < 2 ^ (p + 1) := by positivity
  have hA1 : 1 < 2 ^ (p + 1) := Nat.one_lt_two_pow (by omega)
  have hB1 : 1 ≤ 2 ^ (x + 1) := Nat.one_le_two_pow
  have hglt : g < 2 ^ (p + 1) := by
    rw [hg]; split
    · exact hA1
    · exact Nat.mod_lt _ hA
  have hg0 : g ≠ 0 := by rw [hg]; split <;> omega
  obtain ⟨k, hk⟩ : ∃ k, nanBits ⟨p + 2, x + 1⟩ d = (k * 2 ^ (x + 1) + (2 ^ (x + 1) - 1)) * 2 ^ (p + 1) + g := by
    unfold nanBits signBit topExp
    simp only [show p + 2 - 1 = p + 1 by omega]
    rw [← hg, show x + 1 + (p + 2) - 1 = x + 1 + (p + 1) by omega]
    cases (d / 2 ^ (x + 1 + (p + 1)) % 2 == 1)
    · exact ⟨0, by simp⟩
    · exact ⟨1, by simp [pow_add]; ring⟩
  unfold ofBits
  simp only [show p + 2 - 1 = p + 1 by omega]
  rw [hk]
  have h1 : ((k * 2 ^ (x + 1) + (2 ^ (x + 1) - 1)) * 2 ^ (p + 1) + g) / 2 ^ (p + 1) = k * 2 ^ (x + 1) + (2 ^ (x + 1) - 1) := by
    rw [Nat.mul_comm, Nat.mul_add_div hA, Nat.div_eq_of_lt hglt, Nat.add_zero]
  have h2 : ((k * 2 ^ (x + 1) + (2 ^ (x + 1) - 1)) * 2 ^ (p + 1) + g) % 2 ^ (p + 1) = g := by
    rw [Nat.mul_comm, Nat.mul_add_mod, Nat.mod_eq_of_lt hglt]
  have h3 : (k * 2 ^ (x + 1) + (2 ^ (x + 1) - 1)) % 2 ^ (x + 1) = 2 ^ (x + 1) - 1 := by
    rw [Nat.mul_comm, Nat.mul_add_mod, Nat.mod_eq_of_lt (by omega)]
  rw [h1, h2, h3, if_pos rfl, if_neg hg0]
  rfl

/-- A shift to the right by k rounds to the quotient or to the next integer. -/
theorem shiftRound_le (r : Rounding) (m k : Nat) : shiftRound r m k ≤ m / 2 ^ k + 1 := by
  unfold shiftRound
  cases r <;> dsimp only
  · split <;> omega
  · omega

/-- A significand of at most `prec` bits at the exponent where it is rounded. -/
theorem roundExp_bits {f : Fmt} {r : Rounding} {m : Nat} {e : Int} :
    (if f.roundExp m e ≤ e then m * 2 ^ (e - f.roundExp m e).toNat
      else shiftRound r m (f.roundExp m e - e).toNat) ≤ 2 ^ f.prec := by
  have hl : m < 2 ^ (m.log2 + 1) := Nat.lt_log2_self
  have hq : e + (m.log2 : Int) - ((f.prec : Int) - 1) ≤ f.roundExp m e := le_max_left _ _
  generalize f.roundExp m e = q at *
  split
  · have : m.log2 + 1 + (e - q).toNat ≤ f.prec := by omega
    calc m * 2 ^ (e - q).toNat ≤ 2 ^ (m.log2 + 1) * 2 ^ (e - q).toNat := Nat.mul_le_mul_right _ hl.le
      _ = 2 ^ (m.log2 + 1 + (e - q).toNat) := (pow_add _ _ _).symm
      _ ≤ 2 ^ f.prec := Nat.pow_le_pow_right (by decide) this
  · have h1 : m.log2 + 1 ≤ f.prec + (q - e).toNat := by omega
    have h2 : m / 2 ^ (q - e).toNat < 2 ^ f.prec := by
      rw [Nat.div_lt_iff_lt_mul (by positivity), ← pow_add]
      exact hl.trans_le (Nat.pow_le_pow_right (by decide) h1)
    exact (shiftRound_le _ _ _).trans h2

/-- What rounding a finite value m · 2^e gives, where m < 2^k and 2^(e + k) lies in the format's range: a finite value whose
significand has at most `prec` bits, at an exponent no higher than e + k. -/
theorem roundFin_small {f : Fmt} {r : Rounding} {s : Bool} {m k : Nat} {e : Int} (hp : 0 < f.prec) (hm : m < 2 ^ k)
    (he : e + k ≤ f.maxExp) (hx : f.minExp + 1 ≤ f.maxExp) :
    ∃ n q, roundFin f r s m e = .fin s n q ∧ n < 2 ^ f.prec ∧ q ≤ max (e + k) (f.minExp + 1) := by
  unfold roundFin
  split
  · exact ⟨0, _, rfl, by positivity, by omega⟩
  next h0 =>
    have hb := roundExp_bits (f := f) (r := r) (m := m) (e := e)
    have hk : m.log2 < k := (Nat.log2_lt h0).2 hm
    have hq : f.roundExp m e + 1 ≤ max (e + k) (f.minExp + 1) := by
      unfold Fmt.roundExp
      omega
    dsimp only
    generalize (if f.roundExp m e ≤ e then _ else _) = n at *
    split
    · rw [if_neg (by omega)]
      exact ⟨_, _, rfl, Nat.pow_lt_pow_right (by decide) (by omega), by omega⟩
    next hne =>
      rw [if_neg (by omega)]
      exact ⟨_, _, rfl, by omega, by omega⟩
/-- Rounding a finite value gives no NaN. -/
theorem roundFin_isNaN (f : Fmt) (r : Rounding) (s : Bool) (m : Nat) (e : Int) : (roundFin f r s m e).isNaN = false := by
  unfold roundFin
  dsimp only
  split_ifs <;> rfl

/-- The product of finite values is no NaN. -/
theorem mul_isNaN {f : Fmt} {x y : Fl} (hx : x.isFinite = true) (hy : y.isFinite = true) : (mul f x y).isNaN = false := by
  match x, y, hx, hy with
  | .fin _ _ _, .fin _ _ _, _, _ => exact roundFin_isNaN _ _ _ _ _

end Fl

end Sys2Proof.Machine
end

