-- ==== Sys2Proof/Laws/Lut.lean ====
section
/-! SUPPORT. The integer LUT builder answers tables where no entry is a NaN (R183), and the operands v(n) of its entries are small
(R181). -/

namespace Sys2Proof.Machine

/-- A finite value whose significand has at most 53 bits, at an exponent no higher than `c`. -/
def Fl.Bounded (c : Int) (x : Fl) : Prop := ∃ s m e, x = .fin s m e ∧ m < 2 ^ 53 ∧ e ≤ c

theorem Fl.Bounded.finite {c : Int} {x : Fl} (h : x.Bounded c) : x.isFinite = true := by
  obtain ⟨s, m, e, rfl, -⟩ := h
  rfl

theorem Fl.Bounded.mono {c d : Int} {x : Fl} (h : x.Bounded c) (hcd : c ≤ d) : x.Bounded d := by
  obtain ⟨s, m, e, hx, hm, he⟩ := h
  exact ⟨s, m, e, hx, hm, he.trans hcd⟩

/-- The bits of a value that is no NaN and not large are those of a value that is not large. -/
theorem Fl.of64_packFin_bounded (s : Bool) {n : Nat} {q : Int} (hn : n < 2 ^ 53) (hq : q ≤ 300) :
    (of64 (BitVec.ofNat 64 (packFin b64 s n q))).Bounded 300 := by
  have bits : ∀ b : Nat, b < 2 ^ 64 → b / 2 ^ 52 % 2 ^ 11 ≤ 1375 → (of64 (BitVec.ofNat 64 b)).Bounded 300 := by
    intro b hb he
    unfold of64 ofBits
    rw [BitVec.toNat_ofNat, Nat.mod_eq_of_lt hb]
    simp only [show b64.prec - 1 = 52 from rfl, show b64.ebits = 11 from rfl, show b64.minExp = -1074 by decide]
    have := Nat.mod_lt b (show 2 ^ 52 > 0 by decide)
    rw [if_neg (by omega)]
    split <;> exact ⟨_, _, _, rfl, by omega, by omega⟩
  have sign : signBit b64 s = 0 ∨ signBit b64 s = 2 ^ 63 := by cases s <;> decide
  unfold packFin
  simp only [show b64.prec - 1 = 52 from rfl, show b64.minExp = -1074 by decide]
  split <;> apply bits <;> rcases sign with h | h <;> rw [h] <;> omega

/-- Writing a small value to a register pair and reading it back gives a value that is not large. -/
theorem Fl.of64_to64_bounded {d : DWord} {x : Fl} (h : x.Bounded 100) : (of64 (to64 d x)).Bounded 300 := by
  obtain ⟨s, m, e, rfl, hm, he⟩ := h
  have hmax : b64.maxExp = 971 := by decide
  have hmin : b64.minExp = -1074 := by decide
  obtain ⟨k, q, h, hk, hq⟩ := roundFin_small (f := b64) (r := .nearestEven) (s := s) (by decide) hm (e := e) (by omega) (by omega)
  unfold to64 toBits round
  dsimp only
  rw [h]
  exact of64_packFin_bounded s hk (by omega)

/-- v(n) of R181 is small. -/
theorem lutValue_bounded {n : Nat} (hn : n < intLutSize) : (lutValue n).Bounded 100 := by
  have hlt : n < 32768 := hn
  have quot : ∀ a : Nat, a < 32768 →
      2 * (a * 2 ^ Fl.divGuard / 28672) + (if a * 2 ^ Fl.divGuard % 28672 = 0 then 0 else 1) < 2 ^ 150 := by
    intro a ha
    have h1 : a * 2 ^ Fl.divGuard / 28672 ≤ a * 2 ^ Fl.divGuard := Nat.div_le_self _ _
    have h2 : a * 2 ^ Fl.divGuard < 2 ^ 15 * 2 ^ Fl.divGuard := Nat.mul_lt_mul_of_pos_right ha (by positivity)
    rw [show 2 ^ 15 * 2 ^ Fl.divGuard = 2 ^ 143 by decide] at h2
    rw [show 2 ^ 150 = 128 * 2 ^ 143 by decide]
    generalize 2 ^ 143 = P at *
    generalize a * 2 ^ Fl.divGuard = A at *
    split <;> omega
  unfold lutValue Fl.ofInt Fl.div
  dsimp only
  rw [if_neg (by decide)]
  unfold Fl.divFin
  obtain ⟨k, q, h, hk, hq⟩ := Fl.roundFin_small (f := b64) (r := .nearestEven)
    (s := decide ((n : Int) - 2048 < 0) != decide ((28672 : Int) < 0)) (e := 0 - 0 - Fl.divGuard - 1) (by decide)
    (quot ((n : Int) - 2048).natAbs (by omega)) (by decide) (by decide)
  have : max ((0 : Int) - 0 - Fl.divGuard - 1 + (150 : Nat)) (b64.minExp + 1) ≤ 100 := by decide
  exact ⟨_, k, q, h, hk, by omega⟩

/-- qlut answers an entry for every value but a NaN (R183). -/
theorem qlut_isSome {r : Fl} (h : r.isNaN = false) : (qlut r).isSome = true := by
  cases r with
  | nan => cases h
  | inf s => rfl
  | fin s m e =>
    have hn := Fl.mul_isNaN (f := b64) (x := .fin s m e) (y := Fl.ofInt 28672) rfl rfl
    unfold qlut
    dsimp only
    cases hr : Fl.mul b64 (.fin s m e) (Fl.ofInt 28672) with
    | nan => rw [hr] at hn; cases hn
    | inf _ => rfl
    | fin _ _ _ => rfl

/-- The builder answers a table when no entry's value is a NaN (R183). -/
theorem intTable_isSome {f : Nat → Fl} (h : ∀ n, n < intLutSize → (f n).isNaN = false) : (intTable f).isSome = true := by
  have all : ∀ l : List Nat, (∀ n ∈ l, (f n).isNaN = false) → (l.mapM fun n => qlut (f n)).isSome = true := by
    intro l
    induction l with
    | nil => exact fun _ => rfl
    | cons a l ih =>
      intro h
      obtain ⟨x, hx⟩ := Option.isSome_iff_exists.1 (qlut_isSome (h a (by simp)))
      obtain ⟨y, hy⟩ := Option.isSome_iff_exists.1 (ih fun n hn => h n (by simp [hn]))
      simp [hx, hy]
  exact all _ fun n hn => h n (List.mem_range.1 hn)

/-- Both tables are built when no value of L and of D_out at the v(n) is a NaN (R182, R183). -/
theorem intLuts_isSome {draw : Nat} {tIn tOut : Transfer} {ext : Bool}
    (hl : ∀ n, n < intLutSize → (linearise (Config.nanDraw draw (lutSite n 0)) tIn (lutValue n)).isNaN = false)
    (hd : ∀ n, n < intLutSize → (delinOut ext tOut (Fl.to64 0 (lutValue n))).isNaN = false) :
    ∃ t, intLuts draw tIn tOut ext = some t := by
  obtain ⟨lin, h1⟩ := Option.isSome_iff_exists.1 (intTable_isSome hl)
  obtain ⟨delin, h2⟩ := Option.isSome_iff_exists.1 (intTable_isSome hd)
  exact ⟨(lin, delin), by unfold intLuts; rw [h1, h2]⟩

end Sys2Proof.Machine
end

