-- ==== Sys2Proof/Laws/Memory.lean ====
section
/-! SUPPORT. Frame memory: reads after writes, frames, and the canonical form kept by every memory operation. -/

namespace Sys2Proof.Machine

namespace Memory

@[simp] theorem byte_nil (a : Nat) : Memory.byte [] a = Memory.unlisted := rfl

theorem byte_cons (b : Nat) (v : Byte) (rest : Memory) (a : Nat) :
    Memory.byte ((b, v) :: rest) a = if b = a then v else Memory.byte rest a := rfl

/-- A write leaves every other address alone. -/
theorem byte_setByte_of_ne (m : Memory) {a a' : Nat} (v : Byte) (h : a' ≠ a) : (m.setByte a v).byte a' = m.byte a' := by
  induction m with
  | nil =>
    unfold setByte
    split
    · rfl
    · simp [byte_cons, Ne.symm h]
  | cons c rest ih =>
    obtain ⟨b, w⟩ := c
    have h' : ¬ a = a' := fun e => h e.symm
    unfold setByte
    split_ifs with h1 h2 h3 h4
    · rfl
    · simp [byte_cons, h']
    · subst h3; simp [byte_cons, h']
    · subst h3; simp [byte_cons, h']
    · simp only [byte_cons, ih]

theorem wfFrom_mono {lo lo' : Nat} (h : lo' ≤ lo) : ∀ {m : Memory}, m.wfFrom lo = true → m.wfFrom lo' = true
  | [], _ => rfl
  | (a, v) :: rest, hw => by
    simp only [wfFrom, Bool.and_eq_true, decide_eq_true_eq] at hw ⊢
    exact ⟨⟨⟨le_trans h hw.1.1.1, hw.1.1.2⟩, hw.1.2⟩, hw.2⟩

/-- Below the least listed address, every byte reads as an unlisted one. -/
theorem byte_of_lt : ∀ {m : Memory} {lo a : Nat}, m.wfFrom lo = true → a < lo → m.byte a = Memory.unlisted
  | [], _, _, _, _ => rfl
  | (b, v) :: rest, lo, a, hw, h => by
    simp only [wfFrom, Bool.and_eq_true, decide_eq_true_eq] at hw
    have hb : b ≠ a := by omega
    rw [byte_cons, if_neg hb]
    exact byte_of_lt hw.2 (by omega)

theorem byte_setByte_same_from : ∀ {m : Memory} {lo a : Nat} (v : Byte), m.wfFrom lo = true → (m.setByte a v).byte a = v
  | [], lo, a, v, _ => by
    unfold setByte
    split
    · next h => simp [h]
    · simp [byte_cons]
  | (b, w) :: rest, lo, a, v, hw => by
    have hw' := hw
    simp only [wfFrom, Bool.and_eq_true, decide_eq_true_eq] at hw'
    unfold setByte
    split_ifs with h1 h2 h3 h4
    · rw [byte_cons, if_neg (by omega), byte_of_lt hw'.2 (by omega), h2]
    · simp [byte_cons]
    · subst h3; rw [byte_of_lt hw'.2 (by omega), h4]
    · simp [byte_cons]
    · rw [byte_cons, if_neg (fun e => h3 e.symm)]
      exact byte_setByte_same_from v hw'.2

/-- A read after a write to the same address gives the value written. -/
theorem byte_setByte_same {m : Memory} (a : Nat) (v : Byte) (h : m.wf = true) : (m.setByte a v).byte a = v :=
  byte_setByte_same_from v h

theorem wfFrom_setByte : ∀ {m : Memory} {lo a : Nat} (v : Byte),
    m.wfFrom lo = true → lo ≤ a → a < memSize → (m.setByte a v).wfFrom lo = true
  | [], lo, a, v, _, hl, ha => by
    unfold setByte
    split
    · rfl
    · next h => simp [wfFrom, hl, ha, h]
  | (b, w) :: rest, lo, a, v, hw, hl, ha => by
    have hw' := hw
    simp only [wfFrom, Bool.and_eq_true, decide_eq_true_eq] at hw'
    unfold setByte
    split_ifs with h1 h2 h3 h4
    · exact hw
    · simp only [wfFrom, Bool.and_eq_true, decide_eq_true_eq]
      exact ⟨⟨⟨hl, ha⟩, by simpa using h2⟩, ⟨⟨by omega, hw'.1.1.2⟩, hw'.1.2⟩, hw'.2⟩
    · exact wfFrom_mono (by omega) hw'.2
    · simp only [wfFrom, Bool.and_eq_true, decide_eq_true_eq]
      exact ⟨⟨⟨hl, ha⟩, by simpa using h4⟩, h3 ▸ hw'.2⟩
    · simp only [wfFrom, Bool.and_eq_true, decide_eq_true_eq]
      exact ⟨⟨⟨hw'.1.1.1, hw'.1.1.2⟩, hw'.1.2⟩, wfFrom_setByte v hw'.2 (by omega) ha⟩

/-- Setting a byte keeps the canonical form. -/
theorem wf_setByte {m : Memory} {a : Nat} (v : Byte) (h : m.wf = true) (ha : a < memSize) : (m.setByte a v).wf = true :=
  wfFrom_setByte v h (Nat.zero_le _) ha

theorem mod_memSize_lt (a : Nat) : a % memSize < memSize := Nat.mod_lt _ (by decide)

/-- MemWrite keeps the canonical form. -/
theorem wf_write {m : Memory} (a n v : Nat) (h : m.wf = true) : (m.write a n v).wf = true := by
  induction n generalizing m a v with
  | zero => exact h
  | succ n ih => exact ih _ _ (wf_setByte _ h (mod_memSize_lt a))

/-- MemWrite leaves every byte outside its n addresses alone. -/
theorem byte_write_of_not_mem (m : Memory) (a n v a' : Nat) (h : a' ∉ byteAddrs a n) : (m.write a n v).byte a' = m.byte a' := by
  induction n generalizing m a v with
  | zero => rfl
  | succ n ih =>
    simp only [byteAddrs, List.mem_cons, not_or] at h
    rw [write, ih _ _ _ h.2, byte_setByte_of_ne _ _ h.1]

/-- A sequence of sample writes keeps the canonical form. -/
theorem wf_writeSamples {m : Memory} (bps : Nat) (ws : List (Nat × Nat)) (h : m.wf = true) : (m.writeSamples bps ws).wf = true := by
  induction ws generalizing m with
  | nil => exact h
  | cons w ws ih => exact ih (wf_write _ _ _ h)

/-- A sequence of sample writes leaves every byte outside the samples alone. -/
theorem byte_writeSamples_of_not_mem (m : Memory) (bps : Nat) (ws : List (Nat × Nat)) (a : Nat)
    (h : ∀ w ∈ ws, a ∉ byteAddrs w.1 bps) : (m.writeSamples bps ws).byte a = m.byte a := by
  induction ws generalizing m with
  | nil => rfl
  | cons w ws ih =>
    have h1 : (Memory.writeSamples m bps (w :: ws)) = (m.write w.1 bps w.2).writeSamples bps ws := rfl
    rw [h1, ih _ fun x hx => h x (List.mem_cons_of_mem _ hx), byte_write_of_not_mem _ _ _ _ _ (h w List.mem_cons_self)]

/-- Bytes taking any value keep the canonical form. -/
theorem wf_scramble {m : Memory} (d : Nat) (addrs : List Nat) (h : m.wf = true) : (m.scramble d addrs).wf = true := by
  induction addrs generalizing m with
  | nil => exact h
  | cons a rest ih => exact ih (wf_setByte _ h (mod_memSize_lt a))

/-- Bytes taking any value leave every other byte alone. -/
theorem byte_scramble_of_not_mem (m : Memory) (d : Nat) (addrs : List Nat) (a : Nat) (h : ∀ b ∈ addrs, a ≠ b % memSize) :
    (m.scramble d addrs).byte a = m.byte a := by
  induction addrs generalizing m with
  | nil => rfl
  | cons b rest ih =>
    have h1 : Memory.scramble m d (b :: rest) = (m.setByte (b % memSize) (Config.freeByte d (b % memSize))).scramble d rest := rfl
    rw [h1, ih _ fun x hx => h x (List.mem_cons_of_mem _ hx), byte_setByte_of_ne _ _ (h b List.mem_cons_self)]

/-- Every address of a sample is an address of frame memory. -/
theorem lt_of_mem_byteAddrs {a n x : Nat} (h : x ∈ byteAddrs a n) : x < memSize := by
  induction n generalizing a with
  | zero => simp [byteAddrs] at h
  | succ n ih =>
    simp only [byteAddrs, List.mem_cons] at h
    rcases h with rfl | h
    · exact mod_memSize_lt a
    · exact ih h

/-- Two memories that agree on the bytes read give the same number. -/
theorem read_congr {m m' : Memory} : ∀ {n a : Nat}, (∀ x ∈ byteAddrs a n, m.byte x = m'.byte x) → m.read a n = m'.read a n
  | 0, _, _ => rfl
  | n + 1, a, h => by
    simp only [Memory.read]
    rw [h _ (by simp [byteAddrs]), read_congr fun x hx => h x (by simp [byteAddrs, hx])]

/-- A number of n bytes is below 256^n. -/
theorem read_lt (m : Memory) : ∀ n a, m.read a n < 256 ^ n
  | 0, a => by simp [Memory.read]
  | n + 1, a => by
    have h := read_lt m n (a + 1)
    have hb := (m.byte (a % memSize)).isLt
    simp only [Memory.read]
    rw [pow_succ]
    omega

/-- A read after a write to the same n bytes, all at different addresses, gives the number written, cut to n bytes. -/
theorem read_write {m : Memory} (hm : m.wf = true) {n a v : Nat} (hd : (byteAddrs a n).Nodup) :
    (m.write a n v).read a n = v % 256 ^ n := by
  induction n generalizing m a v with
  | zero => simp [Memory.read, Nat.mod_one]
  | succ n ih =>
    simp only [byteAddrs, List.nodup_cons] at hd
    simp only [Memory.read, Memory.write]
    rw [ih (wf_setByte _ hm (mod_memSize_lt a)) hd.2, byte_write_of_not_mem _ _ _ _ _ hd.1, byte_setByte_same _ _ hm, pow_succ',
      BitVec.toNat_ofNat]
    exact Nat.mod_mul.symm

/-- After sample writes to bytes that are all different, every sample reads as the value written to it. -/
theorem read_writeSamples (bps : Nat) : ∀ (ws : List (Nat × Nat)) (m : Memory), m.wf = true →
    ((ws.map Prod.fst).flatMap fun a => byteAddrs a bps).Nodup →
    ∀ w ∈ ws, (m.writeSamples bps ws).read w.1 bps = w.2 % 256 ^ bps
  | [], _, _, _, w, hw => by simp at hw
  | u :: ws, m, hm, hd, w, hw => by
    have e : Memory.writeSamples m bps (u :: ws) = (m.write u.1 bps u.2).writeSamples bps ws := rfl
    rw [e]
    simp only [List.map_cons, List.flatMap_cons, List.nodup_append] at hd
    obtain ⟨h1, h2, h3⟩ := hd
    rcases List.mem_cons.1 hw with rfl | hw
    · rw [← read_write hm h1]
      refine read_congr fun x hx => byte_writeSamples_of_not_mem _ _ _ _ fun v hv hx' => ?_
      exact h3 x hx x (List.mem_flatMap.2 ⟨v.1, List.mem_map.2 ⟨v, hv, rfl⟩, hx'⟩) rfl
    · exact read_writeSamples bps ws _ (wf_write _ _ _ hm) h2 w hw

end Memory

/-- Memory after reset is in canonical form. -/
theorem State.reset_mem_wf : State.reset.mem.wf = true := rfl

end Sys2Proof.Machine
end

