-- ==== Sys2Proof/Laws/PerInstr.lean ====
section
/-! SUPPORT. A statement about the syntax of every command, proved constructor by constructor: its encoded word is legal by the
three conditions of R92. -/

namespace Sys2Proof.Laws.LegalWord

/-- The encoded word of the command is legal (R92). -/
def Statement (i : Instr) : Prop := legalWord (encode i) = true

theorem nop : Statement .nop := by unfold Statement; decide

theorem plan : Statement .plan := by unfold Statement; decide

theorem convertSlice : Statement .convertSlice := by unfold Statement; decide

theorem invalidate : Statement .invalidate := by unfold Statement; decide

theorem tfEvalD (side : Side) : Statement (.tfEvalD side) := by unfold Statement; cases side <;> decide

theorem tfEvalL (side : Side) : Statement (.tfEvalL side) := by unfold Statement; cases side <;> decide

end Sys2Proof.Laws.LegalWord
end

