-- ==== Sys2Proof/Laws/State.lean ====
section
/-! SUPPORT. What each update of the state does to each field: one lemma per field per update. -/

namespace Sys2Proof.Machine

variable (s : State)

/-! ### `State.accept` -/

@[simp] theorem State.accept_params (w : Word) : (s.accept w).params = s.params := rfl
@[simp] theorem State.accept_seq (w : Word) : (s.accept w).seq = .busy w s.regs := rfl
@[simp] theorem State.accept_done (w : Word) : (s.accept w).done = false := rfl
@[simp] theorem State.accept_err (w : Word) : (s.accept w).err = false := rfl
@[simp] theorem State.accept_warn (w : Word) : (s.accept w).warn = s.warn := rfl
@[simp] theorem State.accept_planValid (w : Word) : (s.accept w).planValid = s.planValid := rfl
@[simp] theorem State.accept_errcode (w : Word) : (s.accept w).errcode = .none := rfl
@[simp] theorem State.accept_irqEn (w : Word) : (s.accept w).irqEn = s.irqEn := rfl
@[simp] theorem State.accept_regs (w : Word) : (s.accept w).regs = s.regs := rfl
@[simp] theorem State.accept_tfRes (w : Word) : (s.accept w).tfRes = s.tfRes := rfl
@[simp] theorem State.accept_lutIndex (w : Word) : (s.accept w).lutIndex = s.lutIndex := rfl
@[simp] theorem State.accept_plan (w : Word) : (s.accept w).plan = s.plan := rfl
@[simp] theorem State.accept_warnedOnce (w : Word) : (s.accept w).warnedOnce = s.warnedOnce := rfl
@[simp] theorem State.accept_caches (w : Word) : (s.accept w).caches = s.caches := rfl
@[simp] theorem State.accept_scratch (w : Word) : (s.accept w).scratch = s.scratch := rfl
@[simp] theorem State.accept_mem (w : Word) : (s.accept w).mem = s.mem := rfl
@[simp] theorem State.accept_agenda (w : Word) : (s.accept w).agenda = s.agenda := rfl
@[simp] theorem State.accept_hostData (w : Word) : (s.accept w).hostData = s.hostData := rfl
@[simp] theorem State.accept_disturbed (w : Word) : (s.accept w).disturbed = false := rfl
@[simp] theorem State.accept_draws (w : Word) : (s.accept w).draws = s.draws := rfl

/-! ### `State.finish` -/

@[simp] theorem State.finish_params : (s.finish).params = s.params := rfl
@[simp] theorem State.finish_seq : (s.finish).seq = .idle := rfl
@[simp] theorem State.finish_done : (s.finish).done = true := rfl
@[simp] theorem State.finish_err : (s.finish).err = s.err := rfl
@[simp] theorem State.finish_warn : (s.finish).warn = s.warn := rfl
@[simp] theorem State.finish_planValid : (s.finish).planValid = s.planValid := rfl
@[simp] theorem State.finish_errcode : (s.finish).errcode = s.errcode := rfl
@[simp] theorem State.finish_irqEn : (s.finish).irqEn = s.irqEn := rfl
@[simp] theorem State.finish_regs : (s.finish).regs = s.regs := rfl
@[simp] theorem State.finish_tfRes : (s.finish).tfRes = s.tfRes := rfl
@[simp] theorem State.finish_lutIndex : (s.finish).lutIndex = s.lutIndex := rfl
@[simp] theorem State.finish_plan : (s.finish).plan = s.plan := rfl
@[simp] theorem State.finish_warnedOnce : (s.finish).warnedOnce = s.warnedOnce := rfl
@[simp] theorem State.finish_caches : (s.finish).caches = s.caches := rfl
@[simp] theorem State.finish_scratch : (s.finish).scratch = s.scratch := rfl
@[simp] theorem State.finish_mem : (s.finish).mem = s.mem := rfl
@[simp] theorem State.finish_agenda : (s.finish).agenda = s.agenda := rfl
@[simp] theorem State.finish_hostData : (s.finish).hostData = s.hostData := rfl
@[simp] theorem State.finish_disturbed : (s.finish).disturbed = false := rfl
@[simp] theorem State.finish_draws : (s.finish).draws = s.draws := rfl

/-! ### `State.raise` -/

@[simp] theorem State.raise_params (c : ErrCode) : (s.raise c).params = s.params := rfl
@[simp] theorem State.raise_seq (c : ErrCode) : (s.raise c).seq = .idle := rfl
@[simp] theorem State.raise_done (c : ErrCode) : (s.raise c).done = true := rfl
@[simp] theorem State.raise_err (c : ErrCode) : (s.raise c).err = true := rfl
@[simp] theorem State.raise_warn (c : ErrCode) : (s.raise c).warn = s.warn := rfl
@[simp] theorem State.raise_planValid (c : ErrCode) : (s.raise c).planValid = s.planValid := rfl
@[simp] theorem State.raise_errcode (c : ErrCode) : (s.raise c).errcode = c := rfl
@[simp] theorem State.raise_irqEn (c : ErrCode) : (s.raise c).irqEn = s.irqEn := rfl
@[simp] theorem State.raise_regs (c : ErrCode) : (s.raise c).regs = s.regs := rfl
@[simp] theorem State.raise_tfRes (c : ErrCode) : (s.raise c).tfRes = s.tfRes := rfl
@[simp] theorem State.raise_lutIndex (c : ErrCode) : (s.raise c).lutIndex = s.lutIndex := rfl
@[simp] theorem State.raise_plan (c : ErrCode) : (s.raise c).plan = s.plan := rfl
@[simp] theorem State.raise_warnedOnce (c : ErrCode) : (s.raise c).warnedOnce = s.warnedOnce := rfl
@[simp] theorem State.raise_caches (c : ErrCode) : (s.raise c).caches = s.caches := rfl
@[simp] theorem State.raise_scratch (c : ErrCode) : (s.raise c).scratch = s.scratch := rfl
@[simp] theorem State.raise_mem (c : ErrCode) : (s.raise c).mem = s.mem := rfl
@[simp] theorem State.raise_agenda (c : ErrCode) : (s.raise c).agenda = s.agenda := rfl
@[simp] theorem State.raise_hostData (c : ErrCode) : (s.raise c).hostData = s.hostData := rfl
@[simp] theorem State.raise_disturbed (c : ErrCode) : (s.raise c).disturbed = false := rfl
@[simp] theorem State.raise_draws (c : ErrCode) : (s.raise c).draws = s.draws := rfl

/-! ### `State.refuseBusy` -/

@[simp] theorem State.refuseBusy_params : (s.refuseBusy).params = s.params := rfl
@[simp] theorem State.refuseBusy_seq : (s.refuseBusy).seq = s.seq := rfl
@[simp] theorem State.refuseBusy_done : (s.refuseBusy).done = s.done := rfl
@[simp] theorem State.refuseBusy_err : (s.refuseBusy).err = true := rfl
@[simp] theorem State.refuseBusy_warn : (s.refuseBusy).warn = s.warn := rfl
@[simp] theorem State.refuseBusy_planValid : (s.refuseBusy).planValid = s.planValid := rfl
@[simp] theorem State.refuseBusy_errcode : (s.refuseBusy).errcode = .busy := rfl
@[simp] theorem State.refuseBusy_irqEn : (s.refuseBusy).irqEn = s.irqEn := rfl
@[simp] theorem State.refuseBusy_regs : (s.refuseBusy).regs = s.regs := rfl
@[simp] theorem State.refuseBusy_tfRes : (s.refuseBusy).tfRes = s.tfRes := rfl
@[simp] theorem State.refuseBusy_lutIndex : (s.refuseBusy).lutIndex = s.lutIndex := rfl
@[simp] theorem State.refuseBusy_plan : (s.refuseBusy).plan = s.plan := rfl
@[simp] theorem State.refuseBusy_warnedOnce : (s.refuseBusy).warnedOnce = s.warnedOnce := rfl
@[simp] theorem State.refuseBusy_caches : (s.refuseBusy).caches = s.caches := rfl
@[simp] theorem State.refuseBusy_scratch : (s.refuseBusy).scratch = s.scratch := rfl
@[simp] theorem State.refuseBusy_mem : (s.refuseBusy).mem = s.mem := rfl
@[simp] theorem State.refuseBusy_agenda : (s.refuseBusy).agenda = s.agenda := rfl
@[simp] theorem State.refuseBusy_hostData : (s.refuseBusy).hostData = s.hostData := rfl
@[simp] theorem State.refuseBusy_disturbed : (s.refuseBusy).disturbed = s.disturbed := rfl
@[simp] theorem State.refuseBusy_draws : (s.refuseBusy).draws = s.draws := rfl

/-! ### `State.clearPlanValid` -/

@[simp] theorem State.clearPlanValid_params : (s.clearPlanValid).params = s.params := rfl
@[simp] theorem State.clearPlanValid_seq : (s.clearPlanValid).seq = s.seq := rfl
@[simp] theorem State.clearPlanValid_done : (s.clearPlanValid).done = s.done := rfl
@[simp] theorem State.clearPlanValid_err : (s.clearPlanValid).err = s.err := rfl
@[simp] theorem State.clearPlanValid_warn : (s.clearPlanValid).warn = s.warn := rfl
@[simp] theorem State.clearPlanValid_planValid : (s.clearPlanValid).planValid = false := rfl
@[simp] theorem State.clearPlanValid_errcode : (s.clearPlanValid).errcode = s.errcode := rfl
@[simp] theorem State.clearPlanValid_irqEn : (s.clearPlanValid).irqEn = s.irqEn := rfl
@[simp] theorem State.clearPlanValid_regs : (s.clearPlanValid).regs = s.regs := rfl
@[simp] theorem State.clearPlanValid_tfRes : (s.clearPlanValid).tfRes = s.tfRes := rfl
@[simp] theorem State.clearPlanValid_lutIndex : (s.clearPlanValid).lutIndex = s.lutIndex := rfl
@[simp] theorem State.clearPlanValid_plan : (s.clearPlanValid).plan = s.plan := rfl
@[simp] theorem State.clearPlanValid_warnedOnce : (s.clearPlanValid).warnedOnce = s.warnedOnce := rfl
@[simp] theorem State.clearPlanValid_caches : (s.clearPlanValid).caches = s.caches := rfl
@[simp] theorem State.clearPlanValid_scratch : (s.clearPlanValid).scratch = s.scratch := rfl
@[simp] theorem State.clearPlanValid_mem : (s.clearPlanValid).mem = s.mem := rfl
@[simp] theorem State.clearPlanValid_agenda : (s.clearPlanValid).agenda = s.agenda := rfl
@[simp] theorem State.clearPlanValid_hostData : (s.clearPlanValid).hostData = s.hostData := rfl
@[simp] theorem State.clearPlanValid_disturbed : (s.clearPlanValid).disturbed = s.disturbed := rfl
@[simp] theorem State.clearPlanValid_draws : (s.clearPlanValid).draws = s.draws := rfl

/-! ### `State.bumpDraws` -/

@[simp] theorem State.bumpDraws_params : (s.bumpDraws).params = s.params := rfl
@[simp] theorem State.bumpDraws_seq : (s.bumpDraws).seq = s.seq := rfl
@[simp] theorem State.bumpDraws_done : (s.bumpDraws).done = s.done := rfl
@[simp] theorem State.bumpDraws_err : (s.bumpDraws).err = s.err := rfl
@[simp] theorem State.bumpDraws_warn : (s.bumpDraws).warn = s.warn := rfl
@[simp] theorem State.bumpDraws_planValid : (s.bumpDraws).planValid = s.planValid := rfl
@[simp] theorem State.bumpDraws_errcode : (s.bumpDraws).errcode = s.errcode := rfl
@[simp] theorem State.bumpDraws_irqEn : (s.bumpDraws).irqEn = s.irqEn := rfl
@[simp] theorem State.bumpDraws_regs : (s.bumpDraws).regs = s.regs := rfl
@[simp] theorem State.bumpDraws_tfRes : (s.bumpDraws).tfRes = s.tfRes := rfl
@[simp] theorem State.bumpDraws_lutIndex : (s.bumpDraws).lutIndex = s.lutIndex := rfl
@[simp] theorem State.bumpDraws_plan : (s.bumpDraws).plan = s.plan := rfl
@[simp] theorem State.bumpDraws_warnedOnce : (s.bumpDraws).warnedOnce = s.warnedOnce := rfl
@[simp] theorem State.bumpDraws_caches : (s.bumpDraws).caches = s.caches := rfl
@[simp] theorem State.bumpDraws_scratch : (s.bumpDraws).scratch = s.scratch := rfl
@[simp] theorem State.bumpDraws_mem : (s.bumpDraws).mem = s.mem := rfl
@[simp] theorem State.bumpDraws_agenda : (s.bumpDraws).agenda = s.agenda := rfl
@[simp] theorem State.bumpDraws_hostData : (s.bumpDraws).hostData = s.hostData := rfl
@[simp] theorem State.bumpDraws_disturbed : (s.bumpDraws).disturbed = s.disturbed := rfl
@[simp] theorem State.bumpDraws_draws : (s.bumpDraws).draws = s.draws + 1 := rfl

/-! ### `State.popAgenda` -/

@[simp] theorem State.popAgenda_params : (s.popAgenda).params = s.params := rfl
@[simp] theorem State.popAgenda_seq : (s.popAgenda).seq = s.seq := rfl
@[simp] theorem State.popAgenda_done : (s.popAgenda).done = s.done := rfl
@[simp] theorem State.popAgenda_err : (s.popAgenda).err = s.err := rfl
@[simp] theorem State.popAgenda_warn : (s.popAgenda).warn = s.warn := rfl
@[simp] theorem State.popAgenda_planValid : (s.popAgenda).planValid = s.planValid := rfl
@[simp] theorem State.popAgenda_errcode : (s.popAgenda).errcode = s.errcode := rfl
@[simp] theorem State.popAgenda_irqEn : (s.popAgenda).irqEn = s.irqEn := rfl
@[simp] theorem State.popAgenda_regs : (s.popAgenda).regs = s.regs := rfl
@[simp] theorem State.popAgenda_tfRes : (s.popAgenda).tfRes = s.tfRes := rfl
@[simp] theorem State.popAgenda_lutIndex : (s.popAgenda).lutIndex = s.lutIndex := rfl
@[simp] theorem State.popAgenda_plan : (s.popAgenda).plan = s.plan := rfl
@[simp] theorem State.popAgenda_warnedOnce : (s.popAgenda).warnedOnce = s.warnedOnce := rfl
@[simp] theorem State.popAgenda_caches : (s.popAgenda).caches = s.caches := rfl
@[simp] theorem State.popAgenda_scratch : (s.popAgenda).scratch = s.scratch := rfl
@[simp] theorem State.popAgenda_mem : (s.popAgenda).mem = s.mem := rfl
@[simp] theorem State.popAgenda_agenda : (s.popAgenda).agenda = s.agenda.tail := rfl
@[simp] theorem State.popAgenda_hostData : (s.popAgenda).hostData = s.hostData := rfl
@[simp] theorem State.popAgenda_disturbed : (s.popAgenda).disturbed = s.disturbed := rfl
@[simp] theorem State.popAgenda_draws : (s.popAgenda).draws = s.draws := rfl

/-! ### `State.storePlan` -/

@[simp] theorem State.storePlan_params (p : Plan) : (s.storePlan p).params = s.params := rfl
@[simp] theorem State.storePlan_seq (p : Plan) : (s.storePlan p).seq = s.seq := rfl
@[simp] theorem State.storePlan_done (p : Plan) : (s.storePlan p).done = s.done := rfl
@[simp] theorem State.storePlan_err (p : Plan) : (s.storePlan p).err = s.err := rfl
@[simp] theorem State.storePlan_warn (p : Plan) : (s.storePlan p).warn = s.warn := rfl
@[simp] theorem State.storePlan_planValid (p : Plan) : (s.storePlan p).planValid = true := rfl
@[simp] theorem State.storePlan_errcode (p : Plan) : (s.storePlan p).errcode = s.errcode := rfl
@[simp] theorem State.storePlan_irqEn (p : Plan) : (s.storePlan p).irqEn = s.irqEn := rfl
@[simp] theorem State.storePlan_regs (p : Plan) : (s.storePlan p).regs = s.regs := rfl
@[simp] theorem State.storePlan_tfRes (p : Plan) : (s.storePlan p).tfRes = s.tfRes := rfl
@[simp] theorem State.storePlan_lutIndex (p : Plan) : (s.storePlan p).lutIndex = s.lutIndex := rfl
@[simp] theorem State.storePlan_plan (p : Plan) : (s.storePlan p).plan = p := rfl
@[simp] theorem State.storePlan_warnedOnce (p : Plan) : (s.storePlan p).warnedOnce = s.warnedOnce := rfl
@[simp] theorem State.storePlan_caches (p : Plan) : (s.storePlan p).caches = some p.src := rfl
@[simp] theorem State.storePlan_scratch (p : Plan) : (s.storePlan p).scratch = s.scratch := rfl
@[simp] theorem State.storePlan_mem (p : Plan) : (s.storePlan p).mem = s.mem := rfl
@[simp] theorem State.storePlan_agenda (p : Plan) : (s.storePlan p).agenda = s.agenda := rfl
@[simp] theorem State.storePlan_hostData (p : Plan) : (s.storePlan p).hostData = s.hostData := rfl
@[simp] theorem State.storePlan_disturbed (p : Plan) : (s.storePlan p).disturbed = s.disturbed := rfl
@[simp] theorem State.storePlan_draws (p : Plan) : (s.storePlan p).draws = s.draws := rfl

/-! ### `State.losePlan` -/

@[simp] theorem State.losePlan_params : (s.losePlan).params = s.params := rfl
@[simp] theorem State.losePlan_seq : (s.losePlan).seq = s.seq := rfl
@[simp] theorem State.losePlan_done : (s.losePlan).done = s.done := rfl
@[simp] theorem State.losePlan_err : (s.losePlan).err = s.err := rfl
@[simp] theorem State.losePlan_warn : (s.losePlan).warn = s.warn := rfl
@[simp] theorem State.losePlan_planValid : (s.losePlan).planValid = false := rfl
@[simp] theorem State.losePlan_errcode : (s.losePlan).errcode = s.errcode := rfl
@[simp] theorem State.losePlan_irqEn : (s.losePlan).irqEn = s.irqEn := rfl
@[simp] theorem State.losePlan_regs : (s.losePlan).regs = s.regs := rfl
@[simp] theorem State.losePlan_tfRes : (s.losePlan).tfRes = s.tfRes := rfl
@[simp] theorem State.losePlan_lutIndex : (s.losePlan).lutIndex = s.lutIndex := rfl
@[simp] theorem State.losePlan_plan : (s.losePlan).plan = Config.freePlan s.draws := rfl
@[simp] theorem State.losePlan_warnedOnce : (s.losePlan).warnedOnce = s.warnedOnce := rfl
@[simp] theorem State.losePlan_caches : (s.losePlan).caches = none := rfl
@[simp] theorem State.losePlan_scratch : (s.losePlan).scratch = s.scratch := rfl
@[simp] theorem State.losePlan_mem : (s.losePlan).mem = s.mem := rfl
@[simp] theorem State.losePlan_agenda : (s.losePlan).agenda = s.agenda := rfl
@[simp] theorem State.losePlan_hostData : (s.losePlan).hostData = s.hostData := rfl
@[simp] theorem State.losePlan_disturbed : (s.losePlan).disturbed = s.disturbed := rfl
@[simp] theorem State.losePlan_draws : (s.losePlan).draws = s.draws := rfl

/-! ### `State.writeSlice` -/

@[simp] theorem State.writeSlice_params : (s.writeSlice).params = s.params := rfl
@[simp] theorem State.writeSlice_seq : (s.writeSlice).seq = s.seq := rfl
@[simp] theorem State.writeSlice_done : (s.writeSlice).done = s.done := rfl
@[simp] theorem State.writeSlice_err : (s.writeSlice).err = s.err := rfl
@[simp] theorem State.writeSlice_warn : (s.writeSlice).warn = s.warn := rfl
@[simp] theorem State.writeSlice_planValid : (s.writeSlice).planValid = s.planValid := rfl
@[simp] theorem State.writeSlice_errcode : (s.writeSlice).errcode = s.errcode := rfl
@[simp] theorem State.writeSlice_irqEn : (s.writeSlice).irqEn = s.irqEn := rfl
@[simp] theorem State.writeSlice_regs : (s.writeSlice).regs = s.regs := rfl
@[simp] theorem State.writeSlice_tfRes : (s.writeSlice).tfRes = s.tfRes := rfl
@[simp] theorem State.writeSlice_lutIndex : (s.writeSlice).lutIndex = s.lutIndex := rfl
@[simp] theorem State.writeSlice_plan : (s.writeSlice).plan = s.plan := rfl
@[simp] theorem State.writeSlice_warnedOnce : (s.writeSlice).warnedOnce = s.warnedOnce := rfl
@[simp] theorem State.writeSlice_caches : (s.writeSlice).caches = s.caches := rfl
@[simp] theorem State.writeSlice_scratch : (s.writeSlice).scratch = Config.freeScratch s.draws := rfl
@[simp] theorem State.writeSlice_mem : (s.writeSlice).mem = s.sliceMemory := rfl
@[simp] theorem State.writeSlice_agenda : (s.writeSlice).agenda = s.agenda := rfl
@[simp] theorem State.writeSlice_hostData : (s.writeSlice).hostData = s.hostData := rfl
@[simp] theorem State.writeSlice_disturbed : (s.writeSlice).disturbed = s.disturbed := rfl
@[simp] theorem State.writeSlice_draws : (s.writeSlice).draws = s.draws := rfl

/-! ### `State.setInputs` -/

@[simp] theorem State.setInputs_params (f : PlanInputs → PlanInputs) : (s.setInputs f).params = s.params := rfl
@[simp] theorem State.setInputs_seq (f : PlanInputs → PlanInputs) : (s.setInputs f).seq = s.seq := rfl
@[simp] theorem State.setInputs_done (f : PlanInputs → PlanInputs) : (s.setInputs f).done = s.done := rfl
@[simp] theorem State.setInputs_err (f : PlanInputs → PlanInputs) : (s.setInputs f).err = s.err := rfl
@[simp] theorem State.setInputs_warn (f : PlanInputs → PlanInputs) : (s.setInputs f).warn = s.warn := rfl
@[simp] theorem State.setInputs_planValid (f : PlanInputs → PlanInputs) : (s.setInputs f).planValid = false := rfl
@[simp] theorem State.setInputs_errcode (f : PlanInputs → PlanInputs) : (s.setInputs f).errcode = s.errcode := rfl
@[simp] theorem State.setInputs_irqEn (f : PlanInputs → PlanInputs) : (s.setInputs f).irqEn = s.irqEn := rfl
@[simp] theorem State.setInputs_regs (f : PlanInputs → PlanInputs) : (s.setInputs f).regs = { s.regs with inputs := f s.regs.inputs } := rfl
@[simp] theorem State.setInputs_tfRes (f : PlanInputs → PlanInputs) : (s.setInputs f).tfRes = s.tfRes := rfl
@[simp] theorem State.setInputs_lutIndex (f : PlanInputs → PlanInputs) : (s.setInputs f).lutIndex = s.lutIndex := rfl
@[simp] theorem State.setInputs_plan (f : PlanInputs → PlanInputs) : (s.setInputs f).plan = s.plan := rfl
@[simp] theorem State.setInputs_warnedOnce (f : PlanInputs → PlanInputs) : (s.setInputs f).warnedOnce = s.warnedOnce := rfl
@[simp] theorem State.setInputs_caches (f : PlanInputs → PlanInputs) : (s.setInputs f).caches = s.caches := rfl
@[simp] theorem State.setInputs_scratch (f : PlanInputs → PlanInputs) : (s.setInputs f).scratch = s.scratch := rfl
@[simp] theorem State.setInputs_mem (f : PlanInputs → PlanInputs) : (s.setInputs f).mem = s.mem := rfl
@[simp] theorem State.setInputs_agenda (f : PlanInputs → PlanInputs) : (s.setInputs f).agenda = s.agenda := rfl
@[simp] theorem State.setInputs_hostData (f : PlanInputs → PlanInputs) : (s.setInputs f).hostData = s.hostData := rfl
@[simp] theorem State.setInputs_disturbed (f : PlanInputs → PlanInputs) : (s.setInputs f).disturbed = s.disturbed := rfl
@[simp] theorem State.setInputs_draws (f : PlanInputs → PlanInputs) : (s.setInputs f).draws = s.draws := rfl

/-! ### `State.setRegs` -/

@[simp] theorem State.setRegs_params (f : Regs → Regs) : (s.setRegs f).params = s.params := rfl
@[simp] theorem State.setRegs_seq (f : Regs → Regs) : (s.setRegs f).seq = s.seq := rfl
@[simp] theorem State.setRegs_done (f : Regs → Regs) : (s.setRegs f).done = s.done := rfl
@[simp] theorem State.setRegs_err (f : Regs → Regs) : (s.setRegs f).err = s.err := rfl
@[simp] theorem State.setRegs_warn (f : Regs → Regs) : (s.setRegs f).warn = s.warn := rfl
@[simp] theorem State.setRegs_planValid (f : Regs → Regs) : (s.setRegs f).planValid = s.planValid := rfl
@[simp] theorem State.setRegs_errcode (f : Regs → Regs) : (s.setRegs f).errcode = s.errcode := rfl
@[simp] theorem State.setRegs_irqEn (f : Regs → Regs) : (s.setRegs f).irqEn = s.irqEn := rfl
@[simp] theorem State.setRegs_regs (f : Regs → Regs) : (s.setRegs f).regs = f s.regs := rfl
@[simp] theorem State.setRegs_tfRes (f : Regs → Regs) : (s.setRegs f).tfRes = s.tfRes := rfl
@[simp] theorem State.setRegs_lutIndex (f : Regs → Regs) : (s.setRegs f).lutIndex = s.lutIndex := rfl
@[simp] theorem State.setRegs_plan (f : Regs → Regs) : (s.setRegs f).plan = s.plan := rfl
@[simp] theorem State.setRegs_warnedOnce (f : Regs → Regs) : (s.setRegs f).warnedOnce = s.warnedOnce := rfl
@[simp] theorem State.setRegs_caches (f : Regs → Regs) : (s.setRegs f).caches = s.caches := rfl
@[simp] theorem State.setRegs_scratch (f : Regs → Regs) : (s.setRegs f).scratch = s.scratch := rfl
@[simp] theorem State.setRegs_mem (f : Regs → Regs) : (s.setRegs f).mem = s.mem := rfl
@[simp] theorem State.setRegs_agenda (f : Regs → Regs) : (s.setRegs f).agenda = s.agenda := rfl
@[simp] theorem State.setRegs_hostData (f : Regs → Regs) : (s.setRegs f).hostData = s.hostData := rfl
@[simp] theorem State.setRegs_disturbed (f : Regs → Regs) : (s.setRegs f).disturbed = s.disturbed := rfl
@[simp] theorem State.setRegs_draws (f : Regs → Regs) : (s.setRegs f).draws = s.draws := rfl

/-! ### `State.writeStatus` -/

@[simp] theorem State.writeStatus_params (w : Word) : (s.writeStatus w).params = s.params := rfl
@[simp] theorem State.writeStatus_seq (w : Word) : (s.writeStatus w).seq = s.seq := rfl
@[simp] theorem State.writeStatus_done (w : Word) : (s.writeStatus w).done = (s.done && !wordBit w 1) := rfl
@[simp] theorem State.writeStatus_err (w : Word) : (s.writeStatus w).err = (s.err && !wordBit w 2) := rfl
@[simp] theorem State.writeStatus_warn (w : Word) : (s.writeStatus w).warn = (s.warn && !wordBit w 3) := rfl
@[simp] theorem State.writeStatus_planValid (w : Word) : (s.writeStatus w).planValid = s.planValid := rfl
@[simp] theorem State.writeStatus_errcode (w : Word) : (s.writeStatus w).errcode = (if wordBit w 2 then .none else s.errcode) := rfl
@[simp] theorem State.writeStatus_irqEn (w : Word) : (s.writeStatus w).irqEn = s.irqEn := rfl
@[simp] theorem State.writeStatus_regs (w : Word) : (s.writeStatus w).regs = s.regs := rfl
@[simp] theorem State.writeStatus_tfRes (w : Word) : (s.writeStatus w).tfRes = s.tfRes := rfl
@[simp] theorem State.writeStatus_lutIndex (w : Word) : (s.writeStatus w).lutIndex = s.lutIndex := rfl
@[simp] theorem State.writeStatus_plan (w : Word) : (s.writeStatus w).plan = s.plan := rfl
@[simp] theorem State.writeStatus_warnedOnce (w : Word) : (s.writeStatus w).warnedOnce = s.warnedOnce := rfl
@[simp] theorem State.writeStatus_caches (w : Word) : (s.writeStatus w).caches = s.caches := rfl
@[simp] theorem State.writeStatus_scratch (w : Word) : (s.writeStatus w).scratch = s.scratch := rfl
@[simp] theorem State.writeStatus_mem (w : Word) : (s.writeStatus w).mem = s.mem := rfl
@[simp] theorem State.writeStatus_agenda (w : Word) : (s.writeStatus w).agenda = s.agenda := rfl
@[simp] theorem State.writeStatus_hostData (w : Word) : (s.writeStatus w).hostData = s.hostData := rfl
@[simp] theorem State.writeStatus_disturbed (w : Word) : (s.writeStatus w).disturbed = s.disturbed := rfl
@[simp] theorem State.writeStatus_draws (w : Word) : (s.writeStatus w).draws = s.draws := rfl

/-! ### `State.resetInput` -/

@[simp] theorem State.resetInput_params : (s.resetInput).params = s.params := rfl
@[simp] theorem State.resetInput_seq : (s.resetInput).seq = .idle := rfl
@[simp] theorem State.resetInput_done : (s.resetInput).done = false := rfl
@[simp] theorem State.resetInput_err : (s.resetInput).err = false := rfl
@[simp] theorem State.resetInput_warn : (s.resetInput).warn = false := rfl
@[simp] theorem State.resetInput_planValid : (s.resetInput).planValid = false := rfl
@[simp] theorem State.resetInput_errcode : (s.resetInput).errcode = .none := rfl
@[simp] theorem State.resetInput_irqEn : (s.resetInput).irqEn = ⟨false, false, false⟩ := rfl
@[simp] theorem State.resetInput_regs : (s.resetInput).regs = .zero := rfl
@[simp] theorem State.resetInput_tfRes : (s.resetInput).tfRes = 0 := rfl
@[simp] theorem State.resetInput_lutIndex : (s.resetInput).lutIndex = 0 := rfl
@[simp] theorem State.resetInput_plan : (s.resetInput).plan = Config.freePlan s.draws := rfl
@[simp] theorem State.resetInput_warnedOnce : (s.resetInput).warnedOnce = false := rfl
@[simp] theorem State.resetInput_caches : (s.resetInput).caches = none := rfl
@[simp] theorem State.resetInput_scratch : (s.resetInput).scratch = Config.freeScratch s.draws := rfl
@[simp] theorem State.resetInput_mem : (s.resetInput).mem = s.mem.scramble s.draws (s.runningSet Plan.writeSet) := rfl
@[simp] theorem State.resetInput_agenda : (s.resetInput).agenda = s.agenda := rfl
@[simp] theorem State.resetInput_hostData : (s.resetInput).hostData = s.hostData := rfl
@[simp] theorem State.resetInput_disturbed : (s.resetInput).disturbed = false := rfl
@[simp] theorem State.resetInput_draws : (s.resetInput).draws = s.draws + 1 := rfl

/-! ### `State.warnRange` -/

@[simp] theorem State.warnRange_params (p : PlanInputs) : (s.warnRange p).params = s.params := by
  unfold State.warnRange; split <;> rfl
@[simp] theorem State.warnRange_seq (p : PlanInputs) : (s.warnRange p).seq = s.seq := by
  unfold State.warnRange; split <;> rfl
@[simp] theorem State.warnRange_done (p : PlanInputs) : (s.warnRange p).done = s.done := by
  unfold State.warnRange; split <;> rfl
@[simp] theorem State.warnRange_err (p : PlanInputs) : (s.warnRange p).err = s.err := by
  unfold State.warnRange; split <;> rfl
@[simp] theorem State.warnRange_warn (p : PlanInputs) :
    (s.warnRange p).warn = (s.warn || (p.seesUnspecifiedRange && !s.warnedOnce)) := by
  unfold State.warnRange; split <;> simp_all
@[simp] theorem State.warnRange_planValid (p : PlanInputs) : (s.warnRange p).planValid = s.planValid := by
  unfold State.warnRange; split <;> rfl
@[simp] theorem State.warnRange_errcode (p : PlanInputs) : (s.warnRange p).errcode = s.errcode := by
  unfold State.warnRange; split <;> rfl
@[simp] theorem State.warnRange_irqEn (p : PlanInputs) : (s.warnRange p).irqEn = s.irqEn := by
  unfold State.warnRange; split <;> rfl
@[simp] theorem State.warnRange_regs (p : PlanInputs) : (s.warnRange p).regs = s.regs := by
  unfold State.warnRange; split <;> rfl
@[simp] theorem State.warnRange_tfRes (p : PlanInputs) : (s.warnRange p).tfRes = s.tfRes := by
  unfold State.warnRange; split <;> rfl
@[simp] theorem State.warnRange_lutIndex (p : PlanInputs) : (s.warnRange p).lutIndex = s.lutIndex := by
  unfold State.warnRange; split <;> rfl
@[simp] theorem State.warnRange_plan (p : PlanInputs) : (s.warnRange p).plan = s.plan := by
  unfold State.warnRange; split <;> rfl
@[simp] theorem State.warnRange_warnedOnce (p : PlanInputs) :
    (s.warnRange p).warnedOnce = (s.warnedOnce || p.seesUnspecifiedRange) := by
  unfold State.warnRange; split <;> cases h : s.warnedOnce <;> simp_all
@[simp] theorem State.warnRange_caches (p : PlanInputs) : (s.warnRange p).caches = s.caches := by
  unfold State.warnRange; split <;> rfl
@[simp] theorem State.warnRange_scratch (p : PlanInputs) : (s.warnRange p).scratch = s.scratch := by
  unfold State.warnRange; split <;> rfl
@[simp] theorem State.warnRange_mem (p : PlanInputs) : (s.warnRange p).mem = s.mem := by
  unfold State.warnRange; split <;> rfl
@[simp] theorem State.warnRange_agenda (p : PlanInputs) : (s.warnRange p).agenda = s.agenda := by
  unfold State.warnRange; split <;> rfl
@[simp] theorem State.warnRange_hostData (p : PlanInputs) : (s.warnRange p).hostData = s.hostData := by
  unfold State.warnRange; split <;> rfl
@[simp] theorem State.warnRange_disturbed (p : PlanInputs) : (s.warnRange p).disturbed = s.disturbed := by
  unfold State.warnRange; split <;> rfl
@[simp] theorem State.warnRange_draws (p : PlanInputs) : (s.warnRange p).draws = s.draws := by
  unfold State.warnRange; split <;> rfl

/-! ### BUSY and the operands -/

@[simp] theorem State.accept_isBusy (w : Word) : (s.accept w).isBusy = true := rfl
@[simp] theorem State.finish_isBusy : s.finish.isBusy = false := rfl
@[simp] theorem State.raise_isBusy (c : ErrCode) : (s.raise c).isBusy = false := rfl
@[simp] theorem State.bumpDraws_isBusy : s.bumpDraws.isBusy = s.isBusy := rfl
@[simp] theorem State.popAgenda_isBusy : s.popAgenda.isBusy = s.isBusy := rfl
@[simp] theorem State.accept_operands (w : Word) : (s.accept w).operands = s.regs := rfl
@[simp] theorem State.popAgenda_operands : s.popAgenda.operands = s.operands := rfl

theorem State.isBusy_iff : s.isBusy = true ↔ ∃ w ops, s.seq = .busy w ops := by
  unfold State.isBusy; split <;> simp_all

theorem State.isBusy_of_seq {w : Word} {ops : Regs} (h : s.seq = .busy w ops) : s.isBusy = true := by
  simp [State.isBusy, h]

theorem State.operands_of_seq {w : Word} {ops : Regs} (h : s.seq = .busy w ops) : s.operands = ops := by
  simp [State.operands, h]

end Sys2Proof.Machine
end

