-- ==== Sys2Proof/Laws/Step.lean ====
section
/-! SUPPORT. What each meaning and each shared operation can do, said once: later proofs cite these and unfold nothing. -/

namespace Sys2Proof.Machine

/-! ### Sequencer -/

@[simp] theorem State.isBusy_idle {s : State} (h : s.seq = .idle) : s.isBusy = false := by simp [State.isBusy, h]

theorem State.seq_idle_of_not_busy {s : State} (h : s.isBusy = false) : s.seq = .idle := by
  unfold State.isBusy at h
  split at h <;> simp_all

theorem State.operands_idle {s : State} (h : s.seq = .idle) : s.operands = s.regs := by simp [State.operands, h]

/-- What one turn of the engine can be. -/
theorem engineStep_cases (s : State) :
    (s.seq = .idle ∧ engineStep s = .next s)
    ∨ (∃ w ops i, s.seq = .busy w ops ∧ decode w = .ok i ∧ engineStep s = exec i s)
    ∨ (∃ w ops e, s.seq = .busy w ops ∧ decode w = .error e ∧ engineStep s = .next (s.raise .illegalCommand)) := by
  unfold engineStep
  split
  · next h => exact .inl ⟨h, rfl⟩
  · next w ops h =>
    split
    · next i hi => exact .inr (.inl ⟨w, ops, i, h, hi, rfl⟩)
    · next e he => exact .inr (.inr ⟨w, ops, e, h, he, rfl⟩)

/-- What one step of the machine can be. -/
theorem step_cases (s : State) :
    (∃ u, s.EngineMoves u ∧ step s = engineStep u)
    ∨ (∃ rest, s.agenda = .host .wait :: rest ∧ s.seq = .idle ∧ step s = .next s.popAgenda)
    ∨ (∃ op rest, s.agenda = .host op :: rest ∧ op ≠ .wait ∧ step s = s.popAgenda.hostStep op) := by
  unfold step
  split
  · next h => exact .inl ⟨s, .inl ⟨h, rfl⟩, rfl⟩
  · next rest h => exact .inl ⟨s.popAgenda, .inr (.inl ⟨rest, h, by simp [State.popAgenda, h]⟩), rfl⟩
  · next rest h =>
    cases hb : s.isBusy
    · exact .inr (.inl ⟨rest, h, State.seq_idle_of_not_busy hb, by simp⟩)
    · exact .inl ⟨s, .inr (.inr ⟨rest, h, hb, rfl⟩), by simp⟩
  · next op rest hne h => exact .inr (.inr ⟨op, rest, h, fun e => hne (by simp [e]), rfl⟩)

/-! ### Commands -/

/-- What PLAN can do: it fails with a code, or stores the plan it builds. -/
theorem execPlan_cases (s : State) :
    (∃ c, s.operands.inputs.buildPlan s.params s.draws = .error c
      ∧ execPlan s = .next (((s.warnRange s.operands.inputs).losePlan.raise c).bumpDraws))
    ∨ (∃ p, s.operands.inputs.buildPlan s.params s.draws = .ok p
      ∧ execPlan s = .next (((s.warnRange s.operands.inputs).storePlan p).finish.bumpDraws)) := by
  unfold execPlan
  cases h : s.operands.inputs.buildPlan s.params s.draws with
  | error c => exact .inl ⟨c, rfl, by simp [h]⟩
  | ok p => exact .inr ⟨p, rfl, by simp [h]⟩

/-- What CONVERT_SLICE can do, in the order of its checks. -/
theorem execConvertSlice_cases (s : State) :
    (s.planValid = false ∧ execConvertSlice s = .next (s.raise .notPlanned))
    ∨ (s.planValid = true ∧ s.plan.badSlice s.operands = true ∧ execConvertSlice s = .next (s.raise .invalidSlice))
    ∨ (s.planValid = true ∧ s.plan.badSlice s.operands = false ∧ s.operands.h1 = s.operands.h2
        ∧ execConvertSlice s = .next s.finish)
    ∨ (s.planValid = true ∧ s.plan.badSlice s.operands = false ∧ s.operands.h1 ≠ s.operands.h2
        ∧ s.plan.touchesSideEffects s.params s.operands = true ∧ execConvertSlice s = .refused .sideEffectPlane)
    ∨ (s.planValid = true ∧ s.plan.badSlice s.operands = false ∧ s.operands.h1 ≠ s.operands.h2
        ∧ s.plan.touchesSideEffects s.params s.operands = false
        ∧ execConvertSlice s = .next s.writeSlice.finish.bumpDraws) := by
  unfold execConvertSlice
  cases h1 : s.planValid
  · exact .inl ⟨rfl, by simp⟩
  cases h2 : s.plan.badSlice s.operands
  · by_cases h3 : s.operands.h1 = s.operands.h2
    · exact .inr (.inr (.inl ⟨rfl, rfl, h3, by simp [h2, h3]⟩))
    · cases h4 : s.plan.touchesSideEffects s.params s.operands
      · exact .inr (.inr (.inr (.inr ⟨rfl, rfl, h3, rfl, by simp [h2, h3, h4]⟩)))
      · exact .inr (.inr (.inr (.inl ⟨rfl, rfl, h3, rfl, by simp [h2, h3, h4]⟩)))
  · exact .inr (.inl ⟨rfl, rfl, by simp [h2]⟩)

/-- What a TF_EVAL command can do: report UnknownTransfer, or write TF_RES. -/
theorem State.finishTf_cases (s : State) (r : Option Fl) :
    (r = none ∧ s.finishTf r = s.raise .unknownTransfer)
    ∨ (∃ v, r = some v ∧ s.finishTf r
        = { s with tfRes := Fl.to64 (Config.nanDraw s.draws (tfSite 0)) v, seq := .idle, done := true, disturbed := false,
                   draws := s.draws + 1 }) := by
  cases r with
  | none => exact .inl ⟨rfl, rfl⟩
  | some v => exact .inr ⟨v, rfl, rfl⟩

/-! ### The planner -/

theorem raiseIf_ok {b : Bool} {c : ErrCode} {u : Unit} : raiseIf b c = .ok u ↔ b = false := by
  cases b <;> simp [raiseIf]

theorem raiseIf_error {b : Bool} {c e : ErrCode} : raiseIf b c = .error e ↔ b = true ∧ c = e := by
  cases b <;> simp [raiseIf]

/-- A computation in two parts answers when both do. -/
theorem except_bind_ok {α β : Type} {x : Except ErrCode α} {f : α → Except ErrCode β} {b : β} :
    (x >>= f) = .ok b ↔ ∃ a, x = .ok a ∧ f a = .ok b := by
  cases x with
  | error e => simp [bind, Except.bind]
  | ok a => simp [bind, Except.bind]

/-- A computation in two parts fails in the first, or in the second. -/
theorem except_bind_error {α β : Type} {x : Except ErrCode α} {f : α → Except ErrCode β} {e : ErrCode} :
    (x >>= f) = .error e ↔ x = .error e ∨ ∃ a, x = .ok a ∧ f a = .error e := by
  cases x with
  | error e' => simp [bind, Except.bind]
  | ok a => simp [bind, Except.bind]

/-- The plan is built exactly when every phase passes (R202). -/
theorem PlanInputs.buildPlan_ok {p : PlanInputs} {pr : Params} {draw : Nat} {plan : Plan} :
    p.buildPlan pr draw = .ok plan ↔
      p.checkFront = .ok () ∧ p.checkDimensions = .ok () ∧ p.stepTransfer = .ok () ∧ p.checkCapacity pr = .ok ()
      ∧ ∃ prim mat luts, p.stepPrimaries = .ok prim ∧ p.stepMatrix = .ok mat ∧ p.stepLuts pr.f2h draw = .ok luts
        ∧ plan = p.assemble prim mat luts := by
  unfold PlanInputs.buildPlan
  simp only [except_bind_ok, pure, Except.pure]
  constructor
  · rintro ⟨⟨⟩, h1, ⟨⟩, h2, prim, h3, ⟨⟩, h4, mat, h5, luts, h6, ⟨⟩, h7, h8⟩
    exact ⟨h1, h2, h4, h7, prim, mat, luts, h3, h5, h6, by cases h8; rfl⟩
  · rintro ⟨h1, h2, h4, h7, prim, mat, luts, h3, h5, h6, rfl⟩
    exact ⟨(), h1, (), h2, prim, h3, (), h4, mat, h5, luts, h6, (), h7, rfl⟩

/-- With an analytic OUT transfer, the LUT step of an integer plan answers what the integer builder does (R215, R182). -/
theorem PlanInputs.stepLuts_int {p : PlanInputs} {mode : Rounding} {draw : Nat} {t : List Half × List Half}
    (hk : p.lutKind = .int) (ha : p.outBlk.transfer.analytic = true)
    (ht : intLuts draw p.inBlk.transfer p.outBlk.transfer false = some t) : p.stepLuts mode draw = .ok t := by
  unfold PlanInputs.stepLuts
  simp only [hk, ha, Bool.not_true, ht]

/-- The front checks pass exactly when each of them does (R303 items 1 to 4). -/
theorem PlanInputs.checkFront_ok {p : PlanInputs} :
    p.checkFront = .ok () ↔ p.checkFormats = .ok () ∧ p.checkOptions = .ok () ∧ p.checkTags = .ok () ∧ p.checkRanges = .ok () := by
  unfold PlanInputs.checkFront
  simp only [except_bind_ok]
  exact ⟨fun ⟨_, h1, _, h2, _, h3, h4⟩ => ⟨h1, h2, h3, h4⟩, fun ⟨h1, h2, h3, h4⟩ => ⟨(), h1, (), h2, (), h3, h4⟩⟩

/-- The format checks pass exactly when each of them does (R204). -/
theorem PlanInputs.checkFormats_ok {p : PlanInputs} :
    p.checkFormats = .ok () ↔ p.inFmt.check = .ok () ∧ p.outFmt.check = .ok () ∧ p.inFmt.rgb = p.outFmt.rgb
      ∧ (p.inFmt.rgb = true → p.inFmt.depth = p.outFmt.depth ∧ p.inFmt.alpha = p.outFmt.alpha) := by
  unfold PlanInputs.checkFormats PlanInputs.isRgb
  simp only [except_bind_ok, raiseIf_ok]
  constructor
  · rintro ⟨⟨⟩, h1, ⟨⟩, h2, ⟨⟩, h3, ⟨⟩, h4, h5⟩
    exact ⟨h1, h2, by simpa using h3, fun h => ⟨by simpa [h] using h4, by simpa [h] using h5⟩⟩
  · rintro ⟨h1, h2, h3, h4⟩
    refine ⟨(), h1, (), h2, (), by simpa using h3, (), ?_⟩
    cases h : p.inFmt.rgb
    · simp
    · simpa [h] using h4 h

/-! ### The host's side -/

/-- With no command running, none runs on memory with side effects. -/
@[simp] theorem State.runsOnDevice_idle {s : State} (h : s.seq = .idle) : s.runsOnDevice = false := by
  simp [State.runsOnDevice, State.runningSet, h]

/-- A register write of the one shape R56 allows is `hostWrite`. -/
theorem State.hostStep_regWrite (s : State) {off : BitVec 12} (w : Word) (h : off.toNat < State.blockSize)
    (h4 : off.toNat % 4 = 0) : s.hostStep (.regWrite off 4 w) = s.hostWrite (Reg.ofOffset off.toNat) w := by
  simp [State.hostStep, State.goodAccess, h4, Nat.not_le.2 h]

/-- A register read of the one shape R56 allows returns `readReg`. -/
theorem State.hostStep_regRead (s : State) {off : BitVec 12} (h : off.toNat < State.blockSize) (h4 : off.toNat % 4 = 0) :
    s.hostStep (.regRead off 4) = .next { s with hostData := s.readReg (Reg.ofOffset off.toNat) } := by
  simp [State.hostStep, State.goodAccess, h4, Nat.not_le.2 h]

/-- Taking the first move off the agenda. -/
theorem State.popAgenda_of_cons {s : State} {m : Move} {rest : List Move} (h : s.agenda = m :: rest) :
    s.popAgenda = { s with agenda := rest } := by
  simp [State.popAgenda, h]

/-- A register write does one of six things. -/
theorem State.writeReg_cases (s : State) (r : Reg) (w : Word) :
    (r = .cmd ∧ s.isBusy = true ∧ s.writeReg r w = s.refuseBusy)
    ∨ (r = .cmd ∧ s.isBusy = false ∧ s.writeReg r w = s.accept w)
    ∨ (r = .status ∧ s.writeReg r w = s.writeStatus w)
    ∨ (r = .irqEn ∧ s.writeReg r w = { s with irqEn := .ofWord w })
    ∨ (r ≠ .cmd ∧ r ≠ .status ∧ r ≠ .irqEn ∧ s.isBusy = true ∧ s.writeReg r w = s)
    ∨ (r ≠ .cmd ∧ r ≠ .status ∧ r ≠ .irqEn ∧ s.isBusy = false ∧ s.writeReg r w = s.writeIdle r w) := by
  unfold State.writeReg
  cases hb : s.isBusy <;> cases r <;> simp

/-- Every write accepted while IDLE changes plan inputs and clears PLAN_VALID, or changes other operand registers, or LUT_INDEX,
or nothing. -/
theorem State.writeIdle_cases (s : State) (r : Reg) (w : Word) :
    (∃ f, s.writeIdle r w = s.setInputs f)
    ∨ (∃ f, s.writeIdle r w = s.setRegs f ∧ ∀ g, (f g).inputs = g.inputs)
    ∨ s.writeIdle r w = { s with lutIndex := w.setWidth 16 }
    ∨ s.writeIdle r w = s := by
  have blk : ∀ side k, (∃ f, s.setBlock side k w = s.setInputs f) ∨ s.setBlock side k w = s := by
    intro side k
    unfold State.setBlock
    split
    · exact .inr rfl
    · cases side <;> exact .inl ⟨_, rfl⟩
  have pln : ∀ side p g, ∃ f, s.setPlane side p g = s.setRegs f ∧ ∀ r, (f r).inputs = r.inputs := by
    intro side p g
    cases side
    · exact ⟨fun r => { r with inPlanes := r.inPlanes.set p (g (r.inPlanes.get p)) }, rfl, fun _ => rfl⟩
    · exact ⟨fun r => { r with outPlanes := r.outPlanes.set p (g (r.outPlanes.get p)) }, rfl, fun _ => rfl⟩
  cases r with
  | options => exact .inl ⟨fun p => { p with options := .ofWord w }, rfl⟩
  | frameW => exact .inl ⟨fun p => { p with frameW := w.setWidth 16 }, rfl⟩
  | frameH => exact .inl ⟨fun p => { p with frameH := w.setWidth 16 }, rfl⟩
  | inFmt => exact .inl ⟨fun p => { p with inFmt := .ofWord w }, rfl⟩
  | outFmt => exact .inl ⟨fun p => { p with outFmt := .ofWord w }, rfl⟩
  | sliceH1 => exact .inr (.inl ⟨fun g => { g with sliceH1 := w.setWidth 16 }, rfl, fun _ => rfl⟩)
  | sliceH2 => exact .inr (.inl ⟨fun g => { g with sliceH2 := w.setWidth 16 }, rfl, fun _ => rfl⟩)
  | tfArgLo => exact .inr (.inl ⟨fun g => { g with tfArg := setLo g.tfArg w }, rfl, fun _ => rfl⟩)
  | tfArgHi => exact .inr (.inl ⟨fun g => { g with tfArg := setHi g.tfArg w }, rfl, fun _ => rfl⟩)
  | base side p => exact .inr (.inl (pln side p fun g => { g with base := w }))
  | stride side p => exact .inr (.inl (pln side p fun g => { g with stride := w }))
  | lutIndex => exact .inr (.inr (.inl rfl))
  | block side k => exact (blk side k).elim .inl fun h => .inr (.inr (.inr h))
  | id => exact .inr (.inr (.inr rfl))
  | version => exact .inr (.inr (.inr rfl))
  | cmd => exact .inr (.inr (.inr rfl))
  | status => exact .inr (.inr (.inr rfl))
  | irqEn => exact .inr (.inr (.inr rfl))
  | tfResLo => exact .inr (.inr (.inr rfl))
  | tfResHi => exact .inr (.inr (.inr rfl))
  | lutData => exact .inr (.inr (.inr rfl))
  | planInfo => exact .inr (.inr (.inr rfl))
  | coef k => exact .inr (.inr (.inr rfl))
  | reserved => exact .inr (.inr (.inr rfl))

/-- Only a CMD write starts a command. -/
theorem State.writeReg_seq (s : State) {r : Reg} (w : Word) (h : r ≠ .cmd) : (s.writeReg r w).seq = s.seq := by
  rcases s.writeReg_cases r w with ⟨e, -⟩ | ⟨e, -⟩ | ⟨-, e⟩ | ⟨-, e⟩ | ⟨-, -, -, -, e⟩ | ⟨-, -, -, -, e⟩
  · exact absurd e h
  · exact absurd e h
  · rw [e]; rfl
  · rw [e]
  · rw [e]
  · rw [e]
    rcases s.writeIdle_cases r w with ⟨f, e⟩ | ⟨f, e, -⟩ | e | e <;> rw [e] <;> rfl

/-- A write to any register but CMD is carried out. -/
theorem State.hostWrite_of_ne_cmd (s : State) {r : Reg} (w : Word) (h : r ≠ .cmd) :
    s.hostWrite r w = .next (s.writeReg r w) := by
  unfold State.hostWrite
  cases hb : s.isBusy
  · rw [State.runsOnDevice_idle (by rw [s.writeReg_seq w h, State.seq_idle_of_not_busy hb])]; rfl
  · rfl

/-- While a command runs, every register write is carried out. -/
theorem State.hostWrite_busy {s : State} (h : s.isBusy = true) (r : Reg) (w : Word) :
    s.hostWrite r w = .next (s.writeReg r w) := by
  simp [State.hostWrite, h]

/-- A CMD write while IDLE is accepted, unless it launches a conversion of memory with side effects. -/
theorem State.hostWrite_cmd_idle {s : State} (h : s.isBusy = false) (w : Word) :
    s.hostWrite .cmd w = if (s.accept w).runsOnDevice then .refused .sideEffectPlane else .next (s.accept w) := by
  simp [State.hostWrite, State.writeReg, h]

/-- What a host write can do: it is carried out, or it is a launch on memory with side effects. -/
theorem State.hostWrite_cases (s : State) (r : Reg) (w : Word) :
    (s.hostWrite r w = .next (s.writeReg r w) ∧ (s.isBusy = false → (s.writeReg r w).runsOnDevice = false))
    ∨ (s.isBusy = false ∧ r = .cmd ∧ (s.accept w).runsOnDevice = true ∧ s.hostWrite r w = .refused .sideEffectPlane) := by
  cases hb : s.isBusy
  · by_cases hr : r = .cmd
    · subst hr
      cases hd : (s.accept w).runsOnDevice
      · exact .inl ⟨by simp [State.hostWrite_cmd_idle hb, hd, State.writeReg, hb], fun _ => by simpa [State.writeReg, hb] using hd⟩
      · exact .inr ⟨rfl, rfl, rfl, by simp [State.hostWrite_cmd_idle hb, hd]⟩
    · exact .inl ⟨s.hostWrite_of_ne_cmd w hr,
        fun _ => State.runsOnDevice_idle (by rw [s.writeReg_seq w hr, State.seq_idle_of_not_busy hb])⟩
  · exact .inl ⟨State.hostWrite_busy hb r w, fun h => by cases h⟩

/-- The bytes of the running command's write set are there only while a command runs. -/
theorem State.isBusy_of_mem_runningSet {s : State} {set : Plan → Regs → List Nat} {a : Nat} (h : a ∈ s.runningSet set) :
    s.isBusy = true := by
  unfold State.runningSet at h
  split at h
  · simp at h
  · next w ops hs => exact State.isBusy_of_seq s hs

/-! ### The slice -/

/-- Every sample write of a slice goes to a sample address of its write set. -/
theorem Source.mem_sliceWrites {c : Source} {pr : Params} {draw h1 h2 : Nat} {out : Quad PlaneReg} {w : Nat × Nat}
    (h : w ∈ c.sliceWrites pr draw out h1 h2) :
    w.1 ∈ sampleAddrs c.plan.src.outFmt out c.plan.src.frameW.toNat h1 h2 := by
  unfold Source.sliceWrites at h
  unfold sampleAddrs
  simp only [List.mem_flatMap] at h ⊢
  obtain ⟨p, hp, hw⟩ := h
  exact ⟨p, hp, (List.of_mem_zip hw).1⟩

/-- The bytes of a sample address of the slice are in its set. -/
theorem mem_sampleBytes {f : PixFmt} {planes : Quad PlaneReg} {w h1 h2 a x : Nat} (h : a ∈ sampleAddrs f planes w h1 h2)
    (hx : x ∈ byteAddrs a f.bps) : x ∈ sampleBytes f planes w h1 h2 :=
  List.mem_flatMap.2 ⟨a, h, hx⟩

/-- Every address of a slice set is an address of frame memory. -/
theorem lt_of_mem_sampleBytes {f : PixFmt} {planes : Quad PlaneReg} {w h1 h2 x : Nat} (h : x ∈ sampleBytes f planes w h1 h2) :
    x < memSize := by
  obtain ⟨a, -, hx⟩ := List.mem_flatMap.1 h
  exact Memory.lt_of_mem_byteAddrs hx

/-- A slice's memory keeps the canonical form. -/
theorem State.sliceMemory_wf {s : State} (h : s.mem.wf = true) : s.sliceMemory.wf = true := by
  unfold State.sliceMemory
  simp only
  split
  · exact Memory.wf_writeSamples _ _ h
  · exact Memory.wf_scramble _ _ h

end Sys2Proof.Machine
end

