-- ==== Sys2Proof/Laws/Slice.lean ====
section
/-! SUPPORT. The samples and the writes of a slice, and what a valid plan says of its formats. -/

namespace Sys2Proof.Machine

/-! ### FSB dither -/

theorem fsbRow_length (d : Nat) (off : Int) (sh : Nat) :
    ∀ (l : List Int) (e : FsbRows) (x : Nat), (fsbRow d off sh e x l).1.length = l.length
  | [], _, _ => rfl
  | _ :: l, _, _ => by simp [fsbRow, fsbRow_length d off sh l]

theorem fsbRows_length (d : Nat) (off : Int) (sh : Nat) :
    ∀ (l : List (List Int)) (e : FsbRows), (fsbRows d off sh e l).length = (l.map List.length).sum
  | [], _ => rfl
  | _ :: l, _ => by simp [fsbRows, fsbRow_length, fsbRows_length d off sh l]

theorem clipPixel_range (d : Nat) (v : Int) : 0 ≤ clipPixel d v ∧ clipPixel d v < 2 ^ d := by
  have : (1 : Int) ≤ 2 ^ d := by exact_mod_cast Nat.one_le_two_pow
  unfold clipPixel clip
  split_ifs <;> omega

theorem fsbRow_range (d : Nat) (off : Int) (sh : Nat) : ∀ (l : List Int) (e : FsbRows) (x : Nat),
    ∀ v ∈ (fsbRow d off sh e x l).1, 0 ≤ v ∧ v < 2 ^ d
  | [], _, _, v, hv => by simp [fsbRow] at hv
  | _ :: l, _, _, v, hv => by
    simp only [fsbRow, List.mem_cons] at hv
    rcases hv with rfl | hv
    · exact clipPixel_range _ _
    · exact fsbRow_range d off sh l _ _ v hv

theorem fsbRows_range (d : Nat) (off : Int) (sh : Nat) : ∀ (l : List (List Int)) (e : FsbRows),
    ∀ v ∈ fsbRows d off sh e l, 0 ≤ v ∧ v < 2 ^ d
  | [], _, v, hv => by simp [fsbRows] at hv
  | _ :: l, _, v, hv => by
    simp only [fsbRows, List.mem_append] at hv
    rcases hv with hv | hv
    · exact fsbRow_range _ _ _ _ _ _ v hv
    · exact fsbRows_range d off sh l _ v hv

/-! ### The samples of a plane -/

/-- A sample is in the slice exactly when its column and its row are. -/
theorem PixFmt.mem_samples {f : PixFmt} {w h1 h2 : Nat} {p : Fin 4} {x y : Nat} :
    (x, y) ∈ f.samples w h1 h2 p ↔ x < f.planeWidth p w ∧ f.planeRow p h1 ≤ y ∧ y < f.planeRow p h2 := by
  simp only [PixFmt.samples, rowSamples, List.mem_flatMap, List.mem_map, List.mem_range, List.mem_range']
  constructor
  · rintro ⟨y', ⟨i, hi, rfl⟩, x', hx, e⟩
    cases e
    exact ⟨hx, by omega, by omega⟩
  · rintro ⟨hx, h3, h4⟩
    exact ⟨y, ⟨y - f.planeRow p h1, by omega, by omega⟩, x, hx, rfl⟩

/-- A plane has one value for each of its samples. -/
theorem Source.planeValues_length (c : Source) (pr : Params) (draw h1 h2 : Nat) (p : Fin 4) :
    (c.planeValues pr draw h1 h2 p).length = (c.plan.src.outFmt.samples c.plan.src.frameW.toNat h1 h2 p).length := by
  unfold Source.planeValues
  split
  · simp [Source.fsbPlane, fsbRows_length, PixFmt.samples, rowSamples, List.map_const', Function.comp_def]
  · simp

theorem map_fst_zip_of_length {α β : Type} : ∀ (a : List α) (b : List β), a.length = b.length → (a.zip b).map Prod.fst = a
  | [], [], _ => rfl
  | _ :: a, _ :: b, h => by simp [map_fst_zip_of_length a b (by simpa using h)]

/-- The sample writes of a slice go to its sample addresses, each once and in order. -/
theorem Source.map_fst_sliceWrites (c : Source) (pr : Params) (draw : Nat) (out : Quad PlaneReg) (h1 h2 : Nat) :
    (c.sliceWrites pr draw out h1 h2).map Prod.fst = sampleAddrs c.plan.src.outFmt out c.plan.src.frameW.toNat h1 h2 := by
  unfold Source.sliceWrites sampleAddrs
  simp only [List.map_flatMap]
  congr 1
  funext p
  exact map_fst_zip_of_length _ _ (by simp [Source.planeValues_length])

/-- Frame memory after a slice that the spec defines. -/
theorem State.SliceDefined.sliceMemory_eq {s : State} (h : s.SliceDefined) :
    s.sliceMemory = s.mem.writeSamples s.plan.src.outFmt.bps
      (s.source.sliceWrites s.params s.draws s.operands.outPlanes s.operands.h1 s.operands.h2) := by
  simp [State.sliceMemory, h.disjoint, h.undisturbed]

/-- An empty slice has no sample writes. -/
theorem Source.sliceWrites_empty (c : Source) (pr : Params) (draw : Nat) (out : Quad PlaneReg) (h : Nat) :
    c.sliceWrites pr draw out h h = [] := by
  simp [Source.sliceWrites, PixFmt.samples, rowSamples]

/-! ### Formats of a valid plan -/

/-- What a format that passes R204 is. -/
theorem PixFmt.check_cases {f : PixFmt} (h : f.check = .ok ()) :
    (f.rgb = true ∧ f.float = true ∧ (f.d = 16 ∨ f.d = 32) ∧ f.cw = 0 ∧ f.ch = 0)
    ∨ (f.rgb = false ∧ f.float = false ∧ f.alpha = false ∧ (f.d = 8 ∨ f.d = 10 ∨ f.d = 12) ∧ f.cw ≤ 1 ∧ f.ch ≤ f.cw) := by
  unfold PixFmt.check at h
  split_ifs at h with h1 h2 h3 h4 h5
  · rw [raiseIf_ok] at h
    left
    simp at *
    exact ⟨h1, h2, by tauto, h.1, h.2⟩
  · rw [raiseIf_ok] at h
    right
    simp at *
    exact ⟨h1, h4.1, h4.2, by tauto, by omega, by omega⟩

/-- What the invariant says of a valid plan: it is the one its own inputs build. -/
theorem State.Inv.plan_built {s : State} (h : s.Inv) (hv : s.planValid = true) :
    s.plan.src = s.regs.inputs ∧ s.plan.flags = s.regs.inputs.flags ∧ s.plan.pipe = s.regs.inputs.pipe
    ∧ s.regs.inputs.checkFront = .ok () ∧ s.regs.inputs.checkDimensions = .ok () ∧ s.regs.inputs.checkCapacity s.params = .ok () := by
  obtain ⟨d, hb⟩ := h.planCoherent hv
  rw [PlanInputs.buildPlan_ok] at hb
  obtain ⟨h1, h2, -, h4, _, _, _, -, -, -, e⟩ := hb
  exact ⟨by rw [e]; rfl, by rw [e]; rfl, by rw [e]; rfl, h1, h2, h4⟩

/-- With the invariant, a command uses what the registers hold. -/
theorem State.Inv.operands_eq {s : State} (h : s.Inv) : s.operands = s.regs := by
  unfold State.operands
  split
  · rfl
  · next w ops hs => exact h.operandsHeld _ _ hs

end Sys2Proof.Machine
end

