-- ==== Sys2Proof/Laws/Run.lean ====
section
/-! SUPPORT. Runs (R343): every step of a run that is not over brings it closer to its end, and a launch has the invariant. -/

namespace Sys2Proof.Machine

/-- What a run has left to do: two for each move to come, and one for a command that is running. -/
def State.todo (s : State) : Nat := 2 * s.agenda.length + if s.isBusy then 1 else 0

/-- A command that completes leaves the engine idle and the agenda as it was (R200). -/
theorem exec_idle {i : Instr} {s t : State} (h : exec i s = .next t) : t.isBusy = false ∧ t.agenda = s.agenda := by
  cases i with
  | nop => cases h; simp
  | plan =>
    rcases execPlan_cases s with ⟨c, -, e⟩ | ⟨p, -, e⟩ <;> rw [show exec .plan s = execPlan s from rfl, e] at h <;> cases h <;> simp
  | invalidate => cases h; simp
  | convertSlice =>
    rcases execConvertSlice_cases s with ⟨-, e⟩ | ⟨-, -, e⟩ | ⟨-, -, -, e⟩ | ⟨-, -, -, -, e⟩ | ⟨-, -, -, -, e⟩ <;>
      rw [show exec .convertSlice s = execConvertSlice s from rfl, e] at h <;> cases h <;> simp
  | tfEvalD side =>
    cases h
    rcases s.finishTf_cases (tfDelin side (s.operands.inputs.blk side) s.operands.tfArg) with ⟨-, e⟩ | ⟨v, -, e⟩ <;>
      rw [e] <;> simp
  | tfEvalL side =>
    cases h
    rcases s.finishTf_cases (tfLin s.draws (s.operands.inputs.blk side) s.operands.tfArg) with ⟨-, e⟩ | ⟨v, -, e⟩ <;>
      rw [e] <;> simp

/-- A turn of the engine leaves it idle and the agenda as it was. -/
theorem engineStep_idle {s t : State} (h : engineStep s = .next t) : t.isBusy = false ∧ t.agenda = s.agenda := by
  rcases engineStep_cases s with ⟨hi, e⟩ | ⟨_, _, i, -, -, e⟩ | ⟨_, _, _, -, -, e⟩ <;> rw [e] at h
  · cases h; exact ⟨State.isBusy_idle hi, rfl⟩
  · exact exec_idle h
  · cases h; simp

/-- A host action leaves the moves to come as they are. -/
theorem State.hostStep_agenda {op : HostOp} {s t : State} (h : s.hostStep op = .next t) : t.agenda = s.agenda := by
  cases op with
  | regWrite off size w =>
    simp only [State.hostStep] at h
    split_ifs at h
    rcases s.hostWrite_cases (Reg.ofOffset off.toNat) w with ⟨e, -⟩ | ⟨-, -, -, e⟩ <;> rw [e] at h <;> cases h
    rcases s.writeReg_cases (Reg.ofOffset off.toNat) w with ⟨-, -, e⟩ | ⟨-, -, e⟩ | ⟨-, e⟩ | ⟨-, e⟩ | ⟨-, -, -, -, e⟩ | ⟨-, -, -, -, e⟩ <;>
      rw [e] <;> try rfl
    rcases s.writeIdle_cases (Reg.ofOffset off.toNat) w with ⟨f, e⟩ | ⟨f, e, -⟩ | e | e <;> rw [e] <;> rfl
  | regRead off size =>
    simp only [State.hostStep] at h
    split_ifs at h
    cases h; rfl
  | memWrite a v =>
    simp only [State.hostStep] at h
    split_ifs at h
    cases h; rfl
  | memRead a =>
    simp only [State.hostStep] at h
    split_ifs at h
    cases h
    unfold State.hostMemRead
    split <;> rfl
  | wait => cases h; rfl
  | reset => cases h; rfl

/-- Every step of a run that is not over leaves less to do (R319, R339). -/
theorem step_todo_lt {s t : State} (h : step s = .next t) (going : s.ended = false) : t.todo < s.todo := by
  have one : (if t.isBusy then 1 else 0) ≤ 1 := by split <;> omega
  rcases step_cases s with ⟨u, hu, e⟩ | ⟨rest, ha, -, e⟩ | ⟨op, rest, ha, -, e⟩ <;> rw [e] at h
  · obtain ⟨hb, hg⟩ := engineStep_idle h
    rcases hu with ⟨ha, rfl⟩ | ⟨rest, ha, rfl⟩ | ⟨rest, ha, hbs, rfl⟩
    · have : u.isBusy = true := by simpa [State.ended, ha] using going
      simp [State.todo, hb, hg, this]
    · simp only [State.todo, hb, hg, ha, List.length_cons, Bool.false_eq_true, if_false]
      omega
    · simp [State.todo, hb, hg, hbs]
  · cases h
    simp only [State.todo, State.popAgenda_of_cons ha, ha, List.length_cons]
    have : (State.isBusy { s with agenda := rest }) = s.isBusy := rfl
    rw [this]
    omega
  · have hg := State.hostStep_agenda h
    rw [State.popAgenda_of_cons ha] at hg
    simp only [State.todo, hg, ha, List.length_cons]
    omega

/-- A safe run comes to its end (R319). -/
theorem SafeRun.ends {s : State} (h : SafeRun s) : ∃ t, Reaches s t ∧ t.ended = true := by
  have key : ∀ n t, Reaches s t → t.todo ≤ n → ∃ u, Reaches s u ∧ u.ended = true := by
    intro n
    induction n with
    | zero =>
      intro t ht hn
      cases he : t.ended
      · obtain ⟨u, hu⟩ := h t ht he
        have := step_todo_lt hu he
        omega
      · exact ⟨t, ht, he⟩
    | succ n ih =>
      intro t ht hn
      cases he : t.ended
      · obtain ⟨u, hu⟩ := h t ht he
        exact ih u (.tail ht he hu) (by have := step_todo_lt hu he; omega)
      · exact ⟨t, ht, he⟩
  exact key _ s (.refl s) le_rfl

/-- Right after a launch the invariant holds. -/
theorem Launch.start_inv {l : Launch} (h : l.wf = true) (s : State) (ms : List Move) : (l.start s ms).Inv where
  memCanonical := by simp [Launch.wf] at h; exact h.1
  errCodeAgrees := by simp [Launch.start, State.resetInput, State.reset]
  operandsHeld := by simp [Launch.start, State.resetInput, State.reset]
  busyNotDone := by simp [Launch.start, State.resetInput, State.reset, State.isBusy]
  warnedBefore := by simp [Launch.start, State.resetInput, State.reset]
  disturbedBusy := by simp [Launch.start, State.resetInput, State.reset]
  ordinaryLaunch := State.runsOnDevice_idle rfl
  planCoherent := by simp [Launch.start, State.resetInput, State.reset]

end Sys2Proof.Machine
end

