-- ==== Sys2Proof/Tests/Slice0.lean ====
section
/-! SUPPORT. Small tests with results taken from 95_test_vectors.md or worked by hand from the rules named, and for every
statement with hypotheses a state and operands that meet them (`witness_<statement>`). -/

namespace Sys2Proof.Tests

-- one theorem at a time: each kernel evaluation would otherwise hold a thread of its own
set_option Elab.async false

open Sys2Proof Sys2Proof.Machine

/-! ### Legality of words (R92): each check refuses an ill-formed word -/

theorem test_opcode_check_refuses_undefined : opcodeDefined 0x00000004 = false ∧ legalWord 0x00000004 = false := by decide

theorem test_reserved_check_refuses_bit_9 : reservedZero 0x00000210 = false ∧ legalWord 0x00000210 = false := by decide

theorem test_reserved_check_refuses_bit_31 : reservedZero 0x80000000 = false ∧ legalWord 0x80000000 = false := by decide

theorem test_side_check_refuses_side_on_c0 : sideAllowed 0x00000101 = false ∧ legalWord 0x00000101 = false := by decide

theorem test_every_command_wf : Instr.wf .nop ∧ Instr.wf .plan ∧ Instr.wf .convertSlice ∧ Instr.wf .invalidate
    ∧ (∀ side, Instr.wf (.tfEvalD side)) ∧ (∀ side, Instr.wf (.tfEvalL side)) :=
  ⟨rfl, rfl, rfl, rfl, fun _ => rfl, fun _ => rfl⟩

/-! ### Command words, bit by bit from R90 and R91: RES [31:9], SIDE [8], OPC [7:0] -/

theorem test_decode_nop : decode 0b00000000000000000000000_0_00000000 = .ok .nop := by decide
theorem test_decode_plan : decode 0b00000000000000000000000_0_00000001 = .ok .plan := by decide
theorem test_decode_convert_slice : decode 0b00000000000000000000000_0_00000010 = .ok .convertSlice := by decide
theorem test_decode_invalidate : decode 0b00000000000000000000000_0_00000011 = .ok .invalidate := by decide
theorem test_decode_tf_eval_d_in : decode 0b00000000000000000000000_0_00010000 = .ok (.tfEvalD .input) := by decide
theorem test_decode_tf_eval_d_out : decode 0b00000000000000000000000_1_00010000 = .ok (.tfEvalD .output) := by decide
theorem test_decode_tf_eval_l_in : decode 0b00000000000000000000000_0_00010001 = .ok (.tfEvalL .input) := by decide
theorem test_decode_tf_eval_l_out : decode 0b00000000000000000000000_1_00010001 = .ok (.tfEvalL .output) := by decide
theorem test_decode_table_word : decodeTableWord 32 0x111 = some (.tfEvalL .output) ∧ decodeTableWord 32 0x101 = none := by decide

/-! ### The base states -/

/-- Parameters within the conditions of 95_test_vectors.md §0, with one region of device memory. -/
def testParams : Params := ⟨0xF0000000, 47, 47, 55296, .nearestEven, .nearest, [⟨0xE0000000, 0x1000⟩]⟩

def frac (n d : Nat) : Ratio := ⟨BitVec.ofNat 32 n, BitVec.ofNat 32 d⟩

/-- PR709 of 95_test_vectors.md §0.1. -/
def pr709 : Prims :=
  ⟨frac 640 1000, frac 330 1000, frac 300 1000, frac 600 1000, frac 150 1000, frac 60 1000, ⟨frac 3127 10000, frac 3290 10000⟩⟩

/-- PR2020 of §0.1. -/
def pr2020 : Prims :=
  ⟨frac 708 1000, frac 292 1000, frac 170 1000, frac 797 1000, frac 131 1000, frac 46 1000, ⟨frac 3127 10000, frac 3290 10000⟩⟩

/-- MAT709 of §0.1. -/
def mat709 : Luma := ⟨frac 2126 10000, frac 722 10000⟩

/-- TRC709 of §0.1. -/
def trc709 : Transfer := ⟨0x3FF195810624DD2F, 0x3F926E978D4FDF3B, 0x3FDCCCCCCCCCCCCD, 0x4012000000000000⟩

def blk709 (range : BitVec 2) : Blk := ⟨range, 7, pr709, mat709, trc709⟩

/-- PR709/MAT709/TRC709 on both sides. -/
def inputs (fin fout : Word) (w h : BitVec 16) (rin rout : BitVec 2) : PlanInputs :=
  { options := ⟨false, false, 0⟩, frameW := w, frameH := h, inFmt := .ofWord fin, outFmt := .ofWord fout
    inBlk := blk709 rin, outBlk := blk709 rout }

def testRegs (p : PlanInputs) (h1 h2 : BitVec 16) : Regs :=
  { inputs := p, sliceH1 := h1, sliceH2 := h2, tfArg := 0
    inPlanes := ⟨⟨0x1000, 8⟩, ⟨0x1100, 8⟩, ⟨0x1200, 8⟩, ⟨0x1300, 8⟩⟩
    outPlanes := ⟨⟨0x2000, 8⟩, ⟨0x2100, 8⟩, ⟨0x2200, 8⟩, ⟨0x2300, 8⟩⟩ }

/-- The plan the inputs build under `testParams`. -/
def builtPlan (p : PlanInputs) : Plan :=
  match p.buildPlan testParams 0 with
  | .ok q => q
  | .error _ => .unbuilt

/-- After reset, with the parameters and registers given. -/
def idle (p : PlanInputs) (h1 h2 : BitVec 16) : State := { State.reset with params := testParams, regs := testRegs p h1 h2 }

/-- After a successful PLAN of the inputs. -/
def planned (p : PlanInputs) (h1 h2 : BitVec 16) : State :=
  { idle p h1 h2 with planValid := true, plan := builtPlan p, caches := some p }

/-- A state with moves to come. -/
def State.withMoves (s : State) (ms : List Move) : State := { s with agenda := ms }

/-- The first word of `s` accepted, the engine to move. -/
def running (s : State) (w : Word) : State := { s.accept w with agenda := [.engine] }

/-- The state a step or a command gives, `s` itself where it gives none. -/
def after (o : Host.Outcome State Fault Refusal) (s : State) : State :=
  match o with
  | .next t => t
  | .fault _ => s
  | .refused _ => s

/-- YUV444P8 TV to YUV444P8 PC, the composed kernel (§6.1 row 2). -/
def kernelInputs (h : BitVec 16) : PlanInputs := inputs 0x00000008 0x00000008 2 h 1 2

/-- YUV420P8 to YUV444P8, the full integer pipeline without LUTs (§6.1 row 10). -/
def fullInputs : PlanInputs := inputs 0x00005008 0x00000008 2 2 1 1

/-- GBRAPF16 with FAST = 1: the copy path (§6.1 row 5, with alpha). -/
def copyInputs : PlanInputs := { inputs 0x00000710 0x00000710 2 2 0 0 with options := ⟨true, false, 0⟩ }

theorem builtPlan_ok {p : PlanInputs} (h : (p.buildPlan testParams 0).isOk = true) :
    p.buildPlan testParams 0 = .ok (builtPlan p) := by
  unfold builtPlan
  cases e : p.buildPlan testParams 0 with
  | ok q => rfl
  | error c => rw [e] at h; cases h

theorem kernel_ok : ((kernelInputs 2).buildPlan testParams 0).isOk = true := by decide +kernel
theorem kernel4_ok : ((kernelInputs 4).buildPlan testParams 0).isOk = true := by decide +kernel
theorem full_ok : (fullInputs.buildPlan testParams 0).isOk = true := by decide +kernel
theorem copy_ok : (copyInputs.buildPlan testParams 0).isOk = true := by decide +kernel

theorem planned_inv {p : PlanInputs} (h : (p.buildPlan testParams 0).isOk = true) (h1 h2 : BitVec 16) : (planned p h1 h2).Inv where
  memCanonical := rfl
  errCodeAgrees := by simp [planned, idle, State.reset]
  operandsHeld := by simp [planned, idle, State.reset]
  busyNotDone := by simp [planned, idle, State.reset]
  warnedBefore := by simp [planned, idle, State.reset]
  disturbedBusy := by simp [planned, idle, State.reset]
  ordinaryLaunch := rfl
  planCoherent := fun _ => ⟨0, builtPlan_ok h⟩

/-- A slice of ordinary memory completes. -/
theorem convert_next {s : State} (h1 : s.planValid = true) (h2 : s.plan.badSlice s.operands = false)
    (h3 : s.operands.h1 ≠ s.operands.h2) (h4 : s.plan.touchesSideEffects s.params s.operands = false) :
    exec .convertSlice s = .next s.writeSlice.finish.bumpDraws := by
  show execConvertSlice s = _
  simp [execConvertSlice, h1, h2, h3, h4]

/-! ### Memory and floats -/

/-- R76: little-endian, and addresses wrap at 2^32. -/
theorem test_write_wraps :
    (Memory.write [] 0xFFFFFFFF 2 0x1234).byte 0xFFFFFFFF = 0x34 ∧ (Memory.write [] 0xFFFFFFFF 2 0x1234).byte 0 = 0x12 := by
  decide +kernel

/-- Writing the value an unlisted byte reads as removes the entry. -/
theorem test_canonical : Memory.setByte [(4, 7), (9, 1)] 4 0 = [(9, 1)] ∧ Memory.setByte [(9, 1)] 4 7 = [(4, 7), (9, 1)] := by
  decide

/-- A negative stride goes up the frame (R75). -/
theorem test_negative_stride : PlaneReg.addr ⟨0x1000, 0xFFFFFFF8⟩ 2 1 3 = 0x0FEA := by decide +kernel

/-- §5.3: 4.5 · 2^−24 goes to the even neighbour 4 · 2^−24; 5.5 · 2^−24 goes to 6 · 2^−24, or to 5 · 2^−24 by truncation (R17). -/
theorem test_f2h_tie :
    Fl.to16 .nearestEven 0 (.fin false 9 (-25)) = 0x0004 ∧ Fl.to16 .towardZero 0 (.fin false 11 (-25)) = 0x0005
      ∧ Fl.to16 .nearestEven 0 (.fin false 11 (-25)) = 0x0006 := by
  decide +kernel

/-- A binary16 overflow is an infinity in both modes (R17). -/
theorem test_f2h_overflow :
    Fl.to16 .nearestEven 0 (Fl.ofInt 65520) = 0x7C00 ∧ Fl.to16 .nearestEven 0 (Fl.ofInt 65519) = 0x7BFF
      ∧ Fl.to16 .towardZero 0 (Fl.ofInt 65536) = 0x7C00 := by
  decide +kernel

/-! ### TF_EVAL, §2.1: the branches without POW64 -/

def tfState (x : DWord) : State := { idle (inputs 8 8 2 2 1 1) 0 0 with regs := { testRegs (inputs 8 8 2 2 1 1) 0 0 with tfArg := x } }

/-- D(0.01) = 0.045 of BT.709. -/
theorem test_tf_eval_d_middle : (after (exec (.tfEvalD .input) (tfState 0x3F847AE147AE147B)) State.reset).tfRes = 0x3FA70A3D70A3D70A := by
  decide +kernel

/-- D(−0.0) = −0.0. -/
theorem test_tf_eval_d_negative_zero :
    (after (exec (.tfEvalD .output) (tfState 0x8000000000000000)) State.reset).tfRes = 0x8000000000000000 := by
  decide +kernel

/-- L(0.045) = 0.009999999999999998 of BT.709, by the reciprocal form. -/
theorem test_tf_eval_l_middle : (after (exec (.tfEvalL .input) (tfState 0x3FA70A3D70A3D70A)) State.reset).tfRes = 0x3F847AE147AE147A := by
  decide +kernel

/-- L(−0.045). -/
theorem test_tf_eval_l_negative :
    (after (exec (.tfEvalL .output) (tfState 0xBFA70A3D70A3D70A)) State.reset).tfRes = 0xBF847AE147AE147A := by
  decide +kernel

/-! ### Solvers and tables -/

/-- §3.2: PR2020 to PR709. -/
theorem test_primary_table :
    (({ inputs 0x310 0x310 2 2 0 0 with inBlk := { blk709 0 with prims := pr2020 } } : PlanInputs).primaryTables.map Prod.fst)
      = some ⟨⟨BitVec.ofInt 16 27205, BitVec.ofInt 16 (-9628), BitVec.ofInt 16 (-1194)⟩,
              ⟨BitVec.ofInt 16 (-2041), BitVec.ofInt 16 18561, BitVec.ofInt 16 (-137)⟩,
              ⟨BitVec.ofInt 16 (-297), BitVec.ofInt 16 (-1648), BitVec.ofInt 16 18329⟩⟩ := by
  decide +kernel

/-- §4.2: yuv2rgb of MAT709, TV. -/
theorem test_yuv2rgb_table :
    (builtPlan (kernelInputs 2)).yuv2rgb
      = ⟨⟨BitVec.ofInt 16 16758, 0, BitVec.ofInt 16 25802⟩,
         ⟨BitVec.ofInt 16 16758, BitVec.ofInt 16 (-3069), BitVec.ofInt 16 (-7670)⟩,
         ⟨BitVec.ofInt 16 16758, BitVec.ofInt 16 30402, 0⟩⟩ := by
  decide +kernel

/-- R183: entries clip to int16 and a NaN gives none. -/
theorem test_qlut : qlut (Fl.ofInt 2) = some 32767 ∧ qlut (Fl.ofInt (-2)) = some (BitVec.ofInt 16 (-32768)) ∧ qlut Fl.one = some 28672
    ∧ qlut .nan = none := by
  decide +kernel

/-- §6.3: the LUT index clip. -/
theorem test_lut_index : lutIndexOf (-3000) = 0 ∧ lutIndexOf 0 = 2048 ∧ lutIndexOf 28672 = 30720 ∧ lutIndexOf 31000 = 32767 := by
  decide

/-- §6.3: the primary map rounds halves toward +∞. -/
theorem test_map_rounding :
    (mapPrimaries ⟨⟨8192, 0, 0⟩, ⟨0, 0, 0⟩, ⟨0, 0, 0⟩⟩ ⟨1, 0, 0⟩).c0 = 1 ∧ (mapPrimaries ⟨⟨8192, 0, 0⟩, ⟨0, 0, 0⟩, ⟨0, 0, 0⟩⟩ ⟨-1, 0, 0⟩).c0 = 0 := by
  decide +kernel

/-! ### PLAN and CONVERT_SLICE -/

/-- Program P2: PLAN_INFO of the composed kernel. -/
theorem test_plan_info : (after (exec .plan (idle (kernelInputs 2) 0 2)) State.reset).readReg .planInfo = 0x00000907 := by
  decide +kernel

/-- Program P4: an odd width is OddDimensions. -/
theorem test_plan_odd_width : (after (exec .plan (idle (inputs 0x5008 0x5008 97 96 1 1) 0 2)) State.reset).readReg .status = 0x00000906 := by
  decide +kernel

/-- The input frame of program P2, rows 8 bytes apart. -/
def kernelFrame : Memory :=
  [(0x1000, 0x10), (0x1001, 0xEB), (0x1008, 0x80), (0x1009, 0x64), (0x1100, 0x80), (0x1101, 0xF0), (0x1108, 0x10), (0x1109, 0x5A),
   (0x1200, 0x80), (0x1201, 0x10), (0x1208, 0xF0), (0x1209, 0xC8)]

/-- Program P2: the bytes the composed kernel writes. -/
theorem test_convert_kernel :
    ([0x2000, 0x2001, 0x2008, 0x2009, 0x2100, 0x2101, 0x2108, 0x2109, 0x2200, 0x2201, 0x2208, 0x2209].map
        (after (exec .convertSlice { planned (kernelInputs 2) 0 2 with mem := kernelFrame }) State.reset).mem.byte)
      = [0x00, 0xFF, 0x82, 0x62, 0x80, 0xFF, 0x01, 0x55, 0x80, 0x01, 0xFF, 0xD2] := by
  decide +kernel

/-- §6.4: the luma trace of FSB dither, two rows of four pixels. -/
theorem test_fsb_trace :
    fsbRows 8 16 21 ⟨ErrRow.init 4 1048576, ErrRow.init 4 1048576⟩
        [[229634034, 230161471, 230678609, 231203798], [229634034, 230161471, 230678609, 231203798]]
      = [125, 126, 126, 126, 126, 126, 126, 126] := by
  decide +kernel

/-- INVALIDATE drops the plan. -/
theorem test_invalidate : (after (exec .invalidate (planned (kernelInputs 2) 0 2)) State.reset).readReg .status = 0x00000002 := by
  decide +kernel

/-! ### Steps -/

/-- The first instruction after reset, placed by `withFetchWord`: NOP completes. -/
theorem test_step_nop : (after (step (State.reset.withFetchWord 32 0)) State.reset).done = true := rfl

/-- An illegal word completes with IllegalCommand (R93). -/
theorem test_step_illegal : (after (step (State.reset.withFetchWord 32 0x101)) State.reset).errcode = .illegalCommand := rfl

/-- A second word while BUSY is reported at once, and the running NOP still completes (R306, §7 program P4). -/
theorem test_step_busy_refused :
    (after (step (after (step (State.withMoves (State.reset.accept 0) [.host (.regWrite 0x008 4 1)])) State.reset)) State.reset).errcode
      = .busy := rfl

/-- R343: a launch of the program "CMD := NOP; WAIT" ends, idle and with DONE set. -/
def nopLaunch : Launch := ⟨[], [.regWrite 0x008 4 0, .wait]⟩

theorem test_launch_ends : nopLaunch.wf = true ∧ ∃ f, nopLaunch.EndsIn State.reset f ∧ f.done = true := by
  let ms : List Move := [.host (.regWrite 0x008 4 0), .host .wait]
  have sched : nopLaunch.Schedules ms := rfl
  have run := (((Reaches.refl (nopLaunch.start State.reset ms)).tail rfl rfl).tail rfl rfl).tail rfl rfl
  exact ⟨rfl, _, ⟨ms, _, sched, run, rfl, rfl⟩, rfl⟩

/-- The machine stops with the refusal `r`. -/
def stopsWith (r : Refusal) : Host.Outcome State Fault Refusal → Bool
  | .refused q => decide (q = r)
  | _ => false

/-- R79: a launch onto a device is refused at the CMD write. -/
theorem test_device_launch_refused :
    stopsWith .sideEffectPlane (step { idle (kernelInputs 2) 0 2 with
      planValid := true, plan := builtPlan (kernelInputs 2), agenda := [.host (.regWrite 0x008 4 2)]
      regs := { testRegs (kernelInputs 2) 0 2 with
        outPlanes := ⟨⟨0xE0000000, 8⟩, ⟨0x2100, 8⟩, ⟨0x2200, 8⟩, ⟨0x2300, 8⟩⟩ } }) = true := by
  decide +kernel

/-! ### Witnesses: the hypotheses of each statement, met together -/

theorem witness_DecodeAndEncodeAgree : Instr.wf (.tfEvalD .output) = true := rfl

/-- PLAN accepted and the engine's turn in each of the three ways. -/
theorem witness_StepRunsDecodedInstruction :
    (State.reset.accept 1).seq = .busy 1 .zero ∧ decode 1 = .ok .plan
      ∧ (State.reset.accept 1).EngineMoves (State.reset.accept 1)
      ∧ (running State.reset 1).EngineMoves (State.withMoves (running State.reset 1) [])
      ∧ (State.withMoves (State.reset.accept 1) [.host .wait]).EngineMoves (State.withMoves (State.reset.accept 1) [.host .wait]) :=
  ⟨rfl, rfl, .inl ⟨rfl, rfl⟩, .inr (.inl ⟨[], rfl, rfl⟩), .inr (.inr ⟨[], rfl, rfl, rfl⟩)⟩

theorem witness_IllegalWordCompletesWithIllegalCommand :
    (State.reset.accept 0x101).seq = .busy 0x101 .zero ∧ (∀ i, decode 0x101 ≠ .ok i)
      ∧ (State.reset.accept 0x101).EngineMoves (State.reset.accept 0x101) :=
  ⟨rfl, fun i h => (nomatch (show (Except.error DecodeError.sideOnC0 : Except DecodeError Instr) = .ok i from h)), .inl ⟨rfl, rfl⟩⟩

/-- PLAN right after reset, and a launch of CONVERT_SLICE on ordinary memory. -/
theorem witness_CmdWriteWhileIdleIsAccepted :
    ((State.withMoves State.reset [.host (.regWrite 0x008 4 1)]).agenda = .host (.regWrite 0x008 4 1) :: []
        ∧ (State.withMoves State.reset [.host (.regWrite 0x008 4 1)]).seq = .idle ∧ (1 : Word) ≠ 0x00000002)
      ∧ ((State.withMoves (planned (kernelInputs 2) 0 2) [.host (.regWrite 0x008 4 2)]).agenda = .host (.regWrite 0x008 4 2) :: []
        ∧ (State.withMoves (planned (kernelInputs 2) 0 2) [.host (.regWrite 0x008 4 2)]).seq = .idle
        ∧ (planned (kernelInputs 2) 0 2).plan.touchesSideEffects testParams (planned (kernelInputs 2) 0 2).regs = false) :=
  ⟨⟨rfl, rfl, by decide⟩, rfl, rfl, by decide +kernel⟩

/-- The second clause: a completion that keeps a Busy report, and one that raises its own code. -/
theorem witness_CmdWriteWhileBusyIsRefused :
    (State.withMoves (State.reset.accept 0) [.host (.regWrite 0x008 4 1)]).agenda = .host (.regWrite 0x008 4 1) :: []
      ∧ (State.withMoves (State.reset.accept 0) [.host (.regWrite 0x008 4 1)]).seq = .busy 0 .zero
      ∧ (∃ t, exec .nop (State.reset.accept 0).refuseBusy = .next t)
      ∧ (∃ t, exec .convertSlice (State.reset.accept 2).refuseBusy = .next t) := ⟨rfl, rfl, ⟨_, rfl⟩, ⟨_, rfl⟩⟩

/-- Every clause at the ends of its ranges. -/
theorem witness_RegisterAccessRules :
    (∀ off ∈ ([0x000, 0x3FC] : List Nat), off < 0x400 ∧ off % 4 = 0)
      ∧ (State.withMoves State.reset [.host (.regRead 0x3FC 4)]).agenda = .host (.regRead 0x3FC 4) :: []
      ∧ (∀ off ∈ ([0x08C, 0x0FC, 0x178, 0x17C, 0x1F8, 0x1FC, 0x348, 0x3FC] : List Nat), off % 4 = 0
        ∧ ((0x08C ≤ off ∧ off < 0x100) ∨ (0x178 ≤ off ∧ off < 0x180) ∨ (0x1F8 ≤ off ∧ off < 0x200) ∨ (0x348 ≤ off ∧ off < 0x400)))
      ∧ (∀ off ∈ ([0x000, 0x004, 0x038, 0x03C, 0x084, 0x088, 0x200, 0x344] : List Nat), off % 4 = 0
        ∧ (off < 0x008 ∨ (0x038 ≤ off ∧ off < 0x040) ∨ (0x084 ≤ off ∧ off < 0x08C) ∨ (0x200 ≤ off ∧ off < 0x348)))
      ∧ (∀ off ∈ ([0x000, 0x004, 0x014, 0x3FC] : List Nat), off < 0x400 ∧ off % 4 = 0 ∧ off ≠ 0x008 ∧ off ≠ 0x00C ∧ off ≠ 0x010)
      ∧ (State.withMoves (State.reset.accept 0) [.host (.regWrite 0x3FC 4 5)]).seq = .busy 0 .zero
      ∧ ((0x001 : Nat) < 0x400 ∧ ((4 : Nat) ≠ 4 ∨ (0x001 : Nat) % 4 ≠ 0))
      ∧ ((0x3FC : Nat) < 0x400 ∧ ((2 : Nat) ≠ 4 ∨ (0x3FC : Nat) % 4 ≠ 0))
      ∧ (∀ off ∈ ([0x400, 0xFFF] : List (BitVec 12)), 0x400 ≤ off.toNat) :=
  ⟨by decide, rfl, by decide, by decide, by decide, rfl, by decide, by decide, by decide⟩

/-- The ends of the plan inputs, and their neighbours; a write to a plan input, to CMD and to a reserved word, each carried out. -/
theorem witness_PlanInputWritesClearPlanValid :
    (State.withMoves State.reset [.host (.regWrite 0x014 4 1)]).seq = .idle
      ∧ (∀ off ∈ ([0x014, 0x024, 0x100, 0x174, 0x180, 0x1F4] : List Nat), off < 0x400 ∧ off % 4 = 0 ∧ isPlanInputOffset off)
      ∧ (∀ off ∈ ([0x000, 0x008, 0x010, 0x028, 0x0FC, 0x178, 0x17C, 0x1F8, 0x3FC] : List Nat),
          off < 0x400 ∧ off % 4 = 0 ∧ ¬ isPlanInputOffset off)
      ∧ (∃ t, step (State.withMoves State.reset [.host (.regWrite 0x014 4 1)]) = .next t)
      ∧ (∃ t, step (State.withMoves State.reset [.host (.regWrite 0x008 4 1)]) = .next t)
      ∧ (∃ t, step (State.withMoves State.reset [.host (.regWrite 0x3FC 4 1)]) = .next t) := by
  unfold isPlanInputOffset
  exact ⟨rfl, by decide, by decide, ⟨_, rfl⟩, ⟨_, rfl⟩, ⟨_, rfl⟩⟩

theorem witness_StatusWriteOneToClear :
    (State.withMoves (State.reset.accept 0) [.host (.regWrite 0x00C 4 0xFFFFFFFF)]).agenda = .host (.regWrite 0x00C 4 0xFFFFFFFF) :: [] := rfl

theorem witness_IrqEnableRegister :
    (State.withMoves (State.reset.accept 0) [.host (.regWrite 0x010 4 5)]).agenda = .host (.regWrite 0x010 4 5) :: [] := rfl

/-- Every clause at the ends of its ranges, registers beside the one written, and the words of any state. -/
theorem witness_WrittenRegistersReadBack :
    (State.withMoves State.reset [.host (.regWrite 0x014 4 5)]).seq = .idle
      ∧ (∀ off ∈ ([0x014, 0x018, 0x01C, 0x028, 0x02C, 0x080, 0x020, 0x024, 0x030, 0x034, 0x040, 0x07C, 0x108, 0x174, 0x188, 0x1F4,
          0x100, 0x180, 0x104, 0x184] : List Nat), off % 4 = 0 ∧
        (off = 0x014 ∨ (off = 0x018 ∨ off = 0x01C ∨ off = 0x028 ∨ off = 0x02C ∨ off = 0x080) ∨ (off = 0x020 ∨ off = 0x024)
          ∨ ((0x030 ≤ off ∧ off < 0x038) ∨ (0x040 ≤ off ∧ off < 0x080) ∨ (0x108 ≤ off ∧ off < 0x178) ∨ (0x188 ≤ off ∧ off < 0x1F8))
          ∨ (off = 0x100 ∨ off = 0x180) ∨ (off = 0x104 ∨ off = 0x184)))
      ∧ (∀ other ∈ ([0x000, 0x010, 0x018, 0x080, 0x1FC, 0x348, 0x3FC] : List Nat), other % 4 = 0 ∧ other ≠ 0x014 ∧ other ≠ 0x00C
        ∧ other ≠ 0x084 ∧ other ≠ 0x088 ∧ (other < 0x200 ∨ 0x348 ≤ other))
      ∧ ∀ s : State, ∃ (word : Nat → Word) (pair : Nat → DWord) (ratio : Nat → Ratio),
        (∀ o, word o = s.readReg (Reg.ofOffset o)) ∧ (∀ o, pair o = word (o + 4) ++ word o) ∧ (∀ o, ratio o = ⟨word o, word (o + 4)⟩) :=
  ⟨rfl, by decide, by decide, fun s => ⟨fun o => s.readReg (Reg.ofOffset o), _, _, fun _ => rfl, fun _ => rfl, fun _ => rfl⟩⟩

theorem witness_NopOnlyCompletes :
    (State.withMoves State.reset [.host (.regWrite 0x008 4 0), .host .wait]).seq = .idle
      ∧ (State.withMoves State.reset [.host (.regWrite 0x008 4 0), .host .wait]).agenda
        = .host (.regWrite 0x008 4 0x00000000) :: .host .wait :: [] := ⟨rfl, rfl⟩

/-! Transfers: −1, 0.01 and 1 fall in the three branches of BT.709's D; −0.018 and 0.018 are the ends of the middle one. -/

theorem witness_DelineariseBranches :
    (Fl.le (Fl.of64 0xBFF0000000000000) (Fl.of64 trc709.beta).neg = true ∧ Fl.le (Fl.of64 trc709.beta).neg (Fl.of64 trc709.beta).neg = true)
      ∧ (Fl.le (Fl.of64 0x3F847AE147AE147B) (Fl.of64 trc709.beta).neg = false
        ∧ Fl.lt (Fl.of64 0x3F847AE147AE147B) (Fl.of64 trc709.beta) = true)
      ∧ (Fl.le (Fl.of64 trc709.beta) (Fl.of64 trc709.beta).neg = false ∧ Fl.lt (Fl.of64 trc709.beta) (Fl.of64 trc709.beta) = false)
      ∧ (Fl.of64 0x7FF8000000000000).isNaN = true
      ∧ (Fl.eq (Fl.of64 0x8000000000000000) Fl.zero = true ∧ Fl.eq (Fl.of64 0) Fl.zero = true) := by decide +kernel

theorem witness_DelineariseIsOdd :
    trc709.finite = true ∧ Fl.le Fl.zero (Fl.of64 trc709.beta) = true ∧ (Fl.of64 0x3FE0000000000000).isFinite = true
      ∧ Fl.eq (Fl.of64 0x3FE0000000000000) (Fl.of64 trc709.beta) = false
      ∧ Fl.eq (Fl.of64 0x3FE0000000000000).neg (Fl.of64 trc709.beta) = false := by decide +kernel

theorem witness_TfEvalDWritesD (side : Side) :
    ((tfState 0).operands.inputs.blk side).valid.getLsbD 1 = true ∧ ((tfState 0).operands.inputs.blk side).transfer.finite = true
      ∧ Fl.eq (Fl.of64 ((tfState 0).operands.inputs.blk side).transfer.alpha) Fl.zero = false := by
  cases side <;> decide +kernel

/-- `tfState` with another transfer on both sides. -/
def tfWith (t : Transfer) (valid : BitVec 3) : State :=
  { tfState 0 with regs := { (tfState 0).regs with
      inputs := { inputs 8 8 2 2 1 1 with inBlk := ⟨1, valid, pr709, mat709, t⟩, outBlk := ⟨1, valid, pr709, mat709, t⟩ } } }

/-- The second clause: α = +0.0 and −0.0 on the OUT side. -/
theorem witness_TfEvalDWritesD_external :
    ((tfWith { trc709 with alpha := 0 } 2).operands.inputs.outBlk.valid.getLsbD 1 = true
        ∧ Fl.eq (Fl.of64 (tfWith { trc709 with alpha := 0 } 2).operands.inputs.outBlk.transfer.alpha) Fl.zero = true)
      ∧ Fl.eq (Fl.of64 (tfWith { trc709 with alpha := 0x8000000000000000 } 2).operands.inputs.outBlk.transfer.alpha) Fl.zero = true := by
  decide +kernel

theorem witness_TfEvalLWritesL (side : Side) :
    ((tfState 0).operands.inputs.blk side).valid.getLsbD 1 = true ∧ ((tfState 0).operands.inputs.blk side).transfer.finite = true
      ∧ Fl.eq (Fl.of64 ((tfState 0).operands.inputs.blk side).transfer.alpha) Fl.zero = false
      ∧ Fl.eq (Fl.of64 ((tfState 0).operands.inputs.blk side).transfer.gamma) Fl.zero = false
      ∧ Fl.eq (Fl.of64 ((tfState 0).operands.inputs.blk side).transfer.delta) Fl.zero = false := by
  cases side <;> decide +kernel

/-- TF_EVAL_D: no tag; α = 0 on the IN side; an infinite γ. TF_EVAL_L: no tag; a NaN β; a zero α, γ and δ. -/
theorem witness_TfEvalErrors :
    (((tfWith trc709 5).operands.inputs.blk .output).valid.getLsbD 1 = false
      ∧ Fl.eq (Fl.of64 (tfWith { trc709 with alpha := 0 } 7).operands.inputs.inBlk.transfer.alpha) Fl.zero = true
      ∧ (Fl.eq (Fl.of64 ((tfWith { trc709 with gamma := 0x7FF0000000000000 } 7).operands.inputs.blk .output).transfer.alpha) Fl.zero = false
        ∧ ((tfWith { trc709 with gamma := 0x7FF0000000000000 } 7).operands.inputs.blk .output).transfer.finite = false))
    ∧ ((tfWith trc709 5).operands.inputs.blk .input).valid.getLsbD 1 = false
    ∧ ((tfWith { trc709 with beta := 0x7FF8000000000000 } 7).operands.inputs.blk .output).transfer.finite = false
    ∧ Fl.eq (Fl.of64 ((tfWith { trc709 with alpha := 0 } 7).operands.inputs.blk .output).transfer.alpha) Fl.zero = true
    ∧ Fl.eq (Fl.of64 ((tfWith { trc709 with gamma := 0x8000000000000000 } 7).operands.inputs.blk .input).transfer.gamma) Fl.zero = true
    ∧ Fl.eq (Fl.of64 ((tfWith { trc709 with delta := 0 } 7).operands.inputs.blk .input).transfer.delta) Fl.zero = true := by
  decide +kernel

/-- −1, 0 and 1: no NaN arises in the outer branches. -/
theorem witness_LineariseBranches :
    (Fl.le (Fl.of64 0xBFF0000000000000) (Fl.mul b64 (Fl.of64 trc709.beta) (Fl.of64 trc709.delta)).neg = true
        ∧ (Fl.mul b64 (Fl.sub b64 (Fl.sub b64 Fl.one (Fl.of64 trc709.alpha)) (Fl.of64 0xBFF0000000000000))
            (Fl.div b64 Fl.one (Fl.of64 trc709.alpha))).isNaN = false
        ∧ (Fl.div b64 Fl.one (Fl.of64 trc709.gamma)).isNaN = false)
      ∧ (Fl.le (Fl.of64 0) (Fl.mul b64 (Fl.of64 trc709.beta) (Fl.of64 trc709.delta)).neg = false
        ∧ Fl.lt (Fl.of64 0) (Fl.mul b64 (Fl.of64 trc709.beta) (Fl.of64 trc709.delta)) = true)
      ∧ (Fl.le (Fl.of64 0x3FF0000000000000) (Fl.mul b64 (Fl.of64 trc709.beta) (Fl.of64 trc709.delta)).neg = false
        ∧ Fl.lt (Fl.of64 0x3FF0000000000000) (Fl.mul b64 (Fl.of64 trc709.beta) (Fl.of64 trc709.delta)) = false
        ∧ (Fl.mul b64 (Fl.sub b64 (Fl.add b64 (Fl.of64 0x3FF0000000000000) (Fl.of64 trc709.alpha)) Fl.one)
            (Fl.div b64 Fl.one (Fl.of64 trc709.alpha))).isNaN = false
        ∧ (Fl.div b64 Fl.one (Fl.of64 trc709.gamma)).isNaN = false) := by
  decide +kernel

/-! PLAN. -/

theorem witness_PlanStoresTheBuiltPlan :
    (idle (kernelInputs 2) 0 2).operands.inputs.buildPlan (idle (kernelInputs 2) 0 2).params (idle (kernelInputs 2) 0 2).draws
      = .ok (builtPlan (kernelInputs 2)) := builtPlan_ok kernel_ok

/-- PLAN right after reset: IN_FMT is 0. -/
theorem witness_FailedPlanReportsItsCode :
    State.reset.operands.inputs.buildPlan State.reset.params State.reset.draws = .error .invalidDepth := rfl

/-- A PLAN that has built its plan. -/
theorem plan_next {p : PlanInputs} (h : (p.buildPlan testParams 0).isOk = true) (h1 h2 : BitVec 16) :
    ∃ t, exec .plan (idle p h1 h2) = .next t ∧ t.planValid = true ∧ t.plan = builtPlan p := by
  have hb : (idle p h1 h2).operands.inputs.buildPlan (idle p h1 h2).params (idle p h1 h2).draws = .ok (builtPlan p) := builtPlan_ok h
  rcases execPlan_cases (idle p h1 h2) with ⟨c, hc, -⟩ | ⟨q, hq, he⟩
  · rw [hb] at hc; cases hc
  · rw [hb] at hq
    cases hq
    exact ⟨_, he, by simp, by simp⟩

theorem witness_PlanAcceptsThirteenFormats : ∃ t, exec .plan (idle (kernelInputs 2) 0 2) = .next t ∧ t.planValid = true :=
  (plan_next kernel_ok 0 2).imp fun _ h => ⟨h.1, h.2.1⟩

/-- The hypotheses `fmt` and `front` of PlanReportsFirstFailingCheck, as functions. -/
def fmtError (f : PixFmt) : Option ErrCode :=
  if f.rgb = true then
    if f.float = false then some .invalidFormat
    else if f.depth ≠ 16 ∧ f.depth ≠ 32 then some .invalidDepth
    else if f.log2cw ≠ 0 ∨ f.log2ch ≠ 0 then some .invalidSubsampling
    else none
  else
    if f.float = true ∨ f.alpha = true then some .invalidFormat
    else if f.depth ≠ 8 ∧ f.depth ≠ 10 ∧ f.depth ≠ 12 then some .invalidDepth
    else if ¬((f.log2cw = 0 ∧ f.log2ch = 0) ∨ (f.log2cw = 1 ∧ f.log2ch = 0) ∨ (f.log2cw = 1 ∧ f.log2ch = 1)) then
      some .invalidSubsampling
    else none

def frontError (p : PlanInputs) : Option ErrCode :=
  (fmtError p.inFmt).or ((fmtError p.outFmt).or
    (if p.inFmt.rgb ≠ p.outFmt.rgb then some ErrCode.familyMismatch
    else if p.inFmt.rgb = true ∧ p.inFmt.depth ≠ p.outFmt.depth then some ErrCode.invalidDepth
    else if p.inFmt.rgb = true ∧ p.inFmt.alpha ≠ p.outFmt.alpha then some ErrCode.invalidFormat
    else if p.options.wpAdapt = 3 then some ErrCode.invalidOption
    else if p.inBlk.valid.getLsbD 0 = false ∨ p.outBlk.valid.getLsbD 0 = false then some ErrCode.unknownPrimaries
    else if p.inBlk.valid.getLsbD 1 = false ∨ p.outBlk.valid.getLsbD 1 = false then some ErrCode.unknownTransfer
    else if p.inFmt.rgb = false ∧ (p.inBlk.valid.getLsbD 2 = false ∨ p.outBlk.valid.getLsbD 2 = false) then
      some ErrCode.unknownMatrix
    else if p.inFmt.rgb = false ∧ (p.inBlk.range = 3 ∨ p.outBlk.range = 3) then some ErrCode.invalidRange
    else if p.frameW = 0 ∨ p.frameH = 0 ∨ p.frameW.toNat % 2 = 1 ∨ p.frameH.toNat % 2 = 1 then some ErrCode.oddDimensions
    else none))

/-- Equality of the words 2 to 17 (`lr`) and 22 to 29 of two blocks, as the hypotheses of the statement test it. -/
def sameWords (p : PlanInputs) (first last : Nat) : Bool :=
  decide (∀ k < last + 1, first ≤ k → p.inBlk.readWord k = p.outBlk.readWord k)

/-- The first clause, one input for each failing check, in order: format, depth, subsampling on the IN side, and behind the OUT
side's; family, depth and alpha mismatch; options, tags, range and dimensions. -/
theorem witness_PlanReportsFirstFailingCheck_front :
    ([inputs 0x100 0x8 2 2 1 1, inputs 0x208 0x8 2 2 1 1, inputs 0x308 0x310 2 2 0 0, inputs 0x9 0x8 2 2 1 1, inputs 0x1310 0x310 2 2 0 0,
      inputs 0x4008 0x8 2 2 1 1, inputs 0x8 0x408 2 2 1 1, inputs 0x8 0x310 2 2 1 1, inputs 0x310 0x320 2 2 0 0,
      inputs 0x310 0x710 2 2 0 0, { kernelInputs 2 with options := ⟨false, false, 3⟩ },
      { kernelInputs 2 with inBlk := { blk709 1 with valid := 6 } }, { kernelInputs 2 with outBlk := { blk709 1 with valid := 5 } },
      { kernelInputs 2 with outBlk := { blk709 1 with valid := 3 } }, { kernelInputs 2 with outBlk := blk709 3 }, kernelInputs 0,
      kernelInputs 3].map frontError)
      = [some .invalidFormat, some .invalidFormat, some .invalidDepth, some .invalidDepth, some .invalidSubsampling,
         some .invalidSubsampling, some .invalidFormat, some .familyMismatch, some .invalidDepth, some .invalidFormat,
         some .invalidOption, some .unknownPrimaries, some .unknownTransfer, some .unknownMatrix, some .invalidRange,
         some .oddDimensions, some .oddDimensions] := by
  decide +kernel

/-- GBRPF32 with XR_DEN = 0 on the IN side: the primaries solver fails. -/
def badPrimaries : PlanInputs :=
  { inputs 0x320 0x320 2 2 0 0 with inBlk := { blk709 0 with prims := { pr709 with xr := frac 640 0 } } }

/-- GBRPF32 with α = 0 on the IN side, the primaries equal. -/
def badTransfer : PlanInputs :=
  { inputs 0x320 0x320 2 2 0 0 with inBlk := { blk709 0 with transfer := { trc709 with alpha := 0 } } }

/-- KR_DEN = 0 on the OUT side. -/
def badMatrix : PlanInputs := { kernelInputs 2 with outBlk := { blk709 2 with luma := { mat709 with kr := frac 1 0 } } }

/-- β = 1.0 and δ = 2^−1074, so that 1/δ is an infinity and L(+0.0) = 0·∞ is a NaN. -/
def badLut : PlanInputs :=
  { kernelInputs 2 with inBlk := { blk709 1 with transfer := { trc709 with beta := 0x3FF0000000000000, delta := 1 } } }

/-- The clauses of phase C, with the values of `front`, `lr` and `rr` that the hypotheses give. -/
theorem witness_PlanReportsFirstFailingCheck_solvers :
    (frontError badPrimaries = none ∧ sameWords badPrimaries 2 17 = false ∧ badPrimaries.options.fast = false
        ∧ badPrimaries.primaryTables = none)
      ∧ (frontError badTransfer = none ∧ sameWords badTransfer 2 17 = true ∧ sameWords badTransfer 22 29 = false
        ∧ badTransfer.options.fast = false ∧ Fl.eq (Fl.of64 badTransfer.inBlk.transfer.alpha) Fl.zero = true)
      ∧ (frontError badMatrix = none ∧ badMatrix.stepPrimaries.isOk = true ∧ badMatrix.stepTransfer.isOk = true
        ∧ badMatrix.inFmt.rgb = false
        ∧ badMatrix.matrixTables (badMatrix.resolvedRange .input) (badMatrix.resolvedRange .output) badMatrix.yuv2yuvFast = none)
      ∧ (frontError badLut = none ∧ badLut.stepPrimaries.isOk = true ∧ badLut.stepTransfer.isOk = true
        ∧ badLut.stepMatrix.isOk = true ∧ badLut.inFmt.rgb = false ∧ badLut.options.fast = false ∧ sameWords badLut 22 29 = false) := by
  decide +kernel

/-- The last clause's NaN: entry 2048 of lin_lut, for v = 0. -/
theorem witness_PlanReportsFirstFailingCheck_lut :
    (linearise (Config.nanDraw (idle badLut 0 2).draws (lutSite 2048 0)) badLut.inBlk.transfer
      (Fl.div b64 (Fl.ofInt ((2048 : Nat) - 2048)) (Fl.ofInt 28672))).isNaN = true := by
  decide +kernel

/-- With every flag 1 but `yuv2yuv_passthrough`, with every flag 1, and with the subsampling different. -/
theorem witness_PassthroughFlagsOfAPlan :
    (∃ t, exec .plan (idle (kernelInputs 2) 0 2) = .next t ∧ t.planValid = true)
      ∧ (∃ t, exec .plan (idle copyInputs 0 2) = .next t ∧ t.planValid = true)
      ∧ (∃ t, exec .plan (idle fullInputs 0 2) = .next t ∧ t.planValid = true) :=
  ⟨(plan_next kernel_ok 0 2).imp fun _ h => ⟨h.1, h.2.1⟩, (plan_next copy_ok 0 2).imp fun _ h => ⟨h.1, h.2.1⟩,
    (plan_next full_ok 0 2).imp fun _ h => ⟨h.1, h.2.1⟩⟩

/-- A 4×4 frame of `copyInputs`. -/
def capacityInputs : PlanInputs := { copyInputs with frameW := 4, frameH := 4 }

theorem capacity_ok : (capacityInputs.buildPlan testParams 0).isOk = true := by decide +kernel

/-- A plan within the limits; and the same inputs one past each limit, which larger limits would take. -/
theorem witness_PlanCapacityCheck :
    (∃ t, exec .plan (idle capacityInputs 0 4) = .next t ∧ t.planValid = true)
      ∧ capacityInputs.buildPlan testParams 0 = .ok (builtPlan capacityInputs)
      ∧ ({ testParams with maxWidthCode := 0 } : Params).maxWidth < capacityInputs.frameW.toNat
      ∧ ({ testParams with maxHeightCode := 0 } : Params).maxHeight < capacityInputs.frameH.toNat
      ∧ ({ testParams with scratchBytes := 383 } : Params).scratchBytes
          < 3 * (32 * ((capacityInputs.frameW.toNat * (if capacityInputs.inFmt.pipe = .f32 then 4 else 2) + 31) / 32)) * capacityInputs.frameH.toNat :=
  ⟨(plan_next capacity_ok 0 4).imp fun _ h => ⟨h.1, h.2.1⟩, builtPlan_ok capacity_ok, by decide +kernel, by decide +kernel,
    by decide +kernel⟩

/-- An RGB plan with FAST, a YUV plan whose subsampling differs. -/
theorem witness_UnbuiltTablesHoldTheirFill :
    (∃ t, exec .plan (idle copyInputs 0 2) = .next t ∧ t.planValid = true ∧ t.plan = builtPlan copyInputs)
      ∧ (builtPlan copyInputs).flags.rgb2rgbPt = true ∧ copyInputs.inFmt.rgb = true
      ∧ (∃ t, exec .plan (idle fullInputs 0 2) = .next t ∧ t.planValid = true ∧ t.plan = builtPlan fullInputs)
      ∧ (builtPlan fullInputs).flags.lrgb2lrgbPt = true ∧ (builtPlan fullInputs).flags.yuv2yuvFast = false :=
  ⟨plan_next copy_ok 0 2, by decide +kernel, by decide +kernel, plan_next full_ok 0 2, by decide +kernel, by decide +kernel⟩

/-- TV on one side, PC on the other. -/
theorem witness_BlackLevelOffsets :
    (∃ t, exec .plan (idle (kernelInputs 2) 0 2) = .next t ∧ t.planValid = true) ∧ (kernelInputs 2).inFmt.rgb = false
      ∧ (kernelInputs 2).inBlk.range = 1 ∧ (kernelInputs 2).outBlk.range = 2 :=
  ⟨(plan_next kernel_ok 0 2).imp fun _ h => ⟨h.1, h.2.1⟩, by decide, by decide, by decide⟩

/-- GBRPF32, PR2020 to PR709: the primaries solver runs. -/
def primaryInputs : PlanInputs := { inputs 0x320 0x320 2 2 0 0 with inBlk := { blk709 0 with prims := pr2020 } }

theorem primary_ok : (primaryInputs.buildPlan testParams 0).isOk = true := by decide +kernel

/-- A plan with the primary map, and a YUV plan with the composed table. -/
theorem witness_SolverTablesAreRounded :
    (∃ t, exec .plan (idle primaryInputs 0 2) = .next t ∧ t.planValid = true ∧ t.plan = builtPlan primaryInputs)
      ∧ (builtPlan primaryInputs).flags.lrgb2lrgbPt = false ∧ (builtPlan primaryInputs).flags.rgb2rgbPt = false
      ∧ (∃ t, exec .plan (idle (kernelInputs 2) 0 2) = .next t ∧ t.planValid = true ∧ t.plan = builtPlan (kernelInputs 2))
      ∧ (kernelInputs 2).inFmt.rgb = false ∧ (builtPlan (kernelInputs 2)).flags.yuv2yuvFast = true :=
  ⟨plan_next primary_ok 0 2, by decide +kernel, by decide +kernel, plan_next kernel_ok 0 2, by decide +kernel, by decide +kernel⟩

/-- Primaries whose three points are one: the chromaticity matrix is singular. -/
def onePoint : Prims := { pr709 with xg := frac 640 1000, yg := frac 330 1000, xb := frac 640 1000, yb := frac 330 1000 }

/-- PR2020 with the white point (1/3, 1/3), to PR709 with D65: adaptation by Bradford, by von Kries, and none. -/
def whiteInputs (wp : BitVec 2) : PlanInputs :=
  { inputs 0x320 0x320 2 2 0 0 with
    options := ⟨false, false, wp⟩
    inBlk := { blk709 0 with prims := { pr2020 with white := ⟨frac 1 3, frac 1 3⟩ } } }

/-- A determinant 0 and one that is not; a block with X(B) and one without; the three adaptations, with the white words equal and
not, each with a map; and a block with its luma matrices. -/
theorem witness_SolverFormulas :
    (∃ (q : Ratio → Fl) (dot : V3 Fl → Fl → Fl → Fl → Fl) (fits : Fl → Prop),
        (∀ r, q r = Fl.div b64 (Fl.ofInt r.num.toInt) (Fl.ofInt r.den.toInt))
        ∧ (∀ r x y z, dot r x y z = Fl.add b64 (Fl.add b64 (Fl.mul b64 r.c0 x) (Fl.mul b64 r.c1 y)) (Fl.mul b64 r.c2 z))
        ∧ (∀ x, fits x ↔ ∃ k, x.rne = some k ∧ -32768 ≤ k ∧ k ≤ 32767))
      ∧ (Fl.inv3 onePoint.chromaMatrix = none ∧ (Fl.inv3 bradford).isSome = true)
      ∧ (onePoint.rgbToXyz = none ∧ pr709.rgbToXyz.isSome = true)
      ∧ (∀ wp ∈ ([0, 1, 2] : List (BitVec 2)), (whiteInputs wp).options.wpAdapt ≠ 3 ∧ (whiteInputs wp).primaryMap.isSome = true
        ∧ (whiteInputs wp).whiteEq = false)
      ∧ (primaryInputs.options.wpAdapt ≠ 3 ∧ primaryInputs.primaryMap.isSome = true ∧ primaryInputs.whiteEq = true)
      ∧ mat709.matrices.isSome = true := by
  refine ⟨⟨Ratio.value, fun r x y z => Fl.dot b64 r ⟨x, y, z⟩, fun x => ∃ k, x.rne = some k ∧ -32768 ≤ k ∧ k ≤ 32767, fun _ => rfl,
    fun _ _ _ _ => rfl, fun _ => Iff.rfl⟩, ?_⟩
  decide +kernel

theorem witness_FastRgbPlanSucceeds :
    copyInputs.inFmt.toWord ∈ ([0x310, 0x710, 0x320, 0x720] : List Word) ∧ copyInputs.outFmt = copyInputs.inFmt
      ∧ copyInputs.options.fast = true ∧ copyInputs.options.wpAdapt ≠ 3
      ∧ copyInputs.inBlk.valid.getLsbD 0 = true ∧ copyInputs.outBlk.valid.getLsbD 0 = true
      ∧ copyInputs.inBlk.valid.getLsbD 1 = true ∧ copyInputs.outBlk.valid.getLsbD 1 = true
      ∧ copyInputs.frameW ≠ 0 ∧ copyInputs.frameH ≠ 0 ∧ copyInputs.frameW.toNat % 2 = 0 ∧ copyInputs.frameH.toNat % 2 = 0
      ∧ copyInputs.frameW.toNat ≤ testParams.maxWidth ∧ copyInputs.frameH.toNat ≤ testParams.maxHeight
      ∧ 3 * (32 * ((copyInputs.frameW.toNat * (if copyInputs.inFmt.depth = 32 then 4 else 2) + 31) / 32)) * copyInputs.frameH.toNat
        ≤ testParams.scratchBytes := by
  decide +kernel

/-- GBRPF16 from BT.709's transfer to a pure power, PR2020 to PR709: the full half path. -/
def halfInputs : PlanInputs := { inputs 0x310 0x310 2 2 0 0 with inBlk := { blk709 0 with prims := pr2020 } }

theorem half_ok : (halfInputs.buildPlan testParams 0).isOk = true := by decide +kernel

/-- α = γ = 1 and β = 2^1022, so that every v(n) falls in the middle branch of D and of L, which needs no POW64. -/
def wideTransfer (delta : DWord) : Transfer := ⟨0x3FF0000000000000, 0x7FD0000000000000, 0x3FF0000000000000, delta⟩

/-- YUV420P8 to YUV444P8, δ = 1 on the IN side and 2 on the OUT side: the full integer pipeline with LUTs. -/
def wideInputs : PlanInputs :=
  { inputs 0x00005008 0x00000008 2 2 1 1 with
    inBlk := { blk709 1 with transfer := wideTransfer 0x3FF0000000000000 }
    outBlk := { blk709 1 with transfer := wideTransfer 0x4000000000000000 } }

/-- A value that is not large lies strictly between −2^1022 and 2^1022. -/
theorem wide_middle {x : Fl} (h : x.Bounded 300) :
    Fl.le x (Fl.fin false (2 ^ 52) 970).neg = false ∧ Fl.lt x (Fl.fin false (2 ^ 52) 970) = true := by
  obtain ⟨s, m, e, rfl, hm, he⟩ := h
  have big : (2 : Int) ^ 53 ≤ ((2 ^ 52 * 2 ^ (970 - e).toNat : Nat) : Int) := by
    exact_mod_cast (show 2 ^ 53 ≤ 2 ^ 52 * 2 ^ (970 - e).toNat from
      (pow_add 2 52 _).symm ▸ Nat.pow_le_pow_right (by decide) (by omega))
  have hm' : (m : Int) < 2 ^ 53 := by exact_mod_cast hm
  simp only [Fl.le, Fl.lt, Fl.eq, Fl.neg, Fl.scaled, min_eq_left (show e ≤ 970 by omega), sub_self, Int.toNat_zero, pow_zero,
    Nat.mul_one]
  generalize ((2 ^ 52 * 2 ^ (970 - e).toNat : Nat) : Int) = B at *
  cases s <;> simp <;> omega

theorem wide_luts : ∃ t, intLuts 0 (wideTransfer 0x3FF0000000000000) (wideTransfer 0x4000000000000000) false = some t := by
  refine intLuts_isSome (fun n hn => ?_) (fun n hn => ?_)
  · have hb : Fl.mul b64 (wideTransfer 0x3FF0000000000000).b (wideTransfer 0x3FF0000000000000).dl = .fin false (2 ^ 52) 970 := by
      decide +kernel
    obtain ⟨h1, h2⟩ := wide_middle ((lutValue_bounded hn).mono (by decide))
    unfold linearise
    simp only [hb, h1, h2, Bool.false_eq_true, if_false, if_true]
    exact Fl.mul_isNaN (lutValue_bounded hn).finite (by decide +kernel)
  · have hx := Fl.of64_to64_bounded (d := 0) (lutValue_bounded hn)
    have hb : (wideTransfer 0x4000000000000000).b = .fin false (2 ^ 52) 970 := by decide +kernel
    obtain ⟨h1, h2⟩ := wide_middle hx
    unfold delinOut delinearise
    simp only [hb, h1, h2, Bool.false_eq_true, if_false, if_true]
    exact Fl.mul_isNaN (by decide +kernel) hx.finite

theorem wide_ok : (wideInputs.buildPlan testParams 0).isOk = true := by
  obtain ⟨t, ht⟩ := wide_luts
  have hl : wideInputs.stepLuts testParams.f2h 0 = .ok t :=
    PlanInputs.stepLuts_int (p := wideInputs) (draw := 0) (by decide +kernel) (by decide +kernel) ht
  have okOf : ∀ {α : Type} {x : Except ErrCode α}, x.isOk = true → ∃ a, x = .ok a := by
    intro α x h
    cases x with
    | ok a => exact ⟨a, rfl⟩
    | error c => cases h
  obtain ⟨prim, hp⟩ := okOf (show wideInputs.stepPrimaries.isOk = true by decide +kernel)
  obtain ⟨mat, hm⟩ := okOf (show wideInputs.stepMatrix.isOk = true by decide +kernel)
  have unit : ∀ {x : Except ErrCode Unit}, x.isOk = true → x = .ok () := fun h => (okOf h).elim fun _ e => e
  have hf : wideInputs.checkFront = .ok () := unit (by decide +kernel)
  have hd : wideInputs.checkDimensions = .ok () := unit (by decide +kernel)
  have ht' : wideInputs.stepTransfer = .ok () := unit (by decide +kernel)
  have hc : wideInputs.checkCapacity testParams = .ok () := unit (by decide +kernel)
  have hb : wideInputs.buildPlan testParams 0 = .ok (wideInputs.assemble prim mat t) :=
    PlanInputs.buildPlan_ok.2 ⟨hf, hd, ht', hc, prim, mat, t, hp, hm, hl, rfl⟩
  rw [hb]
  rfl

/-- A plan that PLAN has built holds the pipe and the flags of its inputs. -/
theorem plan_next_pipe {p : PlanInputs} (h : (p.buildPlan testParams 0).isOk = true) :
    ∃ t, exec .plan (idle p 0 2) = .next t ∧ t.planValid = true ∧ t.plan.pipe = p.pipe ∧ t.plan.flags = p.flags := by
  obtain ⟨t, ht, hv, hp⟩ := plan_next h 0 2
  have hb := builtPlan_ok h
  rw [PlanInputs.buildPlan_ok] at hb
  obtain ⟨-, -, -, -, prim, mat, luts, -, -, -, e⟩ := hb
  exact ⟨t, ht, hv, by rw [hp, e]; rfl, by rw [hp, e]; rfl⟩

/-- A plan with integer LUTs; an infinity; the greatest finite value, whose product is an infinity; and values whose product is
rounded, at both clips. -/
theorem witness_IntegerLutEntries :
    (∃ t, exec .plan (idle wideInputs 0 2) = .next t ∧ t.planValid = true ∧ t.plan.pipe = .int ∧ t.plan.flags.rgb2rgbPt = false)
      ∧ (Fl.inf true = .inf true)
      ∧ ((Fl.of64 0x7FEFFFFFFFFFFFFF).isFinite = true ∧ Fl.mul b64 (Fl.of64 0x7FEFFFFFFFFFFFFF) (Fl.ofInt 28672) = .inf false)
      ∧ ((Fl.ofInt 2).isFinite = true ∧ (Fl.mul b64 (Fl.ofInt 2) (Fl.ofInt 28672)).rne = some 57344)
      ∧ ((Fl.ofInt (-1)).isFinite = true ∧ (Fl.mul b64 (Fl.ofInt (-1)) (Fl.ofInt 28672)).rne = some (-28672)) := by
  obtain ⟨t, h, hv, hp, hf⟩ := plan_next_pipe wide_ok
  refine ⟨⟨t, h, hv, hp.trans (by decide +kernel), by rw [hf]; decide +kernel⟩, ?_⟩
  decide +kernel

/-- A plan with half-float LUTs; the least NaN pattern and the greatest, an infinity and the zeros. -/
theorem witness_HalfLutEntries :
    (∃ t, exec .plan (idle halfInputs 0 2) = .next t ∧ t.planValid = true ∧ t.plan.pipe = .half ∧ t.plan.flags.rgb2rgbPt = false)
      ∧ ((Fl.of16 0x7C01).isNaN = true ∧ (Fl.of16 0xFFFF).isNaN = true)
      ∧ ((Fl.of16 0x0000).isNaN = false ∧ (Fl.of16 0x7C00).isNaN = false ∧ (Fl.of16 0xFC00).isNaN = false) := by
  obtain ⟨t, h, hv, hp, hf⟩ := plan_next_pipe half_ok
  refine ⟨⟨t, h, hv, hp.trans (by decide +kernel), by rw [hf]; decide +kernel⟩, ?_⟩
  decide +kernel

theorem witness_LutIndexing : (-2049 : Int) < -2048 ∧ (30719 : Int) < 30720 ∧ (-2048 : Int) ≤ -2048 ∧ (30719 : Int) ≤ 30719 := by decide

/-- Without a plan and with one; the ends of the window. -/
theorem witness_CoefficientWindow :
    State.reset.planValid = false ∧ (planned (kernelInputs 2) 0 2).planValid = true ∧ (0x200 : Nat) < 0x348 ∧ (0x347 : Nat) < 0x348
      ∧ (∀ off ∈ ([0x200, 0x344] : List Nat), 0x200 ≤ off ∧ off < 0x348 ∧ off % 4 = 0) :=
  ⟨rfl, rfl, by decide, by decide, by decide⟩

/-- A plan with a LUT of the kind given. -/
def lutState (kind : LutKind) (i : BitVec 16) : State :=
  { planned (kernelInputs 2) 0 2 with plan := { builtPlan (kernelInputs 2) with lutKind := kind }, lutIndex := i }

/-- Without a plan and with one; no LUT, an integer LUT at the first index past it and at its last, a half-float LUT at its last. -/
theorem witness_PlanReadbackRegisters :
    State.reset.planValid = false ∧ (planned (kernelInputs 2) 0 2).planValid = true ∧ (State.reset.plan.lutKind = .none)
      ∧ ((lutState .int 0x8000).plan.lutKind = .int ∧ 32768 ≤ (lutState .int 0x8000).lutIndex.toNat)
      ∧ ((lutState .int 0x7FFF).planValid = true ∧ (lutState .int 0x7FFF).plan.lutKind = .int
        ∧ (lutState .int 0x7FFF).lutIndex.toNat < 32768)
      ∧ ((lutState .half 0xFFFF).planValid = true ∧ (lutState .half 0xFFFF).plan.lutKind = .half) :=
  ⟨rfl, rfl, rfl, ⟨rfl, by decide +kernel⟩, ⟨rfl, rfl, by decide +kernel⟩, rfl, rfl⟩

/-! CONVERT_SLICE. -/

/-- No plan; h1 odd, h2 odd, h2 below h1, h2 past the frame; an empty slice at the bottom of the frame. -/
theorem witness_ConvertSliceChecks :
    State.reset.planValid = false ∧ (planned (kernelInputs 2) 0 2).planValid = true
      ∧ (planned (kernelInputs 2) 1 2).operands.sliceH1.toNat % 2 = 1 ∧ (planned (kernelInputs 2) 0 1).operands.sliceH2.toNat % 2 = 1
      ∧ (planned (kernelInputs 2) 2 0).operands.sliceH2.toNat < (planned (kernelInputs 2) 2 0).operands.sliceH1.toNat
      ∧ (planned (kernelInputs 2) 0 4).plan.src.frameH.toNat < (planned (kernelInputs 2) 0 4).operands.sliceH2.toNat
      ∧ ((planned (kernelInputs 2) 2 2).operands.sliceH1.toNat % 2 = 0
        ∧ (planned (kernelInputs 2) 2 2).operands.sliceH1 = (planned (kernelInputs 2) 2 2).operands.sliceH2
        ∧ (planned (kernelInputs 2) 2 2).operands.sliceH2.toNat ≤ (planned (kernelInputs 2) 2 2).plan.src.frameH.toNat) := by
  refine ⟨rfl, rfl, ?_⟩
  decide +kernel

theorem witness_ConvertSliceCompletes :
    (planned (kernelInputs 2) 0 2).planValid = true
      ∧ (planned (kernelInputs 2) 0 2).plan.badSlice (planned (kernelInputs 2) 0 2).operands = false
      ∧ (planned (kernelInputs 2) 0 2).operands.sliceH1 ≠ (planned (kernelInputs 2) 0 2).operands.sliceH2
      ∧ (planned (kernelInputs 2) 0 2).plan.touchesSideEffects (planned (kernelInputs 2) 0 2).params (planned (kernelInputs 2) 0 2).operands
        = false := by
  refine ⟨rfl, ?_⟩
  decide +kernel

/-- The kernel's state with output plane 0 moved. -/
def deviceState (b : Word) : State :=
  { planned (kernelInputs 2) 0 2 with
    regs := { testRegs (kernelInputs 2) 0 2 with outPlanes := { (testRegs (kernelInputs 2) 0 2).outPlanes with q0 := ⟨b, 8⟩ } } }

/-- Writing to the register block's first byte, and to the last byte of a device: at the launch, and running. -/
theorem witness_SideEffectPlanesAreRefused :
    ((deviceState 0xF0000000).planValid = true ∧ (deviceState 0xF0000000).plan.badSlice (deviceState 0xF0000000).regs = false
      ∧ 0xF0000000 ∈ (deviceState 0xF0000000).plan.writeSet (deviceState 0xF0000000).regs
      ∧ testParams.regBase.toNat ≤ 0xF0000000 ∧ (0xF0000000 : Nat) < testParams.regBase.toNat + 0x400)
      ∧ (0xE0000FFF ∈ (deviceState 0xE0000FFE).plan.writeSet (deviceState 0xE0000FFE).regs
        ∧ ∃ g ∈ testParams.sideEffects, g.base ≤ 0xE0000FFF ∧ 0xE0000FFF < g.base + g.size)
      ∧ ((State.withMoves (deviceState 0xF0000000) [.host (.regWrite 0x008 4 2)]).seq = .idle
        ∧ (State.withMoves (deviceState 0xF0000000) [.host (.regWrite 0x008 4 2)]).agenda = .host (.regWrite 0x008 4 0x00000002) :: [])
      ∧ ((deviceState 0xF0000000).accept 2).operands = (deviceState 0xF0000000).regs := by
  refine ⟨⟨rfl, ?_⟩, ?_, ⟨rfl, rfl⟩, rfl⟩
  all_goals decide +kernel

theorem kernel_defined : (planned (kernelInputs 2) 0 2).SliceDefined where
  planned := rfl
  legal := by decide +kernel
  ordinary := by decide +kernel
  disjoint := by decide +kernel
  undisturbed := rfl

theorem full_defined : (planned fullInputs 0 2).SliceDefined where
  planned := rfl
  legal := by decide +kernel
  ordinary := by decide +kernel
  disjoint := by decide +kernel
  undisturbed := rfl

theorem copy_defined : (planned copyInputs 0 2).SliceDefined where
  planned := rfl
  legal := by decide +kernel
  ordinary := by decide +kernel
  disjoint := by decide +kernel
  undisturbed := rfl

/-- A defined slice of some rows completes. -/
theorem defined_next {s : State} (h : s.SliceDefined) (hne : s.operands.h1 ≠ s.operands.h2) :
    exec .convertSlice s = .next s.writeSlice.finish.bumpDraws := convert_next h.planned h.legal hne h.ordinary

/-- A slice, an address it does not write, and one it reads; formats with chroma planes, without them, and with alpha. -/
theorem witness_ConvertSliceWritesOnlyItsWriteSet :
    (∃ t, exec .convertSlice (planned (kernelInputs 2) 0 2) = .next t)
      ∧ 0x2002 ∉ (planned (kernelInputs 2) 0 2).plan.writeSet (planned (kernelInputs 2) 0 2).operands
      ∧ 0x1001 ∈ (planned (kernelInputs 2) 0 2).plan.readSet (planned (kernelInputs 2) 0 2).operands
      ∧ ((supportedFormatWords.map fun w => (PixFmt.ofWord w).toWord) = supportedFormatWords)
      ∧ (∀ f : PixFmt, ∃ chroma : Fin 4 → Prop, ∀ p, chroma p ↔ f.rgb = false ∧ (p = 1 ∨ p = 2)) :=
  ⟨⟨_, defined_next kernel_defined (by decide +kernel)⟩, by decide +kernel, by decide +kernel, by decide +kernel,
    fun _ => ⟨_, fun _ => Iff.rfl⟩⟩

/-- 4:2:0 to 4:2:2 through the full pipeline, with dither. -/
def ditherInputs : PlanInputs := { inputs 0x00005008 0x00001008 2 2 1 2 with options := ⟨false, true, 0⟩ }

theorem dither_ok : (ditherInputs.buildPlan testParams 0).isOk = true := by decide +kernel

theorem dither_defined : (planned ditherInputs 0 2).SliceDefined where
  planned := rfl
  legal := by decide +kernel
  ordinary := by decide +kernel
  disjoint := by decide +kernel
  undisturbed := rfl

/-- Without dither, and with it. -/
theorem witness_ConvertSliceStoresEverySample :
    ((planned fullInputs 0 2).Inv ∧ (planned fullInputs 0 2).SliceDefined ∧ (∃ t, exec .convertSlice (planned fullInputs 0 2) = .next t)
        ∧ (2 : Fin 4) ∈ (planned fullInputs 0 2).plan.src.outFmt.planes)
      ∧ ((planned ditherInputs 0 2).Inv ∧ (planned ditherInputs 0 2).SliceDefined
        ∧ (∃ t, exec .convertSlice (planned ditherInputs 0 2) = .next t) ∧ (planned ditherInputs 0 2).plan.ditherNow = true
        ∧ (2 : Fin 4) ∈ (planned ditherInputs 0 2).plan.src.outFmt.planes) :=
  ⟨⟨planned_inv full_ok 0 2, full_defined, ⟨_, defined_next full_defined (by decide +kernel)⟩, by decide +kernel⟩,
    planned_inv dither_ok 0 2, dither_defined, ⟨_, defined_next dither_defined (by decide +kernel)⟩, by decide +kernel, by decide +kernel⟩

theorem witness_CopyPathIsByteIdentical :
    (planned copyInputs 0 2).Inv ∧ (planned copyInputs 0 2).SliceDefined ∧ (planned copyInputs 0 2).plan.path = .copy
      ∧ (∃ t, exec .convertSlice (planned copyInputs 0 2) = .next t) ∧ (3 : Fin 4) ∈ (planned copyInputs 0 2).plan.src.outFmt.planes
      ∧ (1, 1) ∈ (planned copyInputs 0 2).plan.src.outFmt.samples 2 0 2 3 :=
  ⟨planned_inv copy_ok 0 2, copy_defined, by decide +kernel, ⟨_, defined_next copy_defined (by decide +kernel)⟩, by decide +kernel,
    by decide +kernel⟩

theorem witness_AlphaIsCopied :
    (planned copyInputs 0 2).Inv ∧ (planned copyInputs 0 2).SliceDefined ∧ (planned copyInputs 0 2).plan.pipe ≠ .int
      ∧ (planned copyInputs 0 2).plan.src.outFmt.alpha = true ∧ (∃ t, exec .convertSlice (planned copyInputs 0 2) = .next t)
      ∧ 1 < (planned copyInputs 0 2).plan.src.frameW.toNat ∧ (planned copyInputs 0 2).operands.sliceH1.toNat ≤ 1
      ∧ 1 < (planned copyInputs 0 2).operands.sliceH2.toNat :=
  ⟨planned_inv copy_ok 0 2, copy_defined, by decide +kernel, by decide +kernel, ⟨_, defined_next copy_defined (by decide +kernel)⟩,
    by decide +kernel, by decide +kernel, by decide +kernel⟩

theorem witness_IntegerOutputsAreInRange :
    (planned fullInputs 0 2).Inv ∧ (planned fullInputs 0 2).SliceDefined ∧ (planned fullInputs 0 2).plan.pipe = .int
      ∧ (planned fullInputs 0 2).plan.path ≠ .copy ∧ (∃ t, exec .convertSlice (planned fullInputs 0 2) = .next t)
      ∧ (2 : Fin 4) ∈ (planned fullInputs 0 2).plan.src.outFmt.planes ∧ (1, 1) ∈ (planned fullInputs 0 2).plan.src.outFmt.samples 2 0 2 2 :=
  ⟨planned_inv full_ok 0 2, full_defined, by decide +kernel, by decide +kernel, ⟨_, defined_next full_defined (by decide +kernel)⟩,
    by decide +kernel, by decide +kernel⟩

/-- The kernel with 4:2:0 on both sides, so that both clauses have samples: luma (1, 1) and chroma (0, 0). -/
def chromaInputs : PlanInputs := inputs 0x00005008 0x00005008 2 2 1 2

theorem chroma_ok : (chromaInputs.buildPlan testParams 0).isOk = true := by decide +kernel

theorem chroma_defined : (planned chromaInputs 0 2).SliceDefined where
  planned := rfl
  legal := by decide +kernel
  ordinary := by decide +kernel
  disjoint := by decide +kernel
  undisturbed := rfl

theorem witness_ComposedKernelWritesEverySample :
    (planned chromaInputs 0 2).Inv ∧ (planned chromaInputs 0 2).SliceDefined ∧ (planned chromaInputs 0 2).plan.pipe = .int
      ∧ (planned chromaInputs 0 2).plan.flags.yuv2yuvFast = true ∧ (planned chromaInputs 0 2).plan.flags.yuv2yuvPt = false
      ∧ (∃ t, exec .convertSlice (planned chromaInputs 0 2) = .next t) ∧ 1 < (planned chromaInputs 0 2).plan.src.frameW.toNat
      ∧ (planned chromaInputs 0 2).operands.sliceH1.toNat ≤ 1 ∧ 1 < (planned chromaInputs 0 2).operands.sliceH2.toNat
      ∧ 0 < (planned chromaInputs 0 2).plan.src.frameW.toNat / 2 ^ chromaInputs.inFmt.cw
      ∧ 0 < (planned chromaInputs 0 2).operands.sliceH2.toNat / 2 ^ chromaInputs.inFmt.ch :=
  ⟨planned_inv chroma_ok 0 2, chroma_defined, by decide +kernel, by decide +kernel, by decide +kernel,
    ⟨_, defined_next chroma_defined (by decide +kernel)⟩, by decide +kernel, by decide +kernel, by decide +kernel, by decide +kernel,
    by decide +kernel⟩

/-- The states, without dither and with it, and the last luma and chroma samples of the frame; then the functions the hypotheses
define, for any state. -/
theorem witness_FullIntegerPipelineWritesEverySample :
    ((planned fullInputs 0 2).Inv ∧ (planned fullInputs 0 2).SliceDefined ∧ (planned fullInputs 0 2).plan.pipe = .int
        ∧ (planned fullInputs 0 2).plan.flags.yuv2yuvFast = false ∧ (planned fullInputs 0 2).plan.flags.dither = false
        ∧ (∃ t, exec .convertSlice (planned fullInputs 0 2) = .next t) ∧ 1 < (planned fullInputs 0 2).plan.src.frameW.toNat
        ∧ (planned fullInputs 0 2).operands.sliceH1.toNat ≤ 1 ∧ 1 < (planned fullInputs 0 2).operands.sliceH2.toNat)
      ∧ ((planned ditherInputs 0 2).Inv ∧ (planned ditherInputs 0 2).SliceDefined ∧ (planned ditherInputs 0 2).plan.pipe = .int
        ∧ (planned ditherInputs 0 2).plan.flags.yuv2yuvFast = false ∧ (planned ditherInputs 0 2).plan.flags.dither = true
        ∧ ∃ t, exec .convertSlice (planned ditherInputs 0 2) = .next t)
      ∧ ∀ (s : State) (f g : PixFmt) (r : Regs), ∃ (yuv px lin mapped rgb chroma : Nat → Nat → Nat → Int) (look : List Half → Int → Int)
          (sum : Fin 4 → Nat → Nat → Int) (off : Fin 4 → Int),
        (∀ x y, yuv 0 x y = (s.mem.read (r.inPlanes.q0.addr f.bps x y) f.bps : Int) - s.plan.yuvOffsetIn.toNat
          ∧ yuv 1 x y = (s.mem.read (r.inPlanes.q1.addr f.bps (x / 2 ^ f.cw) (y / 2 ^ f.ch)) f.bps : Int) - 2 ^ (f.d - 1)
          ∧ yuv 2 x y = (s.mem.read (r.inPlanes.q2.addr f.bps (x / 2 ^ f.cw) (y / 2 ^ f.ch)) f.bps : Int) - 2 ^ (f.d - 1))
        ∧ (∀ n x y, px n x y = max (-32768) (min 32767
          ((((s.plan.yuv2rgb.get n).get 0).toInt * yuv 0 x y + ((s.plan.yuv2rgb.get n).get 1).toInt * yuv 1 x y
            + ((s.plan.yuv2rgb.get n).get 2).toInt * yuv 2 x y + 2 ^ (f.d - 2)) / 2 ^ (f.d - 1))))
        ∧ (∀ table v, look table v = (lutEntry table (max 0 (min 32767 (2048 + v))).toNat).toInt)
        ∧ (∀ n x y, lin n x y = look s.plan.linLut (px n x y))
        ∧ (∀ n x y, mapped n x y = if s.plan.flags.lrgb2lrgbPt = true then lin n x y
          else max (-32768) (min 32767
            ((((s.plan.lrgb2lrgb.get n).get 0).toInt * lin 0 x y + ((s.plan.lrgb2lrgb.get n).get 1).toInt * lin 1 x y
              + ((s.plan.lrgb2lrgb.get n).get 2).toInt * lin 2 x y + 8192) / 2 ^ 14)))
        ∧ (∀ n x y, rgb n x y = if s.plan.flags.rgb2rgbPt = true then px n x y else look s.plan.delinLut (mapped n x y))
        ∧ (∀ n x y, chroma n x y =
          if g.cw = 0 then rgb n x y
          else if s.params.chromaDown = .nearest then rgb n (x * 2 ^ g.cw) (y * 2 ^ g.ch)
          else if g.ch = 0 then (rgb n (2 * x) y + rgb n (2 * x + 1) y + 1) / 2
          else (rgb n (2 * x) (2 * y) + rgb n (2 * x + 1) (2 * y) + rgb n (2 * x) (2 * y + 1) + rgb n (2 * x + 1) (2 * y + 1) + 2) / 4)
        ∧ (∀ p x y, sum p x y = if p = 0 then
            ((s.plan.rgb2yuv.get 0).get 0).toInt * rgb 0 x y + ((s.plan.rgb2yuv.get 0).get 1).toInt * rgb 1 x y
              + ((s.plan.rgb2yuv.get 0).get 2).toInt * rgb 2 x y
          else ((s.plan.rgb2yuv.get p).get 0).toInt * chroma 0 x y + ((s.plan.rgb2yuv.get p).get 1).toInt * chroma 1 x y
              + ((s.plan.rgb2yuv.get p).get 2).toInt * chroma 2 x y)
        ∧ ∀ p, off p = if p = 0 then (s.plan.yuvOffsetOut.toNat : Int) else 2 ^ (g.d - 1) := by
  refine ⟨⟨planned_inv full_ok 0 2, full_defined, by decide +kernel, by decide +kernel, by decide +kernel,
      ⟨_, defined_next full_defined (by decide +kernel)⟩, by decide +kernel, by decide +kernel, by decide +kernel⟩,
    ⟨planned_inv dither_ok 0 2, dither_defined, by decide +kernel, by decide +kernel, by decide +kernel,
      ⟨_, defined_next dither_defined (by decide +kernel)⟩⟩, fun s f g r => ?_⟩
  exact ⟨fun n x y => match n with
      | 0 => (s.mem.read (r.inPlanes.q0.addr f.bps x y) f.bps : Int) - s.plan.yuvOffsetIn.toNat
      | 1 => (s.mem.read (r.inPlanes.q1.addr f.bps (x / 2 ^ f.cw) (y / 2 ^ f.ch)) f.bps : Int) - 2 ^ (f.d - 1)
      | _ => (s.mem.read (r.inPlanes.q2.addr f.bps (x / 2 ^ f.cw) (y / 2 ^ f.ch)) f.bps : Int) - 2 ^ (f.d - 1),
    _, _, _, _, _, _, _, _, by
      refine ⟨fun _ _ => ⟨rfl, rfl, rfl⟩, ?_⟩
      and_intros <;> intros <;> exact rfl⟩

/-- A linear transfer on the IN side, the primaries equal: delinearise only. -/
def delinInputs (fmt : Word) : PlanInputs :=
  { inputs fmt fmt 2 2 0 0 with inBlk := { blk709 0 with transfer := ⟨0x3FF0000000000000, 0, 0x3FF0000000000000, 0x3FF0000000000000⟩ } }

theorem delin16_ok : ((delinInputs 0x310).buildPlan testParams 0).isOk = true := by decide +kernel
theorem delin32_ok : ((delinInputs 0x320).buildPlan testParams 0).isOk = true := by decide +kernel

/-- The conditions of the float paths on a plan of the pipe given. -/
def FloatPathState (p : PlanInputs) (pipe : Pipe) : Prop :=
  (planned p 0 2).Inv ∧ (planned p 0 2).SliceDefined ∧ (planned p 0 2).plan.flags.rgb2rgbPt = false
    ∧ (planned p 0 2).plan.pipe = pipe ∧ (∃ t, exec .convertSlice (planned p 0 2) = .next t)
    ∧ 1 < (planned p 0 2).plan.src.frameW.toNat ∧ (planned p 0 2).operands.sliceH1.toNat ≤ 1
    ∧ 1 < (planned p 0 2).operands.sliceH2.toNat

/-- Both paths of both pipes; and the functions the hypotheses define, for any state. -/
theorem witness_FloatPathsWriteEverySample :
    FloatPathState halfInputs .half ∧ FloatPathState (delinInputs 0x310) .half ∧ FloatPathState primaryInputs .f32
      ∧ FloatPathState (delinInputs 0x320) .f32
      ∧ (∃ mul32 : V3 Word → V3 Fl → Fl, ∀ row u, mul32 row u
          = Fl.add b32 (Fl.add b32 (Fl.mul b32 (Fl.of32 row.c0) u.c0) (Fl.mul b32 (Fl.of32 row.c1) u.c1)) (Fl.mul b32 (Fl.of32 row.c2) u.c2))
      ∧ (∀ (s : State) (f : PixFmt) (r : Regs), ∃ into : Fin 4 → Nat → Nat → Nat,
          ∀ p x y, into p x y = s.mem.read ((r.inPlanes.get p).addr f.bps x y) f.bps) := by
  have all : ∀ p pipe, (p.buildPlan testParams 0).isOk = true → (planned p 0 2).plan.badSlice (planned p 0 2).operands = false →
      (planned p 0 2).plan.touchesSideEffects (planned p 0 2).params (planned p 0 2).operands = false →
      (planned p 0 2).plan.setsDisjoint (planned p 0 2).operands = true → (planned p 0 2).plan.flags.rgb2rgbPt = false →
      (planned p 0 2).plan.pipe = pipe → 1 < (planned p 0 2).plan.src.frameW.toNat → FloatPathState p pipe := by
    intro p pipe h1 h2 h3 h4 h5 h6 h7
    exact ⟨planned_inv h1 0 2, ⟨rfl, h2, h3, h4, rfl⟩, h5, h6, ⟨_, convert_next rfl h2 (show (0 : Nat) ≠ 2 by decide) h3⟩, h7,
      by show (0 : Nat) ≤ 1; decide, by show (1 : Nat) < 2; decide⟩
  refine ⟨all _ _ half_ok ?_ ?_ ?_ ?_ ?_ ?_, all _ _ delin16_ok ?_ ?_ ?_ ?_ ?_ ?_, all _ _ primary_ok ?_ ?_ ?_ ?_ ?_ ?_,
    all _ _ delin32_ok ?_ ?_ ?_ ?_ ?_ ?_, ⟨_, fun _ _ => rfl⟩, fun _ _ _ => ⟨_, fun _ _ _ => rfl⟩⟩
  all_goals decide +kernel

/-- sh = 29 − 8 with fresh error rows at the first and the last column of a row of four, the least sh; a row with its result. -/
theorem witness_DitherDiffusesTheError :
    (1 ≤ 21 ∧ 0 + 2 < (ErrRow.init 4 (2 ^ 20)).length ∧ 3 + 2 < (ErrRow.init 4 (2 ^ 20)).length
      ∧ (⟨ErrRow.init 4 (2 ^ 20), ErrRow.init 4 (2 ^ 20)⟩ : FsbRows).cur.at (0 + 1) = 2 ^ (21 - 1)
      ∧ 1 ≤ 1 ∧ (⟨ErrRow.init 4 1, ErrRow.init 4 1⟩ : FsbRows).cur.at (3 + 1) = 2 ^ (1 - 1))
      ∧ (∃ out e', fsbPixel 8 16 21 229634034 3 ⟨ErrRow.init 4 (2 ^ 20), ErrRow.init 4 (2 ^ 20)⟩ = (out, e'))
      ∧ ∃ out e', fsbRow 8 16 21 ⟨ErrRow.init 4 (2 ^ 20), ErrRow.init 4 (2 ^ 20)⟩ 0 [229634034, 230161471] = (out, e') :=
  ⟨by decide +kernel, ⟨_, _, rfl⟩, _, _, rfl⟩

/-! The whole machine. -/

theorem witness_SampleAddressesAndBytes :
    ((supportedFormatWords.map fun w => (PixFmt.ofWord w).toWord) = supportedFormatWords)
      ∧ Memory.wf [(4, 7), (9, 1)] = true ∧ (4 : Nat) ≤ 2 ^ 32 ∧ (3 : Nat) < 4 := by decide +kernel

/-- The composed kernel, running, and the host at a byte of its write set, of its read set alone, outside both, and on a device. -/
theorem witness_HostFrameMemoryAccesses :
    ((planned (kernelInputs 2) 0 2).accept 2).mem.wf = true
      ∧ ((planned (kernelInputs 2) 0 2).accept 2).seq = .busy 0x00000002 (testRegs (kernelInputs 2) 0 2)
      ∧ ((planned (kernelInputs 2) 0 2).accept 2).planValid = true
      ∧ (builtPlan (kernelInputs 2)).badSlice (testRegs (kernelInputs 2) 0 2) = false
      ∧ 0x2001 ∈ (builtPlan (kernelInputs 2)).writeSet (testRegs (kernelInputs 2) 0 2)
      ∧ (0x1001 ∈ (builtPlan (kernelInputs 2)).readSet (testRegs (kernelInputs 2) 0 2)
        ∧ 0x1001 ∉ (builtPlan (kernelInputs 2)).writeSet (testRegs (kernelInputs 2) 0 2))
      ∧ (0x2002 ∉ (builtPlan (kernelInputs 2)).readSet (testRegs (kernelInputs 2) 0 2)
        ∧ 0x2002 ∉ (builtPlan (kernelInputs 2)).writeSet (testRegs (kernelInputs 2) 0 2))
      ∧ (∀ a ∈ ([0x1001, 0x2001, 0x2002] : List Nat), testParams.sideEffect a = false)
      ∧ (∃ g ∈ testParams.sideEffects, g.base ≤ 0xE0000000 ∧ 0xE0000000 < g.base + g.size) := by
  refine ⟨rfl, rfl, rfl, ?_⟩
  decide +kernel

theorem witness_CommandFrames :
    (∃ t, exec .nop State.reset = .next t) ∧ (∃ t, exec .plan State.reset = .next t) ∧ (∃ t, exec .invalidate State.reset = .next t)
      ∧ (∃ t, exec .convertSlice (planned (kernelInputs 2) 0 2) = .next t) ∧ (∃ t, exec (.tfEvalD .input) State.reset = .next t)
      ∧ (∃ t, exec (.tfEvalL .output) State.reset = .next t) :=
  ⟨⟨_, rfl⟩, ⟨_, rfl⟩, ⟨_, rfl⟩, ⟨_, defined_next kernel_defined (by decide +kernel)⟩, ⟨_, rfl⟩, ⟨_, rfl⟩⟩

theorem witness_OperandsAreThoseOfAcceptance :
    (State.withMoves (tfState 1) [.host (.regWrite 0x008 4 0x10)]).seq = .idle
      ∧ (∃ u, step (State.withMoves (tfState 1) [.host (.regWrite 0x008 4 0x10)]) = .next u)
      ∧ ((tfState 1).accept 0x10).seq = .busy 0x10 (tfState 1).regs ∧ ∃ t, exec (.tfEvalD .input) ((tfState 1).accept 0x10) = .next t :=
  ⟨rfl, ⟨_, rfl⟩, rfl, ⟨_, rfl⟩⟩

theorem witness_EveryCommandCompletes :
    (planned (kernelInputs 2) 0 2).plan.touchesSideEffects (planned (kernelInputs 2) 0 2).params (planned (kernelInputs 2) 0 2).operands
      = false := by decide +kernel

/-- A running CONVERT_SLICE, and a byte outside its write set. -/
theorem witness_ResetInputAbandonsTheCommand :
    (State.withMoves ((planned (kernelInputs 2) 0 2).accept 2) [.host .reset]).agenda = .host .reset :: []
      ∧ (State.withMoves ((planned (kernelInputs 2) 0 2).accept 2) [.host .reset]).seq = .busy 0x00000002 (testRegs (kernelInputs 2) 0 2)
      ∧ 0x2002 ∉ (planned (kernelInputs 2) 0 2).plan.writeSet (testRegs (kernelInputs 2) 0 2) := ⟨rfl, rfl, by decide +kernel⟩

theorem witness_EveryStepKeepsTheInvariant :
    (planned (kernelInputs 2) 0 2).Inv ∧ ∃ t, step (planned (kernelInputs 2) 0 2) = .next t :=
  ⟨planned_inv kernel_ok 0 2, ⟨_, rfl⟩⟩

theorem kernel4_defined : (planned (kernelInputs 4) 0 4).SliceDefined where
  planned := rfl
  legal := by decide +kernel
  ordinary := by decide +kernel
  disjoint := by decide +kernel
  undisturbed := rfl

/-- A slice after another one. -/
theorem convert_next_after {s : State} (r : Regs) (h1 : s.planValid = true) (h2 : s.plan.badSlice r = false) (h3 : r.h1 ≠ r.h2)
    (h4 : s.plan.touchesSideEffects s.params r = false) :
    ∃ t, exec .convertSlice { s.writeSlice.finish.bumpDraws with regs := r } = .next t := ⟨_, convert_next h1 h2 h3 h4⟩

/-- Rows [0, 4) as one slice, and as [0, 2) and [2, 4). -/
theorem witness_SlicesAreIndependentWithoutDither :
    (planned (kernelInputs 4) 0 4).Inv ∧ (planned (kernelInputs 4) 0 4).seq = .idle ∧ (planned (kernelInputs 4) 0 4).SliceDefined
      ∧ (planned (kernelInputs 4) 0 4).plan.path ∈ [Path.copy, Path.yuv2yuv, Path.intFull, Path.halfDelin]
      ∧ (planned (kernelInputs 4) 0 4).plan.flags.dither = false
      ∧ (planned (kernelInputs 4) 0 4).regs.sliceH1.toNat < (2 : BitVec 16).toNat
      ∧ (2 : BitVec 16).toNat < (planned (kernelInputs 4) 0 4).regs.sliceH2.toNat ∧ (2 : BitVec 16).toNat % 2 = 0
      ∧ (∃ t1, exec .convertSlice (planned (kernelInputs 4) 0 2) = .next t1
        ∧ ∃ t2, exec .convertSlice { t1 with regs := testRegs (kernelInputs 4) 2 4 } = .next t2)
      ∧ ∃ t, exec .convertSlice (planned (kernelInputs 4) 0 4) = .next t :=
  ⟨planned_inv kernel4_ok 0 4, rfl, kernel4_defined, by decide +kernel, by decide +kernel, by decide +kernel, by decide +kernel,
    by decide,
    ⟨_, convert_next (s := planned (kernelInputs 4) 0 2) rfl (by decide +kernel) (by decide +kernel) (by decide +kernel),
      convert_next_after (s := planned (kernelInputs 4) 0 2) (testRegs (kernelInputs 4) 2 4) rfl (by decide +kernel) (by decide +kernel)
        (by decide +kernel)⟩,
    ⟨_, defined_next kernel4_defined (by decide +kernel)⟩⟩

end Sys2Proof.Tests
end

