-- ==== Sys2Proof/Proofs/RegisterWords.lean ====
section
/-! SUPPORT. The register file as its words: each read-write register shows one field of the state (10_state.md R22, R27 to R37),
the fields are rebuilt from the words, and a write while IDLE replaces one word. So what a write leaves unchanged is said once,
for all pairs of registers together. -/

namespace Sys2Proof.Machine

/-! ### Fields of a word -/

theorem wordBit_eq_getLsbD (w : Word) (i : Nat) : wordBit w i = w.getLsbD i := by
  unfold wordBit BitVec.getLsbD
  rw [Nat.testBit_eq_decide_div_mod_eq]
  rfl

theorem bit_wordBit (w : Word) (i : Nat) : bit (wordBit w i) = w.toNat / 2 ^ i % 2 := by
  unfold bit wordBit
  rcases Nat.mod_two_eq_zero_or_one (w.toNat / 2 ^ i) with h | h <;> simp [h]

theorem wordBit_of_bit {w : Word} {i : Nat} {b : Bool} (h : w.toNat / 2 ^ i % 2 = bit b) : wordBit w i = b := by
  unfold wordBit
  rw [h]
  cases b <;> rfl

theorem bit_le_one (b : Bool) : bit b ≤ 1 := by cases b <;> decide

theorem toNat_and_lowMask (w : Word) {k : Nat} (h : k ≤ 32) : (w &&& BitVec.ofNat 32 (2 ^ k - 1)).toNat = w.toNat % 2 ^ k := by
  have hk : 2 ^ k - 1 < 2 ^ 32 := lt_of_lt_of_le (Nat.sub_lt (by positivity) one_pos) (Nat.pow_le_pow_right (by decide) h)
  rw [BitVec.toNat_and, BitVec.toNat_ofNat, Nat.mod_eq_of_lt hk, Nat.and_two_pow_sub_one_eq_mod]

/-- A field of the low `k` bits reads back as its word with the other bits 0. -/
theorem setWidth_setWidth_eq_and (w : Word) {k : Nat} (h : k ≤ 32) :
    (w.setWidth k).setWidth 32 = w &&& BitVec.ofNat 32 (2 ^ k - 1) := by
  apply BitVec.eq_of_toNat_eq
  have hk : 2 ^ k ≤ 2 ^ 32 := Nat.pow_le_pow_right (by decide) h
  have hlt : w.toNat % 2 ^ k < 2 ^ k := Nat.mod_lt _ (by positivity)
  rw [toNat_and_lowMask w h, BitVec.toNat_setWidth, BitVec.toNat_setWidth, Nat.mod_eq_of_lt (hlt.trans_le hk)]

theorem and_allOnes_word (w : Word) : w &&& 0xFFFFFFFF = w := BitVec.and_allOnes

theorem setWidth_of_setWidth_word {n : Nat} (h : n ≤ 32) (v : BitVec n) : (v.setWidth 32).setWidth n = v := by
  rw [BitVec.setWidth_setWidth_of_le _ h, BitVec.setWidth_eq]

theorem extractLsb_low (w : Word) (n : Nat) : w.extractLsb n 0 = w.setWidth (n + 1) := by
  apply BitVec.eq_of_toNat_eq
  simp

/-! ### The halves of a pair (R13, R100) -/

theorem toNat_append_words (hi lo : Word) : (hi ++ lo).toNat = 2 ^ 32 * hi.toNat + lo.toNat := by
  rw [BitVec.toNat_append, ← Nat.shiftLeft_add_eq_or_of_lt lo.isLt, Nat.shiftLeft_eq, Nat.mul_comm]

theorem loWord_toNat (v : DWord) : (loWord v).toNat = v.toNat % 2 ^ 32 := BitVec.toNat_setWidth ..

theorem hiWord_toNat (v : DWord) : (hiWord v).toNat = v.toNat / 2 ^ 32 := by
  unfold hiWord
  rw [BitVec.toNat_setWidth, BitVec.toNat_ushiftRight, Nat.shiftRight_eq_div_pow]
  have hv := v.isLt
  omega

theorem loWord_append (hi lo : Word) : loWord (hi ++ lo) = lo := by
  apply BitVec.eq_of_toNat_eq
  rw [loWord_toNat, toNat_append_words, Nat.mul_add_mod, Nat.mod_eq_of_lt lo.isLt]

theorem hiWord_append (hi lo : Word) : hiWord (hi ++ lo) = hi := by
  apply BitVec.eq_of_toNat_eq
  rw [hiWord_toNat, toNat_append_words, Nat.mul_add_div (by decide), Nat.div_eq_of_lt lo.isLt, Nat.add_zero]

theorem hiWord_append_loWord (v : DWord) : hiWord v ++ loWord v = v := by
  apply BitVec.eq_of_toNat_eq
  rw [toNat_append_words, hiWord_toNat, loWord_toNat, Nat.div_add_mod]

theorem setLo_append (hi lo w : Word) : setLo (hi ++ lo) w = hi ++ w := congrArg (· ++ w) (hiWord_append hi lo)

theorem setHi_append (hi lo w : Word) : setHi (hi ++ lo) w = w ++ lo := congrArg (w ++ ·) (loWord_append hi lo)

/-! ### OPTIONS and the format descriptors -/

theorem Options.ofWord_eq (w : Word) : Options.ofWord w = ⟨w.getLsbD 0, w.getLsbD 1, w.extractLsb 3 2⟩ := by
  unfold Options.ofWord
  rw [wordBit_eq_getLsbD, wordBit_eq_getLsbD]
  congr 1
  apply BitVec.eq_of_toNat_eq
  rw [BitVec.extractLsb_toNat, BitVec.toNat_ofNat, Nat.shiftRight_eq_div_pow]

theorem Options.toWord_ofWord (w : Word) : (Options.ofWord w).toWord = w &&& 0x0000000F := by
  apply BitVec.eq_of_toNat_eq
  rw [show (0x0000000F : Word) = BitVec.ofNat 32 (2 ^ 4 - 1) from rfl, toNat_and_lowMask w (by decide)]
  simp only [Options.toWord, Options.ofWord, bit_wordBit, BitVec.toNat_ofNat]
  omega

theorem Options.toWord_toNat (o : Options) : o.toWord.toNat = bit o.fast + 2 * bit o.dither + 4 * o.wpAdapt.toNat := by
  have hf := bit_le_one o.fast
  have hd := bit_le_one o.dither
  have hw := o.wpAdapt.isLt
  unfold Options.toWord
  rw [BitVec.toNat_ofNat, Nat.mod_eq_of_lt (by omega)]

theorem Options.ofWord_toWord (o : Options) : Options.ofWord o.toWord = o := by
  have hf := bit_le_one o.fast
  have hd := bit_le_one o.dither
  have hw := o.wpAdapt.isLt
  have hfast : wordBit o.toWord 0 = o.fast := wordBit_of_bit (by rw [Options.toWord_toNat]; omega)
  have hdither : wordBit o.toWord 1 = o.dither := wordBit_of_bit (by rw [Options.toWord_toNat]; omega)
  have hwp : BitVec.ofNat 2 (o.toWord.toNat / 4) = o.wpAdapt := by
    apply BitVec.eq_of_toNat_eq
    rw [BitVec.toNat_ofNat, Options.toWord_toNat]
    omega
  simp only [Options.ofWord, hfast, hdither, hwp]

theorem PixFmt.ofWord_eq (w : Word) :
    PixFmt.ofWord w = { depth := w.extractLsb 5 0, rgb := w.getLsbD 8, float := w.getLsbD 9, alpha := w.getLsbD 10
                        log2cw := w.extractLsb 13 12, log2ch := w.extractLsb 15 14 } := by
  unfold PixFmt.ofWord
  rw [wordBit_eq_getLsbD, wordBit_eq_getLsbD, wordBit_eq_getLsbD]
  congr 1 <;> apply BitVec.eq_of_toNat_eq <;> rw [BitVec.extractLsb_toNat, BitVec.toNat_ofNat, Nat.shiftRight_eq_div_pow]


theorem PixFmt.toWord_toNat (f : PixFmt) :
    f.toWord.toNat = f.depth.toNat + 256 * bit f.rgb + 512 * bit f.float + 1024 * bit f.alpha + 2 ^ 12 * f.log2cw.toNat
      + 2 ^ 14 * f.log2ch.toNat := by
  have hd := f.depth.isLt
  have hr := bit_le_one f.rgb
  have hf := bit_le_one f.float
  have ha := bit_le_one f.alpha
  have hw := f.log2cw.isLt
  have hh := f.log2ch.isLt
  unfold PixFmt.toWord
  rw [BitVec.toNat_ofNat, Nat.mod_eq_of_lt (by omega)]

theorem PixFmt.ofWord_toWord (f : PixFmt) : PixFmt.ofWord f.toWord = f := by
  have hd := f.depth.isLt
  have hr := bit_le_one f.rgb
  have hf := bit_le_one f.float
  have ha := bit_le_one f.alpha
  have hw := f.log2cw.isLt
  have hh := f.log2ch.isLt
  have hrgb : wordBit f.toWord 8 = f.rgb := wordBit_of_bit (by rw [PixFmt.toWord_toNat]; omega)
  have hfloat : wordBit f.toWord 9 = f.float := wordBit_of_bit (by rw [PixFmt.toWord_toNat]; omega)
  have halpha : wordBit f.toWord 10 = f.alpha := wordBit_of_bit (by rw [PixFmt.toWord_toNat]; omega)
  have hdepth : BitVec.ofNat 6 f.toWord.toNat = f.depth := by
    apply BitVec.eq_of_toNat_eq
    rw [BitVec.toNat_ofNat, PixFmt.toWord_toNat]
    omega
  have hcw : BitVec.ofNat 2 (f.toWord.toNat / 2 ^ 12) = f.log2cw := by
    apply BitVec.eq_of_toNat_eq
    rw [BitVec.toNat_ofNat, PixFmt.toWord_toNat]
    omega
  have hch : BitVec.ofNat 2 (f.toWord.toNat / 2 ^ 14) = f.log2ch := by
    apply BitVec.eq_of_toNat_eq
    rw [BitVec.toNat_ofNat, PixFmt.toWord_toNat]
    omega
  simp only [PixFmt.ofWord, hrgb, hfloat, halpha, hdepth, hcw, hch]

/-- The mask of the defined bits [15:12], [10:8] and [5:0] of R96, as the sum of its fields. -/
theorem toNat_and_fmtMask (w : Word) :
    (w &&& 0x0000F73F).toNat = w.toNat % 2 ^ 6 + 2 ^ 8 * (w.toNat / 2 ^ 8 % 2 ^ 3) + 2 ^ 12 * (w.toNat / 2 ^ 12 % 2 ^ 4) := by
  rw [BitVec.toNat_and, show (0x0000F73F : Word).toNat = 0xF73F from rfl]
  generalize w.toNat = n
  have low : (n &&& 0xF73F) % 2 ^ 8 = n % 2 ^ 6 := by
    rw [Nat.and_mod_two_pow, show 0xF73F % 2 ^ 8 = 2 ^ 6 - 1 from rfl, Nat.and_two_pow_sub_one_eq_mod]
    omega
  have middle : (n &&& 0xF73F) / 2 ^ 8 % 2 ^ 4 = n / 2 ^ 8 % 2 ^ 3 := by
    rw [Nat.and_div_two_pow, Nat.and_mod_two_pow, show 0xF73F / 2 ^ 8 % 2 ^ 4 = 2 ^ 3 - 1 from rfl, Nat.and_two_pow_sub_one_eq_mod]
    omega
  have high : (n &&& 0xF73F) / 2 ^ 12 = n / 2 ^ 12 % 2 ^ 4 := by
    rw [Nat.and_div_two_pow, show 0xF73F / 2 ^ 12 = 2 ^ 4 - 1 from rfl, Nat.and_two_pow_sub_one_eq_mod]
  omega

theorem PixFmt.toWord_ofWord (w : Word) : (PixFmt.ofWord w).toWord = w &&& 0x0000F73F := by
  apply BitVec.eq_of_toNat_eq
  rw [PixFmt.toWord_toNat, toNat_and_fmtMask]
  simp only [PixFmt.ofWord, bit_wordBit, BitVec.toNat_ofNat]
  omega

/-! ### A descriptor block and its words (R35 to R37) -/

/-- The block whose words are given by word offset. -/
def Blk.ofWords (word : Nat → Word) : Blk :=
  { range := (word 0).setWidth 2
    valid := (word 1).setWidth 3
    prims := { xr := ⟨word 2, word 3⟩, yr := ⟨word 4, word 5⟩, xg := ⟨word 6, word 7⟩, yg := ⟨word 8, word 9⟩
               xb := ⟨word 10, word 11⟩, yb := ⟨word 12, word 13⟩
               white := { xw := ⟨word 14, word 15⟩, yw := ⟨word 16, word 17⟩ } }
    luma := { kr := ⟨word 18, word 19⟩, kb := ⟨word 20, word 21⟩ }
    transfer := { alpha := word 23 ++ word 22, beta := word 25 ++ word 24, gamma := word 27 ++ word 26
                  delta := word 29 ++ word 28 } }

/-- The word a block shows at a word offset, 0 at a reserved one. -/
def Blk.word (b : Blk) (k : Nat) : Word := (b.readWord k).getD 0

/-- The bits that the word at word offset `k` of a block holds. -/
def Blk.mask (k : Nat) : Word := if k = 0 then 0x00000003 else if k = 1 then 0x00000007 else 0xFFFFFFFF

theorem Blk.readWord_of_le (b : Blk) {k : Nat} (h : 30 ≤ k) : b.readWord k = none := by
  obtain ⟨j, rfl⟩ := Nat.exists_eq_add_of_le' h
  rfl

theorem Blk.readWord_ofWords (word : Nat → Word) {k : Nat} (h : k < 30) :
    (Blk.ofWords word).readWord k = some (word k &&& Blk.mask k) := by
  have range : ((word 0).setWidth 2).setWidth 32 = word 0 &&& 0x00000003 := setWidth_setWidth_eq_and _ (by decide)
  have valid : ((word 1).setWidth 3).setWidth 32 = word 1 &&& 0x00000007 := setWidth_setWidth_eq_and _ (by decide)
  rcases Nat.lt_or_ge k 2 with low | high
  · interval_cases k
    · exact congrArg some range
    · exact congrArg some valid
  · have mask : word k &&& Blk.mask k = word k := by
      rw [Blk.mask, if_neg (by omega), if_neg (by omega), and_allOnes_word]
    rw [mask]
    interval_cases k <;> simp only [Blk.readWord, Blk.ofWords, loWord_append, hiWord_append]

theorem Blk.readWord_isNone (b : Blk) {k : Nat} (h : k < 30) : (b.readWord k).isNone = false := by
  interval_cases k <;> rfl

theorem Blk.ofWords_word (b : Blk) : Blk.ofWords b.word = b := by
  have range : (b.range.setWidth 32).setWidth 2 = b.range := setWidth_of_setWidth_word (by decide) _
  have valid : (b.valid.setWidth 32).setWidth 3 = b.valid := setWidth_of_setWidth_word (by decide) _
  simp [Blk.ofWords, Blk.word, Blk.readWord, range, valid, hiWord_append_loWord]

/-- A block write replaces one word. -/
theorem Blk.writeWord_ofWords (word : Nat → Word) {k : Nat} (w : Word) (h : k < 30) :
    (Blk.ofWords word).writeWord k w = Blk.ofWords (Function.update word k w) := by
  rcases Nat.lt_or_ge k 22 with low | high
  · interval_cases k <;> rfl
  · interval_cases k <;> simp only [Blk.writeWord, Blk.setTransfer, Blk.ofWords, setLo_append, setHi_append] <;> rfl

/-! ### The operand registers and their words (R22) -/

/-- The read-write registers but STATUS and IRQ_EN: the operand registers of the commands, and LUT_INDEX. -/
def Reg.stored : Reg → Bool
  | .options | .frameW | .frameH | .inFmt | .outFmt | .sliceH1 | .sliceH2 | .tfArgLo | .tfArgHi | .lutIndex => true
  | .base _ _ | .stride _ _ => true
  | .block _ k => decide (k < 30)
  | _ => false

/-- The bits that a stored register holds; the rest are RAZ/WI. -/
def Reg.mask : Reg → Word
  | .options => 0x0000000F
  | .frameW | .frameH | .sliceH1 | .sliceH2 | .lutIndex => 0x0000FFFF
  | .inFmt | .outFmt => 0x0000F73F
  | .block _ k => Blk.mask k
  | _ => 0xFFFFFFFF

/-- The registers that show STATUS or the plan, whose value a write to another register can change. -/
def Reg.showsPlan : Reg → Bool
  | .status | .lutData | .planInfo | .coef _ => true
  | _ => false

/-- The planes of one side from their words. -/
def planesOfWords (word : Reg → Word) (side : Side) : Quad PlaneReg :=
  ⟨⟨word (.base side 0), word (.stride side 0)⟩, ⟨word (.base side 1), word (.stride side 1)⟩,
   ⟨word (.base side 2), word (.stride side 2)⟩, ⟨word (.base side 3), word (.stride side 3)⟩⟩

/-- The operand registers with the given words. -/
def Regs.ofWords (word : Reg → Word) : Regs :=
  { inputs := { options := .ofWord (word .options), frameW := (word .frameW).setWidth 16, frameH := (word .frameH).setWidth 16
                inFmt := .ofWord (word .inFmt), outFmt := .ofWord (word .outFmt)
                inBlk := .ofWords fun k => word (.block .input k), outBlk := .ofWords fun k => word (.block .output k) }
    sliceH1 := (word .sliceH1).setWidth 16, sliceH2 := (word .sliceH2).setWidth 16
    tfArg := word .tfArgHi ++ word .tfArgLo
    inPlanes := planesOfWords word .input, outPlanes := planesOfWords word .output }

/-- The state whose stored registers have the given words. -/
def State.withWords (s : State) (word : Reg → Word) : State :=
  { s with regs := .ofWords word, lutIndex := (word .lutIndex).setWidth 16 }

theorem planesOfWords_get (word : Reg → Word) (side : Side) (p : Fin 4) :
    (planesOfWords word side).get p = ⟨word (.base side p), word (.stride side p)⟩ := by
  fin_cases p <;> rfl

theorem planesOfWords_readReg (s : State) (side : Side) : planesOfWords s.readReg side = s.regs.planes side := rfl

theorem blockWords_update (word : Reg → Word) (side : Side) (k : Nat) (w : Word) :
    (fun j => Function.update word (.block side k) w (.block side j)) = Function.update (fun j => word (.block side j)) k w :=
  Function.update_comp_eq_of_injective word (f := Reg.block side) (fun _ _ h => by injection h) k w

theorem Regs.ofWords_readReg (s : State) : Regs.ofWords s.readReg = s.regs := by
  have sixteen : ∀ v : BitVec 16, (v.setWidth 32).setWidth 16 = v := setWidth_of_setWidth_word (by decide)
  have inBlk : (Blk.ofWords fun k => s.readReg (.block .input k)) = s.regs.inputs.inBlk := Blk.ofWords_word _
  have outBlk : (Blk.ofWords fun k => s.readReg (.block .output k)) = s.regs.inputs.outBlk := Blk.ofWords_word _
  rw [Regs.ofWords, inBlk, outBlk]
  simp only [planesOfWords_readReg, State.readReg, Options.ofWord_toWord, PixFmt.ofWord_toWord, sixteen,
    hiWord_append_loWord, Regs.planes]

/-- A state is rebuilt from the words of its registers. -/
theorem State.withWords_readReg (s : State) : s.withWords s.readReg = s := by
  have lutIndex : (s.readReg .lutIndex).setWidth 16 = s.lutIndex := setWidth_of_setWidth_word (by decide) _
  rw [State.withWords, Regs.ofWords_readReg, lutIndex]

/-- A stored register shows its word with the reserved bits 0. -/
theorem State.readReg_withWords (s : State) (word : Reg → Word) {r : Reg} (h : r.stored = true) :
    (s.withWords word).readReg r = word r &&& r.mask := by
  have sixteen : ∀ v : Word, (v.setWidth 16).setWidth 32 = v &&& 0x0000FFFF := fun v => setWidth_setWidth_eq_and v (by decide)
  cases r with
  | options => exact Options.toWord_ofWord _
  | frameW | frameH | sliceH1 | sliceH2 | lutIndex => exact sixteen _
  | inFmt | outFmt => exact PixFmt.toWord_ofWord _
  | tfArgLo => exact (loWord_append _ _).trans (and_allOnes_word _).symm
  | tfArgHi => exact (hiWord_append _ _).trans (and_allOnes_word _).symm
  | base side p =>
    cases side <;> exact (congrArg PlaneReg.base (planesOfWords_get word _ p)).trans (and_allOnes_word _).symm
  | stride side p =>
    cases side <;> exact (congrArg PlaneReg.stride (planesOfWords_get word _ p)).trans (and_allOnes_word _).symm
  | block side k =>
    have hk : k < 30 := of_decide_eq_true h
    cases side
    · exact congrArg (Option.getD · 0) (Blk.readWord_ofWords (fun k => word (.block .input k)) hk)
    · exact congrArg (Option.getD · 0) (Blk.readWord_ofWords (fun k => word (.block .output k)) hk)
  | id | version | cmd | status | irqEn | tfResLo | tfResHi | lutData | planInfo | coef | reserved => cases h

theorem State.setBlock_input (s : State) {k : Nat} (w : Word) (h : k < 30) :
    s.setBlock .input k w = s.setInputs fun p => { p with inBlk := p.inBlk.writeWord k w } :=
  if_neg (by rw [Blk.readWord_isNone _ h]; decide)

theorem State.setBlock_output (s : State) {k : Nat} (w : Word) (h : k < 30) :
    s.setBlock .output k w = s.setInputs fun p => { p with outBlk := p.outBlk.writeWord k w } :=
  if_neg (by rw [Blk.readWord_isNone _ h]; decide)

/-- A write while IDLE to a stored register replaces its word, and may clear PLAN_VALID. -/
theorem State.writeIdle_withWords (s : State) (word : Reg → Word) (w : Word) {r : Reg} (h : r.stored = true) :
    ∃ v, (s.withWords word).writeIdle r w = { s.withWords (Function.update word r w) with planValid := v } := by
  cases r with
  | options | frameW | frameH | inFmt | outFmt => exact ⟨false, rfl⟩
  | sliceH1 | sliceH2 | lutIndex => exact ⟨s.planValid, rfl⟩
  | tfArgLo | tfArgHi =>
    refine ⟨s.planValid, ?_⟩
    simp only [State.writeIdle, State.setRegs, State.withWords, Regs.ofWords, setLo_append, setHi_append]
    rfl
  | base side p =>
    refine ⟨s.planValid, ?_⟩
    cases side
    · fin_cases p <;> rfl
    · fin_cases p <;> rfl
  | stride side p =>
    refine ⟨s.planValid, ?_⟩
    cases side
    · fin_cases p <;> rfl
    · fin_cases p <;> rfl
  | block side k =>
    have hk : k < 30 := of_decide_eq_true h
    refine ⟨false, ?_⟩
    cases side
    · have words : Blk.ofWords (fun j => Function.update word (.block .input k) w (.block .input j))
          = (Blk.ofWords fun j => word (.block .input j)).writeWord k w := by
        rw [blockWords_update, Blk.writeWord_ofWords _ _ hk]
      rw [State.writeIdle, State.setBlock_input _ _ hk, State.withWords, State.withWords, Regs.ofWords, Regs.ofWords, words]
      rfl
    · have words : Blk.ofWords (fun j => Function.update word (.block .output k) w (.block .output j))
          = (Blk.ofWords fun j => word (.block .output j)).writeWord k w := by
        rw [blockWords_update, Blk.writeWord_ofWords _ _ hk]
      rw [State.writeIdle, State.setBlock_output _ _ hk, State.withWords, State.withWords, Regs.ofWords, Regs.ofWords, words]
      rfl
  | id | version | cmd | status | irqEn | tfResLo | tfResHi | lutData | planInfo | coef | reserved => cases h

theorem State.readReg_and_mask (s : State) {r : Reg} (h : r.stored = true) : s.readReg r &&& r.mask = s.readReg r := by
  rw [← s.readReg_withWords _ h, s.withWords_readReg]

/-- A register that is neither stored nor shows the plan reads the same whatever the stored words, PLAN_VALID and the agenda are. -/
theorem State.readReg_of_not_stored (s : State) {r : Reg} (h : r.stored = false) (hp : r.showsPlan = false) (agenda : List Move)
    (regs : Regs) (lutIndex : BitVec 16) (planValid : Bool) :
    State.readReg { s with agenda := agenda, regs := regs, lutIndex := lutIndex, planValid := planValid } r = s.readReg r := by
  cases r with
  | id | version | cmd | irqEn | tfResLo | tfResHi | reserved => rfl
  | block side k =>
    have hk : 30 ≤ k := Nat.not_lt.1 (of_decide_eq_false h)
    simp only [State.readReg, Blk.readWord_of_le _ hk]
  | status | lutData | planInfo | coef => cases hp
  | options | frameW | frameH | inFmt | outFmt | sliceH1 | sliceH2 | tfArgLo | tfArgHi | lutIndex | base | stride => cases h

end Sys2Proof.Machine
end

