-- ==== Sys2Proof/Proofs/WrittenRegisters.lean ====
section
/-! SUPPORT. O13: the registers at the offsets of R22, and a register write while IDLE as the replacement of one word. -/

namespace Sys2Proof.Machine

/-! ### Offsets and registers (R22) -/

/-- The byte offset of a register; of no use at a reserved one. -/
def Reg.offset : Reg → Nat
  | .id => 0x000
  | .version => 0x004
  | .cmd => 0x008
  | .status => 0x00C
  | .irqEn => 0x010
  | .options => 0x014
  | .frameW => 0x018
  | .frameH => 0x01C
  | .inFmt => 0x020
  | .outFmt => 0x024
  | .sliceH1 => 0x028
  | .sliceH2 => 0x02C
  | .tfArgLo => 0x030
  | .tfArgHi => 0x034
  | .tfResLo => 0x038
  | .tfResHi => 0x03C
  | .base .input p => 0x040 + 4 * p.val
  | .stride .input p => 0x050 + 4 * p.val
  | .base .output p => 0x060 + 4 * p.val
  | .stride .output p => 0x070 + 4 * p.val
  | .lutIndex => 0x080
  | .lutData => 0x084
  | .planInfo => 0x088
  | .block .input k => 0x100 + 4 * k
  | .block .output k => 0x180 + 4 * k
  | .coef k => 0x200 + 4 * k
  | .reserved => 0

theorem mem_singleRegs_of_lookup {o : Nat} {r : Reg} (h : singleRegs.lookup o = some r) : (o, r) ∈ singleRegs := by
  obtain ⟨before, after, e, -⟩ := List.lookup_eq_some_iff.1 h
  rw [e]
  exact List.mem_append_right _ List.mem_cons_self

/-- Two aligned offsets have different registers, unless both are reserved. -/
theorem Reg.offset_ofOffset {o : Nat} (h4 : o % 4 = 0) (h : Reg.ofOffset o ≠ .reserved) : (Reg.ofOffset o).offset = o := by
  have single : ∀ p ∈ singleRegs, p.2.offset = p.1 := by decide
  unfold Reg.ofOffset at h ⊢
  split_ifs at h ⊢
  pick_goal 8
  · cases hl : singleRegs.lookup o with
    | none => exact absurd (by rw [hl]; rfl) h
    | some r => exact single _ (mem_singleRegs_of_lookup hl)
  all_goals
    simp only [Reg.offset, planeIndex]
    omega

theorem Reg.ofOffset_ne {o o' : Nat} (h4 : o % 4 = 0) (h4' : o' % 4 = 0) (hne : o ≠ o') (hs : (Reg.ofOffset o').stored = true) :
    Reg.ofOffset o ≠ Reg.ofOffset o' := by
  intro e
  have hr : Reg.ofOffset o' ≠ .reserved := by
    intro hr
    rw [hr] at hs
    cases hs
  exact hne ((Reg.offset_ofOffset h4 (e ▸ hr)).symm.trans (e ▸ Reg.offset_ofOffset h4' hr))

/-- The registers that show STATUS or the plan stand at the offsets the statement leaves out. -/
theorem Reg.showsPlan_ofOffset {o : Nat} (hs : o ≠ 0x00C) (hl : o ≠ 0x084) (hi : o ≠ 0x088) (hc : o < 0x200 ∨ 0x348 ≤ o) :
    (Reg.ofOffset o).showsPlan = false := by
  have single : ∀ p ∈ singleRegs, p.2.showsPlan = true → p.1 = 0x00C ∨ p.1 = 0x084 ∨ p.1 = 0x088 := by decide
  unfold Reg.ofOffset
  split_ifs
  pick_goal 8
  · cases e : singleRegs.lookup o with
    | none => rfl
    | some r =>
      refine Bool.eq_false_iff.2 fun hr => ?_
      have ho := single _ (mem_singleRegs_of_lookup e) hr
      simp only [hs, hl, hi, or_self] at ho
  pick_goal 7
  · omega
  all_goals rfl

theorem Reg.ofOffset_block_input {o : Nat} (h1 : 0x100 ≤ o) (h2 : o < 0x180) : Reg.ofOffset o = .block .input ((o - 0x100) / 4) := by
  unfold Reg.ofOffset
  rw [if_neg (by omega), if_pos ⟨h1, h2⟩]

theorem Reg.ofOffset_block_output {o : Nat} (h1 : 0x180 ≤ o) (h2 : o < 0x200) : Reg.ofOffset o = .block .output ((o - 0x180) / 4) := by
  unfold Reg.ofOffset
  rw [if_neg (by omega), if_neg (by omega), if_pos ⟨h1, h2⟩]

theorem Reg.ofOffset_plane {o : Nat} (h1 : 0x040 ≤ o) (h2 : o < 0x080) :
    ∃ side p, Reg.ofOffset o = .base side p ∨ Reg.ofOffset o = .stride side p := by
  unfold Reg.ofOffset
  rw [if_pos ⟨h1, h2⟩]
  split_ifs
  · exact ⟨_, _, .inl rfl⟩
  · exact ⟨_, _, .inr rfl⟩
  · exact ⟨_, _, .inl rfl⟩
  · exact ⟨_, _, .inr rfl⟩

/-- The register at an offset is stored and holds the bits of the mask. -/
def StoredAt (off : Nat) (mask : Word) : Prop := (Reg.ofOffset off).stored = true ∧ (Reg.ofOffset off).mask = mask

theorem storedAt_plane {o : Nat} (h1 : 0x040 ≤ o) (h2 : o < 0x080) : StoredAt o 0xFFFFFFFF := by
  obtain ⟨side, p, e | e⟩ := Reg.ofOffset_plane h1 h2 <;> exact ⟨by rw [e]; rfl, by rw [e]; rfl⟩

/-- The words of a block behind RANGE and VALID. -/
theorem storedAt_block_word {o k : Nat} {side : Side} (h : Reg.ofOffset o = .block side k) (h1 : 2 ≤ k) (h2 : k < 30) :
    StoredAt o 0xFFFFFFFF := by
  unfold StoredAt
  rw [h]
  exact ⟨decide_eq_true h2, by rw [Reg.mask, Blk.mask, if_neg (by omega), if_neg (by omega)]⟩

/-- The read-write registers of the statement are stored and hold the bits it gives. -/
theorem storedAt_of_readWrite {o : Nat} {mask : Word} (h4 : o % 4 = 0)
    (h : (o = 0x014 ∧ mask = 0x0000000F)
      ∨ ((o = 0x018 ∨ o = 0x01C ∨ o = 0x028 ∨ o = 0x02C ∨ o = 0x080) ∧ mask = 0x0000FFFF)
      ∨ ((o = 0x020 ∨ o = 0x024) ∧ mask = 0x0000F73F)
      ∨ (((0x030 ≤ o ∧ o < 0x038) ∨ (0x040 ≤ o ∧ o < 0x080) ∨ (0x108 ≤ o ∧ o < 0x178) ∨ (0x188 ≤ o ∧ o < 0x1F8))
        ∧ mask = 0xFFFFFFFF)
      ∨ ((o = 0x100 ∨ o = 0x180) ∧ mask = 0x00000003)
      ∨ ((o = 0x104 ∨ o = 0x184) ∧ mask = 0x00000007)) : StoredAt o mask := by
  rcases h with ⟨rfl, rfl⟩ | ⟨rfl | rfl | rfl | rfl | rfl, rfl⟩ | ⟨rfl | rfl, rfl⟩ | ⟨h, rfl⟩ | ⟨rfl | rfl, rfl⟩ | ⟨rfl | rfl, rfl⟩
  case inr.inr.inr.inl =>
    rcases h with ⟨h1, h2⟩ | ⟨h1, h2⟩ | ⟨h1, h2⟩ | ⟨h1, h2⟩
    · obtain rfl | rfl : o = 0x030 ∨ o = 0x034 := by omega
      · exact ⟨rfl, rfl⟩
      · exact ⟨rfl, rfl⟩
    · exact storedAt_plane h1 h2
    · exact storedAt_block_word (Reg.ofOffset_block_input (by omega) (by omega)) (by omega) (by omega)
    · exact storedAt_block_word (Reg.ofOffset_block_output (by omega) (by omega)) (by omega) (by omega)
  all_goals exact ⟨rfl, rfl⟩

/-! ### The write -/

theorem step_regWrite {s : State} {off : BitVec 12} {w : Word} {rest : List Move} (ho : off.toNat < State.blockSize)
    (h4 : off.toNat % 4 = 0) (ha : s.agenda = .host (.regWrite off 4 w) :: rest) :
    step s = State.hostWrite (Reg.ofOffset off.toNat) w { s with agenda := rest } := by
  have pop : step s = s.popAgenda.hostStep (.regWrite off 4 w) := by
    unfold step
    rw [ha]
  rw [pop, State.hostStep_regWrite _ _ ho h4, State.popAgenda_of_cons ha]

/-- While IDLE, a write to a stored register is a `writeIdle`. -/
theorem State.hostWrite_stored {s : State} {r : Reg} (w : Word) (idle : s.seq = .idle) (h : r.stored = true) :
    s.hostWrite r w = .next (s.writeIdle r w) := by
  have hcmd : r ≠ .cmd := by rintro rfl; cases h
  have hb : s.isBusy = false := State.isBusy_idle idle
  rw [s.hostWrite_of_ne_cmd w hcmd]
  rcases s.writeReg_cases r w with ⟨e, -⟩ | ⟨e, -⟩ | ⟨rfl, -⟩ | ⟨rfl, -⟩ | ⟨-, -, -, e, -⟩ | ⟨-, -, -, -, e⟩
  · exact absurd e hcmd
  · exact absurd e hcmd
  · cases h
  · cases h
  · rw [hb] at e
    cases e
  · rw [e]

/-- A write while IDLE to a stored register: the next state has that word replaced. -/
theorem step_regWrite_stored {s : State} {off : BitVec 12} {w : Word} {rest : List Move} (idle : s.seq = .idle)
    (ho : off.toNat < State.blockSize) (h4 : off.toNat % 4 = 0) (ha : s.agenda = .host (.regWrite off 4 w) :: rest)
    (hs : (Reg.ofOffset off.toNat).stored = true) :
    ∃ v, step s = .next { State.withWords { s with agenda := rest } (Function.update s.readReg (Reg.ofOffset off.toNat) w) with
      planValid := v } := by
  obtain ⟨v, hv⟩ := State.writeIdle_withWords { s with agenda := rest } s.readReg w hs
  have same : State.withWords { s with agenda := rest } s.readReg = { s with agenda := rest } :=
    State.withWords_readReg { s with agenda := rest }
  refine ⟨v, ?_⟩
  rw [step_regWrite ho h4 ha, State.hostWrite_stored (s := { s with agenda := rest }) w idle hs, ← hv, same]

/-- What the registers read after one stored word was replaced. -/
theorem State.readReg_replaced (s : State) {r r' : Reg} (w : Word) (hr : r.stored = true) (v : Bool) (rest : List Move)
    (hp : r'.showsPlan = false) :
    State.readReg { State.withWords { s with agenda := rest } (Function.update s.readReg r w) with planValid := v } r'
      = if r' = r then w &&& r.mask else s.readReg r' := by
  cases hs : r'.stored with
  | false =>
    rw [if_neg (by rintro rfl; rw [hs] at hr; cases hr)]
    exact s.readReg_of_not_stored hs hp rest _ _ v
  | true =>
    refine (State.readReg_withWords { s with agenda := rest, planValid := v } _ hs).trans ?_
    split
    · next e => rw [e, Function.update_self]
    · next e => rw [Function.update_of_ne e, s.readReg_and_mask hs]

/-! ### The fields that the words show -/

/-- A block is read off its 30 words. -/
theorem Blk.eq_ofWords_of_words (b : Blk) {word : Nat → Word} (h : ∀ k, k < 30 → word k = b.word k) : b = Blk.ofWords word := by
  conv_lhs => rw [← b.ofWords_word]
  simp [Blk.ofWords, h]

/-- The register at word offset `k` of the IN block. -/
theorem State.readReg_inBlk (s : State) {k : Nat} (h : k < 30) :
    s.readReg (Reg.ofOffset (0x100 + 4 * k)) = s.regs.inputs.inBlk.word k := by
  rw [Reg.ofOffset_block_input (by omega) (by omega), show (0x100 + 4 * k - 0x100) / 4 = k by omega]
  rfl

/-- The register at word offset `k` of the OUT block. -/
theorem State.readReg_outBlk (s : State) {k : Nat} (h : k < 30) :
    s.readReg (Reg.ofOffset (0x180 + 4 * k)) = s.regs.inputs.outBlk.word k := by
  rw [Reg.ofOffset_block_output (by omega) (by omega), show (0x180 + 4 * k - 0x180) / 4 = k by omega]
  rfl

/-- A half-word register is the low half of its word. -/
theorem eq_extractLsb_word (v : BitVec 16) : v = (v.setWidth 32).extractLsb 15 0 := by
  rw [extractLsb_low, setWidth_of_setWidth_word (by decide)]

/-- Settles O13: a write replaces one word of the register file (`step_regWrite_stored`), and the register file is rebuilt from its
words (`Regs.ofWords_readReg`). -/
theorem writtenRegistersReadBack : Obligations.WrittenRegistersReadBack := by
  unfold Obligations.WrittenRegistersReadBack
  constructor
  · intro s off w mask rest idle h4 ha hoff
    obtain ⟨hs, hm⟩ : StoredAt off.toNat mask := storedAt_of_readWrite h4 hoff
    have ho : off.toNat < State.blockSize := by
      unfold State.blockSize
      omega
    have hp : (Reg.ofOffset off.toNat).showsPlan = false := Reg.showsPlan_ofOffset (by omega) (by omega) (by omega) (by omega)
    obtain ⟨v, hv⟩ := step_regWrite_stored idle ho h4 ha hs
    refine ⟨_, hv, ?_, rfl, ?_⟩
    · rw [s.readReg_replaced w hs v rest hp, if_pos rfl, hm]
    · intro other ho4 hne h1 h2 h3 h5
      have hreg : Reg.ofOffset other ≠ Reg.ofOffset off.toNat := Reg.ofOffset_ne ho4 h4 hne hs
      rw [s.readReg_replaced w hs v rest (Reg.showsPlan_ofOffset h1 h2 h3 h5), if_neg hreg]
  · intro s word pair ratio hword hpair hratio
    obtain rfl : word = fun o => s.readReg (Reg.ofOffset o) := funext hword
    obtain rfl : pair = fun o => s.readReg (Reg.ofOffset (o + 4)) ++ s.readReg (Reg.ofOffset o) := funext hpair
    obtain rfl : ratio = fun o => ⟨s.readReg (Reg.ofOffset o), s.readReg (Reg.ofOffset (o + 4))⟩ := funext hratio
    refine ⟨(Options.ofWord_toWord _).symm.trans (Options.ofWord_eq _), eq_extractLsb_word _, eq_extractLsb_word _, ?formats,
      eq_extractLsb_word _, eq_extractLsb_word _, (hiWord_append_loWord _).symm, eq_extractLsb_word _, ?planes, ?blocks⟩
    case formats =>
      rintro o f (⟨rfl, rfl⟩ | ⟨rfl, rfl⟩)
      · exact (PixFmt.ofWord_toWord _).symm.trans (PixFmt.ofWord_eq _)
      · exact (PixFmt.ofWord_toWord _).symm.trans (PixFmt.ofWord_eq _)
    case planes =>
      intro p
      fin_cases p <;> exact ⟨rfl, rfl⟩
    case blocks =>
      intro o b h
      have hb : b = Blk.ofWords fun k => s.readReg (Reg.ofOffset (o + 4 * k)) := by
        apply b.eq_ofWords_of_words
        rcases h with ⟨rfl, rfl⟩ | ⟨rfl, rfl⟩
        · exact fun k => s.readReg_inBlk
        · exact fun k => s.readReg_outBlk
      rw [hb]
      exact ⟨(extractLsb_low _ 1).symm, (extractLsb_low _ 2).symm, rfl, rfl, rfl⟩

end Sys2Proof.Machine
end

