-- ==== Sys2Proof/Proofs/SolverFormulas.lean ====
section
/-! SUPPORT. O32: what each solver answers and when it answers nothing, one lemma per function of the primaries_solver and the
matrix_solver (42_primaries_solver.md, 43_matrix_solver.md). -/

namespace Sys2Proof

/-! ### Triples -/

namespace V3

theorem get_map {α β : Type} (f : α → β) (v : V3 α) (i : Nat) : (v.map f).get i = f (v.get i) := by
  match i with
  | 0 => rfl
  | 1 => rfl
  | _ + 2 => rfl

theorem get_ofFn {α : Type} (f : Nat → α) {i : Nat} (h : i < 3) : (V3.ofFn f).get i = f i := by
  interval_cases i <;> rfl

theorem mapOpt_ne_none {α β : Type} (f : α → Option β) (v : V3 α) : v.mapOpt f ≠ none ↔ ∀ i, i < 3 → f (v.get i) ≠ none := by
  constructor
  · intro h i hi hn
    apply h
    unfold V3.mapOpt
    split
    · next h0 h1 h2 =>
      interval_cases i
      · exact absurd (h0.symm.trans hn) (by simp)
      · exact absurd (h1.symm.trans hn) (by simp)
      · exact absurd (h2.symm.trans hn) (by simp)
    · rfl
  · intro h
    obtain ⟨a, ha⟩ := Option.ne_none_iff_exists'.1 (h 0 (by decide))
    obtain ⟨b, hb⟩ := Option.ne_none_iff_exists'.1 (h 1 (by decide))
    obtain ⟨c, hc⟩ := Option.ne_none_iff_exists'.1 (h 2 (by decide))
    simp only [V3.get] at ha hb hc
    simp [V3.mapOpt, ha, hb, hc]

end V3

namespace Machine

/-! ### Matrices (R18, R140) -/

theorem Fl.get_matMul (f : Fmt) (a b : M3 Fl) (i : Nat) {j : Nat} (h : j < 3) :
    ((Fl.matMul f a b).get i).get j = Fl.dot f (a.get i) (Fl.col b j) := by
  rw [Fl.matMul, V3.get_map, V3.get_ofFn _ h]

theorem Fl.inv3_of_singular {m : M3 Fl} (h : Fl.eq (Fl.dot b64 m.c0 (Fl.col (Fl.cofactors m) 0)) Fl.zero = true) :
    Fl.inv3 m = none := if_pos h

theorem Fl.inv3_of_regular {m : M3 Fl} (h : Fl.eq (Fl.dot b64 m.c0 (Fl.col (Fl.cofactors m) 0)) Fl.zero = false) :
    Fl.inv3 m = some ((Fl.cofactors m).map fun row => row.map fun y =>
      Fl.mul b64 y (Fl.div b64 Fl.one (Fl.dot b64 m.c0 (Fl.col (Fl.cofactors m) 0)))) :=
  if_neg (by rw [h]; decide)

/-! ### RGB to XYZ (R142) -/

theorem Prims.rgbToXyz_eq_none {b : Prims} (h : Fl.inv3 b.chromaMatrix = none) : b.rgbToXyz = none := by
  unfold Prims.rgbToXyz
  simp only [h]

theorem Prims.rgbToXyz_of_inv {b : Prims} {inv : M3 Fl} (h : Fl.inv3 b.chromaMatrix = some inv) :
    b.rgbToXyz = some (b.chromaMatrix.map fun row =>
      V3.ofFn fun j => Fl.mul b64 (row.get j) ((Fl.mulVec b64 inv b.whiteVec).get j)) := by
  unfold Prims.rgbToXyz
  simp only [h]

/-! ### The primary map (R143 to R146, R148) -/

/-- The denominators are the odd words from 3 to 17 of the block. -/
theorem Blk.densNonzero_iff (b : Blk) :
    b.prims.densNonzero = true ↔ ∀ k, 3 ≤ k → k ≤ 17 → k % 2 = 1 → b.readWord k ≠ some 0 := by
  simp only [Prims.densNonzero, Bool.and_eq_true, bne_iff_ne]
  constructor
  · rintro ⟨⟨⟨⟨⟨⟨⟨h3, h5⟩, h7⟩, h9⟩, h11⟩, h13⟩, h15⟩, h17⟩ k hlo hhi hodd
    obtain rfl | rfl | rfl | rfl | rfl | rfl | rfl | rfl :
      k = 3 ∨ k = 5 ∨ k = 7 ∨ k = 9 ∨ k = 11 ∨ k = 13 ∨ k = 15 ∨ k = 17 := by omega
    · exact fun e => h3 (Option.some.inj e)
    · exact fun e => h5 (Option.some.inj e)
    · exact fun e => h7 (Option.some.inj e)
    · exact fun e => h9 (Option.some.inj e)
    · exact fun e => h11 (Option.some.inj e)
    · exact fun e => h13 (Option.some.inj e)
    · exact fun e => h15 (Option.some.inj e)
    · exact fun e => h17 (Option.some.inj e)
  · intro h
    have den : ∀ k d, 3 ≤ k → k ≤ 17 → k % 2 = 1 → b.readWord k = some d → d ≠ 0 := fun k d hlo hhi hodd e he =>
      h k hlo hhi hodd (e.trans (congrArg some he))
    exact ⟨⟨⟨⟨⟨⟨⟨den 3 _ (by decide) (by decide) rfl rfl, den 5 _ (by decide) (by decide) rfl rfl⟩,
      den 7 _ (by decide) (by decide) rfl rfl⟩, den 9 _ (by decide) (by decide) rfl rfl⟩,
      den 11 _ (by decide) (by decide) rfl rfl⟩, den 13 _ (by decide) (by decide) rfl rfl⟩,
      den 15 _ (by decide) (by decide) rfl rfl⟩, den 17 _ (by decide) (by decide) rfl rfl⟩

/-- The white points are equal when their four words are (R145). -/
theorem PlanInputs.whiteEq_iff (p : PlanInputs) :
    p.whiteEq = true ↔ ∀ k, 14 ≤ k → k ≤ 17 → p.inBlk.readWord k = p.outBlk.readWord k := by
  simp only [PlanInputs.whiteEq, beq_iff_eq]
  constructor
  · intro h k hlo hhi
    interval_cases k <;> simp only [Blk.readWord, h]
  · intro h
    have xn := Option.some.inj (h 14 (by decide) (by decide))
    have xd := Option.some.inj (h 15 (by decide) (by decide))
    have yn := Option.some.inj (h 16 (by decide) (by decide))
    have yd := Option.some.inj (h 17 (by decide) (by decide))
    exact congrArg₂ White.mk (congrArg₂ Ratio.mk xn xd) (congrArg₂ Ratio.mk yn yd)

theorem Prims.ysNonzero_iff (b : Prims) :
    b.ysNonzero = true ↔ Fl.eq b.yr.value Fl.zero = false ∧ Fl.eq b.yg.value Fl.zero = false ∧ Fl.eq b.yb.value Fl.zero = false := by
  simp only [Prims.ysNonzero, Bool.and_eq_true, Bool.not_eq_true', and_assoc]

/-- The diagonal matrix of the ratios d[i] / s[i] (R144). -/
def coneScale (s d : V3 Fl) : M3 Fl :=
  ⟨⟨Fl.div b64 d.c0 s.c0, Fl.zero, Fl.zero⟩, ⟨Fl.zero, Fl.div b64 d.c1 s.c1, Fl.zero⟩,
   ⟨Fl.zero, Fl.zero, Fl.div b64 d.c2 s.c2⟩⟩

/-- The adaptation matrix is there when no s[i] is 0.0 and the cone matrix is regular. -/
theorem adaptation_eq_some {m a : M3 Fl} {ws wd s d : V3 Fl} (hs : s = Fl.mulVec b64 m ws) (hd : d = Fl.mulVec b64 m wd) :
    adaptation m ws wd = some a ↔
      Fl.eq s.c0 Fl.zero = false ∧ Fl.eq s.c1 Fl.zero = false ∧ Fl.eq s.c2 Fl.zero = false
      ∧ ∃ inv, Fl.inv3 m = some inv ∧ a = Fl.matMul b64 (Fl.matMul b64 inv (coneScale s d)) m := by
  subst hs hd
  have any : ((Fl.mulVec b64 m ws).toList.any fun x => Fl.eq x Fl.zero) = true ↔
      ¬ (Fl.eq (Fl.mulVec b64 m ws).c0 Fl.zero = false ∧ Fl.eq (Fl.mulVec b64 m ws).c1 Fl.zero = false
        ∧ Fl.eq (Fl.mulVec b64 m ws).c2 Fl.zero = false) := by
    simp only [V3.toList, List.any_cons, List.any_nil, Bool.or_false, Bool.or_eq_true, not_and_or, Bool.not_eq_false]
  unfold adaptation
  simp only [any]
  split
  · next h => exact ⟨fun e => (by cases e), fun ⟨h0, h1, h2, _⟩ => absurd ⟨h0, h1, h2⟩ h⟩
  · next h =>
    obtain ⟨h0, h1, h2⟩ := not_not.1 h
    cases hi : Fl.inv3 m with
    | none => exact ⟨fun e => (by cases e), fun ⟨_, _, _, _, e, _⟩ => (by cases e)⟩
    | some inv =>
      constructor
      · rintro e
        exact ⟨h0, h1, h2, inv, rfl, (Option.some.inj e).symm⟩
      · rintro ⟨-, -, -, inv', e, rfl⟩
        cases e
        rfl

/-- The cone-response matrix that OPTIONS.WPADAPT selects (R143). -/
def PlanInputs.cone (p : PlanInputs) : M3 Fl := if p.options.wpAdapt = 0 then bradford else vonKries

theorem PlanInputs.omitsAdaptation_iff (p : PlanInputs) :
    p.omitsAdaptation = true ↔ p.options.wpAdapt = 2 ∨ p.whiteEq = true := by
  rw [PlanInputs.omitsAdaptation, Bool.or_eq_true, beq_iff_eq, or_comm]

theorem PlanInputs.adaptStep_of_omits {p : PlanInputs} (h : p.omitsAdaptation = true) : p.adaptStep = some none := if_pos h

theorem PlanInputs.adaptStep_of_adapts {p : PlanInputs} (h : ¬ p.omitsAdaptation = true) :
    p.adaptStep = (adaptation p.cone p.inBlk.prims.whiteVec p.outBlk.prims.whiteVec).map some := by
  unfold PlanInputs.adaptStep PlanInputs.cone
  rw [if_neg h]
  simp only [beq_iff_eq]
  split
  · next h => rw [h]; rfl
  · next a h => rw [h]; rfl

/-- The map is there when every step of R146 answers and its elements are finite (R148, checks 1 to 6). -/
theorem PlanInputs.primaryMap_eq_some {p : PlanInputs} {map : M3 Fl} :
    p.primaryMap = some map ↔
      (p.inBlk.prims.densNonzero = true ∧ p.outBlk.prims.densNonzero = true)
      ∧ (p.inBlk.prims.ysNonzero = true ∧ p.outBlk.prims.ysNonzero = true) ∧ Fl.allFinite map = true
      ∧ ∃ xin xout inv, p.inBlk.prims.rgbToXyz = some xin ∧ p.outBlk.prims.rgbToXyz = some xout ∧ Fl.inv3 xout = some inv
        ∧ ∃ a, p.adaptStep = some a ∧ map = composeMap inv xin a := by
  unfold PlanInputs.primaryMap
  constructor
  · intro h
    split at h
    · next checks =>
      simp only [Bool.and_eq_true] at checks
      obtain ⟨⟨⟨dIn, dOut⟩, yIn⟩, yOut⟩ := checks
      split at h
      · next xin xout hin hout =>
        split at h
        · next inv a hinv ha =>
          dsimp only at h
          split at h
          · next finite =>
            cases h
            exact ⟨⟨dIn, dOut⟩, ⟨yIn, yOut⟩, finite, xin, xout, inv, hin, hout, hinv, a, ha, rfl⟩
          · cases h
        · cases h
      · cases h
    · cases h
  · rintro ⟨⟨dIn, dOut⟩, ⟨yIn, yOut⟩, finite, xin, xout, inv, hin, hout, hinv, a, ha, rfl⟩
    simp only [dIn, dOut, yIn, yOut, hin, hout, hinv, ha, finite, Bool.and_self, if_true]

/-! ### The luma matrices (R160 to R162, R170) -/

theorem Luma.matrices_eq_some {l : Luma} {mi : YuvMatrices} :
    l.matrices = some mi ↔ l.kr.den ≠ 0 ∧ l.kb.den ≠ 0 ∧ Fl.eq l.kr.value Fl.one = false ∧ Fl.eq l.kb.value Fl.one = false
      ∧ mi.rgb2yuv = rgbToYuv l.kr.value l.kb.value ∧ Fl.inv3 mi.rgb2yuv = some mi.yuv2rgb
      ∧ Fl.allFinite mi.rgb2yuv = true ∧ Fl.allFinite mi.yuv2rgb = true := by
  unfold Luma.matrices
  constructor
  · intro h
    split at h
    · cases h
    · next dens =>
      simp only [Bool.or_eq_true, beq_iff_eq, not_or] at dens
      obtain ⟨dr, db⟩ := dens
      dsimp only at h
      split at h
      · cases h
      · next ones =>
        simp only [Bool.or_eq_true, not_or, Bool.not_eq_true] at ones
        obtain ⟨kr1, kb1⟩ := ones
        split at h
        · cases h
        · next inv hinv =>
          split at h
          · next finite =>
            obtain ⟨fm, fi⟩ := Bool.and_eq_true_iff.1 finite
            cases h
            exact ⟨dr, db, kr1, kb1, rfl, hinv, fm, fi⟩
          · cases h
  · rintro ⟨dr, db, kr1, kb1, hm, hinv, fm, fi⟩
    obtain ⟨m, inv⟩ := mi
    dsimp only at hm hinv fm fi
    subst hm
    simp only [beq_iff_eq, Bool.or_eq_true, dr, db, or_self, if_false, kr1, kb1, hinv, fm, fi, Bool.and_self, if_true,
      Bool.false_eq_true]

/-! ### The quantised tables (R147, R166 to R170) -/

/-- A coefficient is quantised when it rounds to an int16; an infinity or a NaN rounds to nothing (log 19). -/
theorem quant16_ne_none (x : Fl) : quant16 x ≠ none ↔ ∃ k, x.rne = some k ∧ -32768 ≤ k ∧ k ≤ 32767 := by
  unfold quant16
  cases x.rne with
  | none => exact ⟨fun h => absurd rfl h, fun ⟨_, e, _⟩ => (by cases e)⟩
  | some n => simp

theorem quantTable_ne_none (t : M3 Fl) :
    quantTable t ≠ none ↔ ∀ n m, n < 3 → m < 3 → quant16 ((t.get n).get m) ≠ none := by
  simp only [quantTable, V3.mapOpt_ne_none]
  exact ⟨fun h n m hn hm => h n hn m hm, fun h n hn m hm => h n m hn hm⟩

theorem PlanInputs.primaryTables_ne_none (p : PlanInputs) :
    p.primaryTables ≠ none ↔ ∃ map, p.primaryMap = some map
      ∧ ∀ n m, n < 3 → m < 3 → quant16 (Fl.mul b64 (Fl.ofInt 16384) ((map.get n).get m)) ≠ none := by
  have entry : ∀ map : M3 Fl, quantTable (map.map fun r => r.map fun x => Fl.mul b64 (Fl.ofInt 16384) x) ≠ none ↔
      ∀ n m, n < 3 → m < 3 → quant16 (Fl.mul b64 (Fl.ofInt 16384) ((map.get n).get m)) ≠ none := fun map => by
    simp only [quantTable_ne_none, V3.get_map]
  unfold PlanInputs.primaryTables
  cases p.primaryMap with
  | none => simp
  | some map =>
    simp only [Option.some.injEq, exists_eq_left', ← entry]
    split
    · next h => simp [h]
    · next h => simp [h]

theorem yuv2rgbTable_ne_none (m : M3 Fl) (r : Range) (d : Nat) :
    yuv2rgbTable m r d ≠ none ↔ ∀ i j, i < 3 → j < 3 →
      quant16 (Fl.div b64 (Fl.mul b64 (Fl.mul b64 (Fl.ofInt 28672) (Fl.ofInt (2 ^ (d - 1) : Nat))) ((m.get i).get j))
        (Fl.ofInt (r.span d j))) ≠ none := by
  rw [yuv2rgbTable, quantTable_ne_none]
  refine forall₄_congr fun i j _ hj => ?_
  rw [V3.get_map, V3.get_ofFn _ hj]

theorem rgb2yuvTable_ne_none (m : M3 Fl) (r : Range) (d : Nat) :
    rgb2yuvTable m r d ≠ none ↔ ∀ i j, i < 3 → j < 3 →
      quant16 (Fl.div b64 (Fl.mul b64 (Fl.mul b64 (Fl.ofInt (2 ^ (29 - d) : Nat)) (Fl.ofInt (r.span d i))) ((m.get i).get j))
        (Fl.ofInt 28672)) ≠ none := by
  rw [rgb2yuvTable, quantTable_ne_none]
  refine forall₄_congr fun i j hi _ => ?_
  rw [V3.get_ofFn _ hi, V3.get_map]

theorem yuv2yuvTable_ne_none (mOut mIn : M3 Fl) (rIn rOut : Range) (dIn dOut : Nat) :
    yuv2yuvTable mOut mIn rIn rOut dIn dOut ≠ none ↔ ∀ i j, i < 3 → j < 3 →
      quant16 (Fl.div b64
        (Fl.mul b64 (Fl.mul b64 (Fl.mul b64 (Fl.ofInt 16384) (((Fl.matMul b64 mOut mIn).get i).get j)) (Fl.ofInt (rOut.span dOut i)))
          (Fl.ofInt (2 ^ dIn : Nat)))
        (Fl.mul b64 (Fl.ofInt (rIn.span dIn j)) (Fl.ofInt (2 ^ dOut : Nat)))) ≠ none := by
  rw [yuv2yuvTable, quantTable_ne_none]
  refine forall₄_congr fun i j hi hj => ?_
  rw [V3.get_ofFn _ hi, V3.get_ofFn _ hj]

/-- The integer tables are there when both luma matrices and each table to be built are. -/
theorem PlanInputs.matrixTables_ne_none (p : PlanInputs) (rIn rOut : Range) (fast : Bool) :
    p.matrixTables rIn rOut fast ≠ none ↔
      ∃ mi mo, p.inBlk.luma.matrices = some mi ∧ p.outBlk.luma.matrices = some mo
        ∧ yuv2rgbTable mi.yuv2rgb rIn p.inFmt.d ≠ none ∧ rgb2yuvTable mo.rgb2yuv rOut p.outFmt.d ≠ none
        ∧ (fast = true → yuv2yuvTable mo.rgb2yuv mi.yuv2rgb rIn rOut p.inFmt.d p.outFmt.d ≠ none) := by
  unfold PlanInputs.matrixTables
  cases p.inBlk.luma.matrices with
  | none => simp
  | some mi =>
    cases p.outBlk.luma.matrices with
    | none => simp
    | some mo =>
      simp only [Option.some.injEq, exists_eq_left', exists_and_left]
      cases yuv2rgbTable mi.yuv2rgb rIn p.inFmt.d with
      | none => simp
      | some a =>
        cases rgb2yuvTable mo.rgb2yuv rOut p.outFmt.d with
        | none => simp
        | some b =>
          cases fast with
          | false => simp
          | true => cases yuv2yuvTable mo.rgb2yuv mi.yuv2rgb rIn rOut p.inFmt.d p.outFmt.d <;> simp

/-! ### The statement -/

/-- X(B), element by element: column j of P scaled by component j of inv3(P)·w(B). -/
theorem Prims.rgbToXyz_get {b : Prims} {inv : M3 Fl} (h : Fl.inv3 b.chromaMatrix = some inv) :
    ∃ x, b.rgbToXyz = some x ∧ ∀ i j, i < 3 → j < 3 →
      (x.get i).get j = Fl.mul b64 ((b.chromaMatrix.get i).get j) (Fl.dot b64 (inv.get j) b.whiteVec) := by
  refine ⟨_, Prims.rgbToXyz_of_inv h, fun i j _ hj => ?_⟩
  rw [V3.get_map, V3.get_ofFn _ hj, Fl.mulVec, V3.get_map]

/-- The map without and with adaptation (R146). -/
theorem PlanInputs.primaryMap_iff (p : PlanInputs) (map : M3 Fl) (s d : V3 Fl) (hs : s = Fl.mulVec b64 p.cone p.inBlk.prims.whiteVec)
    (hd : d = Fl.mulVec b64 p.cone p.outBlk.prims.whiteVec) :
    p.primaryMap = some map ↔
      (p.inBlk.prims.densNonzero = true ∧ p.outBlk.prims.densNonzero = true)
      ∧ (p.inBlk.prims.ysNonzero = true ∧ p.outBlk.prims.ysNonzero = true) ∧ Fl.allFinite map = true
      ∧ ∃ xin xout inv, p.inBlk.prims.rgbToXyz = some xin ∧ p.outBlk.prims.rgbToXyz = some xout ∧ Fl.inv3 xout = some inv
        ∧ (if p.options.wpAdapt = 2 ∨ p.whiteEq = true then map = Fl.matMul b64 inv xin
          else
            Fl.eq s.c0 Fl.zero = false ∧ Fl.eq s.c1 Fl.zero = false ∧ Fl.eq s.c2 Fl.zero = false
            ∧ ∃ cinv, Fl.inv3 p.cone = some cinv
              ∧ map = Fl.matMul b64 (Fl.matMul b64 inv (Fl.matMul b64 (Fl.matMul b64 cinv (coneScale s d)) p.cone)) xin) := by
  have step : ∀ inv xin : M3 Fl, (∃ a, p.adaptStep = some a ∧ map = composeMap inv xin a) ↔
      (if p.options.wpAdapt = 2 ∨ p.whiteEq = true then map = Fl.matMul b64 inv xin
        else
          Fl.eq s.c0 Fl.zero = false ∧ Fl.eq s.c1 Fl.zero = false ∧ Fl.eq s.c2 Fl.zero = false
          ∧ ∃ cinv, Fl.inv3 p.cone = some cinv
            ∧ map = Fl.matMul b64 (Fl.matMul b64 inv (Fl.matMul b64 (Fl.matMul b64 cinv (coneScale s d)) p.cone)) xin) := by
    intro inv xin
    simp only [← p.omitsAdaptation_iff]
    split
    · next omits =>
      rw [PlanInputs.adaptStep_of_omits omits]
      exact ⟨fun ⟨_, e, h⟩ => (by cases e; exact h), fun h => ⟨none, rfl, h⟩⟩
    · next adapts =>
      simp only [PlanInputs.adaptStep_of_adapts adapts, Option.map_eq_some_iff, adaptation_eq_some hs hd]
      constructor
      · rintro ⟨_, ⟨a, ⟨h0, h1, h2, cinv, hc, rfl⟩, rfl⟩, h⟩
        exact ⟨h0, h1, h2, cinv, hc, h⟩
      · rintro ⟨h0, h1, h2, cinv, hc, h⟩
        exact ⟨_, ⟨_, ⟨h0, h1, h2, cinv, hc, rfl⟩, rfl⟩, h⟩
  rw [PlanInputs.primaryMap_eq_some]
  simp only [step]

theorem Blk.densNonzero_both (bi bo : Blk) :
    (bi.prims.densNonzero = true ∧ bo.prims.densNonzero = true) ↔
      ∀ k, 3 ≤ k → k ≤ 17 → k % 2 = 1 → bi.readWord k ≠ some 0 ∧ bo.readWord k ≠ some 0 := by
  rw [Blk.densNonzero_iff, Blk.densNonzero_iff]
  exact ⟨fun ⟨hi, ho⟩ k h1 h2 h3 => ⟨hi k h1 h2 h3, ho k h1 h2 h3⟩,
    fun h => ⟨fun k h1 h2 h3 => (h k h1 h2 h3).1, fun k h1 h2 h3 => (h k h1 h2 h3).2⟩⟩

/-- Settles O32: each clause is the lemma about its solver, once the statement's `q`, `dot` and `fits` are the model's. -/
theorem solverFormulas : Obligations.SolverFormulas := by
  unfold Obligations.SolverFormulas
  intro q dot fits hq hdot hfits
  obtain rfl : q = Ratio.value := funext hq
  obtain rfl : dot = fun r x y z => Fl.dot b64 r ⟨x, y, z⟩ := by
    funext r x y z
    exact hdot r x y z
  obtain rfl : fits = fun x => quant16 x ≠ none := by
    funext x
    exact propext ((hfits x).trans (quant16_ne_none x).symm)
  refine ⟨fun a b i j _ hj => Fl.get_matMul b64 a b i hj, ?inverse, ?rgbToXyz, ?primaryMap, ?luma,
    fun p => p.primaryTables_ne_none, ?matrixTables⟩
  case inverse =>
    intro m o x det hx ho hdet
    obtain rfl : x = Fl.cross := by
      funext a b c d
      exact hx a b c d
    obtain rfl : o = Fl.cofactors m := ho
    subst hdet
    exact ⟨Fl.inv3_of_singular, Fl.inv3_of_regular⟩
  case rgbToXyz =>
    intro b w m hw hm
    obtain rfl : w = b.whiteVec := hw
    obtain rfl : m = b.chromaMatrix := hm
    exact ⟨rfl, Prims.rgbToXyz_eq_none, fun inv => Prims.rgbToXyz_get⟩
  case primaryMap =>
    intro p map cone s d same _ hsame hcone hs hd
    obtain rfl : same = p.whiteEq := Bool.eq_iff_iff.2 (hsame.trans p.whiteEq_iff.symm)
    obtain rfl : cone = p.cone := hcone
    rw [p.primaryMap_iff map s d hs hd, Blk.densNonzero_both, Prims.ysNonzero_iff, Prims.ysNonzero_iff]
    simp only [List.forall_mem_cons, List.not_mem_nil, false_imp_iff, implies_true, and_true]
    exact Iff.rfl
  case luma =>
    intro l mi kr kb kg bs rs hkr hkb hkg hbs hrs
    subst hkr hkb hkg hbs hrs
    exact Luma.matrices_eq_some
  case matrixTables =>
    intro p rIn rOut fast
    rw [p.matrixTables_ne_none]
    refine exists₂_congr fun mi mo => and_congr_right fun _ => and_congr_right fun _ => ?_
    rw [yuv2rgbTable_ne_none, rgb2yuvTable_ne_none, yuv2yuvTable_ne_none]
    exact ⟨fun ⟨h1, h2, h3⟩ n m hn hm => ⟨h1 n m hn hm, h2 n m hn hm, fun hf => h3 hf n m hn hm⟩,
      fun h => ⟨fun n m hn hm => (h n m hn hm).1, fun n m hn hm => (h n m hn hm).2.1, fun hf n m hn hm => (h n m hn hm).2.2 hf⟩⟩

end Machine
end Sys2Proof
end

