-- ==== Sys2Proof/Proofs/Invariant.lean ====
section
/-! SUPPORT. O58, O59: the invariant in two halves. `State.Settled` speaks of what the engine holds whether or not a command runs;
`State.RunsSoundly` speaks of the running command. A command's meaning ends idle, so it has to keep the first half alone; a host
action leaves alone all that the second half reads. -/

namespace Sys2Proof.Machine

/-! ### The two halves -/

/-- The clauses of the invariant that do not look at the sequencer. -/
structure State.Settled (s : State) : Prop where
  memCanonical : s.mem.wf = true
  errCodeAgrees : s.err = false ↔ s.errcode = .none
  warnedBefore : s.warn = true → s.warnedOnce = true
  planCoherent : s.planValid = true → ∃ d, s.regs.inputs.buildPlan s.params d = .ok s.plan

/-- The clauses of the invariant about the running command. -/
structure State.RunsSoundly (s : State) : Prop where
  operandsHeld : ∀ w ops, s.seq = .busy w ops → ops = s.regs
  busyNotDone : s.isBusy = true → s.done = false
  disturbedBusy : s.disturbed = true → s.isBusy = true
  ordinaryLaunch : s.runsOnDevice = false

theorem State.inv_iff {s : State} : s.Inv ↔ s.Settled ∧ s.RunsSoundly :=
  ⟨fun ⟨hm, he, ho, hb, hw, hd, hl, hp⟩ => ⟨⟨hm, he, hw, hp⟩, ⟨ho, hb, hd, hl⟩⟩,
   fun ⟨⟨hm, he, hw, hp⟩, ⟨ho, hb, hd, hl⟩⟩ => ⟨hm, he, ho, hb, hw, hd, hl, hp⟩⟩

/-- With no command running there is nothing to say but that none is disturbed. -/
theorem State.RunsSoundly.of_idle {s : State} (idle : s.seq = .idle) (undisturbed : s.disturbed = false) : s.RunsSoundly where
  operandsHeld := by simp [idle]
  busyNotDone := by simp [State.isBusy_idle idle]
  disturbedBusy := by simp [undisturbed]
  ordinaryLaunch := State.runsOnDevice_idle idle

theorem State.Settled.inv_of_idle {s : State} (h : s.Settled) (idle : s.seq = .idle) (undisturbed : s.disturbed = false) : s.Inv :=
  State.inv_iff.2 ⟨h, .of_idle idle undisturbed⟩

theorem State.RunsSoundly.undisturbed {s : State} (h : s.RunsSoundly) (idle : s.isBusy = false) : s.disturbed = false := by
  cases hd : s.disturbed
  · rfl
  · rw [h.disturbedBusy hd] at idle
    cases idle

/-- The running command's sets are those of the sequencer, PLAN_VALID and the plan. -/
theorem State.runningSet_congr {s t : State} (hs : t.seq = s.seq) (hv : t.planValid = s.planValid) (hp : t.plan = s.plan)
    (set : Plan → Regs → List Nat) : t.runningSet set = s.runningSet set := by
  simp only [State.runningSet, hs, hv, hp]

/-- A change that the running command cannot see keeps the clauses about it. -/
theorem State.RunsSoundly.congr {s t : State} (h : s.RunsSoundly) (hseq : t.seq = s.seq) (hregs : t.regs = s.regs)
    (hparams : t.params = s.params) (hvalid : t.planValid = s.planValid) (hplan : t.plan = s.plan)
    (hdone : t.done = true → s.done = true) (hdist : t.disturbed = true → s.disturbed = true ∨ s.isBusy = true) :
    t.RunsSoundly where
  operandsHeld := by rw [hseq, hregs]; exact h.operandsHeld
  busyNotDone hb := by
    have hb' : s.isBusy = true := by simpa only [State.isBusy, hseq] using hb
    exact Bool.eq_false_iff.2 fun hd => Bool.eq_false_iff.1 (h.busyNotDone hb') (hdone hd)
  disturbedBusy hd := by
    have hb : s.isBusy = true := (hdist hd).elim h.disturbedBusy id
    simpa only [State.isBusy, hseq] using hb
  ordinaryLaunch := by
    simpa only [State.runsOnDevice, State.runningSet_congr hseq hvalid hplan, hparams] using h.ordinaryLaunch

/-! ### What the operations of a command keep -/

section
variable {s : State}

theorem State.Settled.finish (h : s.Settled) : s.finish.Settled :=
  ⟨h.memCanonical, h.errCodeAgrees, h.warnedBefore, h.planCoherent⟩

theorem State.Settled.bumpDraws (h : s.Settled) : s.bumpDraws.Settled :=
  ⟨h.memCanonical, h.errCodeAgrees, h.warnedBefore, h.planCoherent⟩

theorem State.Settled.raise (h : s.Settled) {c : ErrCode} (hc : c ≠ .none) : (s.raise c).Settled where
  memCanonical := h.memCanonical
  errCodeAgrees := by simp [hc]
  warnedBefore := h.warnedBefore
  planCoherent := h.planCoherent

theorem State.Settled.warnRange (h : s.Settled) (p : PlanInputs) : (s.warnRange p).Settled where
  memCanonical := by simpa using h.memCanonical
  errCodeAgrees := by simpa using h.errCodeAgrees
  warnedBefore hw := by
    simp only [State.warnRange_warn, State.warnRange_warnedOnce, Bool.or_eq_true, Bool.and_eq_true] at hw ⊢
    exact hw.imp h.warnedBefore And.left
  planCoherent := by simpa using h.planCoherent

theorem State.Settled.storePlan (h : s.Settled) {p : Plan} {d : Nat} (hp : s.regs.inputs.buildPlan s.params d = .ok p) :
    (s.storePlan p).Settled :=
  ⟨h.memCanonical, h.errCodeAgrees, h.warnedBefore, fun _ => ⟨d, hp⟩⟩

theorem State.Settled.losePlan (h : s.Settled) : s.losePlan.Settled :=
  ⟨h.memCanonical, h.errCodeAgrees, h.warnedBefore, nofun⟩

theorem State.Settled.writeSlice (h : s.Settled) : s.writeSlice.Settled :=
  ⟨State.sliceMemory_wf h.memCanonical, h.errCodeAgrees, h.warnedBefore, h.planCoherent⟩

end

/-! ### The codes of a failed PLAN -/

theorem raiseIf_ne_none {b : Bool} {c : ErrCode} (hc : c ≠ .none) : raiseIf b c ≠ .error .none :=
  fun h => hc (raiseIf_error.1 h).2

/-- A computation in two parts that never fail with ErrCode 0 does not either. -/
theorem except_bind_ne_none {α β : Type} {x : Except ErrCode α} {f : α → Except ErrCode β} (hx : x ≠ .error .none)
    (hf : ∀ a, f a ≠ .error .none) : (x >>= f) ≠ .error .none := fun h =>
  (except_bind_error.1 h).elim hx fun ⟨a, _, ha⟩ => hf a ha

theorem PixFmt.check_ne_none (f : PixFmt) : f.check ≠ .error .none := by
  unfold PixFmt.check
  split_ifs
  exacts [nofun, nofun, raiseIf_ne_none (by decide), nofun, nofun, raiseIf_ne_none (by decide)]

namespace PlanInputs
variable (p : PlanInputs)

theorem checkFormats_ne_none : p.checkFormats ≠ .error .none :=
  except_bind_ne_none p.inFmt.check_ne_none fun _ => except_bind_ne_none p.outFmt.check_ne_none fun _ =>
    except_bind_ne_none (raiseIf_ne_none (by decide)) fun _ => except_bind_ne_none (raiseIf_ne_none (by decide)) fun _ =>
      raiseIf_ne_none (by decide)

theorem checkTags_ne_none : p.checkTags ≠ .error .none :=
  except_bind_ne_none (raiseIf_ne_none (by decide)) fun _ => except_bind_ne_none (raiseIf_ne_none (by decide)) fun _ =>
    raiseIf_ne_none (by decide)

theorem checkFront_ne_none : p.checkFront ≠ .error .none :=
  except_bind_ne_none p.checkFormats_ne_none fun _ => except_bind_ne_none (raiseIf_ne_none (by decide)) fun _ =>
    except_bind_ne_none p.checkTags_ne_none fun _ => raiseIf_ne_none (by decide)

theorem stepPrimaries_ne_none : p.stepPrimaries ≠ .error .none := by
  unfold stepPrimaries
  split
  · split <;> exact nofun
  · exact nofun

theorem stepMatrix_ne_none : p.stepMatrix ≠ .error .none := by
  unfold stepMatrix
  split
  · exact nofun
  · split <;> exact nofun

theorem stepLuts_ne_none (mode : Rounding) (draw : Nat) : p.stepLuts mode draw ≠ .error .none := by
  unfold stepLuts
  split
  · exact nofun
  · split <;> exact nofun
  · exact nofun

/-- A PLAN that fails reports a code (R300, R305). -/
theorem buildPlan_ne_none (pr : Params) (draw : Nat) : p.buildPlan pr draw ≠ .error .none :=
  except_bind_ne_none p.checkFront_ne_none fun _ => except_bind_ne_none (raiseIf_ne_none (by decide)) fun _ =>
    except_bind_ne_none p.stepPrimaries_ne_none fun _ => except_bind_ne_none (raiseIf_ne_none (by decide)) fun _ =>
      except_bind_ne_none p.stepMatrix_ne_none fun _ => except_bind_ne_none (p.stepLuts_ne_none _ _) fun _ =>
        except_bind_ne_none (raiseIf_ne_none (by decide)) fun _ => nofun

end PlanInputs

/-! ### The engine's turn -/

theorem State.Inv.execPlan {s t : State} (h : s.Inv) (ht : execPlan s = .next t) : t.Inv := by
  have settled : (s.warnRange s.operands.inputs).Settled := (State.inv_iff.1 h).1.warnRange _
  rcases execPlan_cases s with ⟨c, hc, e⟩ | ⟨p, hp, e⟩ <;> rw [e] at ht <;> cases ht
  · have code : c ≠ .none := by
      rintro rfl
      exact PlanInputs.buildPlan_ne_none _ _ _ hc
    exact (settled.losePlan.raise code).bumpDraws.inv_of_idle rfl rfl
  · have built : (s.warnRange s.operands.inputs).regs.inputs.buildPlan (s.warnRange s.operands.inputs).params s.draws = .ok p := by
      rwa [State.warnRange_regs, State.warnRange_params, ← h.operands_eq]
    exact (settled.storePlan built).finish.bumpDraws.inv_of_idle rfl rfl

theorem State.Inv.execConvertSlice {s t : State} (h : s.Inv) (ht : execConvertSlice s = .next t) : t.Inv := by
  have settled : s.Settled := (State.inv_iff.1 h).1
  rcases execConvertSlice_cases s with ⟨-, e⟩ | ⟨-, -, e⟩ | ⟨-, -, -, e⟩ | ⟨-, -, -, -, e⟩ | ⟨-, -, -, -, e⟩ <;>
    rw [e] at ht <;> cases ht
  · exact (settled.raise (by decide)).inv_of_idle rfl rfl
  · exact (settled.raise (by decide)).inv_of_idle rfl rfl
  · exact settled.finish.inv_of_idle rfl rfl
  · exact settled.writeSlice.finish.bumpDraws.inv_of_idle rfl rfl

theorem State.Inv.finishTf {s : State} (h : s.Inv) (r : Option Fl) : (s.finishTf r).Inv := by
  have settled : s.Settled := (State.inv_iff.1 h).1
  rcases s.finishTf_cases r with ⟨-, e⟩ | ⟨v, -, e⟩ <;> rw [e]
  · exact (settled.raise (by decide)).inv_of_idle rfl rfl
  · exact State.Settled.inv_of_idle ⟨settled.memCanonical, settled.errCodeAgrees, settled.warnedBefore, settled.planCoherent⟩ rfl rfl

theorem State.Inv.execInvalidate {s t : State} (h : s.Inv) (ht : execInvalidate s = .next t) : t.Inv := by
  cases ht
  exact State.Settled.inv_of_idle ⟨h.memCanonical, h.errCodeAgrees, h.warnedBefore, nofun⟩ rfl rfl

/-- A command that completes keeps the invariant. -/
theorem State.Inv.exec {s t : State} {i : Instr} (h : s.Inv) (ht : exec i s = .next t) : t.Inv := by
  cases i with
  | nop =>
    cases ht
    exact (State.inv_iff.1 h).1.finish.inv_of_idle rfl rfl
  | plan => exact h.execPlan ht
  | convertSlice => exact h.execConvertSlice ht
  | invalidate => exact h.execInvalidate ht
  | tfEvalD side =>
    cases ht
    exact h.finishTf _
  | tfEvalL side =>
    cases ht
    exact h.finishTf _

theorem State.Inv.engineStep {s t : State} (h : s.Inv) (ht : engineStep s = .next t) : t.Inv := by
  rcases engineStep_cases s with ⟨-, e⟩ | ⟨_, _, i, -, -, e⟩ | ⟨_, _, _, -, -, e⟩ <;> rw [e] at ht
  · cases ht
    exact h
  · exact h.exec ht
  · cases ht
    exact ((State.inv_iff.1 h).1.raise (by decide)).inv_of_idle rfl rfl

/-! ### The host's actions -/

/-- What the invariant does not speak of: IRQ_EN, LUT_INDEX, and the model's own moves, host data and draws. -/
theorem State.Inv.unseen {s : State} (h : s.Inv) (irqEn : IrqEn) (lutIndex : BitVec 16) (agenda : List Move) (hostData : Word)
    (draws : Nat) :
    State.Inv { s with irqEn := irqEn, lutIndex := lutIndex, agenda := agenda, hostData := hostData, draws := draws } := by
  obtain ⟨settled, sound⟩ := State.inv_iff.1 h
  exact State.inv_iff.2 ⟨⟨settled.memCanonical, settled.errCodeAgrees, settled.warnedBefore, settled.planCoherent⟩,
    sound.congr rfl rfl rfl rfl rfl id .inl⟩

theorem State.Inv.refuseBusy {s : State} (h : s.Inv) : s.refuseBusy.Inv := by
  obtain ⟨settled, sound⟩ := State.inv_iff.1 h
  exact State.inv_iff.2 ⟨⟨settled.memCanonical, by simp, settled.warnedBefore, settled.planCoherent⟩,
    sound.congr rfl rfl rfl rfl rfl id .inl⟩

/-- The acceptance of a word keeps the invariant, when it launches no conversion of memory with side effects. -/
theorem State.Inv.accept {s : State} (h : s.Inv) {w : Word} (ordinary : (s.accept w).runsOnDevice = false) : (s.accept w).Inv where
  memCanonical := h.memCanonical
  errCodeAgrees := by simp
  operandsHeld v ops hs := by
    cases hs
    rfl
  busyNotDone _ := rfl
  warnedBefore := h.warnedBefore
  disturbedBusy _ := rfl
  ordinaryLaunch := ordinary
  planCoherent := h.planCoherent

theorem State.Inv.writeStatus {s : State} (h : s.Inv) (w : Word) : (s.writeStatus w).Inv := by
  obtain ⟨settled, sound⟩ := State.inv_iff.1 h
  refine State.inv_iff.2 ⟨⟨settled.memCanonical, ?err, fun hw => settled.warnedBefore (Bool.and_elim_left hw), settled.planCoherent⟩,
    sound.congr rfl rfl rfl rfl rfl Bool.and_elim_left .inl⟩
  case err =>
    cases hb : wordBit w 2
    · simpa [hb] using settled.errCodeAgrees
    · simp [hb]

/-- A write accepted while IDLE drops the plan when it changes the plan's inputs. -/
theorem State.Inv.writeIdle {s : State} (h : s.Inv) (idle : s.seq = .idle) (r : Reg) (w : Word) : (s.writeIdle r w).Inv := by
  obtain ⟨settled, sound⟩ := State.inv_iff.1 h
  have undisturbed : s.disturbed = false := sound.undisturbed (State.isBusy_idle idle)
  rcases s.writeIdle_cases r w with ⟨f, e⟩ | ⟨f, e, hf⟩ | e | e <;> rw [e]
  · exact State.Settled.inv_of_idle ⟨settled.memCanonical, settled.errCodeAgrees, settled.warnedBefore, nofun⟩
      idle undisturbed
  · refine State.Settled.inv_of_idle ⟨settled.memCanonical, settled.errCodeAgrees, settled.warnedBefore, ?_⟩ idle undisturbed
    simpa [hf] using settled.planCoherent
  · exact h.unseen _ _ _ _ _
  · exact h

theorem State.Inv.hostWrite {s t : State} (h : s.Inv) {r : Reg} {w : Word} (ht : s.hostWrite r w = .next t) : t.Inv := by
  rcases s.hostWrite_cases r w with ⟨e, ordinary⟩ | ⟨-, -, -, e⟩ <;> rw [e] at ht <;> cases ht
  rcases s.writeReg_cases r w with
    ⟨-, -, e⟩ | ⟨-, hb, e⟩ | ⟨-, e⟩ | ⟨-, e⟩ | ⟨-, -, -, -, e⟩ | ⟨-, -, -, hb, e⟩ <;> rw [e] at ordinary ⊢
  · exact h.refuseBusy
  · exact h.accept (ordinary hb)
  · exact h.writeStatus w
  · exact h.unseen _ _ _ _ _
  · exact h
  · exact h.writeIdle (State.seq_idle_of_not_busy hb) r w

/-- A host write to frame memory disturbs a running command only. -/
theorem State.Inv.hostMemWrite {s : State} (h : s.Inv) (a : Word) (v : Byte) : (s.hostMemWrite a.toNat v).Inv := by
  obtain ⟨settled, sound⟩ := State.inv_iff.1 h
  refine State.inv_iff.2 ⟨⟨Memory.wf_setByte v settled.memCanonical a.isLt, settled.errCodeAgrees, settled.warnedBefore,
    settled.planCoherent⟩, sound.congr rfl rfl rfl rfl rfl id fun hd => ?_⟩
  simp only [State.hostMemWrite, Bool.or_eq_true, List.contains_iff_mem] at hd
  rcases hd with (hd | hr) | hw
  · exact .inl hd
  · exact .inr (State.isBusy_of_mem_runningSet hr)
  · exact .inr (State.isBusy_of_mem_runningSet hw)

theorem State.Inv.hostMemRead {s : State} (h : s.Inv) (a : Nat) : (s.hostMemRead a).Inv := by
  unfold State.hostMemRead
  split
  · exact h.unseen _ _ _ _ _
  · exact h.unseen _ _ _ _ _

theorem State.Inv.resetInput {s : State} (h : s.Inv) : s.resetInput.Inv :=
  State.Settled.inv_of_idle
    ⟨Memory.wf_scramble _ _ h.memCanonical, by simp, nofun, nofun⟩ rfl rfl

/-- A host action that is carried out keeps the invariant. -/
theorem State.Inv.hostStep {s t : State} {op : HostOp} (h : s.Inv) (ht : s.hostStep op = .next t) : t.Inv := by
  cases op with
  | regWrite off size w =>
    simp only [State.hostStep] at ht
    split_ifs at ht
    exact h.hostWrite ht
  | regRead off size =>
    simp only [State.hostStep] at ht
    split_ifs at ht
    cases ht
    exact h.unseen _ _ _ _ _
  | memWrite a v =>
    simp only [State.hostStep] at ht
    split_ifs at ht
    cases ht
    exact h.hostMemWrite a v
  | memRead a =>
    simp only [State.hostStep] at ht
    split_ifs at ht
    cases ht
    exact h.hostMemRead a.toNat
  | wait =>
    cases ht
    exact h
  | reset =>
    cases ht
    exact h.resetInput

/-! ### The statements -/

theorem State.Inv.engineMoves {s u : State} (h : s.Inv) (hu : s.EngineMoves u) : u.Inv := by
  rcases hu with ⟨-, rfl⟩ | ⟨rest, -, rfl⟩ | ⟨-, -, -, rfl⟩
  · exact h
  · exact h.unseen _ _ _ _ _
  · exact h

/-- Settles O58: a step is a turn of the engine (`State.Inv.engineStep`), the end of a WAIT, or another host action
(`State.Inv.hostStep`). -/
theorem everyStepKeepsTheInvariant : Obligations.EveryStepKeepsTheInvariant := by
  unfold Obligations.EveryStepKeepsTheInvariant
  intro s t h ht
  rcases step_cases s with ⟨u, hu, e⟩ | ⟨rest, -, -, e⟩ | ⟨op, rest, -, -, e⟩ <;> rw [e] at ht
  · exact (h.engineMoves hu).engineStep ht
  · cases ht
    exact h.unseen _ _ _ _ _
  · exact State.Inv.hostStep (h.unseen _ _ _ _ _) ht

/-- Settles O59: after reset the engine is idle, without a plan, and memory lists no byte. -/
theorem resetHasTheInvariant : Obligations.ResetHasTheInvariant :=
  State.Settled.inv_of_idle
    ⟨State.reset_mem_wf, by simp [State.reset], nofun, nofun⟩ rfl rfl

end Sys2Proof.Machine
end

