-- ==== Sys2Proof/Proofs/RegisterAccess.lean ====
section
/-! SUPPORT. O8, O9, O10, O12: which register stands at an offset, what a write to it does, and the accesses that have no register
or no meaning (10_state.md R22 to R26, R39, R56). -/

namespace Sys2Proof.Machine

/-! ### The accesses of a step -/

theorem step_host {s : State} {op : HostOp} {rest : List Move} (ha : s.agenda = .host op :: rest) (hw : op ≠ .wait) :
    step s = State.hostStep op { s with agenda := rest } := by
  rw [← State.popAgenda_of_cons ha]
  unfold step
  rw [ha]
  cases op with
  | wait => exact absurd rfl hw
  | regWrite | regRead | memWrite | memRead | reset => rfl

/-- Beyond the block there is no register (R22, log 14). -/
theorem State.hostStep_outside (s : State) {off : BitVec 12} (h : State.blockSize ≤ off.toNat) (size : Nat) (w : Word) :
    s.hostStep (.regWrite off size w) = .fault .outsideRegisterBlock
      ∧ s.hostStep (.regRead off size) = .fault .outsideRegisterBlock :=
  ⟨if_pos h, if_pos h⟩

/-- A sub-word, multi-word or misaligned access is refused (R56, I-3). -/
theorem State.hostStep_otherShape (s : State) {off : BitVec 12} {size : Nat} (h : off.toNat < State.blockSize)
    (shape : size ≠ 4 ∨ off.toNat % 4 ≠ 0) (w : Word) :
    s.hostStep (.regWrite off size w) = .refused .badRegisterAccess
      ∧ s.hostStep (.regRead off size) = .refused .badRegisterAccess := by
  have bad : ¬ State.goodAccess off size = true := by
    simpa only [State.goodAccess, Bool.and_eq_true, beq_iff_eq, not_and_or] using shape
  have inside : ¬ State.blockSize ≤ off.toNat := Nat.not_le.2 h
  exact ⟨(if_neg inside).trans (if_neg bad), (if_neg inside).trans (if_neg bad)⟩

/-- A write to a register other than CMD is carried out. -/
theorem step_regWrite_of_ne_cmd {s : State} {off : BitVec 12} {w : Word} {rest : List Move} {r : Reg}
    (ho : off.toNat < State.blockSize) (h4 : off.toNat % 4 = 0) (ha : s.agenda = .host (.regWrite off 4 w) :: rest)
    (hr : Reg.ofOffset off.toNat = r) (hc : r ≠ .cmd) : step s = .next (State.writeReg { s with agenda := rest } r w) := by
  rw [step_regWrite ho h4 ha, hr, State.hostWrite_of_ne_cmd _ w hc]

theorem loWord_eq_extractLsb (v : DWord) : loWord v = v.extractLsb 31 0 := by
  apply BitVec.eq_of_toNat_eq
  rw [loWord_toNat, BitVec.extractLsb_toNat, Nat.shiftRight_zero]

theorem hiWord_eq_extractLsb (v : DWord) : hiWord v = v.extractLsb 63 32 := by
  apply BitVec.eq_of_toNat_eq
  rw [hiWord_toNat, BitVec.extractLsb_toNat, Nat.shiftRight_eq_div_pow]
  have hv := v.isLt
  omega

/-! ### The register at an offset (R22) -/

theorem Reg.eq_offset_of_ofOffset {o : Nat} {r : Reg} (h4 : o % 4 = 0) (h : Reg.ofOffset o = r) (hr : r ≠ .reserved) :
    o = r.offset := by
  rw [← h, Reg.offset_ofOffset h4 (h ▸ hr)]

/-- The offsets behind PLAN_INFO and behind the coefficient window hold no register. -/
theorem Reg.ofOffset_reserved {o : Nat} (h : (0x08C ≤ o ∧ o < 0x100) ∨ 0x348 ≤ o) : Reg.ofOffset o = .reserved := by
  have unlisted : singleRegs.lookup o = none := by
    rw [List.lookup_eq_none_iff]
    have low : ∀ p ∈ singleRegs, p.1 < 0x08C := by decide
    intro p hp
    have := low p hp
    simp only [bne_iff_ne]
    omega
  unfold Reg.ofOffset
  rw [if_neg (by omega), if_neg (by omega), if_neg (by omega), if_neg (by omega), unlisted]
  rfl

theorem Reg.ofOffset_coef {o : Nat} (h1 : 0x200 ≤ o) (h2 : o < 0x348) : Reg.ofOffset o = .coef ((o - 0x200) / 4) := by
  unfold Reg.ofOffset
  rw [if_neg (by omega), if_neg (by omega), if_neg (by omega), if_pos ⟨h1, h2⟩]

/-- The read-only and the reserved registers (R56). -/
def Reg.ignoresWrites : Reg → Bool
  | .id | .version | .tfResLo | .tfResHi | .lutData | .planInfo | .coef _ | .reserved => true
  | .block _ k => decide (30 ≤ k)
  | _ => false

/-- The reserved offsets (R22, R35, R56): a reserved register, or a reserved word of a descriptor block. -/
theorem Reg.ofOffset_reserved_cases {o : Nat} (h : (0x08C ≤ o ∧ o < 0x100) ∨ (0x178 ≤ o ∧ o < 0x180) ∨ (0x1F8 ≤ o ∧ o < 0x200)
    ∨ (0x348 ≤ o ∧ o < 0x400)) : Reg.ofOffset o = .reserved ∨ ∃ side k, 30 ≤ k ∧ Reg.ofOffset o = .block side k := by
  rcases h with h | ⟨h1, h2⟩ | ⟨h1, h2⟩ | ⟨h, -⟩
  · exact .inl (Reg.ofOffset_reserved (.inl h))
  · exact .inr ⟨_, _, by omega, Reg.ofOffset_block_input (by omega) h2⟩
  · exact .inr ⟨_, _, by omega, Reg.ofOffset_block_output (by omega) h2⟩
  · exact .inl (Reg.ofOffset_reserved (.inr h))

/-- ID, VERSION, TF_RES, LUT_DATA, PLAN_INFO and the coefficient window are read-only. -/
theorem Reg.ignoresWrites_of_readOnly {o : Nat} (h4 : o % 4 = 0) (h : o < 0x008 ∨ (0x038 ≤ o ∧ o < 0x040)
    ∨ (0x084 ≤ o ∧ o < 0x08C) ∨ (0x200 ≤ o ∧ o < 0x348)) : (Reg.ofOffset o).ignoresWrites = true := by
  rcases h with h | h | h | ⟨h1, h2⟩
  · obtain rfl | rfl : o = 0x000 ∨ o = 0x004 := by omega
    · rfl
    · rfl
  · obtain rfl | rfl : o = 0x038 ∨ o = 0x03C := by omega
    · rfl
    · rfl
  · obtain rfl | rfl : o = 0x084 ∨ o = 0x088 := by omega
    · rfl
    · rfl
  · rw [Reg.ofOffset_coef h1 h2]
    rfl

/-! ### Writes that change nothing -/

theorem State.setBlock_reserved (s : State) (side : Side) {k : Nat} (w : Word) (h : 30 ≤ k) : s.setBlock side k w = s :=
  if_pos (by rw [Blk.readWord_of_le _ h]; rfl)

theorem State.writeReg_ignored (s : State) {r : Reg} (w : Word) (h : r.ignoresWrites = true) : s.writeReg r w = s := by
  have idle : s.writeIdle r w = s := by
    cases r with
    | id | version | tfResLo | tfResHi | lutData | planInfo | coef | reserved => rfl
    | block side k => exact s.setBlock_reserved side w (of_decide_eq_true h)
    | cmd | status | irqEn | options | frameW | frameH | inFmt | outFmt | sliceH1 | sliceH2 | tfArgLo | tfArgHi | base | stride
      | lutIndex => cases h
  rcases s.writeReg_cases r w with ⟨rfl, -⟩ | ⟨rfl, -⟩ | ⟨rfl, -⟩ | ⟨rfl, -⟩ | ⟨-, -, -, -, e⟩ | ⟨-, -, -, -, e⟩
  any_goals cases h
  · exact e
  · rw [e, idle]

theorem step_regWrite_ignored {s : State} {off : BitVec 12} {w : Word} {rest : List Move} (ho : off.toNat < State.blockSize)
    (h4 : off.toNat % 4 = 0) (ha : s.agenda = .host (.regWrite off 4 w) :: rest)
    (hr : (Reg.ofOffset off.toNat).ignoresWrites = true) : step s = .next { s with agenda := rest } := by
  have hc : Reg.ofOffset off.toNat ≠ .cmd := fun e => by
    rw [e] at hr
    cases hr
  rw [step_regWrite_of_ne_cmd ho h4 ha rfl hc, State.writeReg_ignored _ w hr]

/-- While a command runs, only CMD, STATUS and IRQ_EN take a write (R56). -/
theorem State.writeReg_busy {s : State} (hb : s.isBusy = true) {r : Reg} (w : Word) (hc : r ≠ .cmd) (hs : r ≠ .status)
    (hi : r ≠ .irqEn) : s.writeReg r w = s := by
  rcases s.writeReg_cases r w with ⟨e, -⟩ | ⟨e, -⟩ | ⟨e, -⟩ | ⟨e, -⟩ | ⟨-, -, -, -, e⟩ | ⟨-, -, -, idle, -⟩
  · exact absurd e hc
  · exact absurd e hc
  · exact absurd e hs
  · exact absurd e hi
  · exact e
  · rw [hb] at idle
    cases idle

/-- Settles O8: each kind of access is a lemma about `hostStep` or `writeReg`, once the offset is a register. -/
theorem registerAccessRules : Obligations.RegisterAccessRules := by
  unfold Obligations.RegisterAccessRules
  refine ⟨?values, ?outside, ?read, ?reserved, ?readOnly, ?busy, ?busyCmd, ?shape⟩
  case values =>
    intro s
    exact ⟨rfl, rfl, rfl, loWord_eq_extractLsb s.tfRes, hiWord_eq_extractLsb s.tfRes⟩
  case outside =>
    intro s off size w rest h
    exact ⟨fun ha => (step_host ha nofun).trans (State.hostStep_outside _ h size w).1,
      fun ha => (step_host ha nofun).trans (State.hostStep_outside _ h size w).2⟩
  case read =>
    intro s off rest ho h4 ha
    exact (step_host ha nofun).trans (State.hostStep_regRead _ ho h4)
  case reserved =>
    intro s off w rest h4 h
    have ho : off.toNat < State.blockSize := by
      unfold State.blockSize
      omega
    rcases Reg.ofOffset_reserved_cases h with e | ⟨side, k, hk, e⟩
    · exact ⟨by rw [e]; rfl, fun ha => step_regWrite_ignored ho h4 ha (by rw [e]; rfl)⟩
    · exact ⟨by rw [e, State.readReg, Blk.readWord_of_le _ hk]; rfl,
        fun ha => step_regWrite_ignored ho h4 ha (by rw [e]; exact decide_eq_true hk)⟩
  case readOnly =>
    intro s off w rest h4 h ha
    have ho : off.toNat < State.blockSize := by
      unfold State.blockSize
      omega
    exact step_regWrite_ignored ho h4 ha (Reg.ignoresWrites_of_readOnly h4 h)
  case busy =>
    intro s off v w ops rest ho h4 hcmd hstatus hirq hseq ha
    have ne : ∀ r : Reg, r ≠ .reserved → off.toNat ≠ r.offset → Reg.ofOffset off.toNat ≠ r :=
      fun r hr hne e => hne (Reg.eq_offset_of_ofOffset h4 e hr)
    have hc : Reg.ofOffset off.toNat ≠ .cmd := ne .cmd nofun hcmd
    have hb : State.isBusy { s with agenda := rest } = true := State.isBusy_of_seq _ hseq
    rw [step_regWrite_of_ne_cmd ho h4 ha rfl hc, State.writeReg_busy hb w hc (ne .status nofun hstatus) (ne .irqEn nofun hirq)]
  case busyCmd =>
    intro s v w ops rest hseq ha
    have hb : State.isBusy { s with agenda := rest } = true := State.isBusy_of_seq _ hseq
    rw [step_regWrite (by decide) (by decide) ha, State.hostWrite_busy hb]
    exact congrArg Host.Outcome.next (if_pos hb)
  case shape =>
    intro s off size w rest h shape
    exact ⟨fun ha => (step_host ha nofun).trans (State.hostStep_otherShape _ h shape w).1,
      fun ha => (step_host ha nofun).trans (State.hostStep_otherShape _ h shape w).2⟩

/-! ### Plan inputs (R39) -/

/-- The registers that PLAN reads. -/
def Reg.isPlanInput : Reg → Bool
  | .options | .frameW | .frameH | .inFmt | .outFmt => true
  | .block _ k => decide (k < 30)
  | _ => false

theorem Reg.isPlanInput_ofOffset {o : Nat} (h4 : o % 4 = 0) : (Reg.ofOffset o).isPlanInput = true ↔ isPlanInputOffset o := by
  unfold isPlanInputOffset
  constructor
  · generalize hr : Reg.ofOffset o = r
    intro h
    have ho : o = r.offset := Reg.eq_offset_of_ofOffset h4 hr (by rintro rfl; cases h)
    cases r with
    | options | frameW | frameH | inFmt | outFmt =>
      simp only [Reg.offset] at ho
      omega
    | block side k =>
      have hk : k < 30 := of_decide_eq_true h
      cases side <;> simp only [Reg.offset] at ho <;> omega
    | _ => cases h
  · rintro (h | h | h)
    · obtain rfl | rfl | rfl | rfl | rfl : o = 0x014 ∨ o = 0x018 ∨ o = 0x01C ∨ o = 0x020 ∨ o = 0x024 := by omega
      all_goals rfl
    · rw [Reg.ofOffset_block_input (by omega) (by omega)]
      exact decide_eq_true (by omega)
    · rw [Reg.ofOffset_block_output (by omega) (by omega)]
      exact decide_eq_true (by omega)

/-- A write to a plan input, accepted while IDLE, clears PLAN_VALID whatever is written. -/
theorem State.writeReg_planInput {s : State} (hb : s.isBusy = false) {r : Reg} (w : Word) (h : r.isPlanInput = true) :
    (s.writeReg r w).planValid = false := by
  have idle : (s.writeIdle r w).planValid = false := by
    cases r with
    | options | frameW | frameH | inFmt | outFmt => rfl
    | block side k =>
      have hk : k < 30 := of_decide_eq_true h
      cases side
      · rw [State.writeIdle, s.setBlock_input w hk, State.setInputs_planValid]
      · rw [State.writeIdle, s.setBlock_output w hk, State.setInputs_planValid]
    | _ => cases h
  rcases s.writeReg_cases r w with ⟨rfl, -⟩ | ⟨rfl, -⟩ | ⟨rfl, -⟩ | ⟨rfl, -⟩ | ⟨-, -, -, busy, -⟩ | ⟨-, -, -, -, e⟩
  any_goals cases h
  · rw [hb] at busy
    cases busy
  · rw [e, idle]

/-- A write to any other register leaves PLAN_VALID and the plan inputs. -/
theorem State.writeReg_otherInput (s : State) {r : Reg} (w : Word) (h : r.isPlanInput = false) :
    (s.writeReg r w).planValid = s.planValid ∧ (s.writeReg r w).regs.inputs = s.regs.inputs := by
  have idle : (s.writeIdle r w).planValid = s.planValid ∧ (s.writeIdle r w).regs.inputs = s.regs.inputs := by
    cases r with
    | options | frameW | frameH | inFmt | outFmt => cases h
    | block side k =>
      rw [State.writeIdle, s.setBlock_reserved side w (Nat.not_lt.1 (of_decide_eq_false h))]
      exact ⟨rfl, rfl⟩
    | base side p => cases side <;> exact ⟨rfl, rfl⟩
    | stride side p => cases side <;> exact ⟨rfl, rfl⟩
    | _ => exact ⟨rfl, rfl⟩
  rcases s.writeReg_cases r w with
    ⟨-, -, e⟩ | ⟨-, -, e⟩ | ⟨-, e⟩ | ⟨-, e⟩ | ⟨-, -, -, -, e⟩ | ⟨-, -, -, -, e⟩ <;> rw [e]
  case inr.inr.inr.inr.inr => exact idle
  all_goals exact ⟨rfl, rfl⟩

/-- No register write reaches frame memory, plan storage, TF_RES or warned_once. -/
theorem State.writeReg_frame (s : State) (r : Reg) (w : Word) :
    (s.writeReg r w).mem = s.mem ∧ (s.writeReg r w).plan = s.plan ∧ (s.writeReg r w).tfRes = s.tfRes
      ∧ (s.writeReg r w).warnedOnce = s.warnedOnce := by
  rcases s.writeReg_cases r w with
    ⟨-, -, e⟩ | ⟨-, -, e⟩ | ⟨-, e⟩ | ⟨-, e⟩ | ⟨-, -, -, -, e⟩ | ⟨-, -, -, -, e⟩ <;> rw [e]
  case inr.inr.inr.inr.inr =>
    rcases s.writeIdle_cases r w with ⟨f, e⟩ | ⟨f, e, -⟩ | e | e <;> rw [e] <;> exact ⟨rfl, rfl, rfl, rfl⟩
  all_goals exact ⟨rfl, rfl, rfl, rfl⟩

/-- Settles O9: the offsets of R39 are those of the registers that PLAN reads (`Reg.isPlanInput_ofOffset`). -/
theorem planInputWritesClearPlanValid : Obligations.PlanInputWritesClearPlanValid := by
  unfold Obligations.PlanInputWritesClearPlanValid
  intro s off w rest idle ho h4 ha
  have idle' : State.seq { s with agenda := rest } = .idle := idle
  constructor
  · intro hcmd
    exact ⟨_, step_regWrite_of_ne_cmd ho h4 ha rfl fun e => hcmd (Reg.eq_offset_of_ofOffset h4 e nofun)⟩
  · intro t ht
    rw [step_regWrite ho h4 ha] at ht
    rcases State.hostWrite_cases _ _ _ with ⟨e, -⟩ | ⟨-, -, -, e⟩ <;> rw [e] at ht <;> cases ht
    obtain ⟨hmem, hplan, htf, hwarn⟩ := State.writeReg_frame { s with agenda := rest } (Reg.ofOffset off.toNat) w
    refine ⟨hmem, hplan, htf, hwarn, fun h => ?_, fun h => ?_⟩
    · have hin : (Reg.ofOffset off.toNat).isPlanInput = true := (Reg.isPlanInput_ofOffset h4).2 h
      have hc : Reg.ofOffset off.toNat ≠ .cmd := fun e => by
        rw [e] at hin
        cases hin
      exact ⟨State.writeReg_planInput (State.isBusy_idle idle') w hin, (State.writeReg_seq _ w hc).trans idle'⟩
    · exact State.writeReg_otherInput _ w (Bool.eq_false_iff.2 fun hin => h ((Reg.isPlanInput_ofOffset h4).1 hin))

/-! ### STATUS and IRQ_EN (R25, R26) -/

/-- Settles O10: at 0x00C stands STATUS, and its write is `State.writeStatus`, idle or BUSY. -/
theorem statusWriteOneToClear : Obligations.StatusWriteOneToClear := by
  unfold Obligations.StatusWriteOneToClear
  intro s w rest ha
  rw [step_regWrite_of_ne_cmd (r := .status) (by decide) (by decide) ha rfl nofun]
  simp only [State.writeReg, State.writeStatus, wordBit_eq_getLsbD]

theorem IrqEn.toWord_ofWord (w : Word) : (IrqEn.ofWord w).toWord = w &&& 0x7 := by
  apply BitVec.eq_of_toNat_eq
  rw [show (0x7 : Word) = BitVec.ofNat 32 (2 ^ 3 - 1) from rfl, toNat_and_lowMask w (by decide)]
  simp only [IrqEn.toWord, IrqEn.ofWord, bit_wordBit, BitVec.toNat_ofNat]
  omega

/-- Settles O12: at 0x010 stands IRQ_EN, whose three bits are all that it holds (`IrqEn.toWord_ofWord`). -/
theorem irqEnableRegister : Obligations.IrqEnableRegister := by
  unfold Obligations.IrqEnableRegister
  constructor
  · intro s w rest ha
    exact ⟨_, step_regWrite_of_ne_cmd (r := .irqEn) (by decide) (by decide) ha rfl nofun, rfl, wordBit_eq_getLsbD w 0,
      wordBit_eq_getLsbD w 1, wordBit_eq_getLsbD w 2, IrqEn.toWord_ofWord w⟩
  · rfl

end Sys2Proof.Machine
end

