-- ==== Sys2Proof/Proofs/Readback.lean ====
section
/-! SUPPORT. O37, O38, O56: the registers that show the plan, the coefficient window, PLAN_INFO and LUT_DATA (10_state.md R33, R34,
R38), and what every register reads after reset (R55). -/

namespace Sys2Proof.Machine

/-! ### The coefficient window (R38) -/

theorem State.readReg_coef (s : State) {k : Nat} (h : k < 82) :
    s.readReg (Reg.ofOffset (0x200 + 4 * k)) = if s.planValid then s.plan.coefWord k else 0 := by
  rw [Reg.ofOffset_coef (by omega) (by omega), show (0x200 + 4 * k - 0x200) / 4 = k by omega]
  rfl

/-- The entries of the five tables of the window, in its order. -/
def Plan.windowEntry (p : Plan) (i n m : Nat) : Word :=
  match i with
  | 0 => ((p.yuv2rgb.get n).get m).signExtend 32
  | 1 => ((p.rgb2yuv.get n).get m).signExtend 32
  | 2 => ((p.yuv2yuv.get n).get m).signExtend 32
  | 3 => ((p.lrgb2lrgb.get n).get m).signExtend 32
  | _ => (p.lrgb2lrgbf.get n).get m

/-- Each table starts at a multiple of 16 words and holds its rows one after another. -/
theorem Plan.coefWord_table (p : Plan) {i n m : Nat} (hi : i < 5) (hn : n < 3) (hm : m < 3) :
    p.coefWord (16 * i + (3 * n + m)) = p.windowEntry i n m := by
  have entry : (16 * i + (3 * n + m)) % 16 = 3 * n + m := by omega
  have table : (16 * i + (3 * n + m)) / 16 = i := by omega
  have row : (3 * n + m) / 3 = n := by omega
  have column : (3 * n + m) % 3 = m := by omega
  unfold Plan.coefWord
  rw [if_neg (by omega), if_neg (by omega), entry, table, if_pos (by omega)]
  interval_cases i <;> simp only [tableWord, row, column] <;> rfl

theorem State.readReg_window {s : State} (hv : s.planValid = true) {i n m : Nat} (hi : i < 5) (hn : n < 3) (hm : m < 3) :
    s.readReg (Reg.ofOffset (0x200 + 64 * i + 4 * (3 * n + m))) = s.plan.windowEntry i n m := by
  rw [show 0x200 + 64 * i + 4 * (3 * n + m) = 0x200 + 4 * (16 * i + (3 * n + m)) by omega, s.readReg_coef (by omega), hv, if_pos rfl,
    s.plan.coefWord_table hi hn hm]

/-- Settles O37: a table entry is `Plan.coefWord_table`, and the window is read-only because its registers ignore writes. -/
theorem coefficientWindow : Obligations.CoefficientWindow := by
  unfold Obligations.CoefficientWindow
  refine ⟨?unplanned, ?planned, ?readOnly⟩
  case unplanned =>
    intro s off hv h1 h2
    rw [Reg.ofOffset_coef h1 h2, State.readReg, hv]
    rfl
  case planned =>
    intro s n m hv hn hm
    have entry : ∀ i, i < 5 → s.readReg (Reg.ofOffset (0x200 + 64 * i + 4 * (3 * n + m))) = s.plan.windowEntry i n m :=
      fun i hi => State.readReg_window hv hi hn hm
    exact ⟨entry 0 (by decide), entry 1 (by decide), entry 2 (by decide), entry 3 (by decide), entry 4 (by decide),
      (s.readReg_coef (k := 80) (by decide)).trans (if_pos hv), (s.readReg_coef (k := 81) (by decide)).trans (if_pos hv)⟩
  case readOnly =>
    intro s off w rest h1 h2 h4 ha
    have ho : off.toNat < State.blockSize := h2.trans (by decide)
    exact step_regWrite_ignored ho h4 ha (Reg.ignoresWrites_of_readOnly h4 (.inr (.inr (.inr ⟨h1, h2⟩))))

/-! ### PLAN_INFO and LUT_DATA (R33, R34) -/

theorem Pipe.code_lt (p : Pipe) : p.code < 3 := by cases p <;> decide
theorem LutKind.code_lt (k : LutKind) : k.code < 3 := by cases k <;> decide
theorem Range.code_lt (r : Range) : r.code < 3 := by cases r <;> decide

/-- The low bits of PLAN_INFO, and its fields of two bits each from bit 6 on. -/
theorem Plan.info_fields (p : Plan) :
    (p.info.toNat / 2 ^ 0 % 2 = bit p.flags.rgb2rgbPt ∧ p.info.toNat / 2 ^ 1 % 2 = bit p.flags.lrgb2lrgbPt
      ∧ p.info.toNat / 2 ^ 2 % 2 = bit p.flags.yuv2yuvFast ∧ p.info.toNat / 2 ^ 3 % 2 = bit p.flags.yuv2yuvPt
      ∧ p.info.toNat / 2 ^ 4 % 2 = bit p.flags.inLinear ∧ p.info.toNat / 2 ^ 5 % 2 = bit p.flags.outExt)
    ∧ (p.info.toNat / 2 ^ 6 % 4 = p.pipe.code ∧ p.info.toNat / 2 ^ 8 % 4 = p.rangeIn.code
      ∧ p.info.toNat / 2 ^ 10 % 4 = p.rangeOut.code ∧ p.info.toNat / 2 ^ 12 % 4 = p.lutKind.code)
    ∧ (p.info.toNat / 2 ^ 14 % 4 = p.kernelIn.depthIdx.toNat ∧ p.info.toNat / 2 ^ 16 % 4 = p.kernelIn.ssIdx.toNat
      ∧ p.info.toNat / 2 ^ 18 % 4 = p.kernelOut.depthIdx.toNat ∧ p.info.toNat / 2 ^ 20 % 4 = p.kernelOut.ssIdx.toNat)
    ∧ p.info.toNat / 2 ^ 22 = 0 := by
  have h0 := bit_le_one p.flags.rgb2rgbPt
  have h1 := bit_le_one p.flags.lrgb2lrgbPt
  have h2 := bit_le_one p.flags.yuv2yuvFast
  have h3 := bit_le_one p.flags.yuv2yuvPt
  have h4 := bit_le_one p.flags.inLinear
  have h5 := bit_le_one p.flags.outExt
  have h6 := p.pipe.code_lt
  have h8 := p.rangeIn.code_lt
  have h10 := p.rangeOut.code_lt
  have h12 := p.lutKind.code_lt
  have h14 := p.kernelIn.depthIdx.isLt
  have h16 := p.kernelIn.ssIdx.isLt
  have h18 := p.kernelOut.depthIdx.isLt
  have h20 := p.kernelOut.ssIdx.isLt
  rw [Plan.info, BitVec.toNat_ofNat]
  omega

theorem extractLsb_eq_of_field {w : Word} {hi lo : Nat} {v : BitVec (hi - lo + 1)}
    (h : w.toNat / 2 ^ lo % 2 ^ (hi - lo + 1) = v.toNat) : w.extractLsb hi lo = v := by
  apply BitVec.eq_of_toNat_eq
  rw [BitVec.extractLsb_toNat, Nat.shiftRight_eq_div_pow, h]

theorem getLsbD_eq_of_bit {w : Word} {i : Nat} {b : Bool} (h : w.toNat / 2 ^ i % 2 = bit b) : w.getLsbD i = b :=
  (wordBit_eq_getLsbD w i).symm.trans (wordBit_of_bit h)

theorem extractLsb_append_halves (hi lo : Half) :
    ((hi ++ lo : Word).extractLsb 31 16 = hi) ∧ (hi ++ lo : Word).extractLsb 15 0 = lo := by
  have sum : (hi ++ lo : Word).toNat = 2 ^ 16 * hi.toNat + lo.toNat := by
    rw [BitVec.toNat_append, ← Nat.shiftLeft_add_eq_or_of_lt lo.isLt, Nat.shiftLeft_eq, Nat.mul_comm]
  have hhi := hi.isLt
  have hlo := lo.isLt
  constructor
  · exact extractLsb_eq_of_field (by rw [sum]; omega)
  · exact extractLsb_eq_of_field (by rw [sum]; omega)

theorem Plan.lutData_zero {p : Plan} {i : Nat} (h : p.lutKind = .none ∨ (p.lutKind = .int ∧ intLutSize ≤ i)) : p.lutData i = 0 := by
  unfold Plan.lutData
  rcases h with h | ⟨h, hi⟩
  · simp only [h]
  · simp only [h, if_pos hi]

theorem Plan.lutData_entries {p : Plan} {i : Nat} (h : p.lutKind = .half ∨ (p.lutKind = .int ∧ i < intLutSize)) :
    p.lutData i = lutEntry p.delinLut i ++ lutEntry p.linLut i := by
  unfold Plan.lutData
  rcases h with h | ⟨h, hi⟩
  · simp only [h]
  · simp only [h, if_neg (Nat.not_le.2 hi)]

/-- Settles O38: the fields of PLAN_INFO are `Plan.info_fields`, and LUT_DATA is an entry of each LUT or 0. -/
theorem planReadbackRegisters : Obligations.PlanReadbackRegisters := by
  unfold Obligations.PlanReadbackRegisters
  intro s
  have info : s.readReg (Reg.ofOffset 0x088) = if s.planValid then s.plan.info else 0 := rfl
  have data : s.readReg (Reg.ofOffset 0x084) = if s.planValid then s.plan.lutData s.lutIndex.toNat else 0 := rfl
  rw [info, data]
  refine ⟨fun hv => by rw [hv]; rfl, ?fields, ?noEntry, ?entries⟩
  case fields =>
    rintro hv w rfl
    rw [hv, if_pos rfl]
    obtain ⟨⟨b0, b1, b2, b3, b4, b5⟩, ⟨pipe, rangeIn, rangeOut, lutKind⟩, ⟨dIn, ssIn, dOut, ssOut⟩, rest⟩ := s.plan.info_fields
    exact ⟨getLsbD_eq_of_bit b0, getLsbD_eq_of_bit b1, getLsbD_eq_of_bit b2, getLsbD_eq_of_bit b3, getLsbD_eq_of_bit b4,
      getLsbD_eq_of_bit b5,
      extractLsb_eq_of_field (pipe.trans (by cases s.plan.pipe <;> rfl)),
      extractLsb_eq_of_field (rangeIn.trans (by cases s.plan.rangeIn <;> rfl)),
      extractLsb_eq_of_field (rangeOut.trans (by cases s.plan.rangeOut <;> rfl)),
      extractLsb_eq_of_field (lutKind.trans (by cases s.plan.lutKind <;> rfl)),
      extractLsb_eq_of_field dIn, extractLsb_eq_of_field ssIn, extractLsb_eq_of_field dOut, extractLsb_eq_of_field ssOut,
      extractLsb_eq_of_field (by rw [rest]; rfl)⟩
  case noEntry =>
    rintro (hv | h)
    · rw [hv]
      rfl
    · rw [Plan.lutData_zero h, ite_self]
  case entries =>
    intro hv h
    rw [hv, if_pos rfl, Plan.lutData_entries h]
    exact extractLsb_append_halves _ _

/-! ### After reset (R55) -/

theorem Blk.word_zero (k : Nat) : Blk.zero.word k = 0 := by
  rcases Nat.lt_or_ge k 30 with h | h
  · interval_cases k <;> rfl
  · rw [Blk.word, Blk.readWord_of_le _ h]
    rfl

/-- Settles O56: the stored registers hold zeros, and without a plan the readback registers show none. -/
theorem resetState : Obligations.ResetState := by
  unfold Obligations.ResetState
  refine ⟨rfl, rfl, ?zeros, rfl, rfl, rfl, rfl, rfl, rfl, rfl, rfl, rfl, rfl⟩
  case zeros =>
    intro r hid hversion
    cases r with
    | id => exact absurd rfl hid
    | version => exact absurd rfl hversion
    | base side p => cases side <;> fin_cases p <;> rfl
    | stride side p => cases side <;> fin_cases p <;> rfl
    | block side k =>
      cases side
      · exact Blk.word_zero k
      · exact Blk.word_zero k
    | _ => rfl

end Sys2Proof.Machine
end

