-- ==== Sys2Proof/Proofs/PlanOutcome.lean ====
section
/-! SUPPORT. O26, O29: the warning of a PLAN (10_state.md R50, 45_planner_and_commands.md R209), and the fill of the tables that a PLAN
does not build (10_state.md R48). -/

namespace Sys2Proof.Machine

/-! ### The warning (R209) -/

theorem except_isOk_iff {x : Except ErrCode Unit} : x.isOk = true ↔ x = .ok () := by
  cases x with
  | error e => exact ⟨nofun, nofun⟩
  | ok u => exact ⟨fun _ => rfl, fun _ => rfl⟩

theorem PlanInputs.seesUnspecifiedRange_iff (p : PlanInputs) :
    p.seesUnspecifiedRange = true ↔
      p.checkFront = .ok () ∧ p.inFmt.rgb = false ∧ (p.inBlk.range = 0 ∨ p.outBlk.range = 0) := by
  simp only [PlanInputs.seesUnspecifiedRange, PlanInputs.isRgb, Bool.and_eq_true, Bool.or_eq_true, beq_iff_eq, Bool.not_eq_true',
    except_isOk_iff, and_assoc]

/-- Failed or not, a PLAN leaves WARN and warned_once as range resolution does. -/
theorem execPlan_warning (s : State) :
    ∃ t, exec .plan s = .next t ∧ t.warn = (s.warnRange s.operands.inputs).warn
      ∧ t.warnedOnce = (s.warnRange s.operands.inputs).warnedOnce := by
  rcases execPlan_cases s with ⟨c, -, e⟩ | ⟨p, -, e⟩
  · exact ⟨_, e, rfl, rfl⟩
  · exact ⟨_, e, rfl, rfl⟩

/-- Settles O26: WARN and warned_once after `State.warnRange`, and when it sees an Unspecified range. -/
theorem planWarnsOncePerInstance : Obligations.PlanWarnsOncePerInstance := by
  unfold Obligations.PlanWarnsOncePerInstance
  intro s
  obtain ⟨t, e, hwarn, honce⟩ := execPlan_warning s
  refine ⟨t, e, ?_, ?_⟩
  · rw [hwarn, State.warnRange_warn, ← PlanInputs.seesUnspecifiedRange_iff, Bool.or_eq_true, Bool.and_eq_true, Bool.not_eq_true',
      and_comm (a := s.warnedOnce = false)]
  · rw [honce, State.warnRange_warnedOnce, ← PlanInputs.seesUnspecifiedRange_iff, Bool.or_eq_true]

/-! ### Tables that are not built (R48) -/

/-- A PLAN that ends with PLAN_VALID has built the plan it stores. -/
theorem execPlan_valid {s t : State} (h : exec .plan s = .next t) (hv : t.planValid = true) :
    s.operands.inputs.buildPlan s.params s.draws = .ok t.plan := by
  rcases execPlan_cases s with ⟨c, -, e⟩ | ⟨p, hp, e⟩ <;> rw [show exec .plan s = execPlan s from rfl, e] at h <;> cases h
  · cases hv
  · exact hp

section
variable {p : PlanInputs}

/-- The primaries solver does not run on a passthrough (R149). -/
theorem PlanInputs.stepPrimaries_fill (h : p.lrgb2lrgbPt = true ∨ p.rgb2rgbPt = true) :
    p.stepPrimaries = .ok (identityTable, identityTableF) := by
  have skips : p.runsPrimaries = false := by
    rcases h with h | h
    · simp [PlanInputs.runsPrimaries, h]
    · simp [PlanInputs.runsPrimaries, h]
  rw [PlanInputs.stepPrimaries, skips]
  rfl

/-- The matrix solver does not run for the RGB family (R171). -/
theorem PlanInputs.stepMatrix_rgb (h : p.inFmt.rgb = true) : p.stepMatrix = .ok (zeroTable, zeroTable, zeroTable) := if_pos h

/-- The composed matrix is built in fast mode only (R169). -/
theorem PlanInputs.matrixTables_notFast {rIn rOut : Range} {t : M3 Half × M3 Half × M3 Half}
    (h : p.matrixTables rIn rOut false = some t) : t.2.2 = zeroTable := by
  unfold PlanInputs.matrixTables at h
  split at h
  · simp only [Bool.false_eq_true, if_false] at h
    split at h
    · next hc =>
      cases h
      exact (Option.some.inj hc).symm
    · cases h
  · cases h

theorem PlanInputs.stepMatrix_notFast (hf : p.yuv2yuvFast = false) {t : M3 Half × M3 Half × M3 Half} (h : p.stepMatrix = .ok t) :
    t.2.2 = zeroTable := by
  unfold PlanInputs.stepMatrix at h
  rw [hf] at h
  split at h
  · cases h
    rfl
  · split at h
    · cases h
    · next ht =>
      cases h
      exact PlanInputs.matrixTables_notFast ht

/-- No LUT is built on a passthrough and on the single path (R180). -/
theorem PlanInputs.lutKind_none (h : p.rgb2rgbPt = true ∨ p.pipe = .f32) : p.lutKind = .none := by
  unfold PlanInputs.lutKind
  split
  · rfl
  · next hp => rw [h.resolve_left hp]

theorem PlanInputs.stepLuts_none {mode : Rounding} {draw : Nat} (h : p.lutKind = .none) : p.stepLuts mode draw = .ok ([], []) := by
  rw [PlanInputs.stepLuts, h]

/-- The RGB family has no range, so no offset is built (R171). -/
theorem PlanInputs.offset_rgb (h : p.inFmt.rgb = true) (side : Side) (d : Nat) :
    BitVec.ofNat 16 ((p.resolvedRange side).offset d) = 0 := by
  rw [show p.resolvedRange side = .notApplicable from if_pos h]
  rfl

end

/-- Settles O29: each step of phase C that builds nothing answers the fill, and the plan is assembled from the steps
(`PlanInputs.buildPlan_ok`). -/
theorem unbuiltTablesHoldTheirFill : Obligations.UnbuiltTablesHoldTheirFill := by
  unfold Obligations.UnbuiltTablesHoldTheirFill
  intro s t h hv
  obtain ⟨-, -, -, -, prim, mat, luts, hprim, hmat, hluts, e⟩ := PlanInputs.buildPlan_ok.1 (execPlan_valid h hv)
  rw [e]
  refine ⟨fun pt => ?primaries, fun rgb => ?matrices, fun fast => PlanInputs.stepMatrix_notFast fast hmat, fun pt => ?luts⟩
  case primaries =>
    rw [PlanInputs.stepPrimaries_fill pt] at hprim
    cases hprim
    exact ⟨rfl, rfl⟩
  case matrices =>
    rw [PlanInputs.stepMatrix_rgb rgb] at hmat
    cases hmat
    exact ⟨rfl, rfl, rfl, PlanInputs.offset_rgb rgb .input _, PlanInputs.offset_rgb rgb .output _⟩
  case luts =>
    have noLut : s.operands.inputs.lutKind = .none := PlanInputs.lutKind_none pt
    rw [PlanInputs.stepLuts_none noLut] at hluts
    cases hluts
    exact ⟨noLut, fun i => ⟨rfl, rfl⟩⟩

end Sys2Proof.Machine
end

