-- ==== Sys2Proof/Proofs/SampleBytes.lean ====
section
/-! SUPPORT. O51: sample sizes, sample addresses, and the n bytes of a read or a write of frame memory (20_memory.md R71, R73, R75,
R76). -/

namespace Sys2Proof.Machine

/-! ### Sizes of the supported formats (R73, R97) -/

/-- The 13 supported formats, read back from their words. -/
theorem PixFmt.mem_supported {f : PixFmt} (h : f.toWord ∈ supportedFormatWords) :
    f ∈ supportedFormatWords.map PixFmt.ofWord :=
  List.mem_map.2 ⟨f.toWord, h, f.ofWord_toWord⟩

theorem PixFmt.bps_supported {f : PixFmt} (h : f.toWord ∈ supportedFormatWords) :
    (f.depth = 8 ∧ f.bps = 1) ∨ ((f.depth = 10 ∨ f.depth = 12 ∨ f.depth = 16) ∧ f.bps = 2) ∨ (f.depth = 32 ∧ f.bps = 4) := by
  have table : ∀ g ∈ supportedFormatWords.map PixFmt.ofWord,
      (g.depth = 8 ∧ g.bps = 1) ∨ ((g.depth = 10 ∨ g.depth = 12 ∨ g.depth = 16) ∧ g.bps = 2) ∨ (g.depth = 32 ∧ g.bps = 4) := by
    decide
  exact table f (PixFmt.mem_supported h)

/-! ### Sample addresses (R75) -/

/-- The address of a sample is the exact sum of R75, cut to 32 bits. -/
theorem PlaneReg.addr_eq (r : PlaneReg) (bps x y : Nat) :
    (r.addr bps x y : Int) = ((r.base.toNat : Int) + y * r.stride.toInt + ((x * bps : Nat) : Int)) % 2 ^ 32 :=
  Int.toNat_of_nonneg (Int.emod_nonneg _ (by decide))

theorem PlaneReg.addr_lt (r : PlaneReg) (bps x y : Nat) : r.addr bps x y < memSize := by
  have h := Int.emod_lt_of_pos ((r.base.toNat : Int) + y * r.stride.toInt + ((x * bps : Nat) : Int)) (b := 2 ^ 32) (by decide)
  rw [← r.addr_eq] at h
  exact_mod_cast h

/-- The same sum in the arithmetic of 32-bit words. -/
theorem PlaneReg.ofNat_addr (r : PlaneReg) (bps x y : Nat) :
    BitVec.ofNat 32 (r.addr bps x y) = r.base + BitVec.ofNat 32 y * r.stride + BitVec.ofNat 32 (x * bps) := by
  have cut (i : Int) : BitVec.ofInt 32 (i % 2 ^ 32) = BitVec.ofInt 32 i := by
    apply BitVec.eq_of_toInt_eq
    rw [BitVec.toInt_ofInt, BitVec.toInt_ofInt]
    exact Int.emod_bmod _ _
  rw [← BitVec.ofInt_natCast, r.addr_eq, cut, BitVec.ofInt_add, BitVec.ofInt_add, BitVec.ofInt_mul, BitVec.ofInt_natCast,
    BitVec.ofInt_natCast, BitVec.ofInt_natCast, BitVec.ofInt_toInt, BitVec.ofNat_toNat, BitVec.setWidth_eq]

/-! ### The bytes of an access (R76) -/

/-- The bytes of an access are at the n addresses from its own on, modulo 2^32. -/
theorem mem_byteAddrs {a n x : Nat} : x ∈ byteAddrs a n ↔ ∃ k < n, x = (a + k) % memSize := by
  induction n generalizing a with
  | zero => simp [byteAddrs]
  | succ n ih =>
    rw [byteAddrs, List.mem_cons, ih, Nat.exists_lt_succ_left]
    simp only [Nat.add_zero, Nat.add_assoc, Nat.add_comm 1]

namespace Memory

/-- A read is the little-endian sum of its bytes. -/
theorem read_eq_sum (m : Memory) (a n : Nat) :
    m.read a n = ∑ k ∈ Finset.range n, (m.byte ((a + k) % memSize)).toNat * 2 ^ (8 * k) := by
  induction n generalizing a with
  | zero => rfl
  | succ n ih =>
    rw [Finset.sum_range_succ', Memory.read, ih, Finset.mul_sum, Nat.add_comm]
    congr 1
    · refine Finset.sum_congr rfl fun k _ => ?_
      rw [Nat.add_assoc a 1 k, Nat.add_comm 1 k, Nat.mul_add, pow_add]
      ring
    · simp

/-- Byte k of a write is byte k of the value written, the lowest first. -/
theorem byte_write {m : Memory} (hm : m.wf = true) {a n v k : Nat} (hn : n ≤ memSize) (hk : k < n) :
    (m.write a n v).byte ((a + k) % memSize) = BitVec.ofNat 8 (v / 2 ^ (8 * k)) := by
  induction n generalizing m a v k with
  | zero => cases hk
  | succ n ih =>
    rw [Memory.write]
    cases k with
    | zero =>
      have later : a % memSize ∉ byteAddrs (a + 1) n := by
        rw [mem_byteAddrs]
        rintro ⟨k, hk, e⟩
        unfold memSize at hn e
        omega
      rw [Nat.add_zero a, byte_write_of_not_mem _ _ _ _ _ later, byte_setByte_same _ _ hm, Nat.mul_zero, pow_zero, Nat.div_one]
    | succ k =>
      have next := ih (a := a + 1) (v := v / 256) (wf_setByte (BitVec.ofNat 8 v) hm (mod_memSize_lt a)) (by omega)
        (Nat.lt_of_succ_lt_succ hk)
      rw [Nat.div_div_eq_div_mul] at next
      rw [Nat.add_comm k 1, ← Nat.add_assoc, next, Nat.mul_add, pow_add]
      rfl

end Memory

/-- Settles O51: the sizes are those of the 13 formats; an address is `PlaneReg.ofNat_addr`; the bytes of a read and of a write are
`Memory.read_eq_sum` and `Memory.byte_write`. -/
theorem sampleAddressesAndBytes : Obligations.SampleAddressesAndBytes := by
  unfold Obligations.SampleAddressesAndBytes
  refine ⟨fun f => PixFmt.bps_supported, fun r bps x y => ⟨r.addr_lt bps x y, r.ofNat_addr bps x y⟩, Memory.read_eq_sum, ?write⟩
  case write =>
    intro m a n v hm hn
    refine ⟨fun k hk => Memory.byte_write hm hn hk, fun b hb => Memory.byte_write_of_not_mem m a n v b ?_⟩
    rw [mem_byteAddrs]
    rintro ⟨k, hk, e⟩
    exact hb k hk e

end Sys2Proof.Machine
end

