-- ==== Sys2Proof/Proofs/SliceSets.lean ====
section
/-! SUPPORT. O41, O42: the read and write sets of a slice byte by byte, what lies in them of memory with side effects, and the frame of
CONVERT_SLICE (20_memory.md R72 to R75, R79 to R84). -/

namespace Sys2Proof.Machine

/-! ### Planes, rows and bytes of a format (R72 to R74) -/

theorem PixFmt.mem_planes {f : PixFmt} {p : Fin 4} : p ∈ f.planes ↔ (p = 3 → f.alpha = true) := by
  unfold PixFmt.planes
  cases f.alpha
  · revert p
    decide
  · revert p
    decide

theorem PixFmt.isChroma_iff {f : PixFmt} {p : Fin 4} : f.isChroma p = true ↔ f.rgb = false ∧ (p = 1 ∨ p = 2) := by
  simp only [PixFmt.isChroma, Bool.and_eq_true, Bool.not_eq_true', Bool.or_eq_true, beq_iff_eq]

theorem PixFmt.bps_eq (f : PixFmt) : f.bps = if f.depth = 8 then 1 else if f.depth = 32 then 4 else 2 := by
  have d_eq (n : BitVec 6) : f.d = n.toNat ↔ f.depth = n := BitVec.toNat_inj
  exact if_congr (d_eq 8) rfl (if_congr (d_eq 32) rfl rfl)

/-- The samples of a slice: columns and rows are shifted for the chroma planes (R74, R80). -/
theorem PixFmt.mem_samples_iff {f : PixFmt} {p : Fin 4} {w h1 h2 x y : Nat} :
    (x, y) ∈ f.samples w h1 h2 p ↔
      (f.isChroma p = true → x < w / 2 ^ f.cw ∧ h1 / 2 ^ f.ch ≤ y ∧ y < h2 / 2 ^ f.ch)
        ∧ (¬f.isChroma p = true → x < w ∧ h1 ≤ y ∧ y < h2) := by
  rw [PixFmt.mem_samples]
  cases h : f.isChroma p
  · simp [PixFmt.planeWidth, PixFmt.planeRow, h]
  · simp [PixFmt.planeWidth, PixFmt.planeRow, h]

/-! ### The sets of a slice (R80) -/

/-- Byte k of a sample, in exact arithmetic cut to 32 bits once. -/
theorem PlaneReg.addr_add_mod (r : PlaneReg) (bps x y k : Nat) :
    (((r.addr bps x y + k) % memSize : Nat) : Int) = (r.base.toNat + y * r.stride.toInt + ((x * bps : Nat) : Int) + k) % 2 ^ 32 := by
  rw [Int.natCast_emod, Int.natCast_add, r.addr_eq]
  exact Int.emod_add_emod _ _ _

/-- A byte is in a set exactly when it is a byte of a sample in the slice, of one of the format's planes. -/
theorem mem_sampleBytes_iff {f : PixFmt} {planes : Quad PlaneReg} {w h1 h2 a : Nat} :
    a ∈ sampleBytes f planes w h1 h2 ↔ ∃ (p : Fin 4) (x y k : Nat), p ∈ f.planes ∧ (x, y) ∈ f.samples w h1 h2 p ∧ k < f.bps
      ∧ (a : Int) = ((planes.get p).base.toNat + y * (planes.get p).stride.toInt + ((x * f.bps : Nat) : Int) + k) % 2 ^ 32 := by
  simp only [sampleBytes, sampleAddrs, List.mem_flatMap, List.mem_map, mem_byteAddrs, ← PlaneReg.addr_add_mod, Nat.cast_inj]
  constructor
  · rintro ⟨_, ⟨p, hp, ⟨x, y⟩, hxy, rfl⟩, k, hk, e⟩
    exact ⟨p, x, y, k, hp, hxy, hk, e⟩
  · rintro ⟨p, x, y, k, hp, hxy, hk, e⟩
    exact ⟨_, ⟨p, hp, (x, y), hxy, rfl⟩, k, hk, e⟩

/-- An empty slice has no samples, so empty sets. -/
theorem sampleBytes_empty (f : PixFmt) (planes : Quad PlaneReg) (w h : Nat) : sampleBytes f planes w h h = [] := by
  simp [sampleBytes, sampleAddrs, PixFmt.samples, rowSamples]

theorem Plan.sets_empty (p : Plan) {r : Regs} (h : r.h1 = r.h2) : p.readSet r = [] ∧ p.writeSet r = [] := by
  unfold Plan.readSet Plan.writeSet
  rw [h]
  exact ⟨sampleBytes_empty .., sampleBytes_empty ..⟩

/-! ### What a slice leaves alone (R80, R82, R84) -/

/-- Whatever overlaps or was disturbed, a slice's memory differs only in the write set. -/
theorem State.sliceMemory_byte {s : State} {a : Nat} (h : a ∉ s.plan.writeSet s.operands) :
    s.sliceMemory.byte a = s.mem.byte a := by
  unfold State.sliceMemory
  simp only
  split
  · refine Memory.byte_writeSamples_of_not_mem _ _ _ _ fun w hw ha => h ?_
    have sample := Source.mem_sliceWrites hw
    exact mem_sampleBytes sample ha
  · refine Memory.byte_scramble_of_not_mem _ _ _ _ fun b hb e => h ?_
    have inMemory : b < memSize := lt_of_mem_sampleBytes hb
    rwa [e, Nat.mod_eq_of_lt inMemory]

/-- A CONVERT_SLICE that completes leaves memory as it was, or as `sliceMemory` says. -/
theorem exec_convertSlice_mem {s t : State} (h : exec .convertSlice s = .next t) : t.mem = s.mem ∨ t.mem = s.sliceMemory := by
  rcases execConvertSlice_cases s with ⟨-, e⟩ | ⟨-, -, e⟩ | ⟨-, -, -, e⟩ | ⟨-, -, -, -, e⟩ | ⟨-, -, -, -, e⟩ <;>
    rw [show exec .convertSlice s = execConvertSlice s from rfl, e] at h <;> cases h
  · exact .inl rfl
  · exact .inl rfl
  · exact .inl rfl
  · exact .inr rfl

/-- Settles O42: the frame is that of `State.sliceMemory`, and both sets are `sampleBytes` (`mem_sampleBytes_iff`). -/
theorem convertSliceWritesOnlyItsWriteSet : Obligations.ConvertSliceWritesOnlyItsWriteSet := by
  unfold Obligations.ConvertSliceWritesOnlyItsWriteSet
  constructor
  · intro s t h a ha
    rcases exec_convertSlice_mem h with e | e <;> rw [e]
    exact State.sliceMemory_byte ha
  · rintro plan r f planes set chroma a hset - hchroma
    have bytes : set = sampleBytes f planes plan.src.frameW.toNat r.h1 r.h2 := by
      rcases hset with ⟨rfl, rfl, rfl⟩ | ⟨rfl, rfl, rfl⟩
      · rfl
      · rfl
    rw [bytes, mem_sampleBytes_iff]
    refine exists_congr fun p => exists_congr fun x => exists_congr fun y => exists_congr fun k => ?_
    have plane : chroma p ↔ f.isChroma p = true := (hchroma p).trans PixFmt.isChroma_iff.symm
    have width : (f.bps : Int) = if f.depth = 8 then 1 else if f.depth = 32 then 4 else 2 := by
      rw [f.bps_eq]
      push_cast
      rfl
    rw [PixFmt.mem_planes, PixFmt.mem_samples_iff, ← plane, Nat.cast_mul, width, f.bps_eq, and_assoc]
    rfl

/-! ### Memory with side effects (R79, I-4) -/

theorem Params.sideEffect_iff {p : Params} {a : Nat} :
    p.sideEffect a = true ↔ (p.regBase.toNat ≤ a ∧ a < p.regBase.toNat + 0x400)
      ∨ ∃ g ∈ p.sideEffects, g.base ≤ a ∧ a < g.base + g.size := by
  simp only [Params.sideEffect, Region.contains, Bool.or_eq_true, Bool.and_eq_true, decide_eq_true_eq, List.any_eq_true]

theorem Plan.touchesSideEffects_iff {p : Plan} {pr : Params} {r : Regs} :
    p.touchesSideEffects pr r = true ↔ ∃ a, (a ∈ p.readSet r ∨ a ∈ p.writeSet r) ∧ pr.sideEffect a = true := by
  simp only [Plan.touchesSideEffects, Bool.or_eq_true, List.any_eq_true, or_and_right, exists_or]

/-- The one word of CONVERT_SLICE (R92). -/
theorem decode_eq_convertSlice_iff {w : Word} : decode w = .ok .convertSlice ↔ w = 0x00000002 := by
  constructor
  · intro h
    unfold decode decodeC0 at h
    split_ifs at h with hres hnop hside hplan hside' hconvert hside''
    all_goals cases h
    apply BitVec.eq_of_toNat_eq
    rw [show (0x00000002 : Word).toNat = 2 from rfl]
    unfold resOf at hres
    unfold opcOf at hconvert
    unfold sideBitOf at hside''
    omega
  · rintro rfl
    decide

theorem State.runningSet_convertSlice {s : State} {ops : Regs} (h : s.seq = .busy 0x00000002 ops) (set : Plan → Regs → List Nat) :
    s.runningSet set = if s.planValid && !s.plan.badSlice ops then set s.plan ops else [] := by
  unfold State.runningSet
  rw [h]
  rfl

theorem State.runningSet_other {s : State} (h : ∀ ops, s.seq ≠ .busy 0x00000002 ops) (set : Plan → Regs → List Nat) :
    s.runningSet set = [] := by
  unfold State.runningSet
  split
  · rfl
  · next w ops busy =>
    split
    · next hw => exact absurd (decode_eq_convertSlice_iff.1 hw ▸ busy) (h ops)
    · rfl

/-- The running command has a set only as a CONVERT_SLICE whose checks pass (R80, R224). -/
theorem State.mem_runningSet {s : State} {set : Plan → Regs → List Nat} {a : Nat} :
    a ∈ s.runningSet set ↔ ∃ ops, s.seq = .busy 0x00000002 ops ∧ s.planValid = true ∧ s.plan.badSlice ops = false
      ∧ a ∈ set s.plan ops := by
  by_cases h : ∃ ops, s.seq = .busy 0x00000002 ops
  · obtain ⟨ops, h⟩ := h
    rw [State.runningSet_convertSlice h, List.mem_ite_nil_right, Bool.and_eq_true, Bool.not_eq_true', and_assoc]
    simp only [h, Seq.busy.injEq, true_and, exists_eq_left']
  · push Not at h
    rw [State.runningSet_other h]
    exact ⟨nofun, fun ⟨ops, e, _⟩ => absurd e (h ops)⟩

/-- A running CONVERT_SLICE whose checks pass is on a device exactly when its sets are. -/
theorem State.runsOnDevice_convertSlice {s : State} {ops : Regs} (h : s.seq = .busy 0x00000002 ops) (hv : s.planValid = true)
    (legal : s.plan.badSlice ops = false) : s.runsOnDevice = s.plan.touchesSideEffects s.params ops := by
  have running (set : Plan → Regs → List Nat) : s.runningSet set = set s.plan ops := by
    rw [State.runningSet_convertSlice h, hv, legal]
    rfl
  rw [State.runsOnDevice, running, running, Plan.touchesSideEffects]

/-- Settles O41: the launch is a CMD write whose acceptance `State.runsOnDevice` sees; running, it is the fourth case of
`execConvertSlice_cases`, for a slice whose sets hold a byte is not empty. -/
theorem sideEffectPlanesAreRefused : Obligations.SideEffectPlanesAreRefused := by
  unfold Obligations.SideEffectPlanesAreRefused
  intro s r a hv legal ha device
  have touches : s.plan.touchesSideEffects s.params r = true :=
    Plan.touchesSideEffects_iff.2 ⟨a, ha, Params.sideEffect_iff.2 device⟩
  constructor
  · rintro rest idle rfl hagenda
    have launch : (State.accept 0x00000002 { s with agenda := rest }).runsOnDevice = true :=
      (State.runsOnDevice_convertSlice (s := State.accept 0x00000002 { s with agenda := rest }) rfl hv legal).trans touches
    have idle' : State.isBusy { s with agenda := rest } = false := State.isBusy_idle idle
    have cmd : Reg.ofOffset (0x008 : BitVec 12).toNat = .cmd := by decide
    rw [step_regWrite (by decide) (by decide) hagenda, cmd, State.hostWrite_cmd_idle idle', launch, if_pos rfl]
  · rintro rfl
    have rows : s.operands.h1 ≠ s.operands.h2 := fun e => by
      obtain ⟨hread, hwrite⟩ := s.plan.sets_empty e
      rw [hread, hwrite] at ha
      simp at ha
    rcases execConvertSlice_cases s with ⟨no, -⟩ | ⟨-, no, -⟩ | ⟨-, -, no, -⟩ | ⟨-, -, -, -, e⟩ | ⟨-, -, -, no, -⟩
    · rw [hv] at no
      cases no
    · rw [legal] at no
      cases no
    · exact absurd no rows
    · exact e
    · rw [touches] at no
      cases no

end Sys2Proof.Machine
end

