-- ==== Sys2Proof/Proofs/SliceSamples.lean ====
section
/-! SUPPORT. O43, O46: what memory holds after a slice that the spec defines, and the range of the integer datapath's samples
(20_memory.md R77, R80, 46_convert_integer.md R249, R254). -/

namespace Sys2Proof.Machine

/-! ### Memory after a defined slice -/

/-- An empty slice included: it writes no sample. -/
theorem State.SliceDefined.mem_eq {s t : State} (h : s.SliceDefined) (ht : exec .convertSlice s = .next t) :
    t.mem = s.mem.writeSamples s.plan.src.outFmt.bps
      (s.source.sliceWrites s.params s.draws s.operands.outPlanes s.operands.h1 s.operands.h2) := by
  rcases execConvertSlice_cases s with ⟨no, -⟩ | ⟨-, no, -⟩ | ⟨-, -, rows, e⟩ | ⟨-, -, -, no, -⟩ | ⟨-, -, -, -, e⟩
  · rw [h.planned] at no
    cases no
  · rw [h.legal] at no
    cases no
  · rw [show exec .convertSlice s = execConvertSlice s from rfl, e] at ht
    cases ht
    rw [rows, Source.sliceWrites_empty]
    rfl
  · rw [h.ordinary] at no
    cases no
  · rw [show exec .convertSlice s = execConvertSlice s from rfl, e] at ht
    cases ht
    exact h.sliceMemory_eq

theorem Plan.writeSet_nodup {p : Plan} {r : Regs} (h : p.setsDisjoint r = true) : (p.writeSet r).Nodup := by
  rw [Plan.setsDisjoint, Bool.and_eq_true, decide_eq_true_eq] at h
  exact h.1

/-- Every sample written reads as the value written to it, cut to its container (R82: no two samples overlap). -/
theorem State.SliceDefined.read_write {s t : State} (h : s.SliceDefined) (hm : s.mem.wf = true)
    (ht : exec .convertSlice s = .next t) {w : Nat × Nat}
    (hw : w ∈ s.source.sliceWrites s.params s.draws s.operands.outPlanes s.operands.h1 s.operands.h2) :
    t.mem.read w.1 s.plan.src.outFmt.bps = w.2 % 256 ^ s.plan.src.outFmt.bps := by
  rw [h.mem_eq ht]
  refine Memory.read_writeSamples _ _ _ hm ?_ w hw
  rw [Source.map_fst_sliceWrites]
  exact Plan.writeSet_nodup h.disjoint

/-- Two lists of one length, paired so that `f` of the first is `g` of the second. -/
theorem map_eq_map_of_zip {α β γ : Type} {f : α → γ} {g : β → γ} {a : List α} {b : List β} (hl : a.length = b.length)
    (h : ∀ w ∈ a.zip b, f w.1 = g w.2) : a.map f = b.map g := by
  calc a.map f = ((a.zip b).map Prod.fst).map f := by rw [List.map_fst_zip hl.le]
    _ = ((a.zip b).map Prod.snd).map g := by rw [List.map_map, List.map_map]; exact List.map_congr_left h
    _ = b.map g := by rw [List.map_snd_zip hl.ge]

/-- Settles O43: the writes of a plane pair its sample addresses with its values, and each is read back. -/
theorem convertSliceStoresEverySample : Obligations.ConvertSliceStoresEverySample := by
  unfold Obligations.ConvertSliceStoresEverySample
  intro s t hinv h ht p hp
  have reads := map_eq_map_of_zip (f := fun a => t.mem.read a s.plan.src.outFmt.bps) (g := (· % 256 ^ s.plan.src.outFmt.bps))
    ?length fun w hw => h.read_write hinv.memCanonical ht (List.mem_flatMap.2 ⟨p, hp, hw⟩)
  case length => rw [List.length_map, Source.planeValues_length]
  rw [List.map_map] at reads
  exact reads

/-! ### The range of the integer datapath (R77, R254) -/

theorem PixFmt.rgb_of_pipe_int {f : PixFmt} (h : f.pipe = .int) : f.rgb = false := by
  unfold PixFmt.pipe at h
  split_ifs at h with hrgb
  exact Bool.eq_false_iff.2 hrgb

/-- A valid plan has formats that pass R204. -/
theorem State.Inv.formats_ok {s : State} (h : s.Inv) (hv : s.planValid = true) : s.plan.src.checkFormats = .ok () := by
  obtain ⟨src, -, -, front, -, -⟩ := h.plan_built hv
  rw [src]
  exact (PlanInputs.checkFront_ok.1 front).1

/-- An integer plan has no alpha plane. -/
theorem State.Inv.alpha_of_int {s : State} (h : s.Inv) (hv : s.planValid = true) (hpipe : s.plan.pipe = .int) :
    s.plan.src.outFmt.alpha = false := by
  obtain ⟨src, -, pipe, -, -, -⟩ := h.plan_built hv
  obtain ⟨-, out, family, -⟩ := PlanInputs.checkFormats_ok.1 (h.formats_ok hv)
  have yuv : s.plan.src.outFmt.rgb = false := by
    rw [← family, src]
    exact PixFmt.rgb_of_pipe_int (pipe.symm.trans hpipe)
  rcases PixFmt.check_cases out with ⟨rgb, -⟩ | ⟨-, -, alpha, -⟩
  · rw [rgb] at yuv
    cases yuv
  · exact alpha

theorem toNat_clipPixel_lt (d : Nat) (v : Int) : (clipPixel d v).toNat < 2 ^ d := by
  obtain ⟨nonneg, lt⟩ := clipPixel_range d v
  zify
  rwa [Int.toNat_of_nonneg nonneg]

/-- A path of the integer pipe other than the copy. -/
theorem Plan.path_of_int {p : Plan} (hpipe : p.pipe = .int) (hcopy : p.path ≠ .copy) : p.path = .yuv2yuv ∨ p.path = .intFull := by
  unfold Plan.path at hcopy ⊢
  rw [hpipe] at hcopy ⊢
  simp only at hcopy ⊢
  split_ifs at hcopy ⊢
  · exact absurd rfl hcopy
  · exact .inl rfl
  · exact .inr rfl

theorem Source.fsbPlane_range {c : Source} {mode : ChromaDown} {h1 h2 : Nat} {p : Fin 4} {v : Int} (h : v ∈ c.fsbPlane mode h1 h2 p) :
    0 ≤ v ∧ v < 2 ^ c.plan.src.outFmt.d :=
  fsbRows_range _ _ _ _ _ v h

/-- Every value of the integer datapath, dithered or not, comes out of a clip to the depth of the output. -/
theorem Source.planeValues_int_lt {c : Source} {pr : Params} {draw h1 h2 v : Nat} {p : Fin 4} (hpipe : c.plan.pipe = .int)
    (hcopy : c.plan.path ≠ .copy) (hp : p ≠ 3) (hv : v ∈ c.planeValues pr draw h1 h2 p) : v < 2 ^ c.plan.src.outFmt.d := by
  unfold Source.planeValues at hv
  split at hv
  · obtain ⟨i, hi, rfl⟩ := List.mem_map.1 hv
    obtain ⟨nonneg, lt⟩ := Source.fsbPlane_range hi
    zify
    rwa [Int.toNat_of_nonneg nonneg]
  · obtain ⟨xy, -, rfl⟩ := List.mem_map.1 hv
    simp only [Source.outSample, if_neg hp]
    rcases Plan.path_of_int hpipe hcopy with e | e <;> rw [e]
    · exact toNat_clipPixel_lt _ _
    · exact toNat_clipPixel_lt _ _

/-- Settles O46: a stored sample is a value of its plane (O43), cut to its container, and the values are in range. -/
theorem integerOutputsAreInRange : Obligations.IntegerOutputsAreInRange := by
  unfold Obligations.IntegerOutputsAreInRange
  intro s t hinv h hpipe hcopy ht p hp xy hxy
  have colour : p ≠ 3 := by
    rintro rfl
    rw [PixFmt.mem_planes, hinv.alpha_of_int h.planned hpipe] at hp
    exact Bool.noConfusion (hp rfl)
  have stored := List.mem_map_of_mem
    (f := fun xy => t.mem.read ((s.operands.outPlanes.get p).addr s.plan.src.outFmt.bps xy.1 xy.2) s.plan.src.outFmt.bps) hxy
  rw [convertSliceStoresEverySample s t hinv h ht p hp] at stored
  obtain ⟨v, hv, e⟩ := List.mem_map.1 stored
  rw [← e]
  exact (Nat.mod_le _ _).trans_lt (Source.planeValues_int_lt hpipe hcopy colour hv)

end Sys2Proof.Machine
end

