-- ==== Sys2Proof/Proofs/HostMemory.lean ====
section
/-! SUPPORT. O52: a host access to a byte of frame memory (20_memory.md R79, R84, 70_reset_and_hazards.md R334). -/

namespace Sys2Proof.Machine

section
variable {s : State} {a : Word} {v : Byte} {rest : List Move}

/-- A host access to memory with side effects is refused (R79, log 15). -/
theorem step_memWrite_device (ha : s.agenda = .host (.memWrite a v) :: rest) (h : s.params.sideEffect a.toNat = true) :
    step s = .refused .hostSideEffectAccess := (step_host ha nofun).trans (if_pos h)

theorem step_memRead_device (ha : s.agenda = .host (.memRead a) :: rest) (h : s.params.sideEffect a.toNat = true) :
    step s = .refused .hostSideEffectAccess := (step_host ha nofun).trans (if_pos h)

theorem step_memWrite (ha : s.agenda = .host (.memWrite a v) :: rest) (h : ¬s.params.sideEffect a.toNat = true) :
    step s = .next (State.hostMemWrite { s with agenda := rest } a.toNat v) := (step_host ha nofun).trans (if_neg h)

theorem step_memRead (ha : s.agenda = .host (.memRead a) :: rest) (h : ¬s.params.sideEffect a.toNat = true) :
    step s = .next (State.hostMemRead { s with agenda := rest } a.toNat) := (step_host ha nofun).trans (if_neg h)

end

theorem State.mem_runningSets {s : State} {a : Nat} :
    (a ∈ s.runningSet Plan.readSet ∨ a ∈ s.runningSet Plan.writeSet) ↔
      ∃ ops, s.seq = .busy 0x00000002 ops ∧ s.planValid = true ∧ s.plan.badSlice ops = false
        ∧ (a ∈ s.plan.readSet ops ∨ a ∈ s.plan.writeSet ops) := by
  rw [State.mem_runningSet, State.mem_runningSet, ← exists_or]
  simp only [← and_or_left]

theorem State.hostMemWrite_disturbed (s : State) (a : Nat) (v : Byte) :
    (s.hostMemWrite a v).disturbed = true ↔
      s.disturbed = true ∨ a ∈ s.runningSet Plan.readSet ∨ a ∈ s.runningSet Plan.writeSet := by
  simp only [State.hostMemWrite, Bool.or_eq_true, List.contains_iff_mem, or_assoc]

theorem State.hostMemRead_free {s : State} {a : Nat} (h : a ∈ s.runningSet Plan.writeSet) :
    s.hostMemRead a = { s with hostData := (Config.freeByte s.draws a).setWidth 32, draws := s.draws + 1 } :=
  if_pos (List.contains_iff_mem.2 h)

theorem State.hostMemRead_stored {s : State} {a : Nat} (h : a ∉ s.runningSet Plan.writeSet) :
    s.hostMemRead a = { s with hostData := (s.mem.byte a).setWidth 32 } :=
  if_neg fun e => h (List.contains_iff_mem.1 e)

/-- Settles O52: a step with a host access is `hostMemWrite` or `hostMemRead`; the device is `Params.sideEffect`, and the sets are those
of the running command (`State.mem_runningSets`). -/
theorem hostFrameMemoryAccesses : Obligations.HostFrameMemoryAccesses := by
  unfold Obligations.HostFrameMemoryAccesses
  intro s a rest inSets inWriteSet device hm hsets hwriteSet hdevice
  have sets := hsets.trans (State.mem_runningSets (s := { s with agenda := rest })).symm
  have writeSet := hwriteSet.trans (State.mem_runningSet (s := { s with agenda := rest }) (set := Plan.writeSet)).symm
  rw [hdevice.trans Params.sideEffect_iff.symm, writeSet, sets]
  constructor
  · intro v ha
    refine ⟨step_memWrite_device ha, fun ordinary => ⟨_, step_memWrite ha ordinary, rfl, ?byte, ?others, ?disturbed⟩⟩
    case byte => exact Memory.byte_setByte_same _ v hm
    case others => exact fun b hb => Memory.byte_setByte_of_ne _ v hb
    case disturbed => exact State.hostMemWrite_disturbed _ _ _
  · intro ha
    refine ⟨step_memRead_device ha, fun ordinary elsewhere => ?stored, fun ordinary within => ?free⟩
    case stored => rw [step_memRead ha ordinary, State.hostMemRead_stored elsewhere]
    case free => exact ⟨_, by rw [step_memRead ha ordinary, State.hostMemRead_free within]⟩

end Sys2Proof.Machine
end

