-- ==== Sys2Proof/Proofs/CommandFrames.lean ====
section
/-! SUPPORT. O53: the states in which a command can complete, and what each command leaves unchanged (20_memory.md R70,
30_encoding.md R94, 60_exceptions.md R302, R307). -/

namespace Sys2Proof.Machine

/-- The states in which a TF_EVAL command can complete: with its error, or with TF_RES written. -/
theorem State.finishTf_eq (s : State) (r : Option Fl) :
    s.finishTf r = s.raise .unknownTransfer ∨ ∃ v, s.finishTf r = State.bumpDraws (State.finish { s with tfRes := v }) := by
  rcases s.finishTf_cases r with ⟨-, e⟩ | ⟨v, -, e⟩
  · exact .inl e
  · exact .inr ⟨_, e⟩

/-- The states in which a command can complete: as it was but for STATUS, or with what PLAN, INVALIDATE, CONVERT_SLICE or a TF_EVAL
writes. -/
theorem exec_next_cases {i : Instr} {s t : State} (h : exec i s = .next t) :
    (t = s.finish ∨ ∃ c, t = s.raise c)
    ∨ (i = .plan ∧ ((∃ c, t = ((s.warnRange s.operands.inputs).losePlan.raise c).bumpDraws)
      ∨ ∃ p, t = ((s.warnRange s.operands.inputs).storePlan p).finish.bumpDraws))
    ∨ (i = .invalidate ∧ t = State.finish { s.clearPlanValid with caches := none })
    ∨ (i = .convertSlice ∧ t = s.writeSlice.finish.bumpDraws)
    ∨ ((∃ side, i = .tfEvalD side ∨ i = .tfEvalL side) ∧ ∃ v, t = State.bumpDraws (State.finish { s with tfRes := v })) := by
  cases i with
  | nop =>
    cases h
    exact .inl (.inl rfl)
  | plan =>
    rcases execPlan_cases s with ⟨c, -, e⟩ | ⟨p, -, e⟩ <;> rw [show exec .plan s = execPlan s from rfl, e] at h <;> cases h
    · exact .inr (.inl ⟨rfl, .inl ⟨c, rfl⟩⟩)
    · exact .inr (.inl ⟨rfl, .inr ⟨p, rfl⟩⟩)
  | convertSlice =>
    rcases execConvertSlice_cases s with ⟨-, e⟩ | ⟨-, -, e⟩ | ⟨-, -, -, e⟩ | ⟨-, -, -, -, e⟩ | ⟨-, -, -, -, e⟩ <;>
      rw [show exec .convertSlice s = execConvertSlice s from rfl, e] at h <;> cases h
    · exact .inl (.inr ⟨_, rfl⟩)
    · exact .inl (.inr ⟨_, rfl⟩)
    · exact .inl (.inl rfl)
    · exact .inr (.inr (.inr (.inl ⟨rfl, rfl⟩)))
  | invalidate =>
    cases h
    exact .inr (.inr (.inl ⟨rfl, rfl⟩))
  | tfEvalD side =>
    cases h
    rcases s.finishTf_eq (tfDelin side (s.operands.inputs.blk side) s.operands.tfArg) with e | e
    · exact .inl (.inr ⟨_, e⟩)
    · exact .inr (.inr (.inr (.inr ⟨⟨side, .inl rfl⟩, e⟩)))
  | tfEvalL side =>
    cases h
    rcases s.finishTf_eq (tfLin s.draws (s.operands.inputs.blk side) s.operands.tfArg) with e | e
    · exact .inl (.inr ⟨_, e⟩)
    · exact .inr (.inr (.inr (.inr ⟨⟨side, .inr rfl⟩, e⟩)))

/-- Settles O53: each state of `exec_next_cases` differs from `s` in the fields its command writes, and a clause about such a field
leaves that command out. -/
theorem commandFrames : Obligations.CommandFrames := by
  unfold Obligations.CommandFrames
  intro i s t h
  rcases exec_next_cases h with
    (rfl | ⟨c, rfl⟩) | ⟨rfl, ⟨c, rfl⟩ | ⟨p, rfl⟩⟩ | ⟨rfl, rfl⟩ | ⟨rfl, rfl⟩ | ⟨⟨side, tf⟩, v, rfl⟩
  case inr.inr.inr.inr =>
    refine ⟨rfl, rfl, rfl, rfl, rfl, rfl, rfl, rfl, fun other => ?tfRes, fun _ => ⟨rfl, rfl, rfl⟩, fun _ _ => ⟨rfl, rfl⟩,
      fun _ => ⟨rfl, rfl⟩⟩
    rcases tf with e | e
    · exact absurd e (other side).1
    · exact absurd e (other side).2
  all_goals simp

end Sys2Proof.Machine
end

