-- ==== Sys2Proof/Proofs/CommandWords.lean ====
section
/-! SUPPORT. O1, O2, O3: a command word is its three fields OPC, SIDE and RES, and decoding is a question about them
(30_encoding.md R90 to R93). -/

namespace Sys2Proof.Machine

/-! ### A word and its fields (R90) -/

theorem toNat_eq_fields (w : Word) : w.toNat = opcOf w + 256 * sideBitOf w + 512 * resOf w := by
  unfold opcOf sideBitOf resOf
  omega

theorem opcOf_lt (w : Word) : opcOf w < 256 := Nat.mod_lt _ (by decide)

theorem word_eq_of_fields {v w : Word} (opc : opcOf v = opcOf w) (side : sideBitOf v = sideBitOf w) (res : resOf v = resOf w) :
    v = w := by
  apply BitVec.eq_of_toNat_eq
  rw [toNat_eq_fields v, toNat_eq_fields w, opc, side, res]

theorem toNat_extractLsb_opc (w : Word) : (w.extractLsb 7 0).toNat = opcOf w := by
  rw [BitVec.extractLsb_toNat, Nat.shiftRight_zero]
  rfl

theorem extractLsb_opc_eq_iff {w : Word} {b : BitVec 8} : w.extractLsb 7 0 = b ↔ opcOf w = b.toNat := by
  rw [← toNat_extractLsb_opc]
  exact BitVec.toNat_inj.symm

theorem extractLsb_res_eq_zero_iff {w : Word} : w.extractLsb 31 9 = 0 ↔ resOf w = 0 := by
  have field : (w.extractLsb 31 9).toNat = resOf w := by
    rw [BitVec.extractLsb_toNat, Nat.shiftRight_eq_div_pow]
    exact Nat.mod_eq_of_lt (Nat.div_lt_of_lt_mul w.isLt)
  rw [← field]
  exact BitVec.toNat_inj.symm

theorem bit_getLsbD_side (w : Word) : bit (w.getLsbD 8) = sideBitOf w := by
  rw [← wordBit_eq_getLsbD, bit_wordBit]
  rfl

/-- The mask of R92 that leaves SIDE out keeps OPC and RES. -/
theorem toNat_and_sideMask (w : Word) : (w &&& 0xFFFFFEFF).toNat = opcOf w + 512 * resOf w := by
  have hw := w.isLt
  rw [BitVec.toNat_and, show (0xFFFFFEFF : Word).toNat = 0xFFFFFEFF from rfl]
  unfold opcOf resOf
  generalize w.toNat = n at hw
  have low : (n &&& 0xFFFFFEFF) % 2 ^ 8 = n % 2 ^ 8 := by
    rw [Nat.and_mod_two_pow, show 0xFFFFFEFF % 2 ^ 8 = 2 ^ 8 - 1 from rfl, Nat.and_two_pow_sub_one_eq_mod]
    omega
  have side : (n &&& 0xFFFFFEFF) / 2 ^ 8 % 2 ^ 1 = 0 := by
    rw [Nat.and_div_two_pow, Nat.and_mod_two_pow, show 0xFFFFFEFF / 2 ^ 8 % 2 ^ 1 = 0 from rfl, Nat.and_zero]
  have high : (n &&& 0xFFFFFEFF) / 2 ^ 9 = n / 2 ^ 9 := by
    rw [Nat.and_div_two_pow, show 0xFFFFFEFF / 2 ^ 9 = 2 ^ 23 - 1 from rfl, Nat.and_two_pow_sub_one_eq_mod]
    omega
  omega

/-! ### The decoder and the encoder -/

@[simp] theorem decode_encode (i : Instr) : decode (encode i) = .ok i := by
  cases i with
  | nop | plan | convertSlice | invalidate => rfl
  | tfEvalD side | tfEvalL side => cases side <;> rfl

@[simp] theorem resOf_encode (i : Instr) : resOf (encode i) = 0 := by
  cases i with
  | nop | plan | convertSlice | invalidate => rfl
  | tfEvalD side | tfEvalL side => cases side <;> rfl

theorem fields_encode_tfEvalD (side : Side) :
    opcOf (encode (.tfEvalD side)) = 0x10 ∧ sideBitOf (encode (.tfEvalD side)) = sideBits side / 256 := by
  cases side <;> decide

theorem fields_encode_tfEvalL (side : Side) :
    opcOf (encode (.tfEvalL side)) = 0x11 ∧ sideBitOf (encode (.tfEvalL side)) = sideBits side / 256 := by
  cases side <;> decide

/-- The side a SIDE bit selects has that bit. -/
theorem sideBits_sideOfBit (w : Word) : sideBits (sideOfBit (sideBitOf w)) / 256 = sideBitOf w := by
  rcases Nat.mod_two_eq_zero_or_one (w.toNat / 256) with h | h <;> rw [sideBitOf, h] <;> rfl

/-- What a word that decodes is, field by field: one case per row of R91's table. -/
theorem fields_of_decode {i : Instr} {w : Word} (h : decode w = .ok i) :
    resOf w = 0 ∧ opcOf w = opcOf (encode i) ∧ sideBitOf w = sideBitOf (encode i) := by
  unfold decode decodeC0 at h
  split_ifs at h with hres hnop hside hplan hside hconvert hside hinvalidate hside htfD htfL <;> cases h <;>
    refine ⟨not_not.1 hres, ?_⟩
  · exact ⟨hnop, hside⟩
  · exact ⟨hplan, hside⟩
  · exact ⟨hconvert, hside⟩
  · exact ⟨hinvalidate, hside⟩
  · obtain ⟨opc, side⟩ := fields_encode_tfEvalD (sideOfBit (sideBitOf w))
    rw [opc, side, sideBits_sideOfBit]
    exact ⟨htfD, rfl⟩
  · obtain ⟨opc, side⟩ := fields_encode_tfEvalL (sideOfBit (sideBitOf w))
    rw [opc, side, sideBits_sideOfBit]
    exact ⟨htfL, rfl⟩

theorem eq_encode_of_fields {i : Instr} {w : Word} (res : resOf w = 0) (opc : opcOf w = opcOf (encode i))
    (side : sideBitOf w = sideBitOf (encode i)) : w = encode i :=
  word_eq_of_fields opc side (res.trans (resOf_encode i).symm)

/-- The round trip: a word has the fields of the command it decodes to, and no other word has them. -/
theorem decode_eq_ok_iff {i : Instr} {w : Word} : decode w = .ok i ↔ w = encode i := by
  constructor
  · intro h
    obtain ⟨res, opc, side⟩ := fields_of_decode h
    exact eq_encode_of_fields res opc side
  · rintro rfl
    exact decode_encode i

/-- Settles O2: the round trip `decode_eq_ok_iff`; every command is well formed, so the hypothesis is not needed. -/
theorem decodeAndEncodeAgree : Obligations.DecodeAndEncodeAgree := by
  unfold Obligations.DecodeAndEncodeAgree
  intro i w _
  exact decode_eq_ok_iff

/-- Settles O1: eight words are encodings of commands, and three fail one check each. -/
theorem commandWordsDecode : Obligations.CommandWordsDecode :=
  ⟨decode_encode .nop, decode_encode .plan, decode_encode .convertSlice, decode_encode .invalidate,
    decode_encode (.tfEvalD .input), decode_encode (.tfEvalD .output), decode_encode (.tfEvalL .input),
    decode_encode (.tfEvalL .output), rfl, rfl, rfl⟩

/-! ### Legal words (R92) -/

theorem decode_eq_ok_iff_fields {i : Instr} {w : Word} :
    decode w = .ok i ↔ resOf w = 0 ∧ opcOf w = opcOf (encode i) ∧ sideBitOf w = sideBitOf (encode i) :=
  ⟨fields_of_decode, fun ⟨res, opc, side⟩ => decode_eq_ok_iff.2 (eq_encode_of_fields res opc side)⟩

/-- A command with SIDE is read from every word with its opcode and no reserved bit. -/
theorem exists_side_decode_iff {tf : Side → Instr} {opc : Nat} {w : Word}
    (fields : ∀ side, opcOf (encode (tf side)) = opc ∧ sideBitOf (encode (tf side)) = sideBits side / 256) :
    (∃ side, decode w = .ok (tf side)) ↔ resOf w = 0 ∧ opcOf w = opc := by
  simp only [decode_eq_ok_iff_fields, fields, exists_and_left, and_congr_right_iff, and_iff_left_iff_imp]
  exact fun _ _ => ⟨sideOfBit (sideBitOf w), (sideBits_sideOfBit w).symm⟩

/-- The mask of a command with SIDE asks for its opcode and no reserved bit. -/
theorem and_sideMask_eq_iff {w v : Word} (h : v.toNat < 256) : w &&& 0xFFFFFEFF = v ↔ resOf w = 0 ∧ opcOf w = v.toNat := by
  have opc := opcOf_lt w
  rw [← BitVec.toNat_inj, toNat_and_sideMask]
  omega

/-- The decoder reads a command from exactly the legal words. -/
theorem exists_decode_iff_legalWord {w : Word} : (∃ i, decode w = .ok i) ↔ legalWord w = true := by
  constructor
  · rintro ⟨i, h⟩
    rw [decode_eq_ok_iff.1 h]
    cases i with
    | nop => exact Laws.LegalWord.nop
    | plan => exact Laws.LegalWord.plan
    | convertSlice => exact Laws.LegalWord.convertSlice
    | invalidate => exact Laws.LegalWord.invalidate
    | tfEvalD side => exact Laws.LegalWord.tfEvalD side
    | tfEvalL side => exact Laws.LegalWord.tfEvalL side
  · intro h
    simp only [legalWord, opcodeDefined, reservedZero, sideAllowed, Bool.and_eq_true, Bool.or_eq_true, beq_iff_eq,
      List.contains_iff_mem, List.mem_cons, List.not_mem_nil, or_false] at h
    obtain ⟨⟨defined, res⟩, side⟩ := h
    have c0 (opc : opcOf w < 0x10) : sideBitOf w = 0 := by omega
    rcases defined with opc | opc | opc | opc | opc | opc
    · exact ⟨.nop, decode_eq_ok_iff_fields.2 ⟨res, opc, c0 (by omega)⟩⟩
    · exact ⟨.plan, decode_eq_ok_iff_fields.2 ⟨res, opc, c0 (by omega)⟩⟩
    · exact ⟨.convertSlice, decode_eq_ok_iff_fields.2 ⟨res, opc, c0 (by omega)⟩⟩
    · exact ⟨.invalidate, decode_eq_ok_iff_fields.2 ⟨res, opc, c0 (by omega)⟩⟩
    · exact ((exists_side_decode_iff fields_encode_tfEvalD).2 ⟨res, opc⟩).imp' _ fun _ => id
    · exact ((exists_side_decode_iff fields_encode_tfEvalL).2 ⟨res, opc⟩).imp' _ fun _ => id

/-- The three conditions of R92, on bit fields. -/
theorem legalWord_iff {w : Word} :
    legalWord w = true ↔
      (w.extractLsb 7 0 ∈ ([0x00, 0x01, 0x02, 0x03, 0x10, 0x11] : List (BitVec 8)) ∧ w.extractLsb 31 9 = 0
        ∧ (w.getLsbD 8 = false ∨ w.extractLsb 7 0 = 0x10 ∨ w.extractLsb 7 0 = 0x11)) := by
  have side : w.getLsbD 8 = false ↔ sideBitOf w = 0 := by
    rw [← bit_getLsbD_side]
    cases w.getLsbD 8 <;> decide
  simp only [legalWord, opcodeDefined, reservedZero, sideAllowed, Bool.and_eq_true, Bool.or_eq_true, beq_iff_eq,
    List.contains_iff_mem, List.mem_cons, List.not_mem_nil, or_false, extractLsb_opc_eq_iff, extractLsb_res_eq_zero_iff, side,
    and_assoc, or_assoc]
  rfl

/-- With no SIDE to leave out, the mask of R92 is the whole word. -/
theorem decode_eq_ok_iff_and {i : Instr} {w : Word} : decode w = .ok i ↔ w &&& 0xFFFFFFFF = encode i := by
  rw [and_allOnes_word, decode_eq_ok_iff]

/-- Settles O3: legality is `legalWord_iff`, a command without SIDE has one word, and one with SIDE the two words that agree under
its mask, told apart by bit 8. -/
theorem legalWordsByFieldsAndMasks : Obligations.LegalWordsByFieldsAndMasks := by
  unfold Obligations.LegalWordsByFieldsAndMasks
  intro w
  refine ⟨exists_decode_iff_legalWord.trans legalWord_iff, decode_eq_ok_iff_and, decode_eq_ok_iff_and, decode_eq_ok_iff_and,
    decode_eq_ok_iff_and, ?tfEvalD, ?tfEvalL, ?side⟩
  case tfEvalD => rw [exists_side_decode_iff fields_encode_tfEvalD, and_sideMask_eq_iff (by decide)]; rfl
  case tfEvalL => rw [exists_side_decode_iff fields_encode_tfEvalL, and_sideMask_eq_iff (by decide)]; rfl
  case side =>
    rintro side (h | h)
    · rw [decode_eq_ok_iff.1 h]
      cases side <;> decide
    · rw [decode_eq_ok_iff.1 h]
      cases side <;> decide

end Sys2Proof.Machine
end

