-- ==== Sys2Proof/Proofs/SupportedFormats.lean ====
section
/-! SUPPORT. O24: the check of a pixel format (45_planner_and_commands.md R204) against the list of 30_encoding.md R97. -/

namespace Sys2Proof.Machine

theorem PixFmt.check_supported {f : PixFmt} (h : f.toWord ∈ supportedFormatWords) : f.check = .ok () := by
  have table : ∀ g ∈ supportedFormatWords.map PixFmt.ofWord, g.check.isOk = true := by decide
  exact except_isOk_iff.1 (table f (PixFmt.mem_supported h))

/-- The formats that pass the check: of the RGB family two depths, with alpha or without; of the YUV family three depths with
three chroma subsamplings. -/
theorem PixFmt.toWord_mem_of_check {f : PixFmt} (h : f.check = .ok ()) : f.toWord ∈ supportedFormatWords := by
  have fields := PixFmt.check_cases h
  obtain ⟨depth, rgb, float, alpha, log2cw, log2ch⟩ := f
  simp only [PixFmt.d, PixFmt.cw, PixFmt.ch] at fields
  rcases fields with ⟨rfl, rfl, hd, hcw, hch⟩ | ⟨rfl, rfl, rfl, hd, hcw, hch⟩
  · have depths : depth = 16 ∨ depth = 32 := by bv_omega
    obtain rfl : log2cw = 0 := BitVec.eq_of_toNat_eq hcw
    obtain rfl : log2ch = 0 := BitVec.eq_of_toNat_eq hch
    rcases depths with rfl | rfl <;> cases alpha <;> decide
  · have depths : depth = 8 ∨ depth = 10 ∨ depth = 12 := by bv_omega
    have subsamplings : (log2cw = 0 ∧ log2ch = 0) ∨ (log2cw = 1 ∧ log2ch = 0) ∨ (log2cw = 1 ∧ log2ch = 1) := by bv_omega
    rcases depths with rfl | rfl | rfl <;> rcases subsamplings with ⟨rfl, rfl⟩ | ⟨rfl, rfl⟩ | ⟨rfl, rfl⟩ <;> decide

theorem PixFmt.check_iff_supported {f : PixFmt} : f.check = .ok () ↔ f.toWord ∈ supportedFormatWords :=
  ⟨PixFmt.toWord_mem_of_check, PixFmt.check_supported⟩

/-- Settles O24: a PLAN that ends with PLAN_VALID has passed the check on either side. -/
theorem planAcceptsThirteenFormats : Obligations.PlanAcceptsThirteenFormats := by
  unfold Obligations.PlanAcceptsThirteenFormats
  refine ⟨fun f => PixFmt.check_iff_supported, fun s t h hv => ?_⟩
  obtain ⟨front, -⟩ := PlanInputs.buildPlan_ok.1 (execPlan_valid h hv)
  obtain ⟨formats, -⟩ := PlanInputs.checkFront_ok.1 front
  obtain ⟨hin, hout, -⟩ := PlanInputs.checkFormats_ok.1 formats
  exact ⟨PixFmt.check_iff_supported.1 hin, PixFmt.check_iff_supported.1 hout⟩

end Sys2Proof.Machine
end

