-- ==== Sys2Proof/Proofs/AcceptedCommand.lean ====
section
/-! SUPPORT. O5, O54: the accepted command at the engine's turn. It runs on the operands of its acceptance, so what the registers
hold meanwhile is carried through and not read (30_encoding.md R93, R95). -/

namespace Sys2Proof.Machine

/-! ### The engine's turn -/

theorem State.EngineMoves.step_eq {s u : State} (h : s.EngineMoves u) : step s = engineStep u := by
  unfold step
  rcases h with ⟨ha, rfl⟩ | ⟨rest, ha, rfl⟩ | ⟨rest, ha, busy, rfl⟩
  · rw [ha]
  · simp only [ha, State.popAgenda_of_cons ha]
  · simp only [ha, busy, if_true]

theorem State.EngineMoves.seq_eq {s u : State} (h : s.EngineMoves u) : u.seq = s.seq := by
  rcases h with ⟨-, rfl⟩ | ⟨rest, -, rfl⟩ | ⟨rest, -, -, rfl⟩ <;> rfl

/-- The engine's turn on a word that is no command (R93). -/
theorem engineStep_illegal {s : State} {w : Word} {ops : Regs} (busy : s.seq = .busy w ops) (illegal : ∀ i, decode w ≠ .ok i) :
    engineStep s = .next (s.raise .illegalCommand) := by
  rcases engineStep_cases s with ⟨idle, -⟩ | ⟨v, _, i, hv, legal, -⟩ | ⟨_, _, _, -, -, e⟩
  · rw [busy] at idle
    cases idle
  · rw [busy] at hv
    cases hv
    exact absurd legal (illegal i)
  · exact e

/-- Settles O5: the engine's turn on an illegal word is `State.raise`, written out. -/
theorem illegalWordCompletesWithIllegalCommand : Obligations.IllegalWordCompletesWithIllegalCommand := by
  unfold Obligations.IllegalWordCompletesWithIllegalCommand
  intro s u w ops busy illegal moves
  rw [moves.step_eq, engineStep_illegal (moves.seq_eq.trans busy) illegal]
  rfl

/-! ### A running command does not read the registers (R95) -/

/-- A CMD write that is carried out while IDLE is the acceptance of its word (R200). -/
theorem step_cmdWrite_idle {s u : State} {w : Word} {rest : List Move} (ha : s.agenda = .host (.regWrite 0x008 4 w) :: rest)
    (idle : s.seq = .idle) (hu : step s = .next u) : u = State.accept w { s with agenda := rest } := by
  have cmd : Reg.ofOffset (0x008 : BitVec 12).toNat = .cmd := by decide
  rw [step_regWrite (by decide) (by decide) ha, cmd,
    State.hostWrite_cmd_idle (s := { s with agenda := rest }) (State.isBusy_idle idle)] at hu
  split_ifs at hu
  cases hu
  rfl

theorem State.warnRange_withRegs (s : State) (other : Regs) (p : PlanInputs) :
    State.warnRange { s with regs := other } p = { s.warnRange p with regs := other } := by
  unfold State.warnRange
  split_ifs <;> rfl

theorem State.finishTf_withRegs (s : State) (other : Regs) (r : Option Fl) :
    State.finishTf { s with regs := other } r = { s.finishTf r with regs := other } := by
  cases r <;> rfl

section
variable {s t : State} {w : Word} {ops : Regs} (busy : s.seq = .busy w ops) (other : Regs)
include busy

theorem State.operands_withRegs : State.operands { s with regs := other } = s.operands :=
  (State.operands_of_seq { s with regs := other } busy).trans (State.operands_of_seq s busy).symm

theorem State.sliceMemory_withRegs : State.sliceMemory { s with regs := other } = s.sliceMemory := by
  simp only [State.sliceMemory, State.source, State.operands_withRegs busy other]

theorem State.writeSlice_withRegs : State.writeSlice { s with regs := other } = { s.writeSlice with regs := other } := by
  rw [State.writeSlice, State.sliceMemory_withRegs busy other]
  rfl

theorem execPlan_withRegs (h : execPlan s = .next t) : execPlan { s with regs := other } = .next { t with regs := other } := by
  unfold execPlan at h ⊢
  simp only [State.operands_withRegs busy other, State.warnRange_withRegs] at h ⊢
  cases hb : s.operands.inputs.buildPlan s.params s.draws with
  | error c =>
    rw [hb] at h
    cases h
    rfl
  | ok p =>
    rw [hb] at h
    cases h
    rfl

theorem execConvertSlice_withRegs (h : execConvertSlice s = .next t) :
    execConvertSlice { s with regs := other } = .next { t with regs := other } := by
  unfold execConvertSlice at h ⊢
  simp only [State.operands_withRegs busy other, State.writeSlice_withRegs busy other] at h ⊢
  split_ifs at h ⊢ <;> cases h <;> rfl

theorem exec_withRegs {i : Instr} (h : exec i s = .next t) : exec i { s with regs := other } = .next { t with regs := other } := by
  cases i with
  | nop =>
    cases h
    rfl
  | plan => exact execPlan_withRegs busy other h
  | convertSlice => exact execConvertSlice_withRegs busy other h
  | invalidate =>
    cases h
    rfl
  | tfEvalD side =>
    cases h
    simp only [exec, execTfEvalD, State.operands_withRegs busy other, State.finishTf_withRegs]
  | tfEvalL side =>
    cases h
    simp only [exec, execTfEvalL, State.operands_withRegs busy other, State.finishTf_withRegs]

end

/-- Settles O54: the acceptance takes the registers (`step_cmdWrite_idle`), and no command looks at them afterwards
(`exec_withRegs`). -/
theorem operandsAreThoseOfAcceptance : Obligations.OperandsAreThoseOfAcceptance := by
  unfold Obligations.OperandsAreThoseOfAcceptance
  refine ⟨fun s w rest ha idle u hu => ?_, fun i s t w ops other busy h => exec_withRegs busy other h⟩
  rw [step_cmdWrite_idle ha idle hu]
  rfl

end Sys2Proof.Machine
end

