-- ==== Sys2Proof/Proofs/FloatSign.lean ====
section
/-! SUPPORT. The order and the sign of the soft floats: comparisons of finite values are those of their rational values, and each
operation commutes with the exact sign flip (00_scope.md R16; 41_transfer_function_core.md R122, R130). -/

namespace Sys2Proof.Machine

namespace Fl

/-! ### Kinds of values -/

theorem isNaN_iff {x : Fl} : x.isNaN = true ↔ x = .nan := by
  cases x <;> simp [isNaN]

theorem isFinite_iff {x : Fl} : x.isFinite = true ↔ ∃ s m e, x = .fin s m e := by
  cases x <;> simp [isFinite]

@[simp] theorem isNaN_neg (x : Fl) : x.neg.isNaN = x.isNaN := by cases x <;> rfl

@[simp] theorem isFinite_neg (x : Fl) : x.neg.isFinite = x.isFinite := by cases x <;> rfl

@[simp] protected theorem neg_neg (x : Fl) : x.neg.neg = x := by cases x <;> simp [neg]

/-! ### Comparisons (R16) -/

theorem lt_of_isNaN {x y : Fl} (h : x.isNaN = true) : lt x y = false := by
  rw [isNaN_iff.1 h]
  rfl

theorem le_of_isNaN {x y : Fl} (h : x.isNaN = true) : le x y = false := by
  rw [isNaN_iff.1 h]
  rfl

theorem toRat_neg {x : Fl} : x.neg.toRat = -x.toRat := by
  cases x with
  | nan => simp [neg, toRat]
  | inf s => simp [neg, toRat]
  | fin s m e => cases s <;> simp [neg, toRat]

/-- The integer two finite values are compared by is the rational value at the common exponent. -/
theorem scaled_mul_zpow (s : Bool) (m : Nat) {e e0 : Int} (h : e0 ≤ e) :
    (scaled s m e e0 : ℚ) * (2 : ℚ) ^ e0 = (Fl.fin s m e).toRat := by
  have shift : (2 : ℚ) ^ (e - e0).toNat * (2 : ℚ) ^ e0 = (2 : ℚ) ^ e := by
    rw [← zpow_natCast, ← zpow_add₀ (by decide), Int.toNat_of_nonneg (by omega), sub_add_cancel]
  cases s <;> simp [scaled, toRat, ← shift, mul_assoc]

theorem lt_iff_toRat {x y : Fl} (hx : x.isFinite = true) (hy : y.isFinite = true) : lt x y = true ↔ x.toRat < y.toRat := by
  obtain ⟨s, m, e, rfl⟩ := isFinite_iff.1 hx
  obtain ⟨t, n, k, rfl⟩ := isFinite_iff.1 hy
  rw [← scaled_mul_zpow s m (min_le_left e k), ← scaled_mul_zpow t n (min_le_right e k),
    mul_lt_mul_iff_left₀ (by positivity), Int.cast_lt]
  exact decide_eq_true_iff

theorem eq_iff_toRat {x y : Fl} (hx : x.isFinite = true) (hy : y.isFinite = true) : eq x y = true ↔ x.toRat = y.toRat := by
  obtain ⟨s, m, e, rfl⟩ := isFinite_iff.1 hx
  obtain ⟨t, n, k, rfl⟩ := isFinite_iff.1 hy
  rw [← scaled_mul_zpow s m (min_le_left e k), ← scaled_mul_zpow t n (min_le_right e k),
    mul_left_inj' (by positivity), Int.cast_inj]
  exact decide_eq_true_iff

theorem le_iff_toRat {x y : Fl} (hx : x.isFinite = true) (hy : y.isFinite = true) : le x y = true ↔ x.toRat ≤ y.toRat := by
  rw [le, Bool.or_eq_true, lt_iff_toRat hx hy, eq_iff_toRat hx hy, le_iff_lt_or_eq]

/-- A value that compares equal to a finite one is finite. -/
theorem isFinite_of_eq {x y : Fl} (h : eq x y = true) (hy : y.isFinite = true) : x.isFinite = true := by
  obtain ⟨s, m, e, rfl⟩ := isFinite_iff.1 hy
  cases x with
  | fin => rfl
  | nan => cases h
  | inf => cases h

theorem eq_self {x : Fl} (h : x.isNaN = false) : eq x x = true := by
  cases x with
  | nan => cases h
  | inf s => simp [eq]
  | fin s m e => exact (eq_iff_toRat rfl rfl).2 rfl

/-! ### The same number -/

/-- The same number, or a NaN on both sides: equality up to the sign of a zero. -/
def Agree (x y : Fl) : Prop := eq x y = true ∨ (x.isNaN = true ∧ y.isNaN = true)

theorem Agree.refl (x : Fl) : Agree x x := by
  cases h : x.isNaN
  · exact .inl (eq_self h)
  · exact .inr ⟨h, h⟩

theorem agree_zeros (s t : Bool) (e k : Int) : Agree (.fin s 0 e) (.fin t 0 k) :=
  .inl ((eq_iff_toRat rfl rfl).2 (by simp [toRat]))

/-! ### Operations on negated operands (R122: "exact sign flips") -/

theorem roundFin_neg (f : Fmt) (r : Rounding) (s : Bool) (m : Nat) (e : Int) :
    roundFin f r (!s) m e = (roundFin f r s m e).neg := by
  unfold roundFin
  dsimp only
  split_ifs <;> rfl

theorem roundFin_zero (f : Fmt) (r : Rounding) (s : Bool) (e : Int) : roundFin f r s 0 e = .fin s 0 f.minExp := if_pos rfl

theorem mul_neg_left (f : Fmt) (x y : Fl) : mul f x.neg y = (mul f x y).neg := by
  cases x <;> cases y
  case inf.fin => simp only [mul, neg]; split <;> simp
  case fin.inf => simp only [mul, neg]; split <;> simp
  case fin.fin => simp only [mul, neg, Bool.not_bne, roundFin_neg]
  all_goals simp [mul, neg]

protected theorem mul_comm (f : Fmt) (x y : Fl) : mul f x y = mul f y x := by
  cases x <;> cases y
  case fin.fin => simp only [mul, bne_comm, Nat.mul_comm, Int.add_comm]
  all_goals simp only [mul, bne_comm]

theorem mul_neg_right (f : Fmt) (x y : Fl) : mul f x y.neg = (mul f x y).neg := by
  rw [Fl.mul_comm, mul_neg_left, Fl.mul_comm]

theorem scaled_not (s : Bool) (m : Nat) (e e0 : Int) : scaled (!s) m e e0 = -scaled s m e e0 := by
  cases s <;> simp [scaled]

/-- The sum of the negated operands is the negated sum, but for the sign of an exact zero. -/
theorem add_neg_neg (f : Fmt) (x y : Fl) : Agree (add f x.neg y.neg) (add f x y).neg := by
  cases x <;> cases y
  case inf.inf s t => cases s <;> cases t <;> exact Agree.refl _
  case fin.fin s m e t n k =>
    simp only [add, neg, addFin, scaled_not, ← Int.neg_add, Int.neg_eq_zero]
    generalize scaled s m e (min e k) + scaled t n k (min e k) = sum
    split
    next zero =>
      simp only [round, roundFin_zero]
      exact agree_zeros ..
    next nonzero =>
      have flip : decide (-sum < 0) = !decide (sum < 0) := by
        rw [← decide_not, decide_eq_decide]
        omega
      simp only [round, Int.natAbs_neg, flip, roundFin_neg]
      exact Agree.refl _
  all_goals exact Agree.refl _

/-! ### The sign flip of a pattern -/

/-- Flipping the sign bit of a register pair flips the sign of its value (R122). -/
theorem of64_flipSign (v : DWord) : of64 (flipSign v) = (of64 v).neg := by
  have sign : (v.toNat ^^^ 2 ^ 63) / 2 ^ 63 % 2 = 1 - v.toNat / 2 ^ 63 % 2 := by
    have := Nat.xor_mod_two_pow (a := v.toNat / 2 ^ 63) (b := 1) (n := 1)
    rw [Nat.xor_div_two_pow, Nat.div_self (by decide)]
    simp only [pow_one] at this
    rw [this]
    rcases Nat.mod_two_eq_zero_or_one (v.toNat / 2 ^ 63) with h | h <;> rw [h] <;> rfl
  have exponent : (v.toNat ^^^ 2 ^ 63) / 2 ^ 52 % 2 ^ 11 = v.toNat / 2 ^ 52 % 2 ^ 11 := by
    rw [Nat.xor_div_two_pow, Nat.xor_mod_two_pow, show 2 ^ 63 / 2 ^ 52 % 2 ^ 11 = 0 by decide, Nat.xor_zero]
  have fraction : (v.toNat ^^^ 2 ^ 63) % 2 ^ 52 = v.toNat % 2 ^ 52 := by
    rw [Nat.xor_mod_two_pow, show 2 ^ 63 % 2 ^ 52 = 0 by decide, Nat.xor_zero]
  have toNat : (flipSign v).toNat = v.toNat ^^^ 2 ^ 63 := by
    rw [flipSign, BitVec.toNat_xor]
    rfl
  have flip : ((1 - v.toNat / 2 ^ 63 % 2) == 1) = !(v.toNat / 2 ^ 63 % 2 == 1) := by
    rcases Nat.mod_two_eq_zero_or_one (v.toNat / 2 ^ 63) with h | h <;> rw [h] <;> rfl
  unfold of64 ofBits
  simp only [show b64.ebits = 11 from rfl, show 11 + b64.prec - 1 = 63 from rfl, show b64.prec - 1 = 52 from rfl, toNat, sign,
    exponent, fraction, flip]
  split_ifs <;> rfl

theorem flipSign_flipSign (v : DWord) : flipSign (flipSign v) = v := by
  rw [flipSign, flipSign, BitVec.xor_assoc, BitVec.xor_self, BitVec.xor_zero]

end Fl

end Sys2Proof.Machine
end

