-- ==== Sys2Proof/Proofs/FloatPatterns.lean ====
section
/-! SUPPORT. The pattern of a value: the free value plays no part in it unless the value is a NaN, and then the pattern is a NaN's
(93_implementation_defined.md I-9). -/

namespace Sys2Proof.Machine

namespace Fl

@[simp] theorem round_isNaN (f : Fmt) (r : Rounding) (x : Fl) : (x.round f r).isNaN = x.isNaN := by
  cases x with
  | fin s m e => exact roundFin_isNaN f r s m e
  | nan => rfl
  | inf => rfl

/-- Only the pattern of a NaN takes anything from the free value. -/
theorem toBits_draw {f : Fmt} {r : Rounding} {x : Fl} (h : x.isNaN = false) (d e : Nat) : toBits f r d x = toBits f r e x := by
  rw [← round_isNaN f r] at h
  unfold toBits
  cases hx : x.round f r with
  | nan => rw [hx] at h; cases h
  | inf => rfl
  | fin => rfl

theorem to64_draw {x : Fl} (h : x.isNaN = false) (d e : DWord) : to64 d x = to64 e x := by
  rw [to64, toBits_draw h d.toNat e.toNat, to64]

/-- Bits above those of the format play no part in the value. -/
theorem ofBits_mod (p x b : Nat) : ofBits ⟨p + 2, x + 1⟩ (b % 2 ^ (x + 1 + (p + 2))) = ofBits ⟨p + 2, x + 1⟩ b := by
  have field : ∀ k j, k + j ≤ x + 1 + (p + 2) → b % 2 ^ (x + 1 + (p + 2)) / 2 ^ k % 2 ^ j = b / 2 ^ k % 2 ^ j := by
    intro k j h
    obtain ⟨i, hi⟩ := Nat.exists_eq_add_of_le h
    rw [hi, show k + j + i = k + (j + i) by ring, pow_add 2 k, Nat.mod_mul_right_div_self,
      Nat.mod_mod_of_dvd _ (Nat.pow_dvd_pow 2 (Nat.le_add_right j i))]
  have sign := field (x + 1 + (p + 1)) 1 (by omega)
  have exponent := field (p + 1) (x + 1) (by omega)
  have fraction := field 0 (p + 1) (by omega)
  simp only [pow_zero, Nat.div_one, pow_one] at sign fraction
  unfold ofBits
  simp only [show p + 2 - 1 = p + 1 by omega, show x + 1 + (p + 2) - 1 = x + 1 + (p + 1) by omega, sign, exponent, fraction]

theorem of64_to64_isNaN (d : DWord) {x : Fl} (h : x.isNaN = true) : (of64 (to64 d x)).isNaN = true := by
  rw [isNaN_iff.1 h, of64, to64, BitVec.toNat_ofNat]
  exact (congrArg isNaN (ofBits_mod 51 10 _)).trans (isNaN_ofBits_nanBits 51 10 _)

theorem of16_to16_isNaN (r : Rounding) (d : DWord) {x : Fl} (h : x.isNaN = true) : (of16 (to16 r d x)).isNaN = true := by
  rw [isNaN_iff.1 h, of16, to16, BitVec.toNat_ofNat]
  exact (congrArg isNaN (ofBits_mod 9 4 _)).trans (isNaN_ofBits_nanBits 9 4 _)

end Fl

end Sys2Proof.Machine
end

