-- ==== Sys2Proof/Proofs/TransferCore.lean ====
section
/-! SUPPORT. O16, O17, O21: the branches of D and of L, and the symmetry of D (41_transfer_function_core.md R122, R123, R130). -/

namespace Sys2Proof.Machine

/-! ### The branches of D (R122) -/

section
variable {t : Transfer} {v : DWord}

theorem delinearise_low (h : Fl.le (Fl.of64 v) t.b.neg = true) :
    delinearise t v = Fl.add b64 (Fl.mul b64 t.a.neg (Fl.of64 (Config.pow64 (flipSign v) t.gamma))) (Fl.sub b64 t.a Fl.one) :=
  if_pos h

theorem delinearise_middle (h : Fl.le (Fl.of64 v) t.b.neg = false) (h' : Fl.lt (Fl.of64 v) t.b = true) :
    delinearise t v = Fl.mul b64 t.dl (Fl.of64 v) :=
  (if_neg (Bool.eq_false_iff.1 h)).trans (if_pos h')

theorem delinearise_high (h : Fl.le (Fl.of64 v) t.b.neg = false) (h' : Fl.lt (Fl.of64 v) t.b = false) :
    delinearise t v = Fl.sub b64 (Fl.mul b64 t.a (Fl.of64 (Config.pow64 v t.gamma))) (Fl.sub b64 t.a Fl.one) :=
  (if_neg (Bool.eq_false_iff.1 h)).trans (if_neg (Bool.eq_false_iff.1 h'))

end

/-- A zero is at most the negation of a zero, whatever their signs. -/
theorem Fl.le_neg_of_zeros {x b : Fl} (hx : Fl.eq x Fl.zero = true) (hb : Fl.eq b Fl.zero = true) : Fl.le x b.neg = true := by
  have fx := isFinite_of_eq hx rfl
  have fb := isFinite_of_eq hb rfl
  rw [eq_iff_toRat fx rfl] at hx
  rw [eq_iff_toRat fb rfl] at hb
  rw [le_iff_toRat fx (by rwa [isFinite_neg]), toRat_neg, hx, hb]
  simp [zero, toRat]

/-- Settles O16: the branches are those of the definition; a NaN compares with nothing, and zeros of either sign are equal. -/
theorem delineariseBranches : Obligations.DelineariseBranches := by
  unfold Obligations.DelineariseBranches
  exact fun t v => ⟨delinearise_low, delinearise_middle, delinearise_high,
    fun nan => ⟨Fl.le_of_isNaN nan, Fl.lt_of_isNaN nan⟩, fun hb hv => Fl.le_neg_of_zeros hv hb⟩

/-! ### The symmetry of D (R130) -/

/-- The outer branches are each other's negation: the same power, and sums of negated operands. -/
theorem outer_branches_agree (a p c : Fl) :
    Fl.Agree (Fl.add b64 (Fl.mul b64 a.neg p) c) (Fl.sub b64 (Fl.mul b64 a p) c).neg
    ∧ Fl.Agree (Fl.sub b64 (Fl.mul b64 a p) c) (Fl.add b64 (Fl.mul b64 a.neg p) c).neg := by
  rw [Fl.mul_neg_left]
  constructor
  · simpa [Fl.sub] using Fl.add_neg_neg b64 (Fl.mul b64 a p) c.neg
  · simpa [Fl.sub] using Fl.add_neg_neg b64 (Fl.mul b64 a p).neg c

/-- D(−v) and −D(v) agree: −v lies in the branch opposite to that of v, both sides in the middle one being exact negations. -/
theorem delinearise_flipSign {t : Transfer} {v : DWord} (hβ : t.b.isFinite = true) (hv : (Fl.of64 v).isFinite = true)
    (nonneg : Fl.le Fl.zero t.b = true) (ne : Fl.eq (Fl.of64 v) t.b = false) (ne' : Fl.eq (Fl.of64 v).neg t.b = false) :
    Fl.Agree (delinearise t (flipSign v)) (delinearise t v).neg := by
  have hβ' : t.b.neg.isFinite = true := by rwa [Fl.isFinite_neg]
  have hv' : (Fl.of64 v).neg.isFinite = true := by rwa [Fl.isFinite_neg]
  have low := Fl.le_iff_toRat hv hβ'
  have below := Fl.lt_iff_toRat hv hβ
  have low' := Fl.le_iff_toRat hv' hβ'
  have below' := Fl.lt_iff_toRat hv' hβ
  rw [Fl.le_iff_toRat rfl hβ, show Fl.zero.toRat = 0 by simp [Fl.zero, Fl.toRat]] at nonneg
  rw [Bool.eq_false_iff, Ne, Fl.eq_iff_toRat hv hβ] at ne
  rw [Bool.eq_false_iff, Ne, Fl.eq_iff_toRat hv' hβ, Fl.toRat_neg] at ne'
  simp only [Fl.toRat_neg] at low low' below'
  rw [← Fl.of64_flipSign] at low' below'
  rcases lt_trichotomy (Fl.of64 v).toRat (-t.b.toRat) with outside | edge | inside
  · have notLow' := Bool.eq_false_iff.2 fun h => absurd (low'.1 h) (by linarith)
    have notBelow' := Bool.eq_false_iff.2 fun h => absurd (below'.1 h) (by linarith)
    rw [delinearise_low (low.2 outside.le), delinearise_high notLow' notBelow']
    exact (outer_branches_agree ..).2
  · exact absurd (by rw [edge, neg_neg]) ne'
  · have notLow := Bool.eq_false_iff.2 fun h => absurd (low.1 h) (by linarith)
    rcases lt_or_gt_of_ne ne with lt | gt
    · have notLow' := Bool.eq_false_iff.2 fun h => absurd (low'.1 h) (by linarith)
      rw [delinearise_middle notLow (below.2 lt), delinearise_middle notLow' (below'.2 (by linarith)), Fl.of64_flipSign,
        Fl.mul_neg_right]
      exact Fl.Agree.refl _
    · have notBelow := Bool.eq_false_iff.2 fun h => absurd (below.1 h) (by linarith)
      rw [delinearise_high notLow notBelow, delinearise_low (low'.2 (by linarith)), Fl.flipSign_flipSign]
      exact (outer_branches_agree ..).1

/-- Settles O17, by `delinearise_flipSign`. -/
theorem delineariseIsOdd : Obligations.DelineariseIsOdd := by
  unfold Obligations.DelineariseIsOdd
  intro t v finite nonneg hv ne ne'
  have hβ : t.b.isFinite = true := by
    simp only [Transfer.finite, Bool.and_eq_true] at finite
    obtain ⟨⟨⟨-, hb⟩, -⟩, -⟩ := finite
    exact hb
  exact (delinearise_flipSign hβ hv nonneg ne ne').imp_right fun ⟨h, h'⟩ => ⟨h, by rwa [Fl.isNaN_neg] at h'⟩

/-! ### The branches of L (R123) -/

/-- POW64 on operands that are no NaN: the free value plays no part. -/
theorem pow64_draw {d : DWord} {x y : Fl} (hx : x.isNaN = false) (hy : y.isNaN = false) :
    pow64 d x y = Fl.of64 (Config.pow64 (Fl.to64 0 x) (Fl.to64 0 y)) := by
  rw [pow64, Fl.to64_draw hx d 0, Fl.to64_draw hy d 0]

section
variable {d : DWord} {t : Transfer} {x : Fl}

theorem linearise_low (h : Fl.le x (Fl.mul b64 t.b t.dl).neg = true) :
    linearise d t x = (pow64 d (Fl.mul b64 (Fl.sub b64 (Fl.sub b64 Fl.one t.a) x) (Fl.div b64 Fl.one t.a))
      (Fl.div b64 Fl.one t.g)).neg :=
  if_pos h

theorem linearise_middle (h : Fl.le x (Fl.mul b64 t.b t.dl).neg = false) (h' : Fl.lt x (Fl.mul b64 t.b t.dl) = true) :
    linearise d t x = Fl.mul b64 x (Fl.div b64 Fl.one t.dl) :=
  (if_neg (Bool.eq_false_iff.1 h)).trans (if_pos h')

theorem linearise_high (h : Fl.le x (Fl.mul b64 t.b t.dl).neg = false) (h' : Fl.lt x (Fl.mul b64 t.b t.dl) = false) :
    linearise d t x = pow64 d (Fl.mul b64 (Fl.sub b64 (Fl.add b64 x t.a) Fl.one) (Fl.div b64 Fl.one t.a))
      (Fl.div b64 Fl.one t.g) :=
  (if_neg (Bool.eq_false_iff.1 h)).trans (if_neg (Bool.eq_false_iff.1 h'))

end

/-- Settles O21: the branches are those of the definition, and POW64 takes no free value there (`pow64_draw`). -/
theorem lineariseBranches : Obligations.LineariseBranches := by
  unfold Obligations.LineariseBranches
  intro d t v
  refine ⟨fun low base expo => ?low, linearise_middle, fun notLow notBelow base expo => ?high⟩
  case low => exact (linearise_low low).trans (congrArg Fl.neg (pow64_draw base expo))
  case high => exact (linearise_high notLow notBelow).trans (pow64_draw base expo)

end Sys2Proof.Machine
end

