-- ==== Sys2Proof/Proofs/TfEval.lean ====
section
/-! SUPPORT. O18, O19, O20: TF_EVAL_D and TF_EVAL_L, their values and their errors (41_transfer_function_core.md R126, R127,
60_exceptions.md R307). -/

namespace Sys2Proof.Machine

/-- A TF_EVAL command that has a value writes its pattern to TF_RES; the pattern of a NaN is a NaN's (log 18). -/
theorem State.finishTf_some (s : State) (v : Fl) :
    ∃ r, s.finishTf (some v) = { s with tfRes := r, seq := .idle, done := true, disturbed := false, draws := s.draws + 1 }
      ∧ (v.isNaN = false → r = Fl.to64 0 v) ∧ (v.isNaN = true → (Fl.of64 r).isNaN = true) :=
  ⟨_, rfl, fun h => Fl.to64_draw h _ 0, fun h => Fl.of64_to64_isNaN _ h⟩

section
variable {side : Side} {b : Blk} {x : DWord}

theorem Transfer.analytic_iff {t : Transfer} : t.analytic = true ↔ Fl.eq (Fl.of64 t.alpha) Fl.zero = false :=
  iff_of_eq (Bool.not_eq_true' _)

theorem Transfer.not_analytic (t : Transfer) : (!t.analytic) = Fl.eq (Fl.of64 t.alpha) Fl.zero := Bool.not_not _

/-! ### The value of TF_EVAL_D (R126) -/

theorem tfDelin_analytic (valid : b.trcValid = true) (finite : b.transfer.finite = true) (ha : b.transfer.analytic = true) :
    tfDelin side b x = some (delinearise b.transfer x) := by
  simp [tfDelin, valid, finite, ha, delinOut]

theorem tfDelin_external (valid : b.trcValid = true) (ha : b.transfer.analytic = false) :
    tfDelin .output b x = some (Fl.of64 (Config.extDelin x)) := by
  simp [tfDelin, valid, ha, delinOut]

theorem tfDelin_invalid (invalid : b.trcValid = false) : tfDelin side b x = none := by
  simp [tfDelin, invalid]

theorem tfDelin_input_external (ha : b.transfer.analytic = false) : tfDelin .input b x = none := by
  simp [tfDelin, ha]

theorem tfDelin_infinite (ha : b.transfer.analytic = true) (infinite : b.transfer.finite = false) : tfDelin side b x = none := by
  simp [tfDelin, ha, infinite]

/-! ### The value of TF_EVAL_L (R127) -/

theorem Transfer.linearisable_iff {t : Transfer} :
    t.linearisable = true ↔ t.finite = true ∧ Fl.eq (Fl.of64 t.alpha) Fl.zero = false ∧ Fl.eq (Fl.of64 t.gamma) Fl.zero = false
      ∧ Fl.eq (Fl.of64 t.delta) Fl.zero = false := by
  simp only [Transfer.linearisable, Bool.and_eq_true, Bool.not_eq_true', and_assoc]
  rfl

theorem tfLin_linearisable {draw : Nat} (valid : b.trcValid = true) (lin : b.transfer.linearisable = true) :
    tfLin draw b x = some (linearise (Config.nanDraw draw (tfSite 1)) b.transfer (Fl.of64 x)) := by
  simp [tfLin, valid, lin]

theorem tfLin_none {draw : Nat} (h : b.trcValid = false ∨ ¬ b.transfer.linearisable = true) : tfLin draw b x = none := by
  rcases h with invalid | lin
  · simp [tfLin, invalid]
  · simp [tfLin, lin]

end

/-! ### The commands -/

theorem exec_tfEvalD {side : Side} {s : State} {r : Option Fl}
    (h : tfDelin side (s.operands.inputs.blk side) s.operands.tfArg = r) : exec (.tfEvalD side) s = .next (s.finishTf r) :=
  h ▸ rfl

theorem exec_tfEvalL {side : Side} {s : State} {r : Option Fl}
    (h : tfLin s.draws (s.operands.inputs.blk side) s.operands.tfArg = r) : exec (.tfEvalL side) s = .next (s.finishTf r) :=
  h ▸ rfl

/-- Settles O18: TF_RES takes the pattern of the value of D, or of EXT_DELIN's, whose pattern is EXT_DELIN's result itself. -/
theorem tfEvalDWritesD : Obligations.TfEvalDWritesD := by
  unfold Obligations.TfEvalDWritesD
  constructor
  · intro side s valid finite ha
    obtain ⟨r, e, value, nan⟩ := s.finishTf_some (delinearise (s.operands.inputs.blk side).transfer s.operands.tfArg)
    rw [exec_tfEvalD (tfDelin_analytic valid finite (Transfer.analytic_iff.2 ha)), e]
    exact ⟨r, rfl, value, nan⟩
  · intro s valid ha
    obtain ⟨r, e, value, nan⟩ := s.finishTf_some (Fl.of64 (Config.extDelin s.operands.tfArg))
    have external : s.operands.inputs.outBlk.transfer.analytic = false := by
      rw [← Bool.not_eq_true', Transfer.not_analytic, ha]
    rw [exec_tfEvalD (side := .output) (tfDelin_external valid external), e]
    exact ⟨r, rfl, fun h => (value h).trans (Fl.to64_of64 0 _ h), nan⟩

/-- Settles O19: TF_RES takes the pattern of the value of L, a NaN base of POW64 drawn at its own site. -/
theorem tfEvalLWritesL : Obligations.TfEvalLWritesL := by
  unfold Obligations.TfEvalLWritesL
  intro side s valid finite ha hg hd
  obtain ⟨r, e, value, nan⟩ := s.finishTf_some
    (linearise (Config.nanDraw s.draws (tfSite 1)) (s.operands.inputs.blk side).transfer (Fl.of64 s.operands.tfArg))
  rw [exec_tfEvalL (tfLin_linearisable valid (Transfer.linearisable_iff.2 ⟨finite, ha, hg, hd⟩)), e]
  exact ⟨_, r, rfl, value, nan⟩

/-- Settles O20: in each error case the command has no value, and without one it reports UnknownTransfer. -/
theorem tfEvalErrors : Obligations.TfEvalErrors := by
  unfold Obligations.TfEvalErrors
  constructor
  · intro side s h
    refine exec_tfEvalD (r := none) ?_
    rcases h with invalid | ⟨rfl, ha⟩ | ⟨ha, infinite⟩
    · exact tfDelin_invalid invalid
    · refine tfDelin_input_external ?_
      rw [← Bool.not_eq_true', Transfer.not_analytic]
      exact ha
    · exact tfDelin_infinite (Transfer.analytic_iff.2 ha) infinite
  · intro side s h
    refine exec_tfEvalL (r := none) (tfLin_none (h.imp_right fun zero lin => ?_))
    obtain ⟨finite, ha, hg, hd⟩ := Transfer.linearisable_iff.1 lin
    rcases zero with e | e | e | e
    · exact absurd (finite.symm.trans e) (by decide)
    · exact absurd (ha.symm.trans e) (by decide)
    · exact absurd (hg.symm.trans e) (by decide)
    · exact absurd (hd.symm.trans e) (by decide)

end Sys2Proof.Machine
end

