-- ==== Sys2Proof/Proofs/LutEntries.lean ====
section
/-! SUPPORT. O34, O35: the entries of the integer and of the half-float LUTs, and the tables a built plan holds
(44_gamma_lut_builder.md R181 to R185, 41_transfer_function_core.md R124). -/

namespace Sys2Proof.Machine

/-! ### Tables entry by entry -/

/-- A computation over a list answers the list of the answers, when there is one for each element. -/
theorem mapM_eq_some_iff {α β : Type} {f : α → Option β} {l : List α} {r : List β} :
    l.mapM f = some r ↔ l.map f = r.map some := by
  induction l generalizing r with
  | nil => cases r <;> simp
  | cons a l ih =>
    rw [List.mapM_cons]
    cases r <;> simp [Option.bind_eq_some_iff, ih]

/-- The integer builder answers exactly the table whose entries are the answers of `qlut` (R183). -/
theorem intTable_eq_some_iff {f : Nat → Fl} {t : List Half} :
    intTable f = some t ↔ t.length = 32768 ∧ ∀ n, n < 32768 → qlut (f n) = some (lutEntry t n) := by
  rw [intTable, mapM_eq_some_iff, List.ext_getElem_iff]
  simp only [List.length_map, List.length_range, List.getElem_map, List.getElem_range]
  have entry {n : Nat} (h : n < t.length) : lutEntry t n = t[n] := List.getD_eq_getElem _ _ h
  constructor
  · rintro ⟨len, eq⟩
    refine ⟨len.symm, fun n hn => ?_⟩
    rw [entry (len ▸ hn)]
    exact eq n hn (len ▸ hn)
  · rintro ⟨len, eq⟩
    refine ⟨len.symm, fun n hn hn' => ?_⟩
    rw [← entry hn']
    exact eq n hn

/-- Both tables are answered exactly when each of them is (R182). -/
theorem intLuts_eq_some_iff {draw : Nat} {tIn tOut : Transfer} {ext : Bool} {lin delin : List Half} :
    intLuts draw tIn tOut ext = some (lin, delin) ↔
      intTable (fun n => linearise (Config.nanDraw draw (lutSite n 0)) tIn (lutValue n)) = some lin
      ∧ intTable (fun n => delinOut ext tOut (Fl.to64 0 (lutValue n))) = some delin := by
  unfold intLuts
  generalize intTable (fun n => linearise (Config.nanDraw draw (lutSite n 0)) tIn (lutValue n)) = tableIn
  generalize intTable (fun n => delinOut ext tOut (Fl.to64 0 (lutValue n))) = tableOut
  cases tableIn with
  | none => simp
  | some lin => cases tableOut <;> simp

theorem lutEntry_map_range (g : Nat → Half) {k n : Nat} (h : n < k) : lutEntry ((List.range k).map g) n = g n := by
  simp [lutEntry, List.getD, h]

section
variable (mode : Rounding) (draw : Nat) (t : Transfer) (ext : Bool) (n : Half)

theorem lutEntry_halfLin :
    lutEntry (halfLin mode draw t) n.toNat
      = halfEntry mode draw (lutSite n.toNat 1) (linFloat (Config.nanDraw draw (lutSite n.toNat 0)) t (Fl.of16 n)) := by
  rw [halfLin, lutEntry_map_range _ (k := halfLutSize) n.isLt, BitVec.ofNat_toNat, BitVec.setWidth_eq]

theorem lutEntry_halfDelin :
    lutEntry (halfDelin mode draw t ext) n.toNat
      = halfEntry mode draw (lutSite n.toNat 2) (delinFloat ext t (Fl.of16 n)) := by
  rw [halfDelin, lutEntry_map_range _ (k := halfLutSize) n.isLt, BitVec.ofNat_toNat, BitVec.setWidth_eq]

end

/-- A NaN becomes a NaN entry (R185). -/
theorem halfEntry_nan (mode : Rounding) (draw site : Nat) : (Fl.of16 (halfEntry mode draw site .nan)).isNaN = true :=
  Fl.of16_to16_isNaN mode _ rfl

/-! ### qlut (R183) -/

theorem clipInt16_eq (k : Int) : clipInt16 k = max (-32768) (min 32767 k) := by
  unfold clipInt16 clip
  split_ifs <;> omega

theorem qlut_nan : qlut .nan = none := rfl

theorem qlut_inf (neg : Bool) : qlut (.inf neg) = some (if neg then BitVec.ofInt 16 (-32768) else BitVec.ofInt 16 32767) := by
  cases neg <;> rfl

theorem qlut_overflow {r : Fl} {neg : Bool} (finite : r.isFinite = true) (h : Fl.mul b64 r (Fl.ofInt 28672) = .inf neg) :
    qlut r = some (if neg then BitVec.ofInt 16 (-32768) else BitVec.ofInt 16 32767) := by
  obtain ⟨s, m, e, rfl⟩ := Fl.isFinite_iff.1 finite
  simp only [qlut, h]
  cases neg <;> rfl

theorem qlut_rounded {r : Fl} {k : Int} (finite : r.isFinite = true) (h : (Fl.mul b64 r (Fl.ofInt 28672)).rne = some k) :
    qlut r = some (BitVec.ofInt 16 (max (-32768) (min 32767 k))) := by
  obtain ⟨s, m, e, rfl⟩ := Fl.isFinite_iff.1 finite
  rw [← clipInt16_eq]
  unfold qlut
  cases hp : Fl.mul b64 (.fin s m e) (Fl.ofInt 28672) with
  | nan => rw [hp] at h; cases h
  | inf => rw [hp] at h; cases h
  | fin => rw [hp] at h; simp [hp, h]

/-! ### The tables of a built plan (R180, R215) -/

/-- A built plan keeps the tables of the LUT step, with the pipe and the passthrough flag of its inputs. -/
theorem execPlan_luts {s t : State} (h : exec .plan s = .next t) (hv : t.planValid = true) :
    s.operands.inputs.stepLuts s.params.f2h s.draws = .ok (t.plan.linLut, t.plan.delinLut)
      ∧ t.plan.pipe = s.operands.inputs.pipe ∧ t.plan.flags.rgb2rgbPt = s.operands.inputs.rgb2rgbPt := by
  obtain ⟨-, -, -, -, prim, mat, luts, -, -, hluts, e⟩ := PlanInputs.buildPlan_ok.1 (execPlan_valid h hv)
  rw [e]
  exact ⟨hluts, rfl, rfl⟩

section
variable {p : PlanInputs} {mode : Rounding} {draw : Nat} {luts : List Half × List Half}

theorem PlanInputs.lutKind_int (hp : p.pipe = .int) (hf : p.rgb2rgbPt = false) : p.lutKind = .int := by
  simp [PlanInputs.lutKind, hp, hf]

theorem PlanInputs.lutKind_half (hp : p.pipe = .half) (hf : p.rgb2rgbPt = false) : p.lutKind = .half := by
  simp [PlanInputs.lutKind, hp, hf]

theorem PlanInputs.intLuts_of_stepLuts (hk : p.lutKind = .int) (h : p.stepLuts mode draw = .ok luts) :
    intLuts draw p.inBlk.transfer p.outBlk.transfer (!p.outBlk.transfer.analytic) = some luts := by
  rw [PlanInputs.stepLuts, hk] at h
  dsimp only at h
  split at h
  · cases h
  next ht =>
    cases h
    exact ht

theorem PlanInputs.halfLuts_of_stepLuts (hk : p.lutKind = .half) (h : p.stepLuts mode draw = .ok luts) :
    luts = (halfLin mode draw p.inBlk.transfer, halfDelin mode draw p.outBlk.transfer (!p.outBlk.transfer.analytic)) := by
  rw [PlanInputs.stepLuts, hk] at h
  exact (Except.ok.inj h).symm

end

/-- Settles O34: the builder's answer entry by entry, the LUT step of an integer plan, and `qlut` case by case. -/
theorem integerLutEntries : Obligations.IntegerLutEntries := by
  unfold Obligations.IntegerLutEntries
  refine ⟨fun draw tIn tOut ext lin delin => ?entries, fun s t h hv hp hf => ?plan, qlut_nan, fun r neg h => ?saturates,
    fun r k => qlut_rounded⟩
  case entries =>
    rw [intLuts_eq_some_iff, intTable_eq_some_iff, intTable_eq_some_iff]
    constructor
    · rintro ⟨⟨lenL, lin⟩, lenD, delin⟩
      exact ⟨lenL, lenD, fun n hn => ⟨lin n hn, delin n hn⟩⟩
    · rintro ⟨lenL, lenD, both⟩
      exact ⟨⟨lenL, fun n hn => (both n hn).1⟩, lenD, fun n hn => (both n hn).2⟩
  case plan =>
    obtain ⟨hluts, hpipe, hflag⟩ := execPlan_luts h hv
    have kind := PlanInputs.lutKind_int (hpipe.symm.trans hp) (hflag.symm.trans hf)
    rw [← Transfer.not_analytic]
    exact PlanInputs.intLuts_of_stepLuts kind hluts
  case saturates =>
    rcases h with rfl | ⟨finite, h⟩
    · exact qlut_inf neg
    · exact qlut_overflow finite h

/-- Settles O35: the LUT step of a half plan, and each entry of its tables, a NaN index apart (log 17). -/
theorem halfLutEntries : Obligations.HalfLutEntries := by
  unfold Obligations.HalfLutEntries
  refine ⟨fun s t h hv hp hf => ?plan, fun mode draw t ext n => ⟨fun nan => ?nan, fun num => ?num⟩⟩
  case plan =>
    obtain ⟨hluts, hpipe, hflag⟩ := execPlan_luts h hv
    have kind := PlanInputs.lutKind_half (hpipe.symm.trans hp) (hflag.symm.trans hf)
    rw [← Transfer.not_analytic]
    exact Prod.mk.inj (PlanInputs.halfLuts_of_stepLuts kind hluts)
  case nan =>
    rw [lutEntry_halfLin, lutEntry_halfDelin, linFloat, delinFloat, if_pos nan, if_pos nan]
    exact ⟨halfEntry_nan .., halfEntry_nan ..⟩
  case num =>
    rw [lutEntry_halfLin, lutEntry_halfDelin, linFloat, delinFloat, if_neg (Bool.eq_false_iff.1 num),
      if_neg (Bool.eq_false_iff.1 num)]
    exact ⟨⟨_, _, rfl⟩, _, rfl⟩

end Sys2Proof.Machine
end

