-- ==== Sys2Proof/Proofs/SolverTables.lean ====
section
/-! SUPPORT. O30, O31: the tables of the primaries_solver and of the matrix_solver entry by entry, and the tables and the black-level
offsets a built plan holds (42_primaries_solver.md R147, 43_matrix_solver.md R163 to R169). -/

namespace Sys2Proof

theorem V3.mapOpt_eq_some {α β : Type} {f : α → Option β} {v : V3 α} {r : V3 β} :
    v.mapOpt f = some r ↔ ∀ i, i < 3 → f (v.get i) = some (r.get i) := by
  obtain ⟨r0, r1, r2⟩ := r
  constructor
  · intro h i hi
    unfold V3.mapOpt at h
    split at h
    · next h0 h1 h2 =>
      cases h
      interval_cases i
      exacts [h0, h1, h2]
    · cases h
  · intro h
    have h0 : f v.c0 = some r0 := h 0 (by decide)
    have h1 : f v.c1 = some r1 := h 1 (by decide)
    have h2 : f v.c2 = some r2 := h 2 (by decide)
    simp only [V3.mapOpt, h0, h1, h2]

namespace Machine

/-! ### Quantised tables entry by entry (R147, R166 to R169) -/

/-- A quantised coefficient is the rounded value itself: the int16 never wraps. -/
theorem quant16_eq_some {x : Fl} {q : Half} : quant16 x = some q ↔ x.rne = some q.toInt := by
  unfold quant16
  cases x.rne with
  | none => simp
  | some k =>
    simp only [Option.some.injEq]
    constructor
    · intro h
      split at h
      · next range =>
        cases h
        rw [BitVec.toInt_ofInt_eq_self (by decide) (by simpa using range.1) (by simpa using Int.lt_add_one_of_le range.2)]
      · cases h
    · rintro rfl
      have lower : -32768 ≤ q.toInt := BitVec.le_toInt q
      have upper : q.toInt < 32768 := BitVec.toInt_lt
      rw [if_pos ⟨lower, Int.le_of_lt_add_one upper⟩, BitVec.ofInt_toInt]

theorem quantTable_eq_some {t : M3 Fl} {q : M3 Half} :
    quantTable t = some q ↔ ∀ n m, n < 3 → m < 3 → ((t.get n).get m).rne = some ((q.get n).get m).toInt := by
  simp only [quantTable, V3.mapOpt_eq_some, quant16_eq_some]
  exact ⟨fun h n m hn hm => h n hn m hm, fun h n hn m hm => h n m hn hm⟩

theorem PlanInputs.primaryTables_entries {p : PlanInputs} {q : M3 Half} {mirror : M3 Word} (h : p.primaryTables = some (q, mirror)) :
    ∃ map, p.primaryMap = some map ∧ ∀ n m, n < 3 → m < 3 →
      (Fl.mul b64 (Fl.ofInt 16384) ((map.get n).get m)).rne = some ((q.get n).get m).toInt
        ∧ (mirror.get n).get m = Fl.to32 0 ((map.get n).get m) := by
  unfold PlanInputs.primaryTables at h
  split at h
  · cases h
  · next map hmap =>
    split at h
    · cases h
    · next hq =>
      cases h
      refine ⟨map, hmap, fun n m hn hm => ⟨?_, by simp only [V3.get_map]⟩⟩
      have entry := quantTable_eq_some.1 hq n m hn hm
      simpa only [V3.get_map] using entry

section
variable {mat mIn : M3 Fl} {r rIn : Range} {d dIn n m : Nat} {q : M3 Half}

theorem yuv2rgbTable_entry (h : yuv2rgbTable mat r d = some q) (hn : n < 3) (hm : m < 3) :
    (Fl.div b64 (Fl.mul b64 (Fl.mul b64 (Fl.ofInt 28672) (Fl.ofInt (2 ^ (d - 1) : Nat))) ((mat.get n).get m))
      (Fl.ofInt (r.span d m))).rne = some ((q.get n).get m).toInt := by
  have entry := quantTable_eq_some.1 h n m hn hm
  rwa [V3.get_map, V3.get_ofFn _ hm] at entry

theorem rgb2yuvTable_entry (h : rgb2yuvTable mat r d = some q) (hn : n < 3) (hm : m < 3) :
    (Fl.div b64 (Fl.mul b64 (Fl.mul b64 (Fl.ofInt (2 ^ (29 - d) : Nat)) (Fl.ofInt (r.span d n))) ((mat.get n).get m))
      (Fl.ofInt 28672)).rne = some ((q.get n).get m).toInt := by
  have entry := quantTable_eq_some.1 h n m hn hm
  rwa [V3.get_ofFn _ hn, V3.get_map] at entry

theorem yuv2yuvTable_entry (h : yuv2yuvTable mat mIn rIn r dIn d = some q) (hn : n < 3) (hm : m < 3) :
    (Fl.div b64
      (Fl.mul b64 (Fl.mul b64 (Fl.mul b64 (Fl.ofInt 16384) (((Fl.matMul b64 mat mIn).get n).get m)) (Fl.ofInt (r.span d n)))
        (Fl.ofInt (2 ^ dIn : Nat)))
      (Fl.mul b64 (Fl.ofInt (rIn.span dIn m)) (Fl.ofInt (2 ^ d : Nat)))).rne = some ((q.get n).get m).toInt := by
  have entry := quantTable_eq_some.1 h n m hn hm
  rwa [V3.get_ofFn _ hn, V3.get_ofFn _ hm] at entry

end

/-- The integer tables are the answers of the three builders, from the luma matrices of either side. -/
theorem PlanInputs.matrixTables_parts {p : PlanInputs} {rIn rOut : Range} {fast : Bool} {t : M3 Half × M3 Half × M3 Half}
    (h : p.matrixTables rIn rOut fast = some t) :
    ∃ mi mo, p.inBlk.luma.matrices = some mi ∧ p.outBlk.luma.matrices = some mo
      ∧ yuv2rgbTable mi.yuv2rgb rIn p.inFmt.d = some t.1 ∧ rgb2yuvTable mo.rgb2yuv rOut p.outFmt.d = some t.2.1
      ∧ (fast = true → yuv2yuvTable mo.rgb2yuv mi.yuv2rgb rIn rOut p.inFmt.d p.outFmt.d = some t.2.2) := by
  unfold PlanInputs.matrixTables at h
  split at h
  · next mi mo hmi hmo =>
    split at h
    · next ha hb hc =>
      cases h
      refine ⟨mi, mo, hmi, hmo, ha, hb, fun fast => ?_⟩
      rwa [if_pos fast] at hc
    · cases h
  · cases h

/-! ### Resolved ranges of the YUV family (R163, R209) -/

section
variable {p : PlanInputs} (yuv : p.inFmt.rgb = false) (side : Side) (d : Nat)
include yuv

theorem PlanInputs.resolvedRange_yuv : p.resolvedRange side = if (p.blk side).range = 2 then .pc else .tv := by
  simp only [PlanInputs.resolvedRange, PlanInputs.isRgb, yuv, Bool.false_eq_true, if_false, beq_iff_eq]

theorem PlanInputs.offset_yuv :
    (p.resolvedRange side).offset d = if (p.blk side).range = 2 then 0 else 16 * 2 ^ (d - 8) := by
  rw [PlanInputs.resolvedRange_yuv yuv, apply_ite (Range.offset · d)]
  rfl

theorem PlanInputs.span_yuv (i : Nat) :
    (p.resolvedRange side).span d i
      = if (p.blk side).range = 2 then 2 ^ d - 1 else if i = 0 then 219 * 2 ^ (d - 8) else 224 * 2 ^ (d - 8) := by
  rw [PlanInputs.resolvedRange_yuv yuv, apply_ite (Range.span · d i)]
  rfl

end

/-! ### The black-level offsets of a plan (R165) -/

theorem PixFmt.depth_le_of_yuv {f : PixFmt} (h : f.check = .ok ()) (yuv : f.rgb = false) : f.d ≤ 12 := by
  rcases PixFmt.check_cases h with ⟨rgb, -⟩ | ⟨-, -, -, depth, -⟩
  · rw [yuv] at rgb
    cases rgb
  · omega

/-- At a depth of the YUV family the offset fits the 16-bit field that holds it. -/
theorem Range.offset_lt (r : Range) {d : Nat} (h : d ≤ 12) : r.offset d < 2 ^ 16 := by
  cases r with
  | notApplicable => exact Nat.two_pow_pos 16
  | pc => exact Nat.two_pow_pos 16
  | tv =>
    have scale : 2 ^ (d - 8) ≤ 2 ^ 4 := Nat.pow_le_pow_right (by decide) (by omega)
    rw [Range.offset]
    omega

/-- The 16-bit field holds the offset of the side's range. -/
theorem PlanInputs.toNat_offset_yuv {p : PlanInputs} (yuv : p.inFmt.rgb = false) (side : Side) {d : Nat} (h : d ≤ 12) :
    (BitVec.ofNat 16 ((p.resolvedRange side).offset d)).toNat = if (p.blk side).range = 2 then 0 else 16 * 2 ^ (d - 8) := by
  rw [BitVec.toNat_ofNat, Nat.mod_eq_of_lt (Range.offset_lt _ h), PlanInputs.offset_yuv yuv]

/-- Settles O30: a built plan passed the format check, so both depths are at most 12 and neither offset wraps. -/
theorem blackLevelOffsets : Obligations.BlackLevelOffsets := by
  unfold Obligations.BlackLevelOffsets
  intro s t h hv yuv
  obtain ⟨front, -, -, -, prim, mat, luts, -, -, -, e⟩ := PlanInputs.buildPlan_ok.1 (execPlan_valid h hv)
  obtain ⟨formats, -⟩ := PlanInputs.checkFront_ok.1 front
  obtain ⟨hin, hout, family, -⟩ := PlanInputs.checkFormats_ok.1 formats
  rw [e]
  exact ⟨PlanInputs.toNat_offset_yuv yuv .input (PixFmt.depth_le_of_yuv hin yuv),
    PlanInputs.toNat_offset_yuv yuv .output (PixFmt.depth_le_of_yuv hout (family.symm.trans yuv))⟩

/-! ### The tables of a built plan (R215) -/

section
variable {p : PlanInputs}

/-- Without a passthrough the primaries solver's tables are those of its step (R149). -/
theorem PlanInputs.primaryTables_of_step {tables : M3 Half × M3 Word} (hl : p.lrgb2lrgbPt = false) (hr : p.rgb2rgbPt = false)
    (h : p.stepPrimaries = .ok tables) : p.primaryTables = some tables := by
  have runs : p.runsPrimaries = true := by rw [PlanInputs.runsPrimaries, hl, hr]; rfl
  rw [PlanInputs.stepPrimaries, if_pos runs] at h
  split at h
  · cases h
  · next ht =>
    cases h
    exact ht

/-- For the YUV family the matrix solver's tables are those of its step (R171). -/
theorem PlanInputs.matrixTables_of_step {tables : M3 Half × M3 Half × M3 Half} (yuv : p.inFmt.rgb = false)
    (h : p.stepMatrix = .ok tables) :
    p.matrixTables (p.resolvedRange .input) (p.resolvedRange .output) p.yuv2yuvFast = some tables := by
  rw [PlanInputs.stepMatrix, if_neg (by rw [PlanInputs.isRgb, yuv]; decide)] at h
  split at h
  · cases h
  · next ht =>
    cases h
    exact ht

end

/-- Settles O31: the plan is assembled from the steps of the two solvers, whose tables are read entry by entry, with the spans of R163
for the resolved ranges. -/
theorem solverTablesAreRounded : Obligations.SolverTablesAreRounded := by
  unfold Obligations.SolverTablesAreRounded
  rintro s t p n m dIn dOut rIn rOut rfl h hv hn hm rfl rfl rfl rfl
  obtain ⟨-, -, -, -, prim, mat, luts, hprim, hmat, -, e⟩ := PlanInputs.buildPlan_ok.1 (execPlan_valid h hv)
  rw [e]
  refine ⟨fun hl hr => ?primaries, fun yuv => ?matrices⟩
  case primaries =>
    obtain ⟨map, hmap, entries⟩ := PlanInputs.primaryTables_entries (PlanInputs.primaryTables_of_step hl hr hprim)
    exact ⟨map, hmap, entries n m hn hm⟩
  case matrices =>
    obtain ⟨mi, mo, hmi, hmo, toRgb, toYuv, composed⟩ :=
      PlanInputs.matrixTables_parts (PlanInputs.matrixTables_of_step yuv hmat)
    have spanIn := PlanInputs.span_yuv yuv .input s.operands.inputs.inFmt.d m
    have spanOut := PlanInputs.span_yuv yuv .output s.operands.inputs.outFmt.d n
    have entryRgb := yuv2rgbTable_entry toRgb hn hm
    have entryYuv := rgb2yuvTable_entry toYuv hn hm
    refine ⟨mi, mo, hmi, hmo, ?_, ?_, fun fast => ?_⟩
    · rwa [spanIn] at entryRgb
    · rwa [spanOut] at entryYuv
    · have entry := yuv2yuvTable_entry (composed fast) hn hm
      rwa [spanIn, spanOut] at entry

end Machine
end Sys2Proof
end

section
/-! SUPPORT. O36: the entry that a lookup reads, in the integer tables and in the half-float tables
(44_gamma_lut_builder.md R186). -/

namespace Sys2Proof.Machine

/-! ### The index of an integer table -/

theorem clipUint15_eq (k : Int) : clipUint15 k = max 0 (min 32767 k) := by
  unfold clipUint15 clip
  split_ifs <;> omega

theorem lutIndexOf_eq (pixel : Int) : lutIndexOf pixel = (max 0 (min 32767 (2048 + pixel))).toNat := by
  rw [lutIndexOf, clipUint15_eq]

section
variable {pixel : Int}

/-- Below the table the first entry is read. -/
theorem lutIndexOf_of_lt (below : pixel < -2048) : lutIndexOf pixel = 0 := by
  rw [lutIndexOf_eq]
  omega

/-- Past the table the last entry is read. -/
theorem lutIndexOf_of_gt (above : 30719 < pixel) : lutIndexOf pixel = 32767 := by
  rw [lutIndexOf_eq]
  omega

/-- Nothing is clipped from -2048 to 30719, both included. -/
theorem lutIndexOf_of_mem (low : -2048 ≤ pixel) (high : pixel ≤ 30719) : (lutIndexOf pixel : Int) = 2048 + pixel := by
  rw [lutIndexOf_eq]
  omega

end

/-! ### The lookups -/

theorem lutLookup_eq (table : List Half) (pixel : Int) : lutLookup table pixel = (lutEntry table (lutIndexOf pixel)).toInt := rfl

section
variable (c : Source) (p : Fin 4) (x y : Nat)

/-- Linearising a half-float sample reads the entry at its pattern. -/
theorem Source.halfLinAt_eq : c.halfLinAt p x y = lutEntry c.plan.linLut (c.sample p x y) := rfl

/-- Delinearising alone reads the entry at the sample's pattern (R275). -/
theorem Source.halfDelinSample_eq : c.halfDelinSample p x y = (lutEntry c.plan.delinLut (c.sample p x y)).toNat := rfl

/-- The full path delinearises at the pattern of the mapped value (R274). -/
theorem Source.halfFullSample_eq (mode : Rounding) (draw : Nat) :
    c.halfFullSample mode draw p x y = (lutEntry c.plan.delinLut (c.halfMapped mode draw p x y).toNat).toNat := rfl

end

/-- Settles O36: the clip of 2048 + pixel is a minimum and a maximum, read off at either side of the table and within it; each lookup
reads its table at the index named. -/
theorem lutIndexing : Obligations.LutIndexing := by
  unfold Obligations.LutIndexing
  exact ⟨fun _ => ⟨lutIndexOf_of_lt, lutIndexOf_of_gt, lutIndexOf_of_mem⟩, lutLookup_eq, Source.halfLinAt_eq,
    Source.halfDelinSample_eq, fun c mode draw p x y => c.halfFullSample_eq p x y mode draw⟩

end Sys2Proof.Machine
end

section
/-! SUPPORT. O4, O6, O14, O15, O39, O40: the turn that runs a command, the CMD write that accepts one, and what NOP, INVALIDATE and
CONVERT_SLICE do to the state (45_planner_and_commands.md R200, R201, R220, R224). -/

namespace Sys2Proof.Machine

/-! ### The accepted word runs (R200) -/

/-- The engine's turn on a legal word. -/
theorem engineStep_legal {s : State} {w : Word} {ops : Regs} {i : Instr} (busy : s.seq = .busy w ops) (legal : decode w = .ok i) :
    engineStep s = exec i s := by
  rcases engineStep_cases s with ⟨idle, -⟩ | ⟨v, _, j, hv, hj, e⟩ | ⟨v, _, _, hv, illegal, -⟩
  · rw [busy] at idle
    cases idle
  · rw [busy] at hv
    cases hv
    rw [legal] at hj
    cases hj
    exact e
  · rw [busy] at hv
    cases hv
    rw [legal] at illegal
    cases illegal

/-- Settles O4: the turn is `engineStep`, on a state with the same sequencer. -/
theorem stepRunsDecodedInstruction : Obligations.StepRunsDecodedInstruction := by
  unfold Obligations.StepRunsDecodedInstruction
  intro s u w ops i busy legal moves
  rw [moves.step_eq, engineStep_legal (moves.seq_eq.trans busy) legal]

/-! ### A word is accepted (R200) -/

/-- Only a CONVERT_SLICE that passes its checks has sets, so no other word launches onto a device. -/
theorem State.accept_ordinary {s : State} {w : Word}
    (h : w = 0x00000002 → s.planValid = true → s.plan.badSlice s.regs = false → s.plan.touchesSideEffects s.params s.regs = false) :
    (s.accept w).runsOnDevice = false := by
  rw [Bool.eq_false_iff]
  intro device
  obtain ⟨set, a, member⟩ : ∃ set a, a ∈ (s.accept w).runningSet set := by
    simp only [State.runsOnDevice, Bool.or_eq_true, List.any_eq_true] at device
    exact device.elim (fun ⟨a, ha, _⟩ => ⟨_, a, ha⟩) (fun ⟨a, ha, _⟩ => ⟨_, a, ha⟩)
  obtain ⟨ops, launched, valid, legal, -⟩ := State.mem_runningSet.1 member
  cases launched
  have touches : s.plan.touchesSideEffects s.params s.regs = true :=
    (State.runsOnDevice_convertSlice (s := s.accept 0x00000002) rfl valid legal).symm.trans device
  rw [h rfl valid legal] at touches
  cases touches

/-- A CMD write while IDLE that launches nothing onto a device. -/
theorem step_cmdWrite {s : State} {w : Word} {rest : List Move} (ha : s.agenda = .host (.regWrite 0x008 4 w) :: rest)
    (idle : s.seq = .idle)
    (h : w = 0x00000002 → s.planValid = true → s.plan.badSlice s.regs = false → s.plan.touchesSideEffects s.params s.regs = false) :
    step s = .next (State.accept w { s with agenda := rest }) := by
  have cmd : Reg.ofOffset (0x008 : BitVec 12).toNat = .cmd := by decide
  have idle' : State.isBusy { s with agenda := rest } = false := State.isBusy_idle idle
  have ordinary : (State.accept w { s with agenda := rest }).runsOnDevice = false := State.accept_ordinary h
  rw [step_regWrite (by decide) (by decide) ha, cmd, State.hostWrite_cmd_idle idle', ordinary]
  rfl

/-- Settles O6: at 0x008 stands CMD, and its write while IDLE is `State.accept`. -/
theorem cmdWriteWhileIdleIsAccepted : Obligations.CmdWriteWhileIdleIsAccepted := by
  unfold Obligations.CmdWriteWhileIdleIsAccepted
  intro s w rest ha idle ordinary
  exact step_cmdWrite ha idle ordinary

/-! ### NOP and INVALIDATE (R201, R220) -/

theorem exec_nop (s : State) : exec .nop s = .next s.finish := rfl

theorem exec_invalidate (s : State) : exec .invalidate s = .next (State.finish { s.clearPlanValid with caches := none }) := rfl

/-- A WAIT polls a NOP to its completion (R106). -/
theorem step_wait_nop {s : State} {ops : Regs} {rest : List Move} (ha : s.agenda = .host .wait :: rest)
    (busy : s.seq = .busy 0x00000000 ops) : step s = .next s.finish := by
  have moves : s.EngineMoves s := .inr (.inr ⟨rest, ha, State.isBusy_of_seq s busy, rfl⟩)
  rw [moves.step_eq, engineStep_legal (i := .nop) busy (by decide), exec_nop]

/-- DONE alone, with its interrupt masked (R25). -/
theorem State.status_done {s : State} (idle : s.seq = .idle) (done : s.done = true) (err : s.err = false) (code : s.errcode = .none)
    (warn : s.warn = false) (invalid : s.planValid = false) (masked : s.irqEn.doneIe = false) : s.status = 0x00000002 := by
  have irq : s.irq = false := by simp [State.irq, err, warn, masked]
  rw [State.status, State.isBusy_idle idle, done, err, code, warn, invalid, irq]
  rfl

/-- Settles O14: the write accepts the word, clearing ERR and ERRCODE, and the WAIT completes it. -/
theorem nopOnlyCompletes : Obligations.NopOnlyCompletes := by
  unfold Obligations.NopOnlyCompletes
  refine ⟨exec_nop, fun s rest idle ha => ?_⟩
  refine ⟨_, _, step_cmdWrite ha idle nofun, step_wait_nop rfl rfl, rfl, rfl, rfl, rfl, rfl, rfl, rfl, rfl, rfl, ?status⟩
  case status => exact fun warn invalid masked => State.status_done rfl rfl rfl rfl warn invalid masked

/-- Settles O15: INVALIDATE is `State.clearPlanValid` with the caches dropped, then its completion. -/
theorem invalidateDropsPlan : Obligations.InvalidateDropsPlan := by
  unfold Obligations.InvalidateDropsPlan
  exact exec_invalidate

/-! ### CONVERT_SLICE (R224) -/

section
variable {s : State}

theorem exec_convertSlice_notPlanned (hv : s.planValid = false) : exec .convertSlice s = .next (s.raise .notPlanned) := by
  rcases execConvertSlice_cases s with ⟨-, e⟩ | ⟨yes, -⟩ | ⟨yes, -⟩ | ⟨yes, -⟩ | ⟨yes, -⟩
  · exact e
  all_goals
    rw [hv] at yes
    cases yes

theorem exec_convertSlice_bad (hv : s.planValid = true) (bad : s.plan.badSlice s.operands = true) :
    exec .convertSlice s = .next (s.raise .invalidSlice) := by
  rcases execConvertSlice_cases s with ⟨no, -⟩ | ⟨-, -, e⟩ | ⟨-, legal, -⟩ | ⟨-, legal, -⟩ | ⟨-, legal, -⟩
  · rw [hv] at no
    cases no
  · exact e
  all_goals
    rw [bad] at legal
    cases legal

theorem exec_convertSlice_legal (hv : s.planValid = true) (legal : s.plan.badSlice s.operands = false) :
    exec .convertSlice s = if s.operands.h1 = s.operands.h2 then .next s.finish
      else if s.plan.touchesSideEffects s.params s.operands = true then .refused .sideEffectPlane
      else .next s.writeSlice.finish.bumpDraws := by
  rcases execConvertSlice_cases s with ⟨no, -⟩ | ⟨-, bad, -⟩ | ⟨-, -, rows, e⟩ | ⟨-, -, rows, device, e⟩ | ⟨-, -, rows, ordinary, e⟩
  · rw [hv] at no
    cases no
  · rw [legal] at bad
    cases bad
  · rw [if_pos rows]
    exact e
  · rw [if_neg rows, if_pos device]
    exact e
  · rw [if_neg rows, if_neg (Bool.eq_false_iff.1 ordinary)]
    exact e

end

theorem Plan.badSlice_iff {p : Plan} {r : Regs} :
    p.badSlice r = true ↔ r.sliceH1.toNat % 2 = 1 ∨ r.sliceH2.toNat % 2 = 1 ∨ r.sliceH2.toNat < r.sliceH1.toNat
      ∨ p.src.frameH.toNat < r.sliceH2.toNat := by
  simp only [Plan.badSlice, Bool.or_eq_true, beq_iff_eq, decide_eq_true_eq, or_assoc]
  rfl

/-- A slice of the rows [h1, h2) of the frame, both even (R224). -/
theorem Plan.badSlice_eq_false_iff {p : Plan} {r : Regs} :
    p.badSlice r = false ↔ r.h1 % 2 = 0 ∧ r.h2 % 2 = 0 ∧ r.h1 ≤ r.h2 ∧ r.h2 ≤ p.src.frameH.toNat := by
  rw [← Bool.not_eq_true, Plan.badSlice_iff]
  unfold Regs.h1 Regs.h2
  omega

/-- Settles O39: the first three checks of CONVERT_SLICE, in their order. -/
theorem convertSliceChecks : Obligations.ConvertSliceChecks := by
  unfold Obligations.ConvertSliceChecks
  intro s
  refine ⟨exec_convertSlice_notPlanned, fun hv bad => exec_convertSlice_bad hv (Plan.badSlice_iff.2 bad),
    fun hv even rows within => ?_⟩
  have empty : s.operands.h1 = s.operands.h2 := congrArg BitVec.toNat rows
  have legal : s.plan.badSlice s.operands = false :=
    Plan.badSlice_eq_false_iff.2 ⟨even, empty ▸ even, empty.le, within⟩
  rw [exec_convertSlice_legal hv legal, if_pos empty]
  rfl

/-- CONVERT_SLICE past its checks (R224). -/
theorem exec_convertSlice_ordinary {s : State} (hv : s.planValid = true) (legal : s.plan.badSlice s.operands = false)
    (rows : s.operands.sliceH1 ≠ s.operands.sliceH2) (ordinary : s.plan.touchesSideEffects s.params s.operands = false) :
    exec .convertSlice s = .next s.writeSlice.finish.bumpDraws := by
  have rows' : s.operands.h1 ≠ s.operands.h2 := fun e => rows (BitVec.eq_of_toNat_eq e)
  rw [exec_convertSlice_legal hv legal, if_neg rows', if_neg (Bool.eq_false_iff.1 ordinary)]

/-- Settles O40: past its checks CONVERT_SLICE is `State.writeSlice`, completed. -/
theorem convertSliceCompletes : Obligations.ConvertSliceCompletes := by
  unfold Obligations.ConvertSliceCompletes
  intro s hv legal rows ordinary
  exact ⟨_, _, exec_convertSlice_ordinary hv legal rows ordinary⟩

end Sys2Proof.Machine
end

section
/-! SUPPORT. O22, O23, O28: PLAN stores the plan it builds or reports the code that stops it, and the capacity check is the last of its
checks (45_planner_and_commands.md R202, R214, R216). -/

namespace Sys2Proof.Machine

section
variable {s : State}

/-! ### PLAN's two outcomes (R216) -/

theorem exec_plan_ok {p : Plan} (h : s.operands.inputs.buildPlan s.params s.draws = .ok p) :
    exec .plan s = .next ((s.warnRange s.operands.inputs).storePlan p).finish.bumpDraws := by
  rcases execPlan_cases s with ⟨c, hc, -⟩ | ⟨q, hq, e⟩
  · rw [h] at hc
    cases hc
  · rw [h] at hq
    cases hq
    exact e

theorem exec_plan_error {c : ErrCode} (h : s.operands.inputs.buildPlan s.params s.draws = .error c) :
    exec .plan s = .next ((s.warnRange s.operands.inputs).losePlan.raise c).bumpDraws := by
  rcases execPlan_cases s with ⟨d, hd, e⟩ | ⟨q, hq, -⟩
  · rw [h] at hd
    cases hd
    exact e
  · rw [h] at hq
    cases hq

/-- The warning touches WARN and warned_once (R209). -/
theorem State.warnRange_eq (s : State) (p : PlanInputs) :
    s.warnRange p = { s with warn := (s.warnRange p).warn, warnedOnce := (s.warnRange p).warnedOnce } := by
  unfold State.warnRange
  split <;> rfl

end

/-- A plan keeps the inputs it was built from (log 11). -/
theorem PlanInputs.src_of_buildPlan {p : PlanInputs} {pr : Params} {draw : Nat} {plan : Plan} (h : p.buildPlan pr draw = .ok plan) :
    plan.src = p := by
  obtain ⟨-, -, -, -, prim, mat, luts, -, -, -, rfl⟩ := PlanInputs.buildPlan_ok.1 h
  rfl

/-- Settles O22: a plan that is built is stored by `State.storePlan`, after the warning. -/
theorem planStoresTheBuiltPlan : Obligations.PlanStoresTheBuiltPlan := by
  unfold Obligations.PlanStoresTheBuiltPlan
  intro s p h
  have src : p.src = s.operands.inputs := PlanInputs.src_of_buildPlan h
  refine ⟨_, exec_plan_ok h, rfl, rfl, src, ?_⟩
  rw [← src, State.warnRange_eq]
  rfl

/-- Settles O23: a code that is raised is reported by `State.raise`, after the warning and `State.losePlan`. -/
theorem failedPlanReportsItsCode : Obligations.FailedPlanReportsItsCode := by
  unfold Obligations.FailedPlanReportsItsCode
  intro s c h
  have code : c ≠ .none := by
    rintro rfl
    exact PlanInputs.buildPlan_ne_none _ _ _ h
  refine ⟨_, exec_plan_error h, rfl, code, ?_⟩
  rw [State.warnRange_eq]
  rfl

/-! ### Capacity (R214) -/

/-- The bytes of a scratch row, by the pipe of the input format. -/
theorem PlanInputs.rgbStride_eq (p : PlanInputs) :
    p.rgbStride = 32 * ((p.frameW.toNat * (if p.inFmt.pipe = .f32 then 4 else 2) + 31) / 32) := by
  simp only [PlanInputs.rgbStride, PlanInputs.pipe, beq_iff_eq]

theorem PlanInputs.checkCapacity_ok {p : PlanInputs} {pr : Params} :
    p.checkCapacity pr = .ok () ↔ p.frameW.toNat ≤ pr.maxWidth ∧ p.frameH.toNat ≤ pr.maxHeight
      ∧ 3 * p.rgbStride * p.frameH.toNat ≤ pr.scratchBytes := by
  simp only [PlanInputs.checkCapacity, raiseIf_ok, Bool.or_eq_false_iff, decide_eq_false_iff_not, not_lt, and_assoc]

/-- The capacity check comes last: where a plan would be built within other limits, its failure is the only one. -/
theorem PlanInputs.buildPlan_outOfMemory {p : PlanInputs} {pr larger : Params} {draw : Nat} {q : Plan} (mode : larger.f2h = pr.f2h)
    (h : p.buildPlan larger draw = .ok q) (past : p.checkCapacity pr ≠ .ok ()) : p.buildPlan pr draw = .error .outOfMemory := by
  obtain ⟨front, dims, transfer, -, prim, mat, luts, hprim, hmat, hluts, -⟩ := PlanInputs.buildPlan_ok.1 h
  rw [mode] at hluts
  have full : p.checkCapacity pr = .error .outOfMemory :=
    raiseIf_error.2 ⟨eq_true_of_ne_false fun e => past (raiseIf_ok.2 e), rfl⟩
  unfold PlanInputs.buildPlan
  rw [front, dims, hprim, transfer, hmat, hluts, full]
  rfl

/-- Settles O28: the capacity check passes for every plan that is built, and is the last one. -/
theorem planCapacityCheck : Obligations.PlanCapacityCheck := by
  unfold Obligations.PlanCapacityCheck
  rintro s stride rfl
  rw [← PlanInputs.rgbStride_eq]
  refine ⟨fun t h hv => ?within, fun larger q mode h past => ?past⟩
  case within =>
    obtain ⟨-, -, -, capacity, -⟩ := PlanInputs.buildPlan_ok.1 (execPlan_valid h hv)
    exact PlanInputs.checkCapacity_ok.1 capacity
  case past =>
    have full : s.operands.inputs.checkCapacity s.params ≠ .ok () := fun e => by
      obtain ⟨width, height, bytes⟩ := PlanInputs.checkCapacity_ok.1 e
      omega
    exact ⟨_, exec_plan_error (PlanInputs.buildPlan_outOfMemory mode h full), rfl, rfl, rfl⟩

end Sys2Proof.Machine
end

section
/-! SUPPORT. O27, O33: the flags and selections of a plan in the words of its inputs (45_planner_and_commands.md R209 to R213), and a
PLAN of the RGB family with FAST (R211, R216, R225). -/

namespace Sys2Proof.Machine

/-! ### Descriptors and their words (R35, R101) -/

/-- A part of a block that is shown in the words from `lo` to `hi`, and rebuilt from them alone, is equal where those words are. -/
theorem Blk.part_eq_iff {α : Type} {part : Blk → α} {lo hi : Nat} {a b : Blk}
    (shown : ∀ c d, part c = part d → ∀ k, lo ≤ k → k ≤ hi → c.readWord k = d.readWord k)
    (rebuilt : ∀ u v, (∀ k, lo ≤ k → k ≤ hi → u k = v k) → part (.ofWords u) = part (.ofWords v)) :
    part a = part b ↔ ∀ k, lo ≤ k → k ≤ hi → a.readWord k = b.readWord k := by
  refine ⟨shown a b, fun h => ?_⟩
  rw [← a.ofWords_word, ← b.ofWords_word]
  exact rebuilt _ _ fun k low high => by rw [Blk.word, h k low high, Blk.word]

section
variable {a b : Blk}

theorem Blk.prims_eq_iff : a.prims = b.prims ↔ ∀ k, 2 ≤ k → k ≤ 17 → a.readWord k = b.readWord k :=
  Blk.part_eq_iff (fun _ _ h k low high => by interval_cases k <;> simp only [Blk.readWord, h])
    fun _ _ word => by simp [Blk.ofWords, word]

theorem Blk.luma_eq_iff : a.luma = b.luma ↔ ∀ k, 18 ≤ k → k ≤ 21 → a.readWord k = b.readWord k :=
  Blk.part_eq_iff (fun _ _ h k low high => by interval_cases k <;> simp only [Blk.readWord, h])
    fun _ _ word => by simp [Blk.ofWords, word]

theorem Blk.transfer_eq_iff : a.transfer = b.transfer ↔ ∀ k, 22 ≤ k → k ≤ 29 → a.readWord k = b.readWord k :=
  Blk.part_eq_iff (fun _ _ h k low high => by interval_cases k <;> simp only [Blk.readWord, h])
    fun _ _ word => by simp [Blk.ofWords, word]

end

/-! ### The flags (R210 to R213) -/

theorem Range.ite_eq_ite_iff {a b : Prop} [Decidable a] [Decidable b] :
    ((if a then Range.pc else .tv) = if b then .pc else .tv) ↔ (a ↔ b) := by
  by_cases ha : a <;> by_cases hb : b <;> simp [ha, hb]

namespace PlanInputs
variable (p : PlanInputs)

theorem lrgb2lrgbPt_iff : p.lrgb2lrgbPt = true ↔ ∀ k, 2 ≤ k → k ≤ 17 → p.inBlk.readWord k = p.outBlk.readWord k := by
  rw [lrgb2lrgbPt, primEq, beq_iff_eq, Blk.prims_eq_iff]

theorem rgb2rgbPt_iff :
    p.rgb2rgbPt = true ↔ p.options.fast = true ∨ (p.lrgb2lrgbPt = true ∧ Fl.eq (Fl.of64 p.outBlk.transfer.alpha) Fl.zero = false
      ∧ ∀ k, 22 ≤ k → k ≤ 29 → p.inBlk.readWord k = p.outBlk.readWord k) := by
  rw [rgb2rgbPt, trcEq, Bool.or_eq_true, Bool.and_eq_true, Bool.and_eq_true, beq_iff_eq, Blk.transfer_eq_iff, Transfer.analytic_iff,
    and_assoc]

theorem yuv2yuvFast_iff :
    p.yuv2yuvFast = true ↔ p.rgb2rgbPt = true ∧ p.inFmt.log2cw = p.outFmt.log2cw ∧ p.inFmt.log2ch = p.outFmt.log2ch := by
  simp only [yuv2yuvFast, Bool.and_eq_true, beq_iff_eq, and_assoc]

/-- Resolved ranges are equal when both sides or neither side is PC; the RGB family has none (R101, R209). -/
theorem rangeEq_iff : p.rangeEq = true ↔ p.inFmt.rgb = true ∨ (p.inBlk.range = 2 ↔ p.outBlk.range = 2) := by
  rw [rangeEq, beq_iff_eq]
  cases rgb : p.inFmt.rgb
  · rw [resolvedRange_yuv rgb, resolvedRange_yuv rgb, Range.ite_eq_ite_iff]
    exact ⟨.inr, fun h => h.resolve_left nofun⟩
  · simp [resolvedRange, isRgb, rgb]

theorem yuv2yuvPt_iff :
    p.yuv2yuvPt = true ↔ p.yuv2yuvFast = true ∧ p.inFmt.depth = p.outFmt.depth
      ∧ (p.inFmt.rgb = true ∨ ((p.inBlk.range = 2 ↔ p.outBlk.range = 2)
        ∧ ∀ k, 18 ≤ k → k ≤ 21 → p.inBlk.readWord k = p.outBlk.readWord k)) := by
  rw [yuv2yuvPt, Bool.and_eq_true, Bool.and_eq_true, Bool.and_eq_true, Bool.or_eq_true, rangeEq_iff, matEq, beq_iff_eq, beq_iff_eq,
    Blk.luma_eq_iff, isRgb, or_and_left]
  tauto

theorem pipe_eq : p.pipe = if p.inFmt.rgb = false then .int else if p.inFmt.depth = 16 then .half else .f32 := by
  have depth : p.inFmt.d = 16 ↔ p.inFmt.depth = 16 := BitVec.toNat_inj (y := (16 : BitVec 6))
  rw [pipe, PixFmt.pipe, if_congr depth rfl rfl]
  cases p.inFmt.rgb <;> rfl

theorem pipe_int_iff : p.pipe = .int ↔ p.inFmt.rgb = false := by
  rw [pipe_eq]
  split_ifs with rgb depth <;> simp [rgb]

theorem lutKind_eq :
    p.lutKind = if p.rgb2rgbPt = true then .none else if p.inFmt.rgb = false then .int
      else if p.inFmt.depth = 16 then .half else .none := by
  rw [lutKind, pipe_eq]
  split_ifs <;> rfl

theorem dither_iff : p.flags.dither = true ↔ p.options.dither = true ∧ p.inFmt.rgb = false := by
  rw [← pipe_int_iff]
  simp only [flags, Bool.and_eq_true, beq_iff_eq]

theorem resolvedRange_eq (side : Side) :
    p.resolvedRange side = if p.inFmt.rgb = true then .notApplicable else if (p.blk side).range = 2 then .pc else .tv := by
  rw [resolvedRange, isRgb]
  simp only [beq_iff_eq]

end PlanInputs

theorem Transfer.isLinear_iff {t : Transfer} :
    t.isLinear = true ↔ Fl.eq (Fl.of64 t.alpha) Fl.one = true ∧ Fl.eq (Fl.of64 t.beta) Fl.zero = true
      ∧ Fl.eq (Fl.of64 t.gamma) Fl.one = true := by
  simp only [Transfer.isLinear, Bool.and_eq_true, and_assoc]
  rfl

/-- The kernel indices of a format that passes its check fit their two bits (R34, R105). -/
theorem PixFmt.toNat_kernel {f : PixFmt} (h : f.check = .ok ()) :
    f.kernel.depthIdx.toNat = (if f.rgb = true then 0 else (f.depth.toNat - 8) / 2)
      ∧ f.kernel.ssIdx.toNat = (if f.rgb = true then 0 else f.log2cw.toNat + f.log2ch.toNat) := by
  rcases PixFmt.check_cases h with ⟨rgb, -⟩ | ⟨yuv, -, -, depth, cw, ch⟩
  · simp [PixFmt.kernel, rgb]
  · unfold PixFmt.d at depth
    unfold PixFmt.cw at cw ch
    unfold PixFmt.ch at ch
    simp only [PixFmt.kernel, yuv, PixFmt.d, PixFmt.cw, PixFmt.ch, Bool.false_eq_true, if_false, BitVec.toNat_ofNat]
    omega

/-- Settles O27: a built plan holds the flags and selections of its inputs (`PlanInputs.assemble`), and its formats have passed their
checks. -/
theorem passthroughFlagsOfAPlan : Obligations.PassthroughFlagsOfAPlan := by
  unfold Obligations.PassthroughFlagsOfAPlan
  rintro s t p rfl h hv
  obtain ⟨front, -, -, -, prim, mat, luts, -, -, -, e⟩ := PlanInputs.buildPlan_ok.1 (execPlan_valid h hv)
  obtain ⟨formats, -⟩ := PlanInputs.checkFront_ok.1 front
  obtain ⟨hin, hout, family, -⟩ := PlanInputs.checkFormats_ok.1 formats
  obtain ⟨depthIn, ssIn⟩ := PixFmt.toNat_kernel hin
  obtain ⟨depthOut, ssOut⟩ := PixFmt.toNat_kernel hout
  rw [← family] at depthOut ssOut
  rw [e]
  exact ⟨PlanInputs.lrgb2lrgbPt_iff _, PlanInputs.rgb2rgbPt_iff _, PlanInputs.yuv2yuvFast_iff _, PlanInputs.yuv2yuvPt_iff _,
    PlanInputs.pipe_eq _, Transfer.isLinear_iff, Transfer.not_analytic _, PlanInputs.dither_iff _, PlanInputs.lutKind_eq _,
    PlanInputs.resolvedRange_eq _ .input, PlanInputs.resolvedRange_eq _ .output, depthIn, depthOut, ssIn, ssOut⟩

/-! ### A fast PLAN of the RGB family (R211, R225) -/

/-- The words of the four RGB formats (R97). -/
def rgbFormatWords : List Word := [0x310, 0x710, 0x320, 0x720]

theorem PixFmt.mem_rgbFormats {f : PixFmt} (h : f.toWord ∈ rgbFormatWords) :
    f.check = .ok () ∧ f.rgb = true ∧ (f.pipe = .f32 ↔ f.depth = 32) := by
  have table : ∀ g ∈ rgbFormatWords.map PixFmt.ofWord, g.check.isOk = true ∧ g.rgb = true ∧ (g.pipe = .f32 ↔ g.depth = 32) := by
    decide
  obtain ⟨check, rest⟩ := table f (List.mem_map.2 ⟨f.toWord, h, f.ofWord_toWord⟩)
  exact ⟨except_isOk_iff.1 check, rest⟩

namespace PlanInputs
variable {p : PlanInputs}

/-- The checks of phase A before the dimensions, for the RGB family: matrix tags and ranges are not looked at (R206, R207). -/
theorem checkFront_rgb (hin : p.inFmt.check = .ok ()) (rgb : p.inFmt.rgb = true) (same : p.outFmt = p.inFmt)
    (adapt : p.options.wpAdapt ≠ 3) (primIn : p.inBlk.primValid = true) (primOut : p.outBlk.primValid = true)
    (trcIn : p.inBlk.trcValid = true) (trcOut : p.outBlk.trcValid = true) : p.checkFront = .ok () := by
  refine checkFront_ok.2 ⟨checkFormats_ok.2 ⟨hin, same ▸ hin, by rw [same], fun _ => by rw [same]; exact ⟨rfl, rfl⟩⟩, ?_, ?_, ?_⟩
  · exact raiseIf_ok.2 (beq_eq_false_iff_ne.2 adapt)
  · simp [checkTags, isRgb, raiseIf, rgb, primIn, primOut, trcIn, trcOut, bind, Except.bind]
  · exact raiseIf_ok.2 (by rw [isRgb, rgb]; rfl)

theorem checkDimensions_ok :
    p.checkDimensions = .ok () ↔ p.frameW ≠ 0 ∧ p.frameH ≠ 0 ∧ p.frameW.toNat % 2 = 0 ∧ p.frameH.toNat % 2 = 0 := by
  simp only [checkDimensions, raiseIf_ok, Bool.or_eq_false_iff, beq_eq_false_iff_ne, and_assoc, ne_eq, Nat.mod_two_ne_one]

theorem stepTransfer_passthrough (h : p.rgb2rgbPt = true) : p.stepTransfer = .ok () :=
  raiseIf_ok.2 (by rw [h]; rfl)

/-- On the RGB passthrough phase C builds nothing, so nothing in it fails. -/
theorem buildPlan_rgb_passthrough {pr : Params} (draw : Nat) (front : p.checkFront = .ok ()) (dims : p.checkDimensions = .ok ())
    (rgb : p.inFmt.rgb = true) (pt : p.rgb2rgbPt = true) (capacity : p.checkCapacity pr = .ok ()) :
    p.buildPlan pr draw
      = .ok (p.assemble (identityTable, identityTableF) (zeroTable, zeroTable, zeroTable) ([], [])) :=
  buildPlan_ok.2 ⟨front, dims, stepTransfer_passthrough pt, capacity, _, _, _, stepPrimaries_fill (.inr pt), stepMatrix_rgb rgb,
    stepLuts_none (lutKind_none (.inl pt)), rfl⟩

end PlanInputs

/-- R225: on the float pipes the RGB passthrough is the copy. -/
theorem Plan.path_of_float {p : Plan} (float : p.pipe ≠ .int) (pt : p.flags.rgb2rgbPt = true) : p.path = .copy := by
  unfold Plan.path
  cases h : p.pipe with
  | int => exact absurd h float
  | half => exact if_pos pt
  | f32 => exact if_pos pt

/-- Settles O33: FAST is a passthrough, so an RGB plan is built once the checks of phases A and D pass. -/
theorem fastRgbPlanSucceeds : Obligations.FastRgbPlanSucceeds := by
  unfold Obligations.FastRgbPlanSucceeds
  rintro s p rfl words same fast adapt primIn primOut trcIn trcOut width height evenW evenH maxW maxH bytes
  obtain ⟨hin, rgb, single⟩ := PixFmt.mem_rgbFormats words
  have front := PlanInputs.checkFront_rgb hin rgb same adapt primIn primOut trcIn trcOut
  have dims := PlanInputs.checkDimensions_ok.2 ⟨width, height, evenW, evenH⟩
  have pt := (PlanInputs.rgb2rgbPt_iff s.operands.inputs).2 (.inl fast)
  have capacity : s.operands.inputs.checkCapacity s.params = .ok () := by
    refine PlanInputs.checkCapacity_ok.2 ⟨maxW, maxH, ?_⟩
    rw [PlanInputs.rgbStride_eq, if_congr single rfl rfl]
    exact bytes
  have float : s.operands.inputs.pipe ≠ .int := fun e => by
    rw [(PlanInputs.pipe_int_iff _).1 e] at rgb
    cases rgb
  have silent : s.operands.inputs.seesUnspecifiedRange = false := by
    rw [PlanInputs.seesUnspecifiedRange, PlanInputs.isRgb, rgb]
    simp
  have built := PlanInputs.buildPlan_rgb_passthrough s.draws front dims rgb pt capacity
  refine ⟨_, exec_plan_ok built, rfl, rfl, State.warnRange_err s _, rfl, Plan.path_of_float float pt, rfl, ?warn,
    State.warnRange_regs s _, State.warnRange_mem s _⟩
  case warn => simp [silent]

end Sys2Proof.Machine
end

section
/-! SUPPORT. O25: the codes of PLAN in the order of its checks (45_planner_and_commands.md R204 to R208, R215, 60_exceptions.md R303). -/

namespace Sys2Proof.Machine

/-! ### The code of a check -/

/-- The code a computation fails with, if it fails. -/
def failCode {α : Type} : Except ErrCode α → Option ErrCode
  | .error c => some c
  | .ok _ => none

theorem failCode_eq_some {α : Type} {x : Except ErrCode α} {c : ErrCode} : failCode x = some c ↔ x = .error c := by
  cases x <;> simp [failCode]

theorem failCode_eq_none {α : Type} {x : Except ErrCode α} : failCode x = none ↔ x.isOk = true := by
  cases x <;> simp [failCode, Except.isOk, Except.toBool]

theorem failCode_error {α : Type} (c : ErrCode) : failCode (.error c : Except ErrCode α) = some c := rfl

theorem failCode_raiseIf (bad : Bool) (c : ErrCode) : failCode (raiseIf bad c) = if bad = true then some c else none := by
  cases bad <;> rfl

/-- Of two checks in a row, the first that fails gives the code (R303). -/
theorem failCode_bind {x : Except ErrCode Unit} {f : Unit → Except ErrCode Unit} :
    failCode (x >>= f) = (failCode x).or (failCode (f ())) := by
  cases x <;> rfl

theorem ite_some_or {P : Prop} [Decidable P] (c : ErrCode) (x y : Option ErrCode) :
    (if P then some c else x).or y = if P then some c else x.or y := by
  split <;> rfl

theorem except_bind_error_of_isOk {α β : Type} {x : Except ErrCode α} {f : α → Except ErrCode β} {c : ErrCode}
    (hx : x.isOk = true) (hf : ∀ a, f a = .error c) : (x >>= f) = .error c := by
  cases x with
  | error e => cases hx
  | ok a => exact hf a

/-! ### Phase A (R204 to R208) -/

/-- `check_fmt` by its code (R204). -/
theorem PixFmt.failCode_check (f : PixFmt) :
    failCode f.check =
      if f.rgb = true then
        if f.float = false then some .invalidFormat
        else if f.depth ≠ 16 ∧ f.depth ≠ 32 then some .invalidDepth
        else if f.log2cw ≠ 0 ∨ f.log2ch ≠ 0 then some .invalidSubsampling
        else none
      else
        if f.float = true ∨ f.alpha = true then some .invalidFormat
        else if f.depth ≠ 8 ∧ f.depth ≠ 10 ∧ f.depth ≠ 12 then some .invalidDepth
        else if ¬((f.log2cw = 0 ∧ f.log2ch = 0) ∨ (f.log2cw = 1 ∧ f.log2ch = 0) ∨ (f.log2cw = 1 ∧ f.log2ch = 1)) then
          some .invalidSubsampling
        else none := by
  have depth (n : BitVec 6) : f.d = n.toNat ↔ f.depth = n := BitVec.toNat_inj
  have cw (n : BitVec 2) : f.cw = n.toNat ↔ f.log2cw = n := BitVec.toNat_inj
  have ch (n : BitVec 2) : f.ch = n.toNat ↔ f.log2ch = n := BitVec.toNat_inj
  simp only [PixFmt.check, apply_ite failCode, failCode_raiseIf, failCode_error, Bool.not_eq_true', Bool.or_eq_true,
    Bool.or_eq_false_iff, Bool.and_eq_false_iff, beq_eq_false_iff_ne, ne_eq, not_or, not_and_or,
    and_assoc, show f.d = 16 ↔ _ from depth 16, show f.d = 32 ↔ _ from depth 32, show f.d = 8 ↔ _ from depth 8,
    show f.d = 10 ↔ _ from depth 10, show f.d = 12 ↔ _ from depth 12, show f.cw = 0 ↔ _ from cw 0, show f.cw = 1 ↔ _ from cw 1,
    show f.ch = 0 ↔ _ from ch 0, show f.ch = 1 ↔ _ from ch 1]

/-- Phase A: the checks of the inputs (R202). -/
def PlanInputs.checkInputs (p : PlanInputs) : Except ErrCode Unit := p.checkFront >>= fun _ => p.checkDimensions

/-- Phase A by its code: the formats, IN before OUT, then the family, options, tags, ranges and dimensions (R303 items 1 to 5). -/
theorem PlanInputs.failCode_checkInputs (p : PlanInputs) :
    failCode p.checkInputs = (failCode p.inFmt.check).or ((failCode p.outFmt.check).or
      (if p.inFmt.rgb ≠ p.outFmt.rgb then some ErrCode.familyMismatch
      else if p.inFmt.rgb = true ∧ p.inFmt.depth ≠ p.outFmt.depth then some ErrCode.invalidDepth
      else if p.inFmt.rgb = true ∧ p.inFmt.alpha ≠ p.outFmt.alpha then some ErrCode.invalidFormat
      else if p.options.wpAdapt = 3 then some ErrCode.invalidOption
      else if p.inBlk.valid.getLsbD 0 = false ∨ p.outBlk.valid.getLsbD 0 = false then some ErrCode.unknownPrimaries
      else if p.inBlk.valid.getLsbD 1 = false ∨ p.outBlk.valid.getLsbD 1 = false then some ErrCode.unknownTransfer
      else if p.inFmt.rgb = false ∧ (p.inBlk.valid.getLsbD 2 = false ∨ p.outBlk.valid.getLsbD 2 = false) then
        some ErrCode.unknownMatrix
      else if p.inFmt.rgb = false ∧ (p.inBlk.range = 3 ∨ p.outBlk.range = 3) then some ErrCode.invalidRange
      else if p.frameW = 0 ∨ p.frameH = 0 ∨ p.frameW.toNat % 2 = 1 ∨ p.frameH.toNat % 2 = 1 then some ErrCode.oddDimensions
      else none)) := by
  simp only [checkInputs, checkFront, checkFormats, checkOptions, checkTags, checkRanges, checkDimensions, isRgb, Blk.primValid,
    Blk.trcValid, Blk.matValid, failCode_bind, failCode_raiseIf, Option.or_assoc, Option.none_or,
    ite_some_or, Bool.or_eq_true, Bool.and_eq_true,
    Bool.not_eq_true', beq_iff_eq, bne_iff_ne, or_assoc]

/-- A failed phase A stops the PLAN. -/
theorem PlanInputs.buildPlan_inputs {p : PlanInputs} {c : ErrCode} (pr : Params) (draw : Nat) (h : p.checkInputs = .error c) :
    p.buildPlan pr draw = .error c := by
  refine except_bind_error.2 ?_
  rcases except_bind_error.1 h with front | ⟨u, front, dims⟩
  · exact .inl front
  · exact .inr ⟨u, front, except_bind_error.2 (.inl dims)⟩

/-- Past phase A the PLAN is phases C and D. -/
theorem PlanInputs.buildPlan_tail {p : PlanInputs} (pr : Params) (draw : Nat) (h : p.checkInputs.isOk = true) :
    p.buildPlan pr draw = (do
      let prim ← p.stepPrimaries
      p.stepTransfer
      let mat ← p.stepMatrix
      let luts ← p.stepLuts pr.f2h draw
      p.checkCapacity pr
      pure (p.assemble prim mat luts)) := by
  obtain ⟨⟨⟩, front, dims⟩ := except_bind_ok.1 (except_isOk_iff.1 h)
  unfold PlanInputs.buildPlan
  rw [front, dims]
  rfl

/-! ### Phase C (R215) -/

theorem Fl.eq_nan_of_isNaN {x : Fl} (h : x.isNaN = true) : x = .nan := by
  cases x with
  | nan => rfl
  | inf | fin => cases h

/-- A NaN entry leaves no integer table (R183). -/
theorem intTable_nan {f : Nat → Fl} {n : Nat} (hn : n < 32768) (h : (f n).isNaN = true) : intTable f = none := by
  refine Option.eq_none_iff_forall_ne_some.2 fun t ht => ?_
  obtain ⟨-, entries⟩ := intTable_eq_some_iff.1 ht
  have entry := entries n hn
  rw [Fl.eq_nan_of_isNaN h, qlut_nan] at entry
  cases entry

/-- Nor does a NaN in either table leave the pair. -/
theorem intLuts_nan {draw n : Nat} {tIn tOut : Transfer} {ext : Bool} (hn : n < 32768)
    (h : (linearise (Config.nanDraw draw (lutSite n 0)) tIn (lutValue n)).isNaN = true
      ∨ (delinOut ext tOut (Fl.to64 0 (lutValue n))).isNaN = true) : intLuts draw tIn tOut ext = none := by
  refine Option.eq_none_iff_forall_ne_some.2 fun ⟨lin, delin⟩ ht => ?_
  obtain ⟨hlin, hdelin⟩ := intLuts_eq_some_iff.1 ht
  rcases h with h | h
  · rw [intTable_nan hn h] at hlin
    cases hlin
  · rw [intTable_nan hn h] at hdelin
    cases hdelin

namespace PlanInputs
variable {p : PlanInputs}

theorem stepPrimaries_error (hl : p.lrgb2lrgbPt = false) (hr : p.rgb2rgbPt = false) (h : p.primaryTables = none) :
    p.stepPrimaries = .error .unknownPrimaries := by
  have runs : p.runsPrimaries = true := by rw [runsPrimaries, hl, hr]; rfl
  rw [stepPrimaries, if_pos runs, h]

theorem stepPrimaries_isOk (h : p.lrgb2lrgbPt = true ∨ p.rgb2rgbPt = true ∨ p.primaryTables ≠ none) :
    p.stepPrimaries.isOk = true := by
  unfold stepPrimaries
  split
  · next runs =>
    rw [runsPrimaries, Bool.and_eq_true, Bool.not_eq_true', Bool.not_eq_true'] at runs
    obtain ⟨hl, hr⟩ := runs
    rw [hl, hr] at h
    split
    · next unsolved => exact absurd unsolved ((h.resolve_left nofun).resolve_left nofun)
    · rfl
  · rfl

/-- The transfer checks of R129: L needs all of the input transfer, D finite coefficients of an analytic output transfer. -/
theorem stepTransfer_error (hr : p.rgb2rgbPt = false)
    (h : p.inBlk.transfer.finite = false ∨ Fl.eq (Fl.of64 p.inBlk.transfer.alpha) Fl.zero = true
      ∨ Fl.eq (Fl.of64 p.inBlk.transfer.gamma) Fl.zero = true ∨ Fl.eq (Fl.of64 p.inBlk.transfer.delta) Fl.zero = true
      ∨ (Fl.eq (Fl.of64 p.outBlk.transfer.alpha) Fl.zero = false ∧ p.outBlk.transfer.finite = false)) :
    p.stepTransfer = .error .unknownTransfer := by
  refine raiseIf_error.2 ⟨?_, rfl⟩
  rw [hr, Bool.not_false, Bool.true_and, Bool.or_eq_true, Bool.not_eq_true', Bool.and_eq_true, Bool.not_eq_true',
    Transfer.analytic_iff]
  rw [← or_assoc, ← or_assoc, ← or_assoc] at h
  refine h.imp_left fun bad => Bool.eq_false_iff.2 fun lin => ?_
  obtain ⟨finite, alpha, gamma, delta⟩ := Transfer.linearisable_iff.1 lin
  rw [finite, alpha, gamma, delta] at bad
  simp at bad

theorem stepMatrix_error (yuv : p.inFmt.rgb = false)
    (h : p.matrixTables (p.resolvedRange .input) (p.resolvedRange .output) p.yuv2yuvFast = none) :
    p.stepMatrix = .error .unknownMatrix := by
  rw [stepMatrix, if_neg (by rw [isRgb, yuv]; decide), h]

theorem stepLuts_error {draw : Nat} (mode : Rounding) (yuv : p.inFmt.rgb = false) (hr : p.rgb2rgbPt = false)
    (h : intLuts draw p.inBlk.transfer p.outBlk.transfer (!p.outBlk.transfer.analytic) = none) :
    p.stepLuts mode draw = .error .unknownTransfer := by
  rw [stepLuts, lutKind_int (p.pipe_int_iff.2 yuv) hr]
  dsimp only
  rw [h]

section
variable {c : ErrCode} (pr : Params) (draw : Nat) (inputs : p.checkInputs.isOk = true)
include inputs

/-! Each step of phase C stops the PLAN with its code once the steps before it have passed. -/

theorem buildPlan_primaries (h : p.stepPrimaries = .error c) : p.buildPlan pr draw = .error c := by
  rw [buildPlan_tail pr draw inputs]
  exact except_bind_error.2 (.inl h)

theorem buildPlan_transfer (primaries : p.stepPrimaries.isOk = true) (h : p.stepTransfer = .error c) :
    p.buildPlan pr draw = .error c := by
  rw [buildPlan_tail pr draw inputs]
  exact except_bind_error_of_isOk primaries fun _ => except_bind_error.2 (.inl h)

theorem buildPlan_matrix (primaries : p.stepPrimaries.isOk = true) (transfer : p.stepTransfer.isOk = true)
    (h : p.stepMatrix = .error c) : p.buildPlan pr draw = .error c := by
  rw [buildPlan_tail pr draw inputs]
  exact except_bind_error_of_isOk primaries fun _ => except_bind_error_of_isOk transfer fun _ => except_bind_error.2 (.inl h)

theorem buildPlan_luts (primaries : p.stepPrimaries.isOk = true) (transfer : p.stepTransfer.isOk = true)
    (matrix : p.stepMatrix.isOk = true) (h : p.stepLuts pr.f2h draw = .error c) : p.buildPlan pr draw = .error c := by
  rw [buildPlan_tail pr draw inputs]
  exact except_bind_error_of_isOk primaries fun _ => except_bind_error_of_isOk transfer fun _ =>
    except_bind_error_of_isOk matrix fun _ => except_bind_error.2 (.inl h)

end

end PlanInputs

/-- Settles O25: phase A fails with the code of its first failing check (`PlanInputs.failCode_checkInputs`), and past it each step of
phase C with its own. -/
theorem planReportsFirstFailingCheck : Obligations.PlanReportsFirstFailingCheck := by
  unfold Obligations.PlanReportsFirstFailingCheck
  rintro s p c fmt front lr rr rfl hfmt rfl hlr hrr h
  obtain rfl : lr = s.operands.inputs.lrgb2lrgbPt := Bool.eq_iff_iff.2 (hlr.trans (PlanInputs.lrgb2lrgbPt_iff _).symm)
  obtain rfl : rr = s.operands.inputs.rgb2rgbPt := Bool.eq_iff_iff.2 (hrr.trans (PlanInputs.rgb2rgbPt_iff _).symm)
  have codes : fmt = fun f => failCode f.check := funext fun f => (hfmt f).trans f.failCode_check.symm
  rw [codes, ← PlanInputs.failCode_checkInputs, failCode_eq_some, failCode_eq_none] at h
  have fails : s.operands.inputs.buildPlan s.params s.draws = .error c := by
    rcases h with stops | ⟨inputs, hl, hr, unsolved, rfl⟩ | ⟨inputs, primaries, hr, bad, rfl⟩
      | ⟨inputs, primaries, transfer, yuv, unsolved, rfl⟩
      | ⟨inputs, primaries, transfer, matrix, yuv, hr, ⟨n, hn, nan⟩, rfl⟩
    · exact PlanInputs.buildPlan_inputs _ _ stops
    · exact PlanInputs.buildPlan_primaries _ _ inputs (PlanInputs.stepPrimaries_error hl hr unsolved)
    · exact PlanInputs.buildPlan_transfer _ _ inputs (PlanInputs.stepPrimaries_isOk primaries) (PlanInputs.stepTransfer_error hr bad)
    · exact PlanInputs.buildPlan_matrix _ _ inputs primaries transfer (PlanInputs.stepMatrix_error yuv unsolved)
    · rw [← Transfer.not_analytic] at nan
      exact PlanInputs.buildPlan_luts _ _ inputs primaries transfer matrix (PlanInputs.stepLuts_error _ yuv hr (intLuts_nan hn nan))
  exact ⟨_, exec_plan_error fails, rfl, rfl, rfl, rfl, rfl, State.warnRange_regs s _, State.warnRange_mem s _, State.warnRange_tfRes s _⟩

end Sys2Proof.Machine
end

section
/-! SUPPORT. O44: the paths that do not dither store each sample's own value, and the copy path has one format on both sides
(45_planner_and_commands.md R212, R225, R226, 47_convert_float.md R279). -/

namespace Sys2Proof.Machine

/-! ### Values without dither (R250, R252) -/

section
variable {c : Source} {pr : Params} {draw h1 h2 : Nat}

theorem Source.planeValues_plain (h : c.plan.ditherNow = false) (p : Fin 4) :
    c.planeValues pr draw h1 h2 p = (c.plan.src.outFmt.samples c.plan.src.frameW.toNat h1 h2 p).map fun xy =>
      c.outSample pr draw c.plan.path p xy.1 xy.2 := by
  rw [Source.planeValues, h]
  rfl

/-- Without dither the writes of a slice pair the address of each sample with its value. -/
theorem Source.sliceWrites_plain (h : c.plan.ditherNow = false) (out : Quad PlaneReg) :
    c.sliceWrites pr draw out h1 h2 = c.plan.src.outFmt.planes.flatMap fun p =>
      (c.plan.src.outFmt.samples c.plan.src.frameW.toNat h1 h2 p).map fun xy =>
        ((out.get p).addr c.plan.src.outFmt.bps xy.1 xy.2, c.outSample pr draw c.plan.path p xy.1 xy.2) := by
  unfold Source.sliceWrites
  simp only [Source.planeValues_plain h, List.zip_map']

end

theorem Plan.ditherNow_of_path {p : Plan} (h : p.path ≠ .intFull) : p.ditherNow = false := by
  rw [Plan.ditherNow, beq_eq_false_iff_ne.2 h, Bool.and_false]

/-- What a defined slice stores at a sample when it does not dither. -/
theorem State.SliceDefined.read_sample {s t : State} (hinv : s.Inv) (h : s.SliceDefined) (ht : exec .convertSlice s = .next t)
    (plain : s.plan.ditherNow = false) {p : Fin 4} (hp : p ∈ s.plan.src.outFmt.planes) {x y : Nat}
    (hxy : (x, y) ∈ s.plan.src.outFmt.samples s.plan.src.frameW.toNat s.operands.h1 s.operands.h2 p) :
    t.mem.read ((s.operands.outPlanes.get p).addr s.plan.src.outFmt.bps x y) s.plan.src.outFmt.bps
      = s.source.outSample s.params s.draws s.plan.path p x y % 256 ^ s.plan.src.outFmt.bps := by
  have stored := convertSliceStoresEverySample s t hinv h ht p hp
  rw [Source.planeValues_plain plain, List.map_map] at stored
  exact List.map_inj_left.1 stored (x, y) hxy

theorem Source.outSample_copy (c : Source) (pr : Params) (draw : Nat) (p : Fin 4) (x y : Nat) :
    c.outSample pr draw .copy p x y = c.sample p x y := by
  unfold Source.outSample
  split <;> rfl

/-! ### The formats of a valid plan (R204, R212) -/

/-- Formats of one family that pass R204 differ in depth, in the alpha plane of RGB, and in the chroma subsampling of YUV alone. -/
theorem PixFmt.eq_of_check {f g : PixFmt} (hf : f.check = .ok ()) (hg : g.check = .ok ()) (family : f.rgb = g.rgb)
    (depth : f.depth = g.depth) (alpha : f.rgb = true → f.alpha = g.alpha)
    (chroma : f.rgb = false → f.log2cw = g.log2cw ∧ f.log2ch = g.log2ch) : f = g := by
  have fieldsF := PixFmt.check_cases hf
  have fieldsG := PixFmt.check_cases hg
  obtain ⟨_, rgb, _, _, cwF, chF⟩ := f
  obtain ⟨_, _, _, _, cwG, chG⟩ := g
  cases family
  cases depth
  cases rgb
  · obtain ⟨rfl, rfl⟩ := chroma rfl
    obtain ⟨-, rfl, rfl, -⟩ := fieldsF.resolve_left nofun
    obtain ⟨-, rfl, rfl, -⟩ := fieldsG.resolve_left nofun
    rfl
  · obtain rfl := alpha rfl
    obtain ⟨-, rfl, -, cw, ch⟩ := fieldsF.resolve_right nofun
    obtain ⟨-, rfl, -, cw', ch'⟩ := fieldsG.resolve_right nofun
    obtain rfl : cwF = cwG := BitVec.eq_of_toNat_eq (cw.trans cw'.symm)
    obtain rfl : chF = chG := BitVec.eq_of_toNat_eq (ch.trans ch'.symm)
    rfl

/-- What the datapaths rely on in a plan: its formats pass R204 and R208, and its pipe and flags are those of R211 to R213. -/
structure Plan.Sound (p : Plan) : Prop where
  inFmt : p.src.inFmt.check = .ok ()
  outFmt : p.src.outFmt.check = .ok ()
  family : p.src.inFmt.rgb = p.src.outFmt.rgb
  rgb : p.src.inFmt.rgb = true → p.src.inFmt.depth = p.src.outFmt.depth ∧ p.src.inFmt.alpha = p.src.outFmt.alpha
  width : p.src.frameW.toNat % 2 = 0
  pipe : p.pipe = .int ↔ p.src.inFmt.rgb = false
  fast : p.flags.yuv2yuvFast = true → p.src.inFmt.log2cw = p.src.outFmt.log2cw ∧ p.src.inFmt.log2ch = p.src.outFmt.log2ch
  passthrough : p.flags.yuv2yuvPt = true → p.flags.yuv2yuvFast = true ∧ p.src.inFmt.depth = p.src.outFmt.depth

theorem State.Inv.plan_sound {s : State} (h : s.Inv) (hv : s.planValid = true) : s.plan.Sound := by
  obtain ⟨src, flags, pipe, front, dims, -⟩ := h.plan_built hv
  obtain ⟨hin, hout, family, rgb⟩ := PlanInputs.checkFormats_ok.1 (PlanInputs.checkFront_ok.1 front).1
  obtain ⟨-, -, width, -⟩ := PlanInputs.checkDimensions_ok.1 dims
  constructor
  case fast =>
    rw [src, flags]
    exact fun fast => ((PlanInputs.yuv2yuvFast_iff _).1 fast).2
  case passthrough =>
    rw [src, flags]
    intro pt
    obtain ⟨fast, depth, -⟩ := (PlanInputs.yuv2yuvPt_iff _).1 pt
    exact ⟨fast, depth⟩
  all_goals rw [src]
  · exact hin
  · exact hout
  · exact family
  · exact rgb
  · exact width
  · rw [pipe]
    exact PlanInputs.pipe_int_iff _

/-- The copy path of the integer pipe is `yuv2yuv_passthrough` (R225). -/
theorem Plan.passthrough_of_copy {p : Plan} (int : p.pipe = .int) (copy : p.path = .copy) : p.flags.yuv2yuvPt = true := by
  unfold Plan.path at copy
  rw [int] at copy
  dsimp only at copy
  split_ifs at copy with pt
  exact pt

/-- The two sides of the copy path have one format (R226). -/
theorem Plan.Sound.formats_of_copy {p : Plan} (h : p.Sound) (copy : p.path = .copy) : p.src.inFmt = p.src.outFmt := by
  cases rgb : p.src.inFmt.rgb
  · obtain ⟨fast, depth⟩ := h.passthrough (Plan.passthrough_of_copy (h.pipe.2 rgb) copy)
    exact PixFmt.eq_of_check h.inFmt h.outFmt h.family depth (fun e => by rw [rgb] at e; cases e) fun _ => h.fast fast
  · obtain ⟨depth, alpha⟩ := h.rgb rgb
    exact PixFmt.eq_of_check h.inFmt h.outFmt h.family depth (fun _ => alpha) fun e => by rw [rgb] at e; cases e

/-- Settles O44: the copy path stores each sample of the input, which is no wider than its container. -/
theorem copyPathIsByteIdentical : Obligations.CopyPathIsByteIdentical := by
  unfold Obligations.CopyPathIsByteIdentical
  intro s t hinv h copy ht
  have formats := (hinv.plan_sound h.planned).formats_of_copy copy
  have plain : s.plan.ditherNow = false := Plan.ditherNow_of_path (by rw [copy]; decide)
  refine ⟨formats, fun p hp ⟨x, y⟩ hxy => ?_⟩
  rw [h.read_sample hinv ht plain hp hxy, copy, Source.outSample_copy, ← formats]
  exact Nat.mod_eq_of_lt (Memory.read_lt _ _ _)

end Sys2Proof.Machine
end

section
/-! SUPPORT. Slices that meet: the samples, sets and writes of a slice are those of its parts, and the order of writes that do not overlap
does not matter (20_memory.md R80, R82, 45_planner_and_commands.md R229). -/

namespace Sys2Proof.Machine

/-! ### The parts of a slice (R80) -/

section
variable {f : PixFmt} {planes : Quad PlaneReg} {w h1 h h2 : Nat}

theorem rowSamples_append (w : Nat) {y0 y1 y2 : Nat} (h : y0 ≤ y1) (h' : y1 ≤ y2) :
    rowSamples w y0 y1 ++ rowSamples w y1 y2 = rowSamples w y0 y2 := by
  have rows : List.range' y0 (y1 - y0) ++ List.range' y1 (y2 - y1) = List.range' y0 (y2 - y0) := by
    have joined := List.range'_append (s := y0) (m := y1 - y0) (n := y2 - y1) (step := 1)
    rwa [Nat.one_mul, Nat.add_sub_cancel' h, show y1 - y0 + (y2 - y1) = y2 - y0 by omega] at joined
  unfold rowSamples
  rw [← rows, List.flatMap_append]

theorem PixFmt.planeRow_mono (f : PixFmt) (p : Fin 4) {y y' : Nat} (h : y ≤ y') : f.planeRow p y ≤ f.planeRow p y' := by
  unfold PixFmt.planeRow
  split
  · exact Nat.div_le_div_right h
  · exact h

/-- The samples of a plane in a slice, row by row, are those of the rows above `h` and then those of the rows from `h` on. -/
theorem PixFmt.samples_append (f : PixFmt) (w : Nat) (p : Fin 4) (low : h1 ≤ h) (high : h ≤ h2) :
    f.samples w h1 h p ++ f.samples w h h2 p = f.samples w h1 h2 p :=
  rowSamples_append _ (f.planeRow_mono p low) (f.planeRow_mono p high)

theorem sampleBytes_perm (low : h1 ≤ h) (high : h ≤ h2) :
    (sampleBytes f planes w h1 h ++ sampleBytes f planes w h h2).Perm (sampleBytes f planes w h1 h2) := by
  unfold sampleBytes sampleAddrs
  rw [← List.flatMap_append]
  refine List.Perm.flatMap_right _ ((List.flatMap_append_perm _ _ _).trans (List.Perm.of_eq ?_))
  simp only [← List.map_append, PixFmt.samples_append f w _ low high]

/-- A slice within the rows of another has its bytes among the other's. -/
theorem sampleBytes_subperm {a b : Nat} (low : h1 ≤ a) (rows : a ≤ b) (high : b ≤ h2) :
    (sampleBytes f planes w a b).Subperm (sampleBytes f planes w h1 h2) := by
  have above : (sampleBytes f planes w a b).Subperm (sampleBytes f planes w h1 b) :=
    (List.sublist_append_right _ _).subperm.trans (sampleBytes_perm low rows).subperm
  have below : (sampleBytes f planes w h1 b).Subperm (sampleBytes f planes w h1 h2) :=
    (List.sublist_append_left _ _).subperm.trans (sampleBytes_perm (low.trans rows) high).subperm
  exact above.trans below

end

/-- Without dither the writes of a slice are those of its parts, plane by plane. -/
theorem Source.sliceWrites_perm {c : Source} (plain : c.plan.ditherNow = false) (pr : Params) (draw : Nat) (out : Quad PlaneReg)
    {h1 h h2 : Nat} (low : h1 ≤ h) (high : h ≤ h2) :
    (c.sliceWrites pr draw out h1 h ++ c.sliceWrites pr draw out h h2).Perm (c.sliceWrites pr draw out h1 h2) := by
  simp only [Source.sliceWrites_plain plain]
  refine (List.flatMap_append_perm _ _ _).trans (List.Perm.of_eq ?_)
  simp only [← List.map_append, PixFmt.samples_append _ _ _ low high]

/-! ### Writes in another order (R82) -/

namespace Memory

theorem writeSamples_append (m : Memory) (bps : Nat) (ws ws' : List (Nat × Nat)) :
    m.writeSamples bps (ws ++ ws') = (m.writeSamples bps ws).writeSamples bps ws' :=
  List.foldl_append

/-- A byte that is written does not depend on what memory held. -/
theorem byte_write_congr {m m' : Memory} (hm : m.wf = true) (hm' : m'.wf = true) {n a v x : Nat} (h : x ∈ byteAddrs a n) :
    (m.write a n v).byte x = (m'.write a n v).byte x := by
  induction n generalizing m m' a v with
  | zero => simp [byteAddrs] at h
  | succ n ih =>
    rw [Memory.write, Memory.write]
    by_cases later : x ∈ byteAddrs (a + 1) n
    · exact ih (wf_setByte _ hm (mod_memSize_lt a)) (wf_setByte _ hm' (mod_memSize_lt a)) later
    · obtain rfl : x = a % memSize := (List.mem_cons.1 h).resolve_right later
      rw [byte_write_of_not_mem _ _ _ _ _ later, byte_write_of_not_mem _ _ _ _ _ later, byte_setByte_same _ _ hm,
        byte_setByte_same _ _ hm']

/-- After writes that do not overlap, a byte of one of them is as that one alone leaves it. -/
theorem byte_writeSamples_of_mem {bps : Nat} {ws : List (Nat × Nat)} {m m' : Memory} (hm : m.wf = true) (hm' : m'.wf = true)
    (apart : ((ws.map Prod.fst).flatMap fun a => byteAddrs a bps).Nodup) {u : Nat × Nat} (hu : u ∈ ws) {x : Nat}
    (hx : x ∈ byteAddrs u.1 bps) : (m.writeSamples bps ws).byte x = (m'.write u.1 bps u.2).byte x := by
  induction ws generalizing m with
  | nil => cases hu
  | cons v ws ih =>
    rw [List.map_cons, List.flatMap_cons, List.nodup_append] at apart
    obtain ⟨-, apart', disjoint⟩ := apart
    rw [show Memory.writeSamples m bps (v :: ws) = (m.write v.1 bps v.2).writeSamples bps ws from rfl]
    rcases List.mem_cons.1 hu with rfl | hu
    · have last : ∀ w ∈ ws, x ∉ byteAddrs w.1 bps := fun w hw hx' =>
        disjoint x hx x (List.mem_flatMap.2 ⟨w.1, List.mem_map_of_mem hw, hx'⟩) rfl
      rw [byte_writeSamples_of_not_mem _ _ _ _ last]
      exact byte_write_congr hm hm' hx
    · exact ih (wf_write _ _ _ hm) apart' hu

/-- Writes that do not overlap leave the same bytes in every order. -/
theorem byte_writeSamples_perm {bps : Nat} {ws ws' : List (Nat × Nat)} (order : ws.Perm ws') {m : Memory} (hm : m.wf = true)
    (apart : ((ws'.map Prod.fst).flatMap fun a => byteAddrs a bps).Nodup) (x : Nat) :
    (m.writeSamples bps ws).byte x = (m.writeSamples bps ws').byte x := by
  have apart' : ((ws.map Prod.fst).flatMap fun a => byteAddrs a bps).Nodup := ((order.map _).flatMap_right _).nodup_iff.2 apart
  by_cases written : ∃ u ∈ ws, x ∈ byteAddrs u.1 bps
  · obtain ⟨u, hu, hx⟩ := written
    rw [byte_writeSamples_of_mem hm hm apart' hu hx, byte_writeSamples_of_mem hm hm apart (order.mem_iff.1 hu) hx]
  · push Not at written
    rw [byte_writeSamples_of_not_mem _ _ _ _ written,
      byte_writeSamples_of_not_mem _ _ _ _ fun w hw => written w (order.mem_iff.2 hw)]

end Memory

/-! ### A part of a slice is a slice (R224) -/

/-- `u` is ready to run a part of the slice that `s` is ready to run, on the same plan and planes. -/
structure State.PartOf (u s : State) : Prop where
  planValid : u.planValid = s.planValid
  plan : u.plan = s.plan
  params : u.params = s.params
  undisturbed : u.disturbed = false
  inPlanes : u.operands.inPlanes = s.operands.inPlanes
  outPlanes : u.operands.outPlanes = s.operands.outPlanes
  even : u.operands.h1 % 2 = 0 ∧ u.operands.h2 % 2 = 0
  rows : s.operands.h1 ≤ u.operands.h1 ∧ u.operands.h1 ≤ u.operands.h2 ∧ u.operands.h2 ≤ s.operands.h2

section
variable {s u : State}

theorem State.PartOf.writeSet (h : u.PartOf s) : (u.plan.writeSet u.operands).Subperm (s.plan.writeSet s.operands) := by
  obtain ⟨low, rows, high⟩ := h.rows
  unfold Plan.writeSet
  rw [h.plan, h.outPlanes]
  exact sampleBytes_subperm low rows high

theorem State.PartOf.readSet (h : u.PartOf s) : (u.plan.readSet u.operands).Subperm (s.plan.readSet s.operands) := by
  obtain ⟨low, rows, high⟩ := h.rows
  unfold Plan.readSet
  rw [h.plan, h.inPlanes]
  exact sampleBytes_subperm low rows high

theorem Plan.setsDisjoint_iff {p : Plan} {r : Regs} :
    p.setsDisjoint r = true ↔ (p.writeSet r).Nodup ∧ ∀ a ∈ p.writeSet r, a ∉ p.readSet r := by
  simp only [Plan.setsDisjoint, Bool.and_eq_true, decide_eq_true_eq, List.all_eq_true, Bool.not_eq_true', List.contains_eq_mem,
    decide_eq_false_iff_not]

/-- A part of a slice that the spec defines is one that the spec defines. -/
theorem State.SliceDefined.part (h : s.SliceDefined) (part : u.PartOf s) : u.SliceDefined where
  planned := part.planValid.trans h.planned
  legal := by
    obtain ⟨-, -, -, within⟩ := Plan.badSlice_eq_false_iff.1 h.legal
    obtain ⟨low, rows, high⟩ := part.rows
    rw [part.plan]
    exact Plan.badSlice_eq_false_iff.2 ⟨part.even.1, part.even.2, rows, high.trans within⟩
  ordinary := Bool.eq_false_iff.2 fun device => by
    obtain ⟨a, member, effect⟩ := Plan.touchesSideEffects_iff.1 device
    rw [part.params] at effect
    have touches := Plan.touchesSideEffects_iff.2
      ⟨a, member.imp (fun ha => part.readSet.subset ha) fun ha => part.writeSet.subset ha, effect⟩
    rw [h.ordinary] at touches
    cases touches
  disjoint := by
    obtain ⟨nodup, apart⟩ := Plan.setsDisjoint_iff.1 h.disjoint
    obtain ⟨l, perm, sub⟩ := part.writeSet
    exact Plan.setsDisjoint_iff.2 ⟨perm.nodup_iff.1 (sub.nodup nodup),
      fun a ha hr => apart a (part.writeSet.subset ha) (part.readSet.subset hr)⟩
  undisturbed := part.undisturbed

end

end Sys2Proof.Machine
end

section
/-! SUPPORT. O60: a slice reads the input samples of its own rows alone, so a slice before it does not change what it writes
(20_memory.md R74, R80, R82, 45_planner_and_commands.md R225, R229). -/

namespace Sys2Proof.Machine

/-! ### Chroma rows and columns (R74, R80) -/

section
variable {k a b x : Nat}

/-- Halving keeps a position inside even bounds. -/
theorem div_pow_mem (hk : k ≤ 1) (ha : a % 2 = 0) (hb : b % 2 = 0) (low : a ≤ x) (high : x < b) :
    a / 2 ^ k ≤ x / 2 ^ k ∧ x / 2 ^ k < b / 2 ^ k := by
  interval_cases k <;> omega

/-- Below a halved bound, the whole block of a position is below the bound. -/
theorem mul_pow_lt (hk : k ≤ 1) (high : x < b / 2 ^ k) : x * 2 ^ k + (2 ^ k - 1) < b := by
  interval_cases k <;> omega

theorem le_mul_pow (hk : k ≤ 1) (ha : a % 2 = 0) (low : a / 2 ^ k ≤ x) : a ≤ x * 2 ^ k := by
  interval_cases k <;> omega

end

theorem PixFmt.subsampling_of_yuv {f : PixFmt} (h : f.check = .ok ()) (yuv : f.rgb = false) : f.cw ≤ 1 ∧ f.ch ≤ f.cw := by
  rcases PixFmt.check_cases h with ⟨rgb, -⟩ | ⟨-, -, -, -, subsampling⟩
  · rw [yuv] at rgb
    cases rgb
  · exact subsampling

/-- The samples of a plane without subsampling are those of the frame (R80). -/
theorem PixFmt.mem_samples_full {f : PixFmt} {p : Fin 4} (h : ¬f.isChroma p = true) {w h1 h2 x y : Nat} :
    (x, y) ∈ f.samples w h1 h2 p ↔ x < w ∧ h1 ≤ y ∧ y < h2 := by
  rw [PixFmt.mem_samples_iff]
  exact ⟨fun e => e.2 h, fun e => ⟨fun e' => absurd e' h, fun _ => e⟩⟩

theorem PixFmt.mem_samples_chroma {f : PixFmt} {p : Fin 4} (h : f.isChroma p = true) {w h1 h2 x y : Nat} :
    (x, y) ∈ f.samples w h1 h2 p ↔ x < w / 2 ^ f.cw ∧ h1 / 2 ^ f.ch ≤ y ∧ y < h2 / 2 ^ f.ch := by
  rw [PixFmt.mem_samples_iff]
  exact ⟨fun e => e.1 h, fun e => ⟨fun _ => e, fun e' => absurd h e'⟩⟩

theorem PixFmt.not_chroma_of_rgb {f : PixFmt} (h : f.rgb = true) (p : Fin 4) : ¬f.isChroma p = true := fun e => by
  rw [(PixFmt.isChroma_iff.1 e).1] at h
  cases h

theorem PixFmt.not_chroma_luma (f : PixFmt) : ¬f.isChroma 0 = true := fun e =>
  absurd (PixFmt.isChroma_iff.1 e).2 (by decide)

theorem PixFmt.not_chroma_alpha (f : PixFmt) : ¬f.isChroma 3 = true := fun e =>
  absurd (PixFmt.isChroma_iff.1 e).2 (by decide)

/-! ### What a slice reads -/

/-- With `m` in place of its memory, `c` reads the same input samples in the rows [h1, h2). -/
def Source.ReadsSame (c : Source) (m : Memory) (h1 h2 : Nat) : Prop :=
  ∀ p ∈ c.plan.src.inFmt.planes, ∀ x y, (x, y) ∈ c.plan.src.inFmt.samples c.plan.src.frameW.toNat h1 h2 p →
    Source.sample { c with mem := m } p x y = c.sample p x y

/-- Only the bytes of the slice's read set are read (R80). -/
theorem Source.readsSame_of_readSet {c : Source} {m : Memory} {h1 h2 : Nat}
    (h : ∀ a ∈ sampleBytes c.plan.src.inFmt c.planes c.plan.src.frameW.toNat h1 h2, m.byte a = c.mem.byte a) :
    c.ReadsSame m h1 h2 := fun p hp _ _ hxy =>
  Memory.read_congr fun a ha => h a (List.mem_flatMap.2 ⟨_, List.mem_flatMap.2 ⟨p, hp, List.mem_map_of_mem hxy⟩, ha⟩)

section
variable {c : Source} {m : Memory} {h1 h2 x y : Nat} (sound : c.plan.Sound) (even1 : h1 % 2 = 0) (even2 : h2 % 2 = 0)
  (same : c.ReadsSame m h1 h2)
include sound same

/-- A plane that both formats have in full, alpha included, is read at the sample's own place. -/
theorem Source.sample_same {p : Fin 4} (rgb : c.plan.src.inFmt.rgb = true) (hp : p ∈ c.plan.src.outFmt.planes)
    (h : (x, y) ∈ c.plan.src.outFmt.samples c.plan.src.frameW.toNat h1 h2 p) :
    Source.sample { c with mem := m } p x y = c.sample p x y := by
  have full := PixFmt.not_chroma_of_rgb (sound.family ▸ rgb) p
  rw [PixFmt.mem_samples_full full] at h
  refine same p ?_ x y ((PixFmt.mem_samples_full (PixFmt.not_chroma_of_rgb rgb p)).2 h)
  rw [PixFmt.mem_planes, (sound.rgb rgb).2]
  exact PixFmt.mem_planes.1 hp

include even1 even2

/-- A pixel of the frame is read at its own row and, for chroma, at the row of its block (R241, R252). -/
theorem Source.yuvAt_same (yuv : c.plan.src.inFmt.rgb = false) (hx : x < c.plan.src.frameW.toNat) (low : h1 ≤ y) (high : y < h2) :
    Source.yuvAt { c with mem := m } x y = c.yuvAt x y := by
  obtain ⟨cw, ch⟩ := PixFmt.subsampling_of_yuv sound.inFmt yuv
  have column := (div_pow_mem cw (Nat.zero_mod 2) sound.width (Nat.zero_le x) hx).2
  have row := div_pow_mem (ch.trans cw) even1 even2 low high
  have plane (p : Fin 4) (hp : p ≠ 3) : p ∈ c.plan.src.inFmt.planes := PixFmt.mem_planes.2 fun e => absurd e hp
  have luma := same 0 (plane 0 (by decide)) x y ((PixFmt.mem_samples_full (PixFmt.not_chroma_luma _)).2 ⟨hx, low, high⟩)
  have cb := same 1 (plane 1 (by decide)) _ _ ((PixFmt.mem_samples_chroma (PixFmt.isChroma_iff.2 ⟨yuv, .inl rfl⟩)).2 ⟨column, row⟩)
  have cr := same 2 (plane 2 (by decide)) _ _ ((PixFmt.mem_samples_chroma (PixFmt.isChroma_iff.2 ⟨yuv, .inr rfl⟩)).2 ⟨column, row⟩)
  simp only [Source.yuvAt, luma, cb, cr]

theorem Source.rgbAt_same (yuv : c.plan.src.inFmt.rgb = false) (hx : x < c.plan.src.frameW.toNat) (low : h1 ≤ y) (high : y < h2) :
    Source.rgbAt { c with mem := m } x y = c.rgbAt x y := by
  simp only [Source.rgbAt, Source.yuvAt_same sound even1 even2 same yuv hx low high]

/-- A chroma sample is made from the pixels of its own block (R247). -/
theorem Source.chromaSrc_same (yuv : c.plan.src.inFmt.rgb = false) (mode : ChromaDown)
    (hx : x < c.plan.src.frameW.toNat / 2 ^ c.plan.src.outFmt.cw) (low : h1 / 2 ^ c.plan.src.outFmt.ch ≤ y)
    (high : y < h2 / 2 ^ c.plan.src.outFmt.ch) : Source.chromaSrc { c with mem := m } mode x y = c.chromaSrc mode x y := by
  obtain ⟨cw, ch⟩ := PixFmt.subsampling_of_yuv sound.outFmt (sound.family ▸ yuv)
  have column := mul_pow_lt cw hx
  have top := le_mul_pow (ch.trans cw) even1 low
  have bottom := mul_pow_lt (ch.trans cw) high
  have pixel {i j : Nat} (hi : i < c.plan.src.frameW.toNat) (hj : h1 ≤ j) (hj' : j < h2) :=
    Source.rgbAt_same sound even1 even2 same yuv hi hj hj'
  cases mode with
  | nearest => exact pixel ((Nat.le_add_right _ _).trans_lt column) top ((Nat.le_add_right _ _).trans_lt bottom)
  | average =>
    unfold Source.chromaSrc
    dsimp only
    split_ifs with noColumns noRows
    · rw [noColumns] at column ch
      rw [Nat.le_zero.1 ch] at top bottom
      exact pixel (by omega) (by omega) (by omega)
    · have two : c.plan.src.outFmt.cw = 1 := by omega
      rw [two] at column
      rw [noRows] at top bottom
      rw [pixel (by omega) (by omega) (by omega), pixel (by omega) (by omega) (by omega)]
    · have two : c.plan.src.outFmt.cw = 1 := by omega
      have two' : c.plan.src.outFmt.ch = 1 := by omega
      rw [two] at column
      rw [two'] at top bottom
      rw [pixel (by omega) (by omega) (by omega), pixel (by omega) (by omega) (by omega), pixel (by omega) (by omega) (by omega),
        pixel (by omega) (by omega) (by omega)]

/-- An output sample of the full pipeline is made from the pixel of its place or the pixels of its block (R246 to R248). -/
theorem Source.rgbToYuvSample_same (yuv : c.plan.src.inFmt.rgb = false) (mode : ChromaDown) {p : Fin 4} (hp : p ≠ 3)
    (h : (x, y) ∈ c.plan.src.outFmt.samples c.plan.src.frameW.toNat h1 h2 p) :
    Source.rgbToYuvSample { c with mem := m } mode p x y = c.rgbToYuvSample mode p x y := by
  have src : Source.outSrc { c with mem := m } mode p x y = c.outSrc mode p x y := by
    unfold Source.outSrc
    split
    · next luma =>
      subst luma
      obtain ⟨hx, low, high⟩ := (PixFmt.mem_samples_full (PixFmt.not_chroma_luma _)).1 h
      exact Source.rgbAt_same sound even1 even2 same yuv hx low high
    · next chroma =>
      have chroma' : p = 1 ∨ p = 2 := by omega
      obtain ⟨hx, low, high⟩ := (PixFmt.mem_samples_chroma (PixFmt.isChroma_iff.2 ⟨sound.family ▸ yuv, chroma'⟩)).1 h
      exact Source.chromaSrc_same sound even1 even2 same yuv mode hx low high
  simp only [Source.rgbToYuvSample, src]

/-- The composed kernel keeps the subsampling, so a chroma sample is read at its own place (R252). -/
theorem Source.yuvToYuvSample_same (yuv : c.plan.src.inFmt.rgb = false) (fast : c.plan.flags.yuv2yuvFast = true) {p : Fin 4}
    (hp : p ≠ 3) (h : (x, y) ∈ c.plan.src.outFmt.samples c.plan.src.frameW.toNat h1 h2 p) :
    Source.yuvToYuvSample { c with mem := m } p x y = c.yuvToYuvSample p x y := by
  have yuv' : c.plan.src.outFmt.rgb = false := sound.family ▸ yuv
  obtain ⟨sameW, sameH⟩ := sound.fast fast
  have sameCw : c.plan.src.inFmt.cw = c.plan.src.outFmt.cw := congrArg BitVec.toNat sameW
  have sameCh : c.plan.src.inFmt.ch = c.plan.src.outFmt.ch := congrArg BitVec.toNat sameH
  obtain ⟨cw, ch⟩ := PixFmt.subsampling_of_yuv sound.outFmt yuv'
  have pixel : (if p = 0 then Source.yuvAt { c with mem := m } x y
        else Source.yuvAt { c with mem := m } (x * 2 ^ c.plan.src.inFmt.cw) (y * 2 ^ c.plan.src.inFmt.ch))
      = if p = 0 then c.yuvAt x y else c.yuvAt (x * 2 ^ c.plan.src.inFmt.cw) (y * 2 ^ c.plan.src.inFmt.ch) := by
    split_ifs with luma
    · subst luma
      obtain ⟨hx, low, high⟩ := (PixFmt.mem_samples_full (PixFmt.not_chroma_luma _)).1 h
      exact Source.yuvAt_same sound even1 even2 same yuv hx low high
    · have chroma : p = 1 ∨ p = 2 := by omega
      obtain ⟨hx, low, high⟩ := (PixFmt.mem_samples_chroma (PixFmt.isChroma_iff.2 ⟨yuv', chroma⟩)).1 h
      have column := mul_pow_lt cw hx
      have top := le_mul_pow (ch.trans cw) even1 low
      have bottom := mul_pow_lt (ch.trans cw) high
      rw [sameCw, sameCh]
      exact Source.yuvAt_same sound even1 even2 same yuv ((Nat.le_add_right _ _).trans_lt column) top
        ((Nat.le_add_right _ _).trans_lt bottom)
  simp only [Source.yuvToYuvSample, pixel]

end

/-! ### What a slice writes (R225) -/

/-- What the path of a plan says of its pipe and flags. -/
theorem Plan.path_cases (p : Plan) :
    (p.path = .yuv2yuv → p.pipe = .int ∧ p.flags.yuv2yuvFast = true) ∧ (p.path = .intFull → p.pipe = .int)
      ∧ (p.path = .halfDelin → p.pipe ≠ .int) := by
  unfold Plan.path
  cases p.pipe with
  | int =>
    dsimp only
    split_ifs with pt fast
    · simp
    · simp [fast]
    · simp
  | half | f32 =>
    dsimp only
    split_ifs <;> simp

theorem Plan.Sound.alpha_of_yuv {p : Plan} (h : p.Sound) (yuv : p.src.inFmt.rgb = false) {q : Fin 4} (hq : q ∈ p.src.outFmt.planes) :
    q ≠ 3 := by
  rintro rfl
  rcases PixFmt.check_cases h.outFmt with ⟨rgb, -⟩ | ⟨-, -, alpha, -⟩
  · rw [← h.family, yuv] at rgb
    cases rgb
  · rw [PixFmt.mem_planes, alpha] at hq
    exact Bool.noConfusion (hq rfl)

section
variable {c : Source} {m : Memory} {h1 h2 : Nat} (sound : c.plan.Sound) (even1 : h1 % 2 = 0) (even2 : h2 % 2 = 0)
  (same : c.ReadsSame m h1 h2) (path : c.plan.path ∈ [Path.copy, Path.yuv2yuv, Path.intFull, Path.halfDelin]) (pr : Params)
  (draw draw' : Nat)
include sound even1 even2 same path

/-- On the paths that draw no free value, a sample depends on memory through the slice's own input samples alone. -/
theorem Source.outSample_same {p : Fin 4} {x y : Nat} (hp : p ∈ c.plan.src.outFmt.planes)
    (h : (x, y) ∈ c.plan.src.outFmt.samples c.plan.src.frameW.toNat h1 h2 p) :
    Source.outSample { c with mem := m } pr draw' c.plan.path p x y = c.outSample pr draw c.plan.path p x y := by
  obtain ⟨composed, full, half⟩ := c.plan.path_cases
  simp only [List.mem_cons, List.not_mem_nil, or_false] at path
  rcases path with e | e | e | e
  · have formats := sound.formats_of_copy e
    rw [e, Source.outSample_copy, Source.outSample_copy]
    exact same p (formats ▸ hp) x y (formats ▸ h)
  · obtain ⟨int, fast⟩ := composed e
    have yuv := sound.pipe.1 int
    have colour := sound.alpha_of_yuv yuv hp
    simp only [e, Source.outSample, if_neg colour, Source.yuvToYuvSample_same sound even1 even2 same yuv fast colour h]
  · have yuv := sound.pipe.1 (full e)
    have colour := sound.alpha_of_yuv yuv hp
    simp only [e, Source.outSample, if_neg colour, Source.rgbToYuvSample_same sound even1 even2 same yuv _ colour h]
  · have rgb : c.plan.src.inFmt.rgb = true := eq_true_of_ne_false fun yuv => half e (sound.pipe.2 yuv)
    simp only [e, Source.outSample, Source.halfDelinSample, Source.sample_same sound same rgb hp h]

theorem Source.sliceWrites_same (plain : c.plan.ditherNow = false) (out : Quad PlaneReg) :
    Source.sliceWrites { c with mem := m } pr draw' out h1 h2 = c.sliceWrites pr draw out h1 h2 := by
  rw [Source.sliceWrites_plain plain, Source.sliceWrites_plain (c := { c with mem := m }) plain]
  refine List.flatMap_congr fun p hp => List.map_congr_left fun xy hxy => ?_
  exact congrArg (Prod.mk _) (Source.outSample_same sound even1 even2 same path pr draw draw' hp hxy)

end

/-! ### Slices that meet (R229) -/

theorem State.SliceDefined.completes {s t : State} (h : s.SliceDefined) (rows : s.operands.sliceH1 ≠ s.operands.sliceH2)
    (ht : exec .convertSlice s = .next t) : t = s.writeSlice.finish.bumpDraws := by
  rw [exec_convertSlice_ordinary h.planned h.legal rows h.ordinary] at ht
  cases ht
  rfl

/-- From an idle state, what a command uses are the registers. -/
theorem State.PartOf.of_idle {u s : State} (idle : s.seq = .idle) (idle' : u.seq = .idle) (planValid : u.planValid = s.planValid)
    (plan : u.plan = s.plan) (params : u.params = s.params) (undisturbed : u.disturbed = false)
    (inPlanes : u.regs.inPlanes = s.regs.inPlanes) (outPlanes : u.regs.outPlanes = s.regs.outPlanes)
    (even : u.regs.h1 % 2 = 0 ∧ u.regs.h2 % 2 = 0)
    (rows : s.regs.h1 ≤ u.regs.h1 ∧ u.regs.h1 ≤ u.regs.h2 ∧ u.regs.h2 ≤ s.regs.h2) : u.PartOf s := by
  rw [← State.operands_idle idle, ← State.operands_idle idle'] at *
  exact ⟨planValid, plan, params, undisturbed, inPlanes, outPlanes, even, rows⟩

section
variable {s u t : State} (hinv : s.Inv) (hdef : s.SliceDefined) (plain : s.plan.ditherNow = false)
  (path : s.plan.path ∈ [Path.copy, Path.yuv2yuv, Path.intFull, Path.halfDelin])
include hinv hdef plain path

/-- A part of a slice writes what the whole writes there, if the part's input samples still are what they were. -/
theorem State.PartOf.mem_eq (part : u.PartOf s) (unchanged : ∀ a ∈ u.plan.readSet u.operands, u.mem.byte a = s.mem.byte a)
    (ht : exec .convertSlice u = .next t) :
    t.mem = u.mem.writeSamples s.plan.src.outFmt.bps
      (s.source.sliceWrites s.params s.draws s.operands.outPlanes u.operands.h1 u.operands.h2) := by
  obtain ⟨even1, even2⟩ := part.even
  have same : s.source.ReadsSame u.mem u.operands.h1 u.operands.h2 := by
    refine Source.readsSame_of_readSet ?_
    unfold Plan.readSet at unchanged
    rwa [part.plan, part.inPlanes] at unchanged
  have source : u.source = { s.source with mem := u.mem } := by
    unfold State.source
    rw [part.plan, part.inPlanes]
  rw [(hdef.part part).mem_eq ht, source, part.plan, part.params, part.outPlanes,
    Source.sliceWrites_same (c := s.source) (hinv.plan_sound hdef.planned) even1 even2 same path s.params s.draws u.draws plain]

/-- Two parts that meet, one run after the other, leave every byte as the whole does. -/
theorem State.SliceDefined.parts {u' t' t'' : State} (first : u.PartOf s) (second : u'.PartOf s) (hmem : u.mem = s.mem)
    (hmem' : u'.mem = t.mem) (start : u.operands.h1 = s.operands.h1) (meet : u.operands.h2 = u'.operands.h1)
    (stop : u'.operands.h2 = s.operands.h2) (ht : exec .convertSlice u = .next t) (ht' : exec .convertSlice u' = .next t')
    (ht'' : exec .convertSlice s = .next t'') (b : Nat) : t'.mem.byte b = t''.mem.byte b := by
  have unchanged : ∀ a ∈ u'.plan.readSet u'.operands, u'.mem.byte a = s.mem.byte a := fun a ha => by
    have unwritten : a ∉ u.plan.writeSet u.operands := fun hw =>
      (Plan.setsDisjoint_iff.1 hdef.disjoint).2 a (first.writeSet.subset hw) (second.readSet.subset ha)
    rw [hmem', convertSliceWritesOnlyItsWriteSet.1 u t ht a unwritten, hmem]
  have written := second.mem_eq hinv hdef plain path unchanged ht'
  rw [hmem', first.mem_eq hinv hdef plain path (fun a _ => by rw [hmem]) ht, hmem, start, meet, stop,
    ← Memory.writeSamples_append] at written
  rw [written, hdef.mem_eq ht'']
  refine Memory.byte_writeSamples_perm (Source.sliceWrites_perm (c := s.source) plain _ _ _ ?low ?high) hinv.memCanonical ?apart b
  case low => exact start ▸ meet ▸ first.rows.2.1
  case high => exact second.rows.2.1.trans_eq stop
  case apart =>
    rw [Source.map_fst_sliceWrites]
    exact Plan.writeSet_nodup hdef.disjoint

end

/-- Settles O60: the two slices are parts of the one over both, the second on the state in which the first completed. -/
theorem slicesAreIndependentWithoutDither : Obligations.SlicesAreIndependentWithoutDither := by
  unfold Obligations.SlicesAreIndependentWithoutDither
  intro s h t1 t2 t hinv idle hdef undithered path low high even ht1 ht2 ht
  have plain : s.plan.ditherNow = false := by rw [Plan.ditherNow, undithered, Bool.false_and]
  have operands : s.operands = s.regs := State.operands_idle idle
  obtain ⟨even1, even2, -, -⟩ := Plan.badSlice_eq_false_iff.1 (operands ▸ hdef.legal)
  have first : State.PartOf { s with regs := { s.regs with sliceH2 := h } } s :=
    .of_idle idle idle rfl rfl rfl hdef.undisturbed rfl rfl ⟨even1, even⟩ ⟨le_rfl, low.le, high.le⟩
  have firstOperands : State.operands { s with regs := { s.regs with sliceH2 := h } } = { s.regs with sliceH2 := h } :=
    State.operands_idle idle
  have rows : s.regs.sliceH1 ≠ h := fun e => low.ne (congrArg BitVec.toNat e)
  have after : t1 = (State.writeSlice { s with regs := { s.regs with sliceH2 := h } }).finish.bumpDraws :=
    (hdef.part first).completes (by rw [firstOperands]; exact rows) ht1
  have second : State.PartOf { t1 with regs := { s.regs with sliceH1 := h } } s := by
    rw [after]
    exact .of_idle idle rfl rfl rfl rfl rfl rfl rfl ⟨even, even2⟩ ⟨low.le, high.le, le_rfl⟩
  have secondOperands : State.operands { t1 with regs := { s.regs with sliceH1 := h } } = { s.regs with sliceH1 := h } :=
    State.operands_idle (by rw [after]; rfl)
  refine hdef.parts (t := t1) hinv plain path first second rfl rfl ?start ?meet ?stop ht1 ht2 ht
  case start =>
    rw [firstOperands, operands]
    rfl
  case meet =>
    rw [firstOperands, secondOperands]
    rfl
  case stop =>
    rw [secondOperands, operands]
    rfl

end Sys2Proof.Machine
end

section
/-! SUPPORT. O50: the FSB dither, one pixel on the two error rows, a row of pixels and the rows of a plane
(46_convert_integer.md R250, R251). -/

namespace Sys2Proof.Machine

theorem clipPixel_eq (d : Nat) (v : Int) : clipPixel d v = max 0 (min (2 ^ d - 1) v) := by
  have one : (1 : Int) ≤ 2 ^ d := one_le_pow₀ (by decide)
  unfold clipPixel clip
  split_ifs <;> omega

/-! ### Error rows (R53) -/

namespace ErrRow
variable {e : ErrRow} {j : Nat}

theorem at_set (h : j < e.length) (v : Int) (i : Nat) : ErrRow.at (e.set j v) i = if i = j then v else e.at i := by
  unfold ErrRow.at
  rw [List.getD_eq_getElem?_getD, List.getElem?_set, List.getD_eq_getElem?_getD]
  by_cases same : i = j
  · subst same
    simp [h]
  · rw [if_neg (Ne.symm same), if_neg same]

theorem at_add (h : j < e.length) (v : Int) (i : Nat) : (e.add j v).at i = if i = j then e.at i + v else e.at i := by
  rw [ErrRow.add, at_set h]
  by_cases same : i = j
  · rw [if_pos same, if_pos same, same]
  · rw [if_neg same, if_neg same]

@[simp] theorem length_add (e : ErrRow) (j : Nat) (v : Int) : (e.add j v).length = e.length :=
  List.length_set

end ErrRow

/-! ### One pixel (R251) -/

theorem fsbShare_eq (k diff : Int) : fsbShare k diff = (k * diff + 8) / 16 := rfl

section
variable {d sh x : Nat} {off sum diff : Int} {e : FsbRows}

theorem fsbPixel_out :
    (fsbPixel d off sh sum x e).1 = max 0 (min (2 ^ d - 1) (off + (sum + e.cur.at (x + 1)) / 2 ^ sh)) :=
  clipPixel_eq _ _

/-- The error of a pixel lies in [-rnd, rnd). -/
theorem fsbDiff_range (hsh : 1 ≤ sh) (acc : Int) :
    -(2 ^ (sh - 1) : Int) ≤ acc % 2 ^ sh - 2 ^ (sh - 1) ∧ acc % 2 ^ sh - 2 ^ (sh - 1) < 2 ^ (sh - 1) := by
  have double : (2 : Int) ^ sh = 2 * 2 ^ (sh - 1) := (mul_pow_sub_one (by omega) 2).symm
  have positive : (0 : Int) < 2 ^ sh := by positivity
  have low := Int.emod_nonneg acc positive.ne'
  have high := Int.emod_lt_of_pos acc positive
  omega

variable (hdiff : diff = (sum + e.cur.at (x + 1)) % 2 ^ sh - 2 ^ (sh - 1))
include hdiff

/-- The current row: the pixel's own element is `rnd` again, the next one takes seven sixteenths of the error. -/
theorem fsbPixel_cur (h : x + 2 < e.cur.length) (i : Nat) :
    (fsbPixel d off sh sum x e).2.cur.at i
      = if i = x + 1 then 2 ^ (sh - 1) else if i = x + 2 then e.cur.at i + (7 * diff + 8) / 16 else e.cur.at i := by
  have own : x + 1 < (e.cur.add (x + 2) (fsbShare 7 diff)).length := by
    rw [ErrRow.length_add]
    omega
  calc (fsbPixel d off sh sum x e).2.cur.at i
      = ErrRow.at ((e.cur.add (x + 2) (fsbShare 7 diff)).set (x + 1) (2 ^ (sh - 1))) i := by rw [hdiff]; rfl
    _ = _ := by rw [ErrRow.at_set own, ErrRow.at_add h, fsbShare_eq]

/-- The next row: the three elements below take three, five and one sixteenths of the error. -/
theorem fsbPixel_nxt (h : x + 2 < e.nxt.length) (i : Nat) :
    (fsbPixel d off sh sum x e).2.nxt.at i
      = if i = x then e.nxt.at i + (3 * diff + 8) / 16 else if i = x + 1 then e.nxt.at i + (5 * diff + 8) / 16
        else if i = x + 2 then e.nxt.at i + (1 * diff + 8) / 16 else e.nxt.at i := by
  have below : x + 1 < (e.nxt.add x (fsbShare 3 diff)).length := by
    rw [ErrRow.length_add]
    omega
  have right : x + 2 < ((e.nxt.add x (fsbShare 3 diff)).add (x + 1) (fsbShare 5 diff)).length := by
    rwa [ErrRow.length_add, ErrRow.length_add]
  calc (fsbPixel d off sh sum x e).2.nxt.at i
      = (((e.nxt.add x (fsbShare 3 diff)).add (x + 1) (fsbShare 5 diff)).add (x + 2) (fsbShare 1 diff)).at i := by rw [hdiff]; rfl
    _ = _ := by
      rw [ErrRow.at_add right, ErrRow.at_add below, ErrRow.at_add (by omega), fsbShare_eq, fsbShare_eq, fsbShare_eq]
      split_ifs <;> omega

end

/-- Settles O50: the output and the two rows of a pixel (`fsbPixel_out`, `fsbPixel_cur`, `fsbPixel_nxt`), and the recursion along a
row and from row to row. -/
theorem ditherDiffusesTheError : Obligations.DitherDiffusesTheError := by
  unfold Obligations.DitherDiffusesTheError
  refine ⟨?pixel, fun d sh x off sum rest e => ⟨rfl, rfl⟩, ?rows⟩
  case pixel =>
    rintro d sh x off sum acc diff out e e' hsh hcur hnxt pixel rfl hdiff
    obtain rfl : (fsbPixel d off sh sum x e).1 = out := congrArg Prod.fst pixel
    obtain rfl : (fsbPixel d off sh sum x e).2 = e' := congrArg Prod.snd pixel
    obtain ⟨low, high⟩ := fsbDiff_range hsh (sum + e.cur.at (x + 1))
    rw [← hdiff] at low high
    exact ⟨fsbPixel_out, fun fresh => by rw [fsbPixel_out, fresh], low, high, fsbPixel_cur hdiff hcur, fsbPixel_nxt hdiff hnxt⟩
  case rows =>
    intro d sh off row rest e e' out hrow
    exact ⟨rfl, by rw [fsbRows, hrow]⟩

end Sys2Proof.Machine
end

section
/-! SUPPORT. O47: the samples that the integer pipe reads and stores, as integers, and the composed kernel
(46_convert_integer.md R241, R252). -/

namespace Sys2Proof.Machine

/-! ### The integer pipe (R77, R97, R164) -/

theorem natCast_cbias (d : Nat) : (cbias d : Int) = 2 ^ (d - 1) := by
  rw [cbias, Nat.cast_pow]
  rfl

theorem Plan.offsetOut_chroma (p : Plan) {q : Fin 4} (luma : q ≠ 0) : p.offsetOut q = 2 ^ (p.src.outFmt.d - 1) := by
  rw [Plan.offsetOut, if_neg luma, natCast_cbias]

/-- Both formats of an integer plan are of the YUV family. -/
theorem Plan.Sound.formats_of_int {p : Plan} (h : p.Sound) (int : p.pipe = .int) :
    p.src.inFmt.rgb = false ∧ p.src.outFmt.rgb = false :=
  have yuv := h.pipe.1 int
  ⟨yuv, h.family ▸ yuv⟩

theorem PixFmt.mem_planes_colour {f : PixFmt} {p : Fin 4} (colour : p ≠ 3) : p ∈ f.planes :=
  PixFmt.mem_planes.2 fun e => absurd e colour

section
variable {f : PixFmt} (h : f.check = .ok ()) (yuv : f.rgb = false)
include h yuv

theorem PixFmt.depth_of_yuv : f.d = 8 ∨ f.d = 10 ∨ f.d = 12 := by
  rcases PixFmt.check_cases h with ⟨rgb, -⟩ | ⟨-, -, -, depth, -⟩
  · rw [yuv] at rgb
    cases rgb
  · exact depth

/-- The values of a YUV format fit its container (R73). -/
theorem PixFmt.pow_depth_le_container : 2 ^ f.d ≤ 256 ^ f.bps := by
  unfold PixFmt.bps
  rcases PixFmt.depth_of_yuv h yuv with e | e | e <;> rw [e] <;> decide

/-- A value of the format is stored as it is. -/
theorem PixFmt.stored_value {v : Int} (range : 0 ≤ v ∧ v < 2 ^ f.d) : ((v.toNat % 256 ^ f.bps : Nat) : Int) = v := by
  obtain ⟨nonneg, lt⟩ := range
  have fits : v.toNat < 2 ^ f.d := by
    zify
    rwa [Int.toNat_of_nonneg nonneg]
  rw [Nat.mod_eq_of_lt (fits.trans_le (PixFmt.pow_depth_le_container h yuv)), Int.toNat_of_nonneg nonneg]

end

/-- R241: luma at the pixel's own place, chroma at the place of its block, each less its offset. -/
theorem Source.yuvAt_eq (c : Source) (x y : Nat) :
    c.yuvAt x y = ⟨(c.sample 0 x y : Int) - c.plan.yuvOffsetIn.toNat,
      (c.sample 1 (x / 2 ^ c.plan.src.inFmt.cw) (y / 2 ^ c.plan.src.inFmt.ch) : Int) - 2 ^ (c.plan.src.inFmt.d - 1),
      (c.sample 2 (x / 2 ^ c.plan.src.inFmt.cw) (y / 2 ^ c.plan.src.inFmt.ch) : Int) - 2 ^ (c.plan.src.inFmt.d - 1)⟩ := by
  rw [← natCast_cbias]
  rfl

/-! ### The composed kernel (R252) -/

/-- R225: the fast mode without the passthrough is the composed kernel. -/
theorem Plan.path_yuv2yuv {p : Plan} (int : p.pipe = .int) (fast : p.flags.yuv2yuvFast = true) (pt : p.flags.yuv2yuvPt = false) :
    p.path = .yuv2yuv := by
  rw [Plan.path, int]
  simp only [fast, pt, Bool.false_eq_true, if_false, if_true]

/-- The kernel with output offset `off` and table row `row` at the pixel `v`. -/
def Plan.composed (plan : Plan) (off : Int) (row : V3 Half) (v : V3 Int) : Int :=
  max 0 (min (2 ^ plan.src.outFmt.d - 1) (off + (rowDot row v + 2 ^ (14 + plan.src.inFmt.d - plan.src.outFmt.d - 1))
    / 2 ^ (14 + plan.src.inFmt.d - plan.src.outFmt.d)))

theorem Source.yuvToYuvSample_luma (c : Source) (x y : Nat) :
    c.yuvToYuvSample 0 x y = c.plan.composed c.plan.yuvOffsetOut.toNat c.plan.yuv2yuv.c0 (c.yuvAt x y) :=
  clipPixel_eq _ _

/-- At the top-left pixel of its block, the chroma terms of a chroma sample are the input samples at its own place. -/
theorem Source.yuvToYuvSample_chroma (c : Source) {p : Fin 4} (luma : p ≠ 0) (x y : Nat) :
    c.yuvToYuvSample p x y = c.plan.composed (2 ^ (c.plan.src.outFmt.d - 1)) (c.plan.yuv2yuv.get p)
      ⟨(c.sample 0 (x * 2 ^ c.plan.src.inFmt.cw) (y * 2 ^ c.plan.src.inFmt.ch) : Int) - c.plan.yuvOffsetIn.toNat,
        (c.sample 1 x y : Int) - 2 ^ (c.plan.src.inFmt.d - 1), (c.sample 2 x y : Int) - 2 ^ (c.plan.src.inFmt.d - 1)⟩ := by
  rw [Source.yuvToYuvSample, clipPixel_eq, if_neg luma, Source.yuvAt_eq, Nat.mul_div_cancel _ (Nat.two_pow_pos _),
    Nat.mul_div_cancel _ (Nat.two_pow_pos _), Plan.offsetOut_chroma _ luma]
  rfl

theorem State.SliceDefined.read_yuv2yuv {s t : State} (hinv : s.Inv) (h : s.SliceDefined) (int : s.plan.pipe = .int)
    (ht : exec .convertSlice s = .next t) (path : s.plan.path = .yuv2yuv) {p : Fin 4} (colour : p ≠ 3) {x y : Nat}
    (hxy : (x, y) ∈ s.plan.src.outFmt.samples s.plan.src.frameW.toNat s.operands.h1 s.operands.h2 p) :
    (t.mem.read ((s.operands.outPlanes.get p).addr s.plan.src.outFmt.bps x y) s.plan.src.outFmt.bps : Int)
      = s.source.yuvToYuvSample p x y := by
  have sound := hinv.plan_sound h.planned
  have plain : s.plan.ditherNow = false := Plan.ditherNow_of_path (by rw [path]; decide)
  rw [h.read_sample hinv ht plain (PixFmt.mem_planes_colour colour) hxy, path]
  simp only [Source.outSample, if_neg colour]
  exact PixFmt.stored_value sound.outFmt (sound.formats_of_int int).2 (clipPixel_range _ _)

/-- Settles O47: each sample is the kernel at its pixel, the top-left pixel of its block for chroma; the subsampling is the same on
both sides (R212) and the depths are 8, 10 or 12 (R97). -/
theorem composedKernelWritesEverySample : Obligations.ComposedKernelWritesEverySample := by
  unfold Obligations.ComposedKernelWritesEverySample
  rintro s t f g r hinv h int fast pt rfl rfl rfl ht
  have sound := hinv.plan_sound h.planned
  obtain ⟨yuvIn, yuvOut⟩ := sound.formats_of_int int
  obtain ⟨sameW, sameH⟩ := sound.fast fast
  have sameCw : s.plan.src.inFmt.cw = s.plan.src.outFmt.cw := congrArg BitVec.toNat sameW
  have sameCh : s.plan.src.inFmt.ch = s.plan.src.outFmt.ch := congrArg BitVec.toNat sameH
  have depthIn := PixFmt.depth_of_yuv sound.inFmt yuvIn
  have depthOut := PixFmt.depth_of_yuv sound.outFmt yuvOut
  have path := Plan.path_yuv2yuv int fast pt
  refine ⟨sameW, sameH, by omega, by omega, ?luma, ?chroma⟩
  case luma =>
    rintro x y _ _ _ hx low high rfl rfl rfl
    have stored := h.read_yuv2yuv hinv int ht path (p := 0) (by decide)
      ((PixFmt.mem_samples_full (PixFmt.not_chroma_luma _)).2 ⟨hx, low, high⟩)
    rw [Source.yuvToYuvSample_luma, Source.yuvAt_eq] at stored
    exact stored
  case chroma =>
    rintro x y _ _ _ hx low high rfl rfl rfl
    rw [sameCw] at hx
    rw [sameCh] at low high
    have stored {p : Fin 4} (chroma : p = 1 ∨ p = 2) := (h.read_yuv2yuv hinv int ht path (p := p) (by omega)
      ((PixFmt.mem_samples_chroma (PixFmt.isChroma_iff.2 ⟨yuvOut, chroma⟩)).2 ⟨hx, low, high⟩)).trans
        (s.source.yuvToYuvSample_chroma (by omega) x y)
    exact ⟨stored (p := 1) (.inl rfl), stored (p := 2) (.inr rfl)⟩

end Sys2Proof.Machine
end

section
/-! SUPPORT. O48: the full integer pipeline, from the components of one pixel to the samples and the dithered planes that a slice stores
(46_convert_integer.md R241 to R251). -/

namespace Sys2Proof.Machine

/-! ### The components of one pixel (R242 to R245) -/

theorem rowDot_get (row : V3 Half) (v : V3 Int) :
    rowDot row v = (row.get 0).toInt * v.get 0 + (row.get 1).toInt * v.get 1 + (row.get 2).toInt * v.get 2 := rfl

theorem get_yuvToRgb (t : M3 Half) (d : Nat) (v : V3 Int) (n : Nat) :
    (yuvToRgb t d v).get n = max (-32768) (min 32767 ((rowDot (t.get n) v + 2 ^ (d - 2)) / 2 ^ (d - 1))) := by
  rw [yuvToRgb, V3.get_map, clipInt16_eq, asr]

theorem get_mapPrimaries (t : M3 Half) (v : V3 Int) (n : Nat) :
    (mapPrimaries t v).get n = max (-32768) (min 32767 ((rowDot (t.get n) v + 8192) / 2 ^ 14)) := by
  rw [mapPrimaries, V3.get_map, clipInt16_eq, asr]

/-- Without the passthrough: linearise, map unless the primaries are equal, delinearise. -/
theorem Plan.get_shapeInt (p : Plan) (v : V3 Int) (n : Nat) :
    (p.shapeInt v).get n = if p.flags.rgb2rgbPt = true then v.get n else
      lutLookup p.delinLut (if p.flags.lrgb2lrgbPt = true then lutLookup p.linLut (v.get n)
        else (mapPrimaries p.lrgb2lrgb (v.map (lutLookup p.linLut))).get n) := by
  unfold Plan.shapeInt
  by_cases pt : p.flags.rgb2rgbPt = true
  · rw [if_pos pt, if_pos pt]
  · rw [if_neg pt, if_neg pt]
    dsimp only
    rw [V3.get_map]
    by_cases same : p.flags.lrgb2lrgbPt = true
    · rw [if_pos same, if_pos same, V3.get_map]
    · rw [if_neg same, if_neg same]

/-! ### Chroma (R247) -/

theorem get_addV (u v : V3 Int) (n : Nat) : (addV u v).get n = u.get n + v.get n := by
  match n with
  | 0 => rfl
  | 1 => rfl
  | _ + 2 => rfl

/-- 4:4:4 takes the pixel itself in either mode; otherwise NEAREST takes the first pixel of the block, AVERAGE the mean of its pixels. -/
theorem Source.get_chromaSrc (c : Source) (mode : ChromaDown) (subsampling : c.plan.src.outFmt.ch ≤ c.plan.src.outFmt.cw)
    (x y n : Nat) :
    (c.chromaSrc mode x y).get n =
      if c.plan.src.outFmt.cw = 0 then (c.rgbAt x y).get n
      else if mode = .nearest then (c.rgbAt (x * 2 ^ c.plan.src.outFmt.cw) (y * 2 ^ c.plan.src.outFmt.ch)).get n
      else if c.plan.src.outFmt.ch = 0 then ((c.rgbAt (2 * x) y).get n + (c.rgbAt (2 * x + 1) y).get n + 1) / 2
      else ((c.rgbAt (2 * x) (2 * y)).get n + (c.rgbAt (2 * x + 1) (2 * y)).get n + (c.rgbAt (2 * x) (2 * y + 1)).get n
        + (c.rgbAt (2 * x + 1) (2 * y + 1)).get n + 2) / 4 := by
  unfold Source.chromaSrc
  cases mode with
  | nearest =>
    rw [if_pos rfl]
    split_ifs with full
    · rw [full] at subsampling
      dsimp only
      rw [full, Nat.le_zero.1 subsampling, pow_zero, Nat.mul_one, Nat.mul_one]
    · rfl
  | average =>
    rw [if_neg (by decide : ¬ChromaDown.average = .nearest)]
    dsimp only
    split_ifs with full rows
    · rfl
    · rw [V3.get_map, get_addV, asr]
      rfl
    · rw [V3.get_map, get_addV, get_addV, get_addV, asr, ← add_assoc]
      rfl

/-! ### The planes of a YUV format (R74, R80) -/

section
variable {f : PixFmt} (yuv : f.rgb = false) {p : Fin 4} (colour : p ≠ 3)
include yuv colour

theorem PixFmt.isChroma_colour : f.isChroma p = true ↔ p ≠ 0 := by
  rw [PixFmt.isChroma_iff]
  exact ⟨fun ⟨_, e⟩ => by omega, fun luma => ⟨yuv, by omega⟩⟩

theorem PixFmt.planeWidth_colour (w : Nat) : f.planeWidth p w = if p = 0 then w else w / 2 ^ f.cw := by
  rw [PixFmt.planeWidth, if_congr (PixFmt.isChroma_colour yuv colour) rfl rfl, ite_not]

theorem PixFmt.planeRow_colour (y : Nat) : f.planeRow p y = if p = 0 then y else y / 2 ^ f.ch := by
  rw [PixFmt.planeRow, if_congr (PixFmt.isChroma_colour yuv colour) rfl rfl, ite_not]

end

/-! ### What a slice stores (R246, R248, R250) -/

/-- R225: without the fast mode, the integer pipe runs in full. -/
theorem Plan.Sound.path_intFull {p : Plan} (h : p.Sound) (int : p.pipe = .int) (slow : p.flags.yuv2yuvFast = false) :
    p.path = .intFull := by
  have pt : p.flags.yuv2yuvPt = false := Bool.eq_false_iff.2 fun pt => by
    rw [(h.passthrough pt).1] at slow
    cases slow
  rw [Plan.path, int]
  simp only [slow, pt, Bool.false_eq_true, if_false]

theorem Source.rgbToYuvSample_eq (c : Source) (mode : ChromaDown) (p : Fin 4) (x y : Nat) :
    c.rgbToYuvSample mode p x y = max 0 (min (2 ^ c.plan.src.outFmt.d - 1) (c.plan.offsetOut p
      + (rowDot (c.plan.rgb2yuv.get p) (c.outSrc mode p x y) + 2 ^ (28 - c.plan.src.outFmt.d)) / 2 ^ (29 - c.plan.src.outFmt.d))) := by
  rw [Source.rgbToYuvSample, clipPixel_eq, Plan.shiftOut, Nat.sub_right_comm, asr]

section
variable {s t : State} (hinv : s.Inv) (h : s.SliceDefined) (int : s.plan.pipe = .int) (path : s.plan.path = .intFull)
  (ht : exec .convertSlice s = .next t) {p : Fin 4} (colour : p ≠ 3)
include hinv h int path ht colour

theorem State.SliceDefined.read_intFull (plain : s.plan.flags.dither = false) {x y : Nat}
    (hxy : (x, y) ∈ s.plan.src.outFmt.samples s.plan.src.frameW.toNat s.operands.h1 s.operands.h2 p) :
    (t.mem.read ((s.operands.outPlanes.get p).addr s.plan.src.outFmt.bps x y) s.plan.src.outFmt.bps : Int)
      = s.source.rgbToYuvSample s.params.chromaDown p x y := by
  have sound := hinv.plan_sound h.planned
  have noDither : s.plan.ditherNow = false := by rw [Plan.ditherNow, plain, Bool.false_and]
  rw [h.read_sample hinv ht noDither (PixFmt.mem_planes_colour colour) hxy, path]
  simp only [Source.outSample, if_neg colour]
  exact PixFmt.stored_value sound.outFmt (sound.formats_of_int int).2 (clipPixel_range _ _)

/-- With dither a plane is stored row by row as `fsbPlane` gives it. -/
theorem State.SliceDefined.read_dithered (dither : s.plan.flags.dither = true) :
    (s.plan.src.outFmt.samples s.plan.src.frameW.toNat s.operands.h1 s.operands.h2 p).map (fun xy =>
        (t.mem.read ((s.operands.outPlanes.get p).addr s.plan.src.outFmt.bps xy.1 xy.2) s.plan.src.outFmt.bps : Int))
      = s.source.fsbPlane s.params.chromaDown s.operands.h1 s.operands.h2 p := by
  have sound := hinv.plan_sound h.planned
  have now : s.source.plan.ditherNow = true := by
    rw [show s.source.plan = s.plan from rfl, Plan.ditherNow, dither, path]
    rfl
  have stored := congrArg (List.map ((↑) : Nat → Int))
    (convertSliceStoresEverySample s t hinv h ht p (PixFmt.mem_planes_colour colour))
  rw [Source.planeValues, if_pos now, List.map_map, List.map_map, List.map_map] at stored
  refine stored.trans ((List.map_congr_left fun v hv => ?_).trans (List.map_id _))
  exact PixFmt.stored_value sound.outFmt (sound.formats_of_int int).2 (Source.fsbPlane_range hv)

end

/-- Settles O48: the functions that the statement defines are the components of `Source.yuvAt`, `Source.rgbAt` and `Source.chromaSrc`;
the samples are `Source.rgbToYuvSample` of them, the dithered planes `Source.fsbPlane`. -/
theorem fullIntegerPipelineWritesEverySample : Obligations.FullIntegerPipelineWritesEverySample := by
  unfold Obligations.FullIntegerPipelineWritesEverySample
  rintro s t f g r yuv px lin mapped rgb chroma look sum off hinv h int slow rfl rfl rfl ht hyuv hpx hlook hlin hmapped hrgb hchroma
    hsum hoff p w a b colour hw ha hb
  have sound := hinv.plan_sound h.planned
  have yuvOut := (sound.formats_of_int int).2
  have path := sound.path_intFull int slow
  obtain rfl : look = lutLookup := funext fun table => funext fun v => by
    rw [hlook, lutLookup_eq, lutIndexOf_eq]
  have pixel (n x y : Nat) : px n x y = (yuvToRgb s.plan.yuv2rgb s.plan.src.inFmt.d (s.source.yuvAt x y)).get n := by
    obtain ⟨luma, cb, cr⟩ := hyuv x y
    rw [hpx, luma, cb, cr, get_yuvToRgb, rowDot_get, Source.yuvAt_eq]
    rfl
  have shaped (n x y : Nat) : rgb n x y = (s.source.rgbAt x y).get n := by
    rw [Source.rgbAt, Plan.get_shapeInt, get_mapPrimaries, rowDot_get, V3.get_map, V3.get_map, V3.get_map, hrgb, hmapped]
    simp only [hlin, pixel]
    rfl
  have block (n x y : Nat) : chroma n x y = (s.source.chromaSrc s.params.chromaDown x y).get n := by
    rw [hchroma, Source.get_chromaSrc _ _ (PixFmt.subsampling_of_yuv sound.outFmt yuvOut).2]
    simp only [shaped]
    rfl
  have total (x y : Nat) : sum p x y = rowDot (s.plan.rgb2yuv.get p) (s.source.outSrc s.params.chromaDown p x y) := by
    rw [hsum, Source.outSrc]
    split_ifs with luma
    · rw [luma, shaped, shaped, shaped]
      rfl
    · rw [block, block, block]
      rfl
  have offset : off p = s.plan.offsetOut p := by
    rw [hoff, Plan.offsetOut, natCast_cbias]
  obtain rfl : s.plan.src.outFmt.planeWidth p s.plan.src.frameW.toNat = w := (PixFmt.planeWidth_colour yuvOut colour _).trans hw.symm
  obtain rfl : s.plan.src.outFmt.planeRow p s.operands.h1 = a := (PixFmt.planeRow_colour yuvOut colour _).trans ha.symm
  obtain rfl : s.plan.src.outFmt.planeRow p s.operands.h2 = b := (PixFmt.planeRow_colour yuvOut colour _).trans hb.symm
  constructor
  · intro plain x y hx low high
    rw [h.read_intFull hinv int path ht colour plain (PixFmt.mem_samples.2 ⟨hx, low, high⟩), Source.rgbToYuvSample_eq, offset, total]
    rfl
  · intro dither
    have stored := h.read_dithered hinv int path ht colour dither
    rw [PixFmt.samples, rowSamples, List.map_flatMap] at stored
    simp only [List.map_map] at stored
    rw [offset, show 28 - s.plan.src.outFmt.d = 29 - s.plan.src.outFmt.d - 1 by omega]
    simp only [total]
    exact stored

end Sys2Proof.Machine
end

section
/-! SUPPORT. O45, O49: what the float paths store. The alpha plane is copied; a colour sample is the half pipe's by the LUTs or the single
pipe's by the closed forms (47_convert_float.md R270 to R278). -/

namespace Sys2Proof.Machine

/-! ### The float pipes (R97, R213, R225) -/

section
variable {p : Plan} (h : p.Sound) (float : p.pipe ≠ .int)
include h float

/-- Both formats of a float plan are of the RGB family. -/
theorem Plan.Sound.formats_of_float : p.src.inFmt.rgb = true ∧ p.src.outFmt.rgb = true :=
  have rgb : p.src.inFmt.rgb = true := eq_true_of_ne_false fun yuv => float (h.pipe.2 yuv)
  ⟨rgb, h.family ▸ rgb⟩

/-- A float path reads samples of the size that it writes. -/
theorem Plan.Sound.bps_of_float : p.src.inFmt.bps = p.src.outFmt.bps := by
  rw [PixFmt.bps_eq, PixFmt.bps_eq, (h.rgb (h.formats_of_float float).1).1]

end

/-- R250: only the full integer pipeline dithers. -/
theorem Plan.ditherNow_of_float {p : Plan} (float : p.pipe ≠ .int) : p.ditherNow = false :=
  Plan.ditherNow_of_path fun full => float (p.path_cases.2.1 full)

/-- R213: the pipe of a valid plan is that of its input format. -/
theorem State.Inv.plan_pipe {s : State} (h : s.Inv) (hv : s.planValid = true) : s.plan.pipe = s.plan.src.inFmt.pipe := by
  obtain ⟨src, -, pipe, -⟩ := h.plan_built hv
  rw [src]
  exact pipe

theorem PixFmt.bps_of_half {f : PixFmt} (half : f.pipe = .half) : f.bps = 2 := by
  unfold PixFmt.pipe at half
  split_ifs at half with rgb depth
  rw [PixFmt.bps, depth]
  rfl

theorem PixFmt.bps_of_f32 {f : PixFmt} (h : f.check = .ok ()) (single : f.pipe = .f32) : f.bps = 4 := by
  unfold PixFmt.pipe at single
  split_ifs at single with rgb other
  rcases PixFmt.check_cases h with ⟨-, -, depth, -⟩ | ⟨yuv, -⟩
  · rw [PixFmt.bps, depth.resolve_left other]
    rfl
  · rw [rgb] at yuv
    cases yuv

/-- A pattern as wide as its container is stored as it is. -/
theorem toNat_mod_container {n k : Nat} (width : 256 ^ k = 2 ^ n) (w : BitVec n) : w.toNat % 256 ^ k = w.toNat :=
  Nat.mod_eq_of_lt (width ▸ w.isLt)

/-! ### What a slice stores -/

section
variable {s t : State} (hinv : s.Inv) (h : s.SliceDefined) (float : s.plan.pipe ≠ .int) (ht : exec .convertSlice s = .next t)
  {p : Fin 4} {x y : Nat}
include hinv h float

/-- The input sample at a pixel, read with the size of an output sample. -/
theorem State.SliceDefined.sample_float : s.source.sample p x y
    = s.mem.read ((s.operands.inPlanes.get p).addr s.plan.src.outFmt.bps x y) s.plan.src.outFmt.bps := by
  rw [← (hinv.plan_sound h.planned).bps_of_float float]
  rfl

include ht

/-- On a float path every plane of the format has the frame's columns and rows, and each sample is stored as its path gives it. -/
theorem State.SliceDefined.read_float (hp : p ∈ s.plan.src.outFmt.planes) (hx : x < s.plan.src.frameW.toNat)
    (low : s.operands.sliceH1.toNat ≤ y) (high : y < s.operands.sliceH2.toNat) :
    t.mem.read ((s.operands.outPlanes.get p).addr s.plan.src.outFmt.bps x y) s.plan.src.outFmt.bps
      = s.source.outSample s.params s.draws s.plan.path p x y % 256 ^ s.plan.src.outFmt.bps :=
  have rgb := ((hinv.plan_sound h.planned).formats_of_float float).2
  h.read_sample hinv ht (Plan.ditherNow_of_float float) hp
    ((PixFmt.mem_samples_full (PixFmt.not_chroma_of_rgb rgb p)).2 ⟨hx, low, high⟩)

end

/-! ### Alpha (R278) -/

theorem Source.outSample_alpha (c : Source) (pr : Params) (draw : Nat) (path : Path) (x y : Nat) :
    c.outSample pr draw path 3 x y = c.sample 3 x y := if_pos rfl

/-- Settles O45: on every path the value of an alpha sample is the input sample, which is no wider than its container. -/
theorem alphaIsCopied : Obligations.AlphaIsCopied := by
  unfold Obligations.AlphaIsCopied
  intro s t hinv h float alpha ht x y hx low high
  rw [h.read_float hinv float ht (PixFmt.mem_planes.2 fun _ => alpha) hx low high, Source.outSample_alpha,
    h.sample_float hinv float]
  exact Nat.mod_eq_of_lt (Memory.read_lt _ _ _)

/-! ### The colour planes of the half pipe (R272 to R275) -/

/-- R225: without the passthrough, delinearise alone needs a linear input and equal primaries. -/
theorem Plan.path_half {p : Plan} (half : p.pipe = .half) (pt : p.flags.rgb2rgbPt = false) :
    p.path = if p.flags.inLinear = true ∧ p.flags.lrgb2lrgbPt = true then .halfDelin else .halfFull := by
  rw [Plan.path, half]
  simp only [pt, Bool.false_eq_true, if_false, Bool.and_eq_true]

theorem Plan.path_single {p : Plan} (single : p.pipe = .f32) (pt : p.flags.rgb2rgbPt = false) :
    p.path = if p.flags.inLinear = true ∧ p.flags.lrgb2lrgbPt = true then .f32Delin else .f32Full := by
  rw [Plan.path, single]
  simp only [pt, Bool.false_eq_true, if_false, Bool.and_eq_true]

/-- The linear pattern: the table's entry, or the map in binary32 of the three components (R, G, B) in planes 2, 0, 1. -/
theorem Source.halfMapped_eq (c : Source) (mode : Rounding) (draw : Nat) (p : Fin 4) (x y : Nat) :
    c.halfMapped mode draw p x y = if c.plan.flags.lrgb2lrgbPt = true then lutEntry c.plan.linLut (c.sample p x y)
      else Fl.to16 mode (Config.nanDraw draw (pixelSite p x y 0))
        (Fl.dot b32 ((c.plan.lrgb2lrgbf.get (componentOf p)).map Fl.of32)
          ⟨Fl.of16 (lutEntry c.plan.linLut (c.sample 2 x y)), Fl.of16 (lutEntry c.plan.linLut (c.sample 0 x y)),
            Fl.of16 (lutEntry c.plan.linLut (c.sample 1 x y))⟩) := rfl

section
variable {c : Source} {p : Fin 4} (colour : p ≠ 3) (pt : c.plan.flags.rgb2rgbPt = false) (pr : Params) (draw x y : Nat)
include colour pt

/-- A colour sample of the half pipe is a delinearised pattern: the sample's own on the delinearise-only path, the mapped one on the
full path. -/
theorem Source.outSample_half (half : c.plan.pipe = .half) :
    c.outSample pr draw c.plan.path p x y = (lutEntry c.plan.delinLut
      (if c.plan.flags.inLinear = true ∧ c.plan.flags.lrgb2lrgbPt = true then c.sample p x y
        else (c.halfMapped pr.f2h draw p x y).toNat)).toNat := by
  rw [Plan.path_half half pt]
  split_ifs
  · exact (if_neg colour).trans (c.halfDelinSample_eq p x y)
  · exact (if_neg colour).trans (c.halfFullSample_eq p x y pr.f2h draw)

/-! ### The colour planes of the single pipe (R276, R277) -/

/-- A colour sample of the single pipe is D_out of the sample's own value on the delinearise-only path, of the mapped value on the full
path. -/
theorem Source.outSample_f32 (single : c.plan.pipe = .f32) :
    c.outSample pr draw c.plan.path p x y = c.f32Out draw p x y
      (if c.plan.flags.inLinear = true ∧ c.plan.flags.lrgb2lrgbPt = true then c.f32At p x y else c.f32Mapped draw p x y) := by
  rw [Plan.path_single single pt]
  split_ifs
  · exact if_neg colour
  · exact if_neg colour

end

section
variable (c : Source) (draw : Nat) (p : Fin 4) (x y : Nat)

theorem Source.f32At_eq : c.f32At p x y = Fl.of32 (BitVec.ofNat 32 (c.sample p x y)) := by
  rw [Fl.of32, BitVec.toNat_ofNat]
  exact (Fl.ofBits_mod 22 7 _).symm

/-- The linear value: a NaN of a NaN sample (log 17), else L_in rounded to binary32. -/
theorem Source.f32Lin_eq : c.f32Lin draw p x y = if (c.f32At p x y).isNaN = true then .nan
    else Fl.fl32 (linearise (Config.nanDraw draw (pixelSite p x y 1)) c.plan.src.inBlk.transfer (c.f32At p x y)) := by
  rw [Source.f32Lin, linFloat]
  split_ifs
  · rfl
  · rfl

/-- The three components (R, G, B) of the map are those of planes 2, 0, 1. -/
theorem Source.f32Mapped_eq : c.f32Mapped draw p x y = if c.plan.flags.lrgb2lrgbPt = true then c.f32Lin draw p x y
    else Fl.dot b32 ((c.plan.lrgb2lrgbf.get (componentOf p)).map Fl.of32)
      ⟨c.f32Lin draw 2 x y, c.f32Lin draw 0 x y, c.f32Lin draw 1 x y⟩ := rfl

end

/-! ### The statement -/

section
variable {s t : State} (hinv : s.Inv) (h : s.SliceDefined) (pt : s.plan.flags.rgb2rgbPt = false) (ht : exec .convertSlice s = .next t)
  {p : Fin 4} {x y : Nat} (colour : p ≠ 3) (hx : x < s.plan.src.frameW.toNat) (low : s.operands.sliceH1.toNat ≤ y)
  (high : y < s.operands.sliceH2.toNat)
include hinv h pt ht colour hx low high

/-- A colour sample of the half pipe: a pattern of 16 bits in a container of two bytes. -/
theorem State.SliceDefined.read_half (half : s.plan.pipe = .half) :
    t.mem.read ((s.operands.outPlanes.get p).addr s.plan.src.outFmt.bps x y) s.plan.src.outFmt.bps
      = (lutEntry s.plan.delinLut
        (if s.plan.flags.inLinear = true ∧ s.plan.flags.lrgb2lrgbPt = true then s.source.sample p x y
          else (s.source.halfMapped s.params.f2h s.draws p x y).toNat)).toNat := by
  have float : s.plan.pipe ≠ .int := by rw [half]; decide
  have size : s.plan.src.outFmt.bps = 2 := ((hinv.plan_sound h.planned).bps_of_float float).symm.trans
    (PixFmt.bps_of_half ((hinv.plan_pipe h.planned).symm.trans half))
  have value : s.source.outSample s.params s.draws s.plan.path p x y = _ :=
    Source.outSample_half colour pt s.params s.draws x y half
  rw [h.read_float hinv float ht (PixFmt.mem_planes_colour colour) hx low high, value, size, toNat_mod_container (by decide)]
  rfl

/-- A colour sample of the single pipe: a pattern of 32 bits in a container of four bytes. -/
theorem State.SliceDefined.read_f32 (single : s.plan.pipe = .f32) :
    t.mem.read ((s.operands.outPlanes.get p).addr s.plan.src.outFmt.bps x y) s.plan.src.outFmt.bps
      = s.source.f32Out s.draws p x y
        (if s.plan.flags.inLinear = true ∧ s.plan.flags.lrgb2lrgbPt = true then s.source.f32At p x y
          else s.source.f32Mapped s.draws p x y) := by
  have sound := hinv.plan_sound h.planned
  have float : s.plan.pipe ≠ .int := by rw [single]; decide
  have size : s.plan.src.outFmt.bps = 4 := (sound.bps_of_float float).symm.trans
    (PixFmt.bps_of_f32 sound.inFmt ((hinv.plan_pipe h.planned).symm.trans single))
  have value : s.source.outSample s.params s.draws s.plan.path p x y = _ :=
    Source.outSample_f32 colour pt s.params s.draws x y single
  rw [h.read_float hinv float ht (PixFmt.mem_planes_colour colour) hx low high, value, size, Source.f32Out,
    toNat_mod_container (by decide)]
  rfl

end

/-- R270: planes 2, 0 and 1 are the colour planes, and hold components 0, 1 and 2. -/
theorem componentOf_colour {p : Fin 4} {i : Nat} (h : (p = 2 ∧ i = 0) ∨ (p = 0 ∧ i = 1) ∨ (p = 1 ∧ i = 2)) :
    p ≠ 3 ∧ componentOf p = i := by
  rcases h with ⟨rfl, rfl⟩ | ⟨rfl, rfl⟩ | ⟨rfl, rfl⟩
  · exact ⟨by decide, rfl⟩
  · exact ⟨by decide, rfl⟩
  · exact ⟨by decide, rfl⟩

/-- Settles O49: `mul32` is `Fl.dot` in binary32 and `into` the source's samples, so the stored samples are those of
`State.SliceDefined.read_half` and `State.SliceDefined.read_f32`; the free values are the model's own draws at the pixel. -/
theorem floatPathsWriteEverySample : Obligations.FloatPathsWriteEverySample := by
  unfold Obligations.FloatPathsWriteEverySample
  rintro s t f r mul32 into hinv h pt rfl rfl ht hmul hinto p i x y place hx low high
  obtain ⟨colour, rfl⟩ := componentOf_colour place
  have samples (float : s.plan.pipe ≠ .int) (k : Fin 4) : into k x y = s.source.sample k x y := by
    rw [hinto, h.sample_float hinv float]
  obtain rfl : mul32 = fun row u => Fl.dot b32 (row.map Fl.of32) u := funext fun row => funext (hmul row)
  constructor
  · intro half
    refine ⟨Config.nanDraw s.draws (pixelSite p x y 0), ?_⟩
    rw [h.read_half hinv pt ht colour hx low high half, Source.halfMapped_eq, apply_ite BitVec.toNat]
    simp only [samples (by rw [half]; decide)]
    rfl
  · intro single
    refine ⟨fun k => Config.nanDraw s.draws (pixelSite k x y 1), Config.nanDraw s.draws (pixelSite p x y 2), ?_⟩
    rintro lin _ hlin rfl
    have value (k : Fin 4) : Fl.of32 (BitVec.ofNat 32 (into k x y)) = s.source.f32At k x y := by
      rw [samples (by rw [single]; decide), Source.f32At_eq]
    have linear (k : Fin 4) : lin k = s.source.f32Lin s.draws k x y := by
      rw [hlin, value, Source.f32Lin_eq]
      rfl
    rw [h.read_f32 hinv pt ht colour hx low high single, Source.f32Out, Source.f32Mapped_eq, value]
    simp only [linear]
    rfl

end Sys2Proof.Machine
end

section
/-! SUPPORT. O11: the STATUS word as its fields (10_state.md R25, 60_exceptions.md R300, R310). -/

namespace Sys2Proof.Machine

/-- An error code fits the low half of its field ERRCODE, eight bits wide (R25, R300). -/
theorem ErrCode.code_lt (c : ErrCode) : c.code < 16 := by cases c <;> decide

/-- The bits of STATUS from 0 to 5, its reserved fields and ERRCODE. -/
theorem State.status_fields (s : State) :
    (s.status.toNat / 2 ^ 0 % 2 = bit s.isBusy ∧ s.status.toNat / 2 ^ 1 % 2 = bit s.done ∧ s.status.toNat / 2 ^ 2 % 2 = bit s.err
      ∧ s.status.toNat / 2 ^ 3 % 2 = bit s.warn ∧ s.status.toNat / 2 ^ 4 % 2 = bit s.planValid
      ∧ s.status.toNat / 2 ^ 5 % 2 = bit s.irq)
    ∧ s.status.toNat / 2 ^ 6 % 2 ^ 2 = 0 ∧ s.status.toNat / 2 ^ 8 % 2 ^ 8 = s.errcode.code ∧ s.status.toNat / 2 ^ 16 = 0 := by
  have busy := bit_le_one s.isBusy
  have done := bit_le_one s.done
  have err := bit_le_one s.err
  have warn := bit_le_one s.warn
  have valid := bit_le_one s.planValid
  have irq := bit_le_one s.irq
  have code := s.errcode.code_lt
  rw [State.status, BitVec.toNat_ofNat]
  omega

/-- Settles O11: at 0x00C stands STATUS, whose fields are `State.status_fields`; bit 5 is `State.irq`. -/
theorem statusWordAndInterruptLine : Obligations.StatusWordAndInterruptLine := by
  unfold Obligations.StatusWordAndInterruptLine
  refine ⟨?codes, fun s => ?word⟩
  case codes => decide
  case word =>
    rw [show s.readReg (Reg.ofOffset 0x00C) = s.status from rfl]
    obtain ⟨⟨busy, done, err, warn, valid, irq⟩, low, code, high⟩ := s.status_fields
    exact ⟨getLsbD_eq_of_bit busy, getLsbD_eq_of_bit done, getLsbD_eq_of_bit err, getLsbD_eq_of_bit warn, getLsbD_eq_of_bit valid,
      getLsbD_eq_of_bit irq, extractLsb_eq_of_field low,
      by rw [BitVec.extractLsb_toNat, Nat.shiftRight_eq_div_pow, code],
      extractLsb_eq_of_field (by rw [high]; rfl)⟩

end Sys2Proof.Machine
end

section
/-! SUPPORT. O7, O55: how a command completes: always, idle and with DONE set, and with the ERR and ERRCODE it found or a code of its
own, which is never the code of a Busy report (60_exceptions.md R300, R305, R306, R319). -/

namespace Sys2Proof.Machine

/-! ### Completion (R200, R319) -/

/-- Every command completes, but a CONVERT_SLICE on memory with side effects. -/
theorem exec_completes {i : Instr} {s : State}
    (ordinary : i = .convertSlice → s.plan.touchesSideEffects s.params s.operands = false) : ∃ t, exec i s = .next t := by
  cases i with
  | nop => exact ⟨_, rfl⟩
  | plan => rcases execPlan_cases s with ⟨c, -, e⟩ | ⟨p, -, e⟩ <;> exact ⟨_, e⟩
  | convertSlice =>
    rcases execConvertSlice_cases s with ⟨-, e⟩ | ⟨-, -, e⟩ | ⟨-, -, -, e⟩ | ⟨-, -, -, device, -⟩ | ⟨-, -, -, -, e⟩
    case inr.inr.inr.inl =>
      rw [ordinary rfl] at device
      cases device
    all_goals exact ⟨_, e⟩
  | invalidate => exact ⟨_, rfl⟩
  | tfEvalD side => exact ⟨_, rfl⟩
  | tfEvalL side => exact ⟨_, rfl⟩

/-- A command that completes sets DONE (R305). -/
theorem exec_done {i : Instr} {s t : State} (h : exec i s = .next t) : t.done = true := by
  rcases exec_next_cases h with
    (rfl | ⟨c, rfl⟩) | ⟨-, ⟨c, rfl⟩ | ⟨p, rfl⟩⟩ | ⟨-, rfl⟩ | ⟨-, rfl⟩ | ⟨-, v, rfl⟩ <;> rfl

/-- Settles O55: a command completes (`exec_completes`), and what completes is idle (`exec_idle`) with DONE set (`exec_done`). -/
theorem everyCommandCompletes : Obligations.EveryCommandCompletes := by
  unfold Obligations.EveryCommandCompletes
  intro i s ordinary
  obtain ⟨t, ht⟩ := exec_completes ordinary
  exact ⟨t, ht, State.seq_idle_of_not_busy (exec_idle ht).1, exec_done ht⟩

/-! ### The codes that commands raise (R300) -/

/-- The codes that the meaning of a command raises: not that of an illegal word (R93), nor that of a refused CMD write (R306). -/
def ErrCode.ofCommand : ErrCode → Bool
  | .none | .illegalCommand | .busy => false
  | _ => true

theorem ErrCode.ne_of_ofCommand {c : ErrCode} (h : c.ofCommand = true) : c ≠ .none ∧ c ≠ .busy := by
  constructor <;> rintro rfl <;> cases h

/-- A computation that fails, if it does, with a code of a command. -/
def RaisesOfCommand {α : Type} (x : Except ErrCode α) : Prop := ∀ c, x = .error c → c.ofCommand = true

namespace RaisesOfCommand
variable {α β : Type}

theorem ok (a : α) : RaisesOfCommand (.ok a) := nofun

theorem error {c : ErrCode} (h : c.ofCommand = true) : RaisesOfCommand (.error c : Except ErrCode α) := by
  rintro _ ⟨⟩
  exact h

theorem raiseIf {c : ErrCode} (bad : Bool) (h : c.ofCommand = true) : RaisesOfCommand (raiseIf bad c) := fun _ e =>
  (raiseIf_error.1 e).2 ▸ h

theorem bind {x : Except ErrCode α} {f : α → Except ErrCode β} (hx : RaisesOfCommand x) (hf : ∀ a, RaisesOfCommand (f a)) :
    RaisesOfCommand (x >>= f) := fun c e =>
  (except_bind_error.1 e).elim (hx c) fun ⟨a, _, ha⟩ => hf a c ha

end RaisesOfCommand

theorem PixFmt.check_raises (f : PixFmt) : RaisesOfCommand f.check := by
  unfold PixFmt.check
  split_ifs
  exacts [.error rfl, .error rfl, .raiseIf _ rfl, .error rfl, .error rfl, .raiseIf _ rfl]

namespace PlanInputs
variable (p : PlanInputs)

theorem checkFront_raises : RaisesOfCommand p.checkFront := by
  have formats : RaisesOfCommand p.checkFormats :=
    .bind p.inFmt.check_raises fun _ => .bind p.outFmt.check_raises fun _ =>
      .bind (.raiseIf _ rfl) fun _ => .bind (.raiseIf _ rfl) fun _ => .raiseIf _ rfl
  have tags : RaisesOfCommand p.checkTags :=
    .bind (.raiseIf _ rfl) fun _ => .bind (.raiseIf _ rfl) fun _ => .raiseIf _ rfl
  exact .bind formats fun _ => .bind (.raiseIf _ rfl) fun _ => .bind tags fun _ => .raiseIf _ rfl

theorem stepPrimaries_raises : RaisesOfCommand p.stepPrimaries := by
  unfold stepPrimaries
  split
  · split
    · exact .error rfl
    · exact .ok _
  · exact .ok _

theorem stepMatrix_raises : RaisesOfCommand p.stepMatrix := by
  unfold stepMatrix
  split
  · exact .ok _
  · split
    · exact .error rfl
    · exact .ok _

theorem stepLuts_raises (mode : Rounding) (draw : Nat) : RaisesOfCommand (p.stepLuts mode draw) := by
  unfold stepLuts
  split
  · exact .ok _
  · split
    · exact .error rfl
    · exact .ok _
  · exact .ok _

/-- The phases of PLAN, in the order of R202. -/
theorem buildPlan_raises (pr : Params) (draw : Nat) : RaisesOfCommand (p.buildPlan pr draw) :=
  .bind p.checkFront_raises fun _ => .bind (.raiseIf _ rfl) fun _ => .bind p.stepPrimaries_raises fun _ =>
    .bind (.raiseIf _ rfl) fun _ => .bind p.stepMatrix_raises fun _ => .bind (p.stepLuts_raises _ _) fun _ =>
      .bind (.raiseIf _ rfl) fun _ => .ok _

end PlanInputs

/-! ### ERR and ERRCODE at completion (R305, R306) -/

/-- What a completion leaves in ERR and ERRCODE: what it found there, or a code of the command. -/
def State.ReportsFrom (s t : State) : Prop :=
  (t.err = s.err ∧ t.errcode = s.errcode) ∨ (t.err = true ∧ t.errcode.ofCommand = true)

theorem State.finishTf_reports (s : State) (r : Option Fl) : s.ReportsFrom (s.finishTf r) := by
  rcases s.finishTf_cases r with ⟨-, e⟩ | ⟨v, -, e⟩ <;> rw [e]
  · exact .inr ⟨rfl, rfl⟩
  · exact .inl ⟨rfl, rfl⟩

theorem exec_reports {i : Instr} {s t : State} (h : exec i s = .next t) : s.ReportsFrom t := by
  cases i with
  | nop =>
    cases h
    exact .inl ⟨rfl, rfl⟩
  | plan =>
    rcases execPlan_cases s with ⟨c, failed, e⟩ | ⟨p, -, e⟩ <;> cases e.symm.trans h
    · exact .inr ⟨rfl, PlanInputs.buildPlan_raises _ _ _ c failed⟩
    · exact .inl ⟨s.warnRange_err _, s.warnRange_errcode _⟩
  | convertSlice =>
    rcases execConvertSlice_cases s with ⟨-, e⟩ | ⟨-, -, e⟩ | ⟨-, -, -, e⟩ | ⟨-, -, -, -, e⟩ | ⟨-, -, -, -, e⟩ <;>
      cases e.symm.trans h
    · exact .inr ⟨rfl, rfl⟩
    · exact .inr ⟨rfl, rfl⟩
    · exact .inl ⟨rfl, rfl⟩
    · exact .inl ⟨rfl, rfl⟩
  | invalidate =>
    cases h
    exact .inl ⟨rfl, rfl⟩
  | tfEvalD side =>
    cases h
    exact s.finishTf_reports _
  | tfEvalL side =>
    cases h
    exact s.finishTf_reports _

/-- Settles O7: the refusal of a CMD write while BUSY is among the register accesses of O8, and a completion is `exec_reports`. -/
theorem cmdWriteWhileBusyIsRefused : Obligations.CmdWriteWhileBusyIsRefused := by
  unfold Obligations.CmdWriteWhileBusyIsRefused
  obtain ⟨-, -, -, -, -, -, busyCmd, -⟩ := registerAccessRules
  refine ⟨fun s v w ops rest ha busy => busyCmd s v w ops rest busy ha, fun i s t h => ?completion⟩
  case completion => exact (exec_reports h).imp_right fun ⟨err, code⟩ => ⟨err, ErrCode.ne_of_ofCommand code⟩

end Sys2Proof.Machine
end

section
/-! SUPPORT. O57: the reset input: the registers it leaves, and the frame memory it keeps (70_reset_and_hazards.md R330). -/

namespace Sys2Proof.Machine

/-- The registers after the reset input are those of R55: plan storage takes any content (I-1), but PLAN_VALID is 0, so the three
registers that read from it show none of it. -/
theorem State.readReg_resetInput (s : State) (r : Reg) : s.resetInput.readReg r = State.reset.readReg r := by
  have hidden (planWord : Word) : (if s.resetInput.planValid then planWord else 0) = 0 := rfl
  cases r with
  | lutData => exact hidden (s.resetInput.plan.lutData s.resetInput.lutIndex.toNat)
  | planInfo => exact hidden s.resetInput.plan.info
  | coef k => exact hidden (s.resetInput.plan.coefWord k)
  | _ => rfl

/-- The write set of a running command lies in frame memory (R71). -/
theorem State.lt_of_mem_runningWriteSet {s : State} {a : Nat} (h : a ∈ s.runningSet Plan.writeSet) : a < memSize := by
  obtain ⟨ops, -, -, -, member⟩ := State.mem_runningSet.1 h
  exact lt_of_mem_sampleBytes member

/-- Only the write set of the abandoned command is lost (I-6). -/
theorem State.byte_resetInput {s : State} {a : Nat} (h : a ∉ s.runningSet Plan.writeSet) :
    s.resetInput.mem.byte a = s.mem.byte a := by
  refine Memory.byte_scramble_of_not_mem _ _ _ _ fun b hb e => h ?_
  rwa [e, Nat.mod_eq_of_lt (State.lt_of_mem_runningWriteSet hb)]

/-- Settles O57: the step is `State.resetInput`; a command that is no CONVERT_SLICE has no write set (`State.mem_runningSet`). -/
theorem resetInputAbandonsTheCommand : Obligations.ResetInputAbandonsTheCommand := by
  unfold Obligations.ResetInputAbandonsTheCommand
  intro s rest ha
  refine ⟨_, step_host ha nofun, rfl, rfl, rfl, rfl, State.readReg_resetInput _, fun a outside => ?kept⟩
  case kept =>
    refine State.byte_resetInput (s := { s with agenda := rest }) fun within => ?_
    obtain ⟨ops, running, -, -, member⟩ := State.mem_runningSet.1 within
    exact outside ops running member

end Sys2Proof.Machine
end
